-- ==== Sys2Proof/Word.lean ====
section
/-! DEFINITION. The word types of the model: bytes and 16-bit parameter words are bits; links and classes are numbers of a fixed range. -/

namespace Sys2Proof

/-- One byte of a cell, bits numbered 7 (most significant) to 0 (00_scope.md 4.7). -/
abbrev Byte := BitVec 8

/-- One 16-bit word of a parameter block (01, 1.6). -/
abbrev Word := BitVec 16

/-- A fabric link, and the egress port of the same number, 0-23 (00_scope.md 4.3). -/
abbrev Link := Fin 24

/-- A traffic class, C0 to C3 (00_scope.md 4.3). -/
abbrev Class := Fin 4

end Sys2Proof
end

