-- ==== Sys2Proof/Syntax.lean ====
section
/-! DEFINITION. The commands: one constructor of `Instr` per row of spec/opcode_table.json, and the cell that a receive slot brings. -/

namespace Sys2Proof

/-- A cell of 64 bytes as it crosses a link: header bytes 0 to 7 and payload bytes 0 to 55 (R1). -/
structure Cell where
  header  : Vector Byte 8
  payload : Vector Byte 56
deriving DecidableEq, Repr

/-- The commands of the element. The pin and slot rows carry what the outside brings; the request rows carry nothing,
because each is the execution of the request that stands at the head of the SRQ (R151). -/
inductive Instr where
  /-- RESET_ASSERT (R177). -/
  | resetAssert
  /-- RESET_RELEASE (R177): `straps` are the pins ID7-ID0 at the release. -/
  | resetRelease (straps : Byte)
  /-- RECEIVE_SLOT (R14, R34): a receive slot of `link` brings a cell or none. -/
  | receiveSlot (link : Link) (arrival : Option Cell)
  /-- ATTEMPT_TIMER_EXPIRY (R18). -/
  | attemptTimerExpiry (link : Link)
  /-- HOLDOFF_TIMER_EXPIRY (R20). -/
  | holdoffTimerExpiry (link : Link)
  /-- FORWARDING_EVENT (R52). -/
  | forwardingEvent
  /-- EGRESS_SLOT (R98, R13). -/
  | egressSlot (link : Link)
  /-- MIRROR_COPY_STEP (R141). -/
  | mirrorCopyStep
  /-- UNKNOWN_REQUEST: execution of a request numbered 0 or 25-255 (R153). -/
  | unknownRequest
  /-- IDENTIFY, request 1 (R159). -/
  | identify
  /-- WRITE_ROUTE, request 2 (R131). -/
  | writeRoute
  /-- READ_ROUTE, request 3 (R132). -/
  | readRoute
  /-- WRITE_GROUP, request 4 (R133). -/
  | writeGroup
  /-- READ_GROUP, request 5 (R134). -/
  | readGroup
  /-- COMMIT_ROUTING, request 6 (R137). -/
  | commitRouting
  /-- CANCEL_COMMIT, request 7 (R140). -/
  | cancelCommit
  /-- EPOCH_MARK, request 8 (R136). -/
  | epochMark
  /-- READ_TABLE_STATE, request 9 (R143). -/
  | readTableState
  /-- WRITE_SCHEDULE, request 10 (R110, R111). -/
  | writeSchedule
  /-- APPLY_SCHEDULE, request 11 (R112). -/
  | applySchedule
  /-- READ_SCHEDULE, request 12 (R114). -/
  | readSchedule
  /-- SET_ADMISSION, request 13 (R92, R93). -/
  | setAdmission
  /-- SET_FLOW, request 14 (R126, R127). -/
  | setFlow
  /-- SET_STATUS_TIMING, request 15 (R128). -/
  | setStatusTiming
  /-- READ_BUFFER_STATE, request 16 (R95). -/
  | readBufferState
  /-- LINK_CONTROL, request 17 (R28, R29). -/
  | linkControl
  /-- READ_LINK_STATUS, request 18 (R48). -/
  | readLinkStatus
  /-- CLEAR_LINK_STATUS, request 19 (R49). -/
  | clearLinkStatus
  /-- READ_COUNTERS, request 20 (R168). -/
  | readCounters
  /-- CLEAR_CARRY, request 21 (R169). -/
  | clearCarry
  /-- SET_NOTICE, request 22 (R175, R176). -/
  | setNotice
  /-- SET_ELEMENT_ADDRESS, request 23 (R160, R161). -/
  | setElementAddress
  /-- DATAPATH_RESET, request 24 (R162). -/
  | datapathReset
deriving DecidableEq, Repr

/-- The number of the request that a request row executes (R153, 09 section 9.8); none for the other rows and for
UNKNOWN_REQUEST, which stands for every undefined number. -/
def Instr.requestNumber : Instr → Option Nat
  | .resetAssert => none
  | .resetRelease _ => none
  | .receiveSlot _ _ => none
  | .attemptTimerExpiry _ => none
  | .holdoffTimerExpiry _ => none
  | .forwardingEvent => none
  | .egressSlot _ => none
  | .mirrorCopyStep => none
  | .unknownRequest => none
  | .identify => some 1
  | .writeRoute => some 2
  | .readRoute => some 3
  | .writeGroup => some 4
  | .readGroup => some 5
  | .commitRouting => some 6
  | .cancelCommit => some 7
  | .epochMark => some 8
  | .readTableState => some 9
  | .writeSchedule => some 10
  | .applySchedule => some 11
  | .readSchedule => some 12
  | .setAdmission => some 13
  | .setFlow => some 14
  | .setStatusTiming => some 15
  | .readBufferState => some 16
  | .linkControl => some 17
  | .readLinkStatus => some 18
  | .clearLinkStatus => some 19
  | .readCounters => some 20
  | .clearCarry => some 21
  | .setNotice => some 22
  | .setElementAddress => some 23
  | .datapathReset => some 24

end Sys2Proof
end

