-- ==== Sys2Proof/Decode.lean ====
section
/-! DEFINITION. The command that a word spells by the bits of spec/opcode_table.json. -/

/-- The table gives no row any bits, so no word spells a command (log 20). -/
def Sys2Proof.decodeTableWord (_ _ : Nat) : Option Sys2Proof.Instr := none
end

