-- ==== Sys2Proof/Config.lean ====
section
/-! DEFINITION. What is fixed for the element: the sizes and codes the spec gives, and the one free value, the holdoff draw. -/

namespace Sys2Proof.Config

/-- The number of cell buffers and of queue entries (R73, R75). -/
def bufferCount : Nat := 12288

/-- The occupancy at which an Ingress FIFO is full (R39). -/
def fifoDepth : Nat := 4

/-- The number of requests the SRQ holds (R147). -/
def srqDepth : Nat := 4

/-- The route entries of one bank (R129). -/
def routeCount : Nat := 4096

/-- The group entries of one bank (R129). -/
def groupCount : Nat := 1024

/-- The training run at which the acknowledged flag is set (R16). -/
def acknowledgeRun : Nat := 32

/-- The training run at which the link enters UP (R17). -/
def upRun : Nat := 64

/-- The length of an attempt in microseconds (R18). -/
def attemptMicros : Nat := 2000

/-- The microseconds of one unit of holdoff (R20). -/
def holdoffUnit : Nat := 10

/-- The liveness count that takes a link out of UP (R21). -/
def silenceSlots : Nat := 4096

/-- The rise of the error score at a header error (R22). -/
def scoreRise : Nat := 16

/-- The error score that takes a link out of UP (R22). -/
def scoreLimit : Nat := 256

/-- The limit at which the slots since the last status cell are held (R121). -/
def statusSlotLimit : Nat := 64

/-- The limit at which the slots since the last refresh are held (R121). -/
def refreshSlotLimit : Nat := 65535

/-- The limit at which a notice kind's pending count is held (R171). -/
def pendingLimit : Nat := 65535

/-- Vendor code, part code and revision, as IDENTIFY returns them (R159). -/
def vendorCode : Word := 0x0A31
def partCode : Word := 0x0F24
def revision : Byte := 3

/-- The generator of the header check, x^8 + x^2 + x + 1 less its leading term (R3). -/
def crcPolynomial : Byte := 0x07

/-- FREE VALUE. The holdoff draws of R20, by the number of draws made before. Nothing constrains it: `Machine.holdoffUnits`
brings it into the range 0 to 2^m - 1 that R20 gives (log 4). -/
opaque holdoffDraw : Nat → Nat

end Sys2Proof.Config
end

