-- ==== Sys2Proof/Machine/State.lean ====
section
/-! DEFINITION. The state of the element as plain data, block by block (00_scope.md 2.1), the outcomes' reasons, and the state at the release of RESET. -/

namespace Sys2Proof.Machine

/-- The reasons for which the machine stops with a fault. There is none: the spec describes no stop of the element, and every
command has a next state in every state. -/
inductive Fault where
deriving DecidableEq, Repr

/-- The reasons for which a command has no meaning. -/
inductive Refusal where
  /-- Raised by an arm of `exec` whose command has no meaning yet; safe. No arm raises it: every command is modelled. -/
  | notModelled (mnemonic : String)
deriving DecidableEq, Repr

/-- The states of the link state machine (R13). -/
inductive LinkState where
  | disabled
  | training
  | holdoff
  | up
  | failed
deriving DecidableEq, Repr

/-- Why a link last left UP (2.1, R24). -/
inductive DownReason where
  | none
  | silence
  | errorScore
  | partnerRetrain
  | command
deriving DecidableEq, Repr

/-- A bring-up timer: its value in microseconds as last set, and whether it runs. Its progress between events is not counted
(log 2). -/
structure Timer where
  micros  : Nat
  running : Bool
deriving DecidableEq, Repr

/-- One Link Port: link state machine, supervision, hold flags, link sequences and settings (2.1, R4, R36, R45, R46). -/
structure LinkPort where
  state        : LinkState
  attempts     : Nat
  attemptTimer : Timer
  run          : Nat
  acknowledged : Bool
  holdoffTimer : Timer
  liveness     : Nat
  score        : Nat
  partnerHold  : Bool
  ownHold      : Bool
  txSeq        : Byte
  rxExpect     : Option Byte
  lastDown     : DownReason
  retrainLimit : Nat
  truncation   : Nat
deriving DecidableEq, Repr

/-- One entry of an Ingress FIFO: the cell as received and its reception status (R38, R39). -/
structure FifoEntry where
  cell    : Cell
  seqGap  : Bool
  overrun : Bool
deriving DecidableEq, Repr

/-- One Ingress FIFO, oldest entry first, and its link's latched status flags (R39, R47). -/
structure IngressFifo where
  entries       : List FifoEntry
  hdrErrSeen    : Bool
  formatErrSeen : Bool
  seqGapSeen    : Bool
  overrunSeen   : Bool
deriving DecidableEq, Repr

/-- One cell buffer: its content and its reference count (R73). -/
structure Buffer where
  cell : Cell
  refs : Nat
deriving DecidableEq, Repr

/-- The admission parameters of one class (R77). -/
structure ClassParams where
  reservation : Nat
  maximum     : Nat
  alpha       : Nat
deriving DecidableEq, Repr

/-- The Buffer Manager (5.1). `buffers` lists the buffers in use by number in canonical form (`tableWf`); an unlisted
buffer is free. `queues[p][c]` names the buffers of queue (p, c), oldest first. `shared` is U (R76). -/
structure BufferManager where
  buffers : List (Nat × Buffer)
  free    : List Nat
  pool    : Nat
  queues  : Vector (Vector (List Nat) 4) 24
  params  : Vector ClassParams 4
  shared  : Nat
deriving DecidableEq, Repr

/-- How a window yields (R97). -/
inductive WindowMode where
  | limited
  | drain
  | fixed
deriving DecidableEq, Repr

/-- One window of a schedule (R97). -/
structure Window where
  cls    : Class
  mode   : WindowMode
  budget : Nat
deriving DecidableEq, Repr

/-- One Egress Scheduler (R96). -/
structure Scheduler where
  active  : List Window
  staging : List Window
  pending : Bool
  w       : Nat
  isOpen  : Bool
  budget  : Nat
deriving DecidableEq, Repr

/-- The XOFF and XON thresholds of one class (R115). -/
structure Thresholds where
  xoff : Nat
  xon  : Nat
deriving DecidableEq, Repr

/-- The Congestion Map (R115); `held[p][c]` is true when entry (p, c) is HELD. -/
structure CongestionMap where
  held       : Vector (Vector Bool 4) 24
  thresholds : Vector Thresholds 4
  version    : BitVec 16
deriving DecidableEq, Repr

/-- One Status Sender (R121); `none` is NONE. -/
structure StatusSender where
  lastSent     : Option (BitVec 16)
  sinceStatus  : Nat
  sinceRefresh : Nat
deriving DecidableEq, Repr

/-- The settings common to the 24 Status Senders (R121). -/
structure StatusTiming where
  spacing : Nat
  refresh : Nat
deriving DecidableEq, Repr

/-- The kinds of a route entry (R11). -/
inductive RouteKind where
  | unused
  | unicast
  | multicast
  | discard
deriving DecidableEq, Repr

/-- One route entry: every field as written, reserved bits left out (R11, R58). -/
structure RouteEntry where
  kind            : RouteKind
  altPresent      : Bool
  overridePresent : Bool
  primary         : Link
  alternate       : Link
  overrideClass   : Class
  group           : BitVec 10
deriving DecidableEq, Repr

/-- One group entry: bit p of `members` is set when port p is a member (R12, R63). -/
structure GroupEntry where
  members        : BitVec 24
  returnToSource : Bool
deriving DecidableEq, Repr

/-- One routing bank: its Route Table and Group Table as canonical lists; an unlisted entry is three zero words (R129). -/
structure Bank where
  routes : List (Nat × RouteEntry)
  groups : List (Nat × GroupEntry)
deriving DecidableEq, Repr

/-- The names of the two banks (R10). -/
inductive BankId where
  | a
  | b
deriving DecidableEq, Repr

/-- The commit state, with the target epoch where one is present and the mirror progress where there is one (R129). -/
inductive CommitState where
  | idle
  | pending (target : BitVec 16)
  | mirroring (progress : Nat)
deriving DecidableEq, Repr

/-- Table Control (R129). -/
structure TableControl where
  bankA  : Bank
  bankB  : Bank
  active : BankId
  commit : CommitState
  epoch  : BitVec 16
deriving DecidableEq, Repr

/-- One queued request, as taken from its cell (R147). -/
structure Request where
  port          : Link
  number        : Byte
  tag           : Byte
  quiet         : Bool
  wordCount     : Nat
  payloadLength : Nat
  block         : Vector Word 24
deriving DecidableEq, Repr

/-- The Service Request Unit (R144). -/
structure Sru where
  elementId : Byte
  idMask    : Byte
  broadcast : Bool
  strap     : Byte
  srq       : List Request
deriving DecidableEq, Repr

/-- The counters of one port and their carry flags (R165, R166). -/
structure PortCounters where
  values : Vector (BitVec 32) 18
  carry  : BitVec 18
deriving DecidableEq, Repr

/-- The record of one notice kind (R171); `firstOnly` is the mode FIRST_ONLY. -/
structure NoticeState where
  enabled      : Bool
  interval     : Nat
  firstOnly    : Bool
  pendingCount : Nat
  spent        : Bool
  detail       : Vector Byte 6
deriving DecidableEq, Repr

/-- The notice records, kind 1 to 5 at index 0 to 4, and the notice port set (R171). -/
structure Notices where
  kinds : Vector NoticeState 5
  ports : BitVec 24
deriving DecidableEq, Repr

/-- The element. `pending`, `tx` and `draws` are the model's own: the waiting commands, the cell each link sent in its latest
egress slot (log 7), and the number of holdoff draws made (log 4). -/
structure State where
  pending       : List Instr
  resetAsserted : Bool
  links         : Vector LinkPort 24
  fifos         : Vector IngressFifo 24
  arbiter       : Link
  bm            : BufferManager
  scheds        : Vector Scheduler 24
  cmap          : CongestionMap
  senders       : Vector StatusSender 24
  timing        : StatusTiming
  tables        : TableControl
  sru           : Sru
  counters      : Vector PortCounters 24
  carryMask     : BitVec 18
  notices       : Notices
  tx            : Vector (Option Cell) 24
  draws         : Nat
deriving DecidableEq, Repr

/-- A Link Port at the release of RESET (R32). -/
def powerOnLink : LinkPort where
  state := .training
  attempts := 0
  attemptTimer := ⟨0, true⟩
  run := 0
  acknowledged := false
  holdoffTimer := ⟨0, false⟩
  liveness := 0
  score := 0
  partnerHold := false
  ownHold := false
  txSeq := 0
  rxExpect := none
  lastDown := .none
  retrainLimit := 15
  truncation := 10

/-- An Ingress FIFO at the release of RESET (R39). -/
def powerOnFifo : IngressFifo := ⟨[], false, false, false, false⟩

/-- The Buffer Manager at the release of RESET (R77, R91). -/
def powerOnBuffers : BufferManager where
  buffers := []
  free := List.range Config.bufferCount
  pool := Config.bufferCount
  queues := Vector.replicate 24 (Vector.replicate 4 [])
  params := #v[⟨16, 4096, 4⟩, ⟨8, 4096, 3⟩, ⟨8, 4096, 2⟩, ⟨4, 4096, 1⟩]
  shared := 0

/-- The default schedule (R97). -/
def defaultSchedule : List Window :=
  [⟨0, .drain, 0⟩, ⟨1, .limited, 32⟩, ⟨2, .limited, 16⟩, ⟨3, .limited, 8⟩]

/-- An Egress Scheduler at the release of RESET (R109). -/
def powerOnScheduler : Scheduler := ⟨defaultSchedule, defaultSchedule, false, 0, false, 0⟩

/-- The Congestion Map at the release of RESET (R115). -/
def powerOnMap : CongestionMap where
  held := Vector.replicate 24 (Vector.replicate 4 false)
  thresholds := #v[⟨512, 256⟩, ⟨256, 128⟩, ⟨256, 128⟩, ⟨256, 128⟩]
  version := 0

/-- Table Control at the release of RESET (R129). -/
def powerOnTables : TableControl := ⟨⟨[], []⟩, ⟨[], []⟩, .a, .idle, 0⟩

/-- The element ID that a strap value gives: 255 is taken as 254 (R144, R177). -/
def idOfStrap (strap : Byte) : Byte := if strap = 255 then 254 else strap

/-- A notice kind at the release of RESET (R171). -/
def powerOnNotice (enabled : Bool) : NoticeState := ⟨enabled, 1, false, 0, false, Vector.replicate 6 0⟩

/-- Every block at its values for the release of RESET with the straps at `strap` (R177); the waiting commands and the number
of draws are the model's own and are given. -/
def State.powerOn (strap : Byte) (asserted : Bool) (pending : List Instr) (draws : Nat) : State where
  pending := pending
  resetAsserted := asserted
  links := Vector.replicate 24 powerOnLink
  fifos := Vector.replicate 24 powerOnFifo
  arbiter := 23
  bm := powerOnBuffers
  scheds := Vector.replicate 24 powerOnScheduler
  cmap := powerOnMap
  senders := Vector.replicate 24 ⟨none, 0, 0⟩
  timing := ⟨8, 8192⟩
  tables := powerOnTables
  sru := ⟨idOfStrap strap, 0, true, strap, []⟩
  counters := Vector.replicate 24 ⟨Vector.replicate 18 0, 0⟩
  carryMask := 0
  notices := ⟨#v[powerOnNotice true, powerOnNotice false, powerOnNotice false, powerOnNotice false, powerOnNotice false], 0⟩
  tx := Vector.replicate 24 none
  draws := draws

/-- The element right after a release of RESET with the straps at 0, nothing waiting (R177; the strap value is the model's,
log 5). -/
def State.reset : State := State.powerOn 0 false [] 0

end Sys2Proof.Machine
end

