-- ==== Sys2Proof/Machine/Flags.lean ====
section
/-! DEFINITION. The flags: own hold, latched link status, map entries, the status-cell-due test, and the slot counts that feed it. -/

namespace Sys2Proof.Machine

/-- The own hold flag after a change of occupancy (R45). -/
def ownHoldAfter (occupancy : Nat) (held : Bool) : Bool :=
  if occupancy ≤ 1 then false else if occupancy = 2 then held else true

/-- The link status flags latched by the status of a taken entry (R42, R47). -/
def latchTaken (f : IngressFifo) (e : FifoEntry) : IngressFifo :=
  { f with seqGapSeen := f.seqGapSeen || e.seqGap, overrunSeen := f.overrunSeen || e.overrun }

/-- A map entry after its queue's length is tested against its class's thresholds (R116); true is HELD. -/
def entryAfter (held : Bool) (length : Nat) (t : Thresholds) : Bool :=
  if held then !decide (length ≤ t.xon) else decide (t.xoff ≤ length)

/-- The version after an entry goes from one state to another (R117). -/
def versionAfter (v : BitVec 16) (before after : Bool) : BitVec 16 := if before = after then v else v + 1

/-- The slot counts of a Status Sender at the start of an egress slot in UP (R122). -/
def slotCountsRise (x : StatusSender) : StatusSender :=
  { x with sinceStatus := min (x.sinceStatus + 1) Config.statusSlotLimit,
           sinceRefresh := min (x.sinceRefresh + 1) Config.refreshSlotLimit }

/-- Whether a status cell is due on a link in UP, after the counts have risen (R123). -/
def statusDue (x : StatusSender) (t : StatusTiming) (version : BitVec 16) : Bool :=
  decide (t.spacing ≤ x.sinceStatus) && (decide (x.lastSent ≠ some version) || decide (t.refresh ≤ x.sinceRefresh))

/-- A value clamped to a range (00_scope.md 4.4). -/
def clamp (low high n : Nat) : Nat := min (max low n) high

end Sys2Proof.Machine
end

