-- ==== Sys2Proof/Machine/Operands.lean ====
section
/-! DEFINITION. The byte and bit layouts: header, header check, payloads and table-entry words (chapter 1), and the fields of
parameter blocks. Byte order is decided here, once: high byte first (00_scope.md 4.7). -/

namespace Sys2Proof.Machine

/-! ### Words -/

/-- Bits 15-8 of a word. -/
def hi8 (w : Word) : Byte := w.extractLsb' 8 8

/-- Bits 7-0 of a word. -/
def lo8 (w : Word) : Byte := w.extractLsb' 0 8

/-- The word whose bits 15-8 and 7-0 are given. -/
def mkWord (hi lo : Byte) : Word := hi ++ lo

/-- A quantity as a 16-bit word. -/
def natWord (n : Nat) : Word := BitVec.ofNat 16 n

/-- A quantity as a byte. -/
def natByte (n : Nat) : Byte := BitVec.ofNat 8 n

/-- A flag as a word's bit 0. -/
def flagWord (b : Bool) : Word := if b then 1 else 0

/-- The link a byte names; none for 24-255. -/
def linkOf (b : Byte) : Option Link := if h : b.toNat < 24 then some ⟨b.toNat, h⟩ else none

/-- The class a byte names; none for 4-255. -/
def classOfByte (b : Byte) : Option Class := if h : b.toNat < 4 then some ⟨b.toNat, h⟩ else none

/-- The class a two-bit field names (R1, R12). -/
def classOf (b : BitVec 2) : Class := ⟨b.toNat, b.isLt⟩

/-- The two-bit field of a class. -/
def classBits (c : Class) : BitVec 2 := BitVec.ofNat 2 c.val

/-- A port set given by two words: ports 0-15 in the first, ports 16-23 in bits 7-0 of the second (R28, R49, R112, R175). -/
def portSet (low high : Word) : BitVec 24 := lo8 high ++ low

/-- Ports 0-15 of a port set, as a word. -/
def portsLow (m : BitVec 24) : Word := m.extractLsb' 0 16

/-- Ports 16-23 of a port set, in bits 7-0 of a word. -/
def portsHigh (m : BitVec 24) : Word := (m.extractLsb' 16 8).setWidth 16

/-- The ports of a set in ascending order. -/
def portList (m : BitVec 24) : List Link := (List.finRange 24).filter fun p => m.getLsbD p

/-- The port set of the ports for which `f` holds. -/
def portsWhere (f : Link → Bool) : BitVec 24 :=
  (List.finRange 24).foldl (fun m p => if f p then m ||| BitVec.twoPow 24 p else m) 0

/-! ### The header check (R3) -/

/-- One shift of the check register: the polynomial is combined in when the bit shifted out was 1. -/
def crcShift (r : Byte) : Byte := if r.msb then (r <<< 1) ^^^ Config.crcPolynomial else r <<< 1

/-- The register after one header byte: combined with the byte, then shifted eight times. -/
def crcByte (r b : Byte) : Byte := Nat.iterate crcShift 8 (r ^^^ b)

/-- The header check of a run of bytes, from a register of 0. -/
def crc8 (bytes : List Byte) : Byte := bytes.foldl crcByte 0

/-- The check of a header: over its bytes 0 to 6. -/
def headerCheck (h : Vector Byte 8) : Byte := crc8 [h[0], h[1], h[2], h[3], h[4], h[5], h[6]]

/-! ### The cell header (R1) -/

/-- The cell types (R2); the value 7 names none. -/
inductive CellType where
  | idle
  | data
  | mgmtReq
  | mgmtRsp
  | status
  | notice
  | train
  | invalid
deriving DecidableEq, Repr

/-- The type that a type field names (R2). -/
def cellTypeOf (b : BitVec 3) : CellType :=
  if b = 0 then .idle else if b = 1 then .data else if b = 2 then .mgmtReq else if b = 3 then .mgmtRsp
  else if b = 4 then .status else if b = 5 then .notice else if b = 6 then .train else .invalid

/-- The type field of a type (R2). -/
def typeBits : CellType → BitVec 3
  | .idle => 0
  | .data => 1
  | .mgmtReq => 2
  | .mgmtRsp => 3
  | .status => 4
  | .notice => 5
  | .train => 6
  | .invalid => 7

/-- The header fields of R1, the check left out: it is a function of the others (R3). -/
structure Header where
  type   : BitVec 3
  cls    : BitVec 2
  hold   : Bool
  first  : Bool
  last   : Bool
  fdi    : BitVec 12
  source : Byte
  seq    : Byte
  length : BitVec 6
  user   : Byte
deriving DecidableEq, Repr

/-- The fields of eight header bytes; reserved bits are ignored (R1). -/
def parseHeader (h : Vector Byte 8) : Header where
  type := h[0].extractLsb' 5 3
  cls := h[0].extractLsb' 3 2
  hold := h[0].getLsbD 2
  first := h[0].getLsbD 1
  last := h[0].getLsbD 0
  fdi := h[1] ++ h[2].extractLsb' 4 4
  source := h[3]
  seq := h[4]
  length := h[5].extractLsb' 0 6
  user := h[6]

/-- The eight header bytes of the fields: reserved bits 0, byte 7 the check (R1, R3). -/
def encodeHeader (h : Header) : Vector Byte 8 :=
  let b0 : Byte := h.type ++ h.cls ++ BitVec.ofBool h.hold ++ BitVec.ofBool h.first ++ BitVec.ofBool h.last
  let b1 : Byte := h.fdi.extractLsb' 4 8
  let b2 : Byte := h.fdi.extractLsb' 0 4 ++ (0 : BitVec 4)
  let b5 : Byte := (0 : BitVec 2) ++ h.length
  #v[b0, b1, b2, h.source, h.seq, b5, h.user, crc8 [b0, b1, b2, h.source, h.seq, b5, h.user]]

/-- The header of a cell the element builds itself, before transmission (R6). -/
def builtHeader (t : CellType) (id : Byte) (length : Nat) : Header where
  type := typeBits t
  cls := 0
  hold := false
  first := false
  last := false
  fdi := id.setWidth 12
  source := 0
  seq := 0
  length := BitVec.ofNat 6 length
  user := 0

/-- A payload that begins with the given bytes and is 0 beyond them (R1, R6). -/
def payloadOf (bytes : List Byte) : Vector Byte 56 := Vector.ofFn fun i => bytes.getD i.val 0

/-- A cell the element builds: the type, the element ID in FDI, and the meaningful payload bytes (R6). -/
def builtCell (t : CellType) (id : Byte) (bytes : List Byte) : Cell :=
  ⟨encodeHeader (builtHeader t id bytes.length), payloadOf bytes⟩

/-- An IDLE cell (R6). -/
def idleCell : Cell := builtCell .idle 0 []

/-- A TRAIN cell (R6). -/
def trainCell : Cell := builtCell .train 0 []

/-- The content that stands for a buffer not in use: a cell of zeros (R73, log 8). -/
def zeroCell : Cell := ⟨Vector.replicate 8 0, Vector.replicate 56 0⟩

/-! ### Receive slots (R14) -/

/-- The classes of a receive slot. -/
inductive SlotClass where
  | noCell
  | headerError
  | formatError
  | valid (c : Cell) (h : Header) (t : CellType)
deriving DecidableEq, Repr

/-- The class of what a receive slot brings. -/
def classify : Option Cell → SlotClass
  | none => .noCell
  | some c =>
    if headerCheck c.header ≠ c.header[7] then .headerError
    else
      let h := parseHeader c.header
      match cellTypeOf h.type with
      | .invalid => .formatError
      | .idle => .valid c h .idle
      | .train => .valid c h .train
      | t => if 57 ≤ h.length.toNat then .formatError else .valid c h t

/-! ### Management payloads (R7, R8) -/

/-- Payload byte i, 0 beyond byte 55. -/
def payloadByte (c : Cell) (i : Nat) : Byte := c.payload.toList.getD i 0

/-- The queued request that a MGMT_REQ cell from link `p` gives (R147). -/
def requestOf (p : Link) (c : Cell) : Request where
  port := p
  number := payloadByte c 0
  tag := payloadByte c 1
  quiet := (payloadByte c 2).getLsbD 0
  wordCount := (payloadByte c 3).toNat
  payloadLength := (parseHeader c.header).length.toNat
  block := Vector.ofFn fun i => mkWord (payloadByte c (4 + 2 * i.val)) (payloadByte c (5 + 2 * i.val))

/-- The target element ID of a management cell: bits 7-0 of FDI (R145). -/
def targetOf (c : Cell) : Byte := (parseHeader c.header).fdi.extractLsb' 0 8

/-- Word i of a request's block, 0 beyond word 23. -/
def blockWord (r : Request) (i : Nat) : Word := r.block.toList.getD i 0

/-- The words a request carried: its block up to its word count (R7). -/
def receivedWords (r : Request) : List Word := (List.range r.wordCount).map (blockWord r)

/-- The completion codes (R154). -/
inductive Code where
  | ok
  | badRequest
  | badLength
  | badParam
  | range
  | tableBusy
  | commitPending
  | noCommit
  | epochStale
  | schedulePending
  | admissionConflict
  | srqFull
deriving DecidableEq, Repr

/-- The byte of a completion code (R154). -/
def codeByte : Code → Byte
  | .ok => 0
  | .badRequest => 1
  | .badLength => 2
  | .badParam => 3
  | .range => 4
  | .tableBusy => 5
  | .commitPending => 6
  | .noCommit => 7
  | .epochStale => 8
  | .schedulePending => 9
  | .admissionConflict => 10
  | .srqFull => 11

/-- The output written at position i, if any. -/
def outputAt (outputs : List (Nat × Word)) (i : Nat) : Option Word :=
  (outputs.find? fun o => o.1 == i).map (·.2)

/-- The word count of an OK response: the greater of the request's and one more than the highest position written (R8). -/
def okWordCount (r : Request) (outputs : List (Nat × Word)) : Nat :=
  outputs.foldl (fun n o => max n (o.1 + 1)) r.wordCount

/-- The block of an OK response: the request's block, outputs written over their positions, 0 where neither (R8). -/
def okWords (r : Request) (outputs : List (Nat × Word)) : List Word :=
  (List.range (okWordCount r outputs)).map fun i =>
    (outputAt outputs i).getD (if i < r.wordCount then blockWord r i else 0)

/-- The two bytes of a word, high byte first. -/
def wordBytes (w : Word) : List Byte := [hi8 w, lo8 w]

/-- A MGMT_RSP cell (R6, R8). -/
def responseCell (id : Byte) (number tag : Byte) (code : Code) (words : List Word) : Cell :=
  builtCell .mgmtRsp id ([number, tag, codeByte code, natByte words.length] ++ words.flatMap wordBytes)

/-! ### Status and notice payloads (R9, R10) -/

/-- The four map entries of a port as a nibble, C0 highest (R9). -/
def mapNibble (v : Vector Bool 4) : BitVec 4 :=
  BitVec.ofBool v[0] ++ BitVec.ofBool v[1] ++ BitVec.ofBool v[2] ++ BitVec.ofBool v[3]

/-- Map byte j, 0-11: ports 2j (bits 7-4) and 2j+1 (bits 3-0) (R9). -/
def mapByte (held : Vector (Vector Bool 4) 24) (j : Fin 12) : Byte :=
  mapNibble (held[2 * j.val]'(by omega)) ++ mapNibble (held[2 * j.val + 1]'(by omega))

/-- A STATUS cell (R6, R9). -/
def statusCell (id : Byte) (m : CongestionMap) (sharedFree : Nat) : Cell :=
  builtCell .status id
    (wordBytes m.version ++ [id] ++ (List.finRange 12).map (mapByte m.held) ++ wordBytes (natWord sharedFree))

/-- The code of a link state (R10). -/
def linkStateCode : LinkState → Byte
  | .disabled => 0
  | .training => 1
  | .holdoff => 2
  | .up => 3
  | .failed => 4

/-- The code of a down reason (R10). -/
def downReasonCode : DownReason → Byte
  | .none => 0
  | .silence => 1
  | .errorScore => 2
  | .partnerRetrain => 3
  | .command => 4

/-- The code of a bank (R10). -/
def bankCode : BankId → Byte
  | .a => 0
  | .b => 1

/-- The code of a commit state (R136, R137, R143). -/
def commitCode : CommitState → Byte
  | .idle => 0
  | .pending _ => 1
  | .mirroring _ => 2

/-- The notice kinds (R10). -/
inductive NoticeKind where
  | linkState
  | commitDone
  | scheduleApplied
  | counterCarry
  | srqOverflow
deriving DecidableEq, Repr

/-- The place of a kind's record: its code less 1. -/
def NoticeKind.index : NoticeKind → Fin 5
  | .linkState => 0
  | .commitDone => 1
  | .scheduleApplied => 2
  | .counterCarry => 3
  | .srqOverflow => 4

/-- The code of a notice kind (R10). -/
def NoticeKind.code (k : NoticeKind) : Byte := natByte (k.index.val + 1)

/-- The kind a code names (R175). -/
def noticeKindOf (b : Byte) : Option NoticeKind :=
  if b = 1 then some .linkState else if b = 2 then some .commitDone else if b = 3 then some .scheduleApplied
  else if b = 4 then some .counterCarry else if b = 5 then some .srqOverflow else none

/-- A port number as a byte. -/
def portByte (p : Link) : Byte := natByte p.val

/-- The detail of a LINK_STATE event (R10, R26). -/
def linkStateDetail (p : Link) (entered left : LinkState) (reason : DownReason) (attempts : Nat) : Vector Byte 6 :=
  #v[portByte p, linkStateCode entered, linkStateCode left, downReasonCode reason, natByte attempts, 0]

/-- The detail of a COMMIT_DONE event; `what` is 1 SWAPPED or 2 MIRRORED (R10). -/
def commitDetail (what : Byte) (bank : BankId) (epoch : BitVec 16) : Vector Byte 6 :=
  #v[what, bankCode bank, hi8 epoch, lo8 epoch, 0, 0]

/-- The detail of a SCHEDULE_APPLIED event (R10). -/
def scheduleDetail (p : Link) (windows : Nat) : Vector Byte 6 := #v[portByte p, natByte windows, 0, 0, 0, 0]

/-- The detail of a COUNTER_CARRY event (R10). -/
def carryDetail (p : Link) (index : Fin 18) : Vector Byte 6 := #v[portByte p, natByte index.val, 0, 0, 0, 0]

/-- The detail of an SRQ_OVERFLOW event (R10). -/
def overflowDetail (p : Link) (number tag : Byte) : Vector Byte 6 := #v[portByte p, number, tag, 0, 0, 0]

/-- A NOTICE cell (R6, R10). -/
def noticeCell (id : Byte) (k : NoticeKind) (count : Nat) (detail : Vector Byte 6) : Cell :=
  builtCell .notice id ([k.code, id] ++ wordBytes (natWord count) ++ detail.toList)

/-! ### Table-entry words (R11, R12) -/

/-- The route entry of three zero words: UNUSED (R11). -/
def unusedRoute : RouteEntry := ⟨.unused, false, false, 0, 0, 0, 0⟩

/-- The group entry of three zero words: empty (R12). -/
def emptyGroup : GroupEntry := ⟨0, false⟩

/-- The kind of a two-bit field (R11). -/
def routeKindOf (b : BitVec 2) : RouteKind :=
  if b = 0 then .unused else if b = 1 then .unicast else if b = 2 then .multicast else .discard

/-- The two-bit field of a kind (R11). -/
def routeKindBits : RouteKind → BitVec 2
  | .unused => 0
  | .unicast => 1
  | .multicast => 2
  | .discard => 3

/-- The route entry of three words; none when a port field holds 24-255 (R11). -/
def routeOfWords (w0 w1 w2 : Word) : Option RouteEntry :=
  match linkOf (hi8 w1), linkOf (lo8 w1) with
  | some primary, some alternate =>
    some { kind := routeKindOf (w0.extractLsb' 14 2), altPresent := w0.getLsbD 13, overridePresent := w0.getLsbD 12,
           primary := primary, alternate := alternate, overrideClass := classOf (w2.extractLsb' 14 2),
           group := w2.extractLsb' 0 10 }
  | _, _ => none

/-- The three words of a route entry, reserved bits 0 (R11). -/
def routeWords (e : RouteEntry) : List Word :=
  [routeKindBits e.kind ++ BitVec.ofBool e.altPresent ++ BitVec.ofBool e.overridePresent ++ (0 : BitVec 12),
   mkWord (portByte e.primary) (portByte e.alternate),
   classBits e.overrideClass ++ (0 : BitVec 4) ++ e.group]

/-- The group entry of three words (R12). -/
def groupOfWords (w0 w1 w2 : Word) : GroupEntry := ⟨portSet w0 w1, w2.getLsbD 0⟩

/-- The three words of a group entry, reserved bits 0 (R12). -/
def groupWords (g : GroupEntry) : List Word := [portsLow g.members, portsHigh g.members, flagWord g.returnToSource]

/-- The window of a word; none for mode 3 (R12). -/
def windowOfWord (w : Word) : Option Window :=
  let cls := classOf (w.extractLsb' 14 2)
  let budget := (lo8 w).toNat
  let m := w.extractLsb' 12 2
  if m = 0 then some ⟨cls, .limited, budget⟩ else if m = 1 then some ⟨cls, .drain, budget⟩
  else if m = 2 then some ⟨cls, .fixed, budget⟩ else none

/-- The two-bit field of a mode (R12). -/
def windowModeBits : WindowMode → BitVec 2
  | .limited => 0
  | .drain => 1
  | .fixed => 2

/-- The word of a window, reserved bits 0 (R12). -/
def windowWord (x : Window) : Word :=
  classBits x.cls ++ windowModeBits x.mode ++ (0 : BitVec 4) ++ natByte x.budget

/-! ### Epochs (R135) -/

/-- The distance from epoch x to epoch y. -/
def epochDistance (x y : BitVec 16) : Nat := (y - x).toNat

/-- y is ahead of x: the distance from x to y lies from 1 to 32,767. -/
def epochAhead (x y : BitVec 16) : Bool := 1 ≤ epochDistance x y && epochDistance x y ≤ 32767

/-! ### The counters (R165) -/

/-- The 18 counters of a port. -/
inductive Counter where
  | rxCells
  | txCells
  | hdrErr
  | formatErr
  | seqGap
  | overrun
  | noRoute
  | routeDiscard
  | routeDown
  | failover
  | mcastPruned
  | queueMax
  | sharedLimit
  | linkFlush
  | foreignMgmt
  | unexpectedType
  | rspLost
  | noticeLost
deriving DecidableEq, Repr

/-- The index of a counter (R165). -/
def Counter.index : Counter → Fin 18
  | .rxCells => 0
  | .txCells => 1
  | .hdrErr => 2
  | .formatErr => 3
  | .seqGap => 4
  | .overrun => 5
  | .noRoute => 6
  | .routeDiscard => 7
  | .routeDown => 8
  | .failover => 9
  | .mcastPruned => 10
  | .queueMax => 11
  | .sharedLimit => 12
  | .linkFlush => 13
  | .foreignMgmt => 14
  | .unexpectedType => 15
  | .rspLost => 16
  | .noticeLost => 17

end Sys2Proof.Machine
end

