-- ==== Sys2Proof/Machine/Ops.lean ====
section
/-! DEFINITION. The shared operations: indexed tables, updates of one block, counts and notices, submission and admission,
dequeue and flush, and the events of the link state machine. -/

namespace Sys2Proof.Machine

/-! ### Indexed tables: routing tables and cell buffers -/

/-- The entry of index k; an unlisted index reads as `d`. -/
def tableGet {α : Type} (d : α) : List (Nat × α) → Nat → α
  | [], _ => d
  | (k', v) :: t, k => if k = k' then v else tableGet d t k

/-- The table with entry k made v, in canonical form: indexes rising, no entry equal to `d`. -/
def tableSet {α : Type} [DecidableEq α] (d : α) : List (Nat × α) → Nat → α → List (Nat × α)
  | [], k, v => if v = d then [] else [(k, v)]
  | (k', v') :: t, k, v =>
    if k < k' then (if v = d then (k', v') :: t else (k, v) :: (k', v') :: t)
    else if k = k' then (if v = d then t else (k, v) :: t)
    else (k', v') :: tableSet d t k v

/-- Entries stored at consecutive indexes from `first`. -/
def tableFill {α : Type} [DecidableEq α] (d : α) (t : List (Nat × α)) (first : Nat) : List α → List (Nat × α)
  | [] => t
  | v :: vs => tableFill d (tableSet d t first v) (first + 1) vs

/-! ### Updates of one block -/

/-- A vector with its entry i replaced. -/
def upd {α : Type} {n : Nat} (v : Vector α n) (i : Fin n) (x : α) : Vector α n := v.set i.val x i.isLt

def State.modLink (s : State) (p : Link) (f : LinkPort → LinkPort) : State :=
  { s with links := upd s.links p (f s.links[p]) }

def State.modFifo (s : State) (p : Link) (f : IngressFifo → IngressFifo) : State :=
  { s with fifos := upd s.fifos p (f s.fifos[p]) }

def State.modSched (s : State) (p : Link) (f : Scheduler → Scheduler) : State :=
  { s with scheds := upd s.scheds p (f s.scheds[p]) }

def State.modSender (s : State) (p : Link) (f : StatusSender → StatusSender) : State :=
  { s with senders := upd s.senders p (f s.senders[p]) }

def State.setKind (s : State) (k : NoticeKind) (n : NoticeState) : State :=
  { s with notices := { s.notices with kinds := upd s.notices.kinds k.index n } }

def State.setQueue (s : State) (p : Link) (c : Class) (q : List Nat) : State :=
  { s with bm := { s.bm with queues := upd s.bm.queues p (upd s.bm.queues[p] c q) } }

def State.setTx (s : State) (p : Link) (c : Option Cell) : State := { s with tx := upd s.tx p c }

/-- Whether the link of a port is UP. -/
def State.isUp (s : State) (p : Link) : Bool := decide (s.links[p].state = .up)

/-- Egress queue (p, c), oldest entry first (R75). -/
def State.queue (s : State) (p : Link) (c : Class) : List Nat := s.bm.queues[p][c]

/-- The entry of a buffer number; an unlisted buffer is free (R73). -/
def State.buffer (s : State) (b : Nat) : Buffer := tableGet ⟨zeroCell, 0⟩ s.bm.buffers b

def State.kind (s : State) (k : NoticeKind) : NoticeState := s.notices.kinds[k.index]

/-! ### Accounting (R76) -/

/-- The 96 queues, named. -/
def queueNames : List (Link × Class) := (List.finRange 24).flatMap fun p => (List.finRange 4).map fun c => (p, c)

/-- The total reservation RT for four classes' parameters. -/
def totalReservation (params : Vector ClassParams 4) : Nat :=
  24 * (params[0].reservation + params[1].reservation + params[2].reservation + params[3].reservation)

/-- The shared use U by its definition, for given parameters (R76, R93). -/
def sharedUse (s : State) (params : Vector ClassParams 4) : Nat :=
  (queueNames.map fun n => (s.queue n.1 n.2).length - params[n.2].reservation).sum

/-- The shared pool size S. -/
def State.poolSize (s : State) : Nat := Config.bufferCount - totalReservation s.bm.params

/-- The shared free SF. -/
def State.sharedFree (s : State) : Nat := s.poolSize - s.bm.shared

/-- The sum of the 96 queue lengths. -/
def State.queuedTotal (s : State) : Nat := (queueNames.map fun n => (s.queue n.1 n.2).length).sum

/-! ### The Congestion Map (R86, R116) -/

/-- Entry (p, c) of the map tested against the present length of its queue, under the thresholds in force. -/
def State.testEntry (s : State) (p : Link) (c : Class) : State :=
  let before := s.cmap.held[p][c]
  let after := entryAfter before (s.queue p c).length s.cmap.thresholds[c]
  { s with cmap := { s.cmap with held := upd s.cmap.held p (upd s.cmap.held[p] c after),
                                 version := versionAfter s.cmap.version before after } }

/-! ### Counts and notice events, without emission (R165, R166, R172) -/

/-- A count raised at a port. The flag answered is true when the counter wrapped and its index is unmasked, so that a
COUNTER_CARRY event is raised. -/
def State.bump (s : State) (p : Link) (c : Counter) : State × Bool :=
  let pc := s.counters[p]
  let v := pc.values[c.index]
  let wraps := decide (v = BitVec.allOnes 32)
  let carry := if wraps then pc.carry ||| BitVec.twoPow 18 c.index else pc.carry
  ({ s with counters := upd s.counters p ⟨upd pc.values c.index (v + 1), carry⟩ },
   wraps && !s.carryMask.getLsbD c.index)

/-- A notice event taken: the pending count and the detail of an enabled kind change. The flag answered is true when the
event calls for an emission. -/
def State.takeEvent (s : State) (k : NoticeKind) (d : Vector Byte 6) : State × Bool :=
  let n := s.kind k
  if n.enabled then
    let n' := { n with pendingCount := min (n.pendingCount + 1) Config.pendingLimit, detail := d }
    (s.setKind k n', !n'.spent && decide (n'.interval ≤ n'.pendingCount))
  else (s, false)

/-- A count raised while a submission or a DATAPATH_RESET is in progress: its COUNTER_CARRY event is taken at once, and the
flag answered is true when it calls for a notice, which waits (R174). -/
def State.countHeld (s : State) (p : Link) (c : Counter) : State × Bool :=
  match s.bump p c with
  | (s', true) => s'.takeEvent .counterCarry (carryDetail p c.index)
  | (s', false) => (s', false)

/-! ### Admission (R80 to R85) -/

/-- The outcome of one copy (R80). -/
inductive Verdict where
  | portDown
  | reserved
  | queueMax
  | shared
  | sharedLimit
deriving DecidableEq, Repr

/-- Whether the copy is admitted. -/
def Verdict.admits : Verdict → Bool
  | .reserved => true
  | .shared => true
  | _ => false

/-- The counter at which the Buffer Manager counts a refusal (R85). -/
def Verdict.counter : Verdict → Option Counter
  | .queueMax => some .queueMax
  | .sharedLimit => some .sharedLimit
  | _ => none

/-- The shared threshold T (R81). -/
def sharedThreshold (sharedFree alpha : Nat) : Nat := sharedFree * 2 ^ alpha / 16

/-- The outcome of the copy for queue (p, c) with the shared use at `u` (R80). -/
def State.verdict (s : State) (u : Nat) (p : Link) (c : Class) : Verdict :=
  let q := (s.queue p c).length
  let a := s.bm.params[c]
  let free := s.poolSize - u
  if !s.isUp p then .portDown
  else if q < a.reservation then .reserved
  else if a.maximum < q + 1 then .queueMax
  else if 1 ≤ free ∧ q - a.reservation < sharedThreshold free a.alpha then .shared
  else .sharedLimit

/-- The outcomes of the copies of one submission, in order, each seeing the shared use that the copies before it left (R83). -/
def State.verdicts (s : State) (c : Class) : Nat → List Link → List (Link × Verdict)
  | _, [] => []
  | u, p :: ps =>
    let v := s.verdict u p c
    (p, v) :: s.verdicts c (if v = .shared then u + 1 else u) ps

/-- The ports whose copies are admitted. -/
def admittedPorts (vs : List (Link × Verdict)) : List Link := (vs.filter fun v => v.2.admits).map (·.1)

/-- The ports whose copies are refused. -/
def refusedPorts (vs : List (Link × Verdict)) : List Link := (vs.filter fun v => !v.2.admits).map (·.1)

/-- The number of copies admitted to the shared pool. -/
def sharedCopies (vs : List (Link × Verdict)) : Nat := (vs.filter fun v => v.2 == .shared).length

/-- An entry naming buffer b placed at the tail of (p, c), and the new length reported (R84, R86). -/
def State.place (s : State) (b : Nat) (c : Class) (p : Link) : State :=
  let s1 := s.setQueue p c (s.queue p c ++ [b])
  State.testEntry { s1 with bm := { s1.bm with pool := s1.bm.pool - 1 } } p c

/-- The cell stored and its entries placed, when a copy is admitted (R84). With no free buffer, which R84 excludes, nothing
is stored (log 10). -/
def State.store (s : State) (cell : Cell) (c : Class) (vs : List (Link × Verdict)) : State :=
  match admittedPorts vs, s.bm.free with
  | [], _ => s
  | _ :: _, [] => s
  | p :: ps, b :: rest =>
    (p :: ps).foldl (fun s p => s.place b c p)
      { s with bm := { s.bm with
          free := rest,
          buffers := tableSet ⟨zeroCell, 0⟩ s.bm.buffers b ⟨cell, (p :: ps).length⟩,
          shared := s.bm.shared + sharedCopies vs } }

/-- The Buffer Manager's counts of refused copies, in order (R85); notices they call for wait (R174). -/
def countRefusals : List (Link × Verdict) → State × Bool → State × Bool
  | [], x => x
  | (p, v) :: vs, (s, called) =>
    match v.counter with
    | none => countRefusals vs (s, called)
    | some c => countRefusals vs ((s.countHeld p c).1, called || (s.countHeld p c).2)

/-- What a submission leaves: the state, whether a COUNTER_CARRY notice waits, and the outcomes (R78, R85). -/
structure Submission where
  s       : State
  called  : Bool
  results : List (Link × Verdict)

/-- One submission: admission of each copy, storage, and the counts of its refusals (R78 to R85). -/
def State.submit (s : State) (cell : Cell) (ports : List Link) (c : Class) : Submission :=
  let vs := s.verdicts c s.bm.shared ports
  let x := countRefusals vs (s.store cell c vs, false)
  ⟨x.1, x.2, vs⟩

/-! ### Emission of notices (R173, R174) -/

/-- What waits to be done for the notices of one event: an event to take, or an emission called for. -/
inductive Work where
  | take (k : NoticeKind) (d : Vector Byte 6)
  | emit (k : NoticeKind)
deriving DecidableEq, Repr

/-- NOTICE_LOST counted at each refused port, in order, with the COUNTER_CARRY events it raises, which are taken after the
emission has ended (R173, R174). -/
def countLost : List Link → State → State × List Work
  | [], s => (s, [])
  | p :: ps, s =>
    let x := s.bump p .noticeLost
    let y := countLost ps x.1
    (y.1, if x.2 then .take .counterCarry (carryDetail p Counter.noticeLost.index) :: y.2 else y.2)

/-- The emission of one notice (R173), and what its counts call for afterwards. R173 step 4 clears the pending count last, and with it a
COUNTER_CARRY event that the submission of a COUNTER_CARRY notice itself raised (DESIGN CHOICE, unsafe: log 26). -/
def State.emit (s : State) (k : NoticeKind) : State × List Work :=
  let n := s.kind k
  let sub := s.submit (noticeCell s.sru.elementId k n.pendingCount n.detail) (portList s.notices.ports) 0
  let lost := countLost (refusedPorts sub.results) sub.s
  let m := lost.1.kind k
  (lost.1.setKind k { m with pendingCount := 0, spent := m.spent || m.firstOnly },
   (if sub.called then [.emit .counterCarry] else []) ++ lost.2)

/-- Whether a kind still calls for the emission that waits: it is not spent and its pending count is at or above its interval
(R172, log 11). It does not after an emission of the same kind that cleared the count meanwhile (log 26). -/
def State.due (s : State) (k : NoticeKind) : Bool :=
  !(s.kind k).spent && decide ((s.kind k).interval ≤ (s.kind k).pendingCount)

/-- A bound on the work of one event, above the 98 items that R174's argument allows (log 13). -/
def settleBound : Nat := 256

/-- The waiting work done in order: an event taken is followed at once by the emission it calls for; what an emission's own
counts call for comes after what waits already (R174, log 13). -/
def settle : Nat → List Work → State → State
  | 0, _, s => s
  | _ + 1, [], s => s
  | n + 1, .take k d :: ws, s =>
    match s.takeEvent k d with
    | (s', true) => settle n (.emit k :: ws) s'
    | (s', false) => settle n ws s'
  | n + 1, .emit k :: ws, s =>
    if s.due k then settle n (ws ++ (s.emit k).2) (s.emit k).1 else settle n ws s

/-- A notice event handed to Counters and Notices outside a submission (R172). -/
def State.notify (s : State) (k : NoticeKind) (d : Vector Byte 6) : State := settle settleBound [.take k d] s

/-- A count raised outside a submission: a notice that its wrap calls for is emitted at once (R166, R172, log 12). -/
def State.count (s : State) (p : Link) (c : Counter) : State :=
  match s.bump p c with
  | (s', true) => s'.notify .counterCarry (carryDetail p c.index)
  | (s', false) => s'

/-- An event in progress. With `hold` set (DATAPATH_RESET, R162) a notice called for waits and is remembered in `called`. -/
structure Ev where
  s      : State
  hold   : Bool
  called : Bool

/-- A count raised within an event. -/
def Ev.count (e : Ev) (p : Link) (c : Counter) : Ev :=
  if e.hold then { e with s := (e.s.countHeld p c).1, called := e.called || (e.s.countHeld p c).2 }
  else { e with s := e.s.count p c }

/-- The waiting COUNTER_CARRY notice of an event, released. -/
def State.release (s : State) (called : Bool) : State :=
  if called then settle settleBound [.emit .counterCarry] s else s

/-- The submission of a DATA cell, with the notices it calls for after it (R67, R174). -/
def State.submitData (s : State) (cell : Cell) (ports : List Link) (c : Class) : State :=
  let sub := s.submit cell ports c
  sub.s.release sub.called

/-! ### Dequeue and flush (R87, R89) -/

/-- One entry fewer names buffer b: its reference count falls, and at 0 it becomes free at the tail of the free list (R73). -/
def State.dropRef (s : State) (b : Nat) : State :=
  let x := s.buffer b
  if x.refs ≤ 1 then
    { s with bm := { s.bm with buffers := tableSet ⟨zeroCell, 0⟩ s.bm.buffers b ⟨zeroCell, 0⟩, free := s.bm.free ++ [b] } }
  else
    { s with bm := { s.bm with buffers := tableSet ⟨zeroCell, 0⟩ s.bm.buffers b { x with refs := x.refs - 1 } } }

/-- The head entry of (p, c) removed with the accounting of R87 steps 2 to 5; nothing on an empty queue. -/
def State.removeHead (s : State) (p : Link) (c : Class) : State :=
  match s.queue p c with
  | [] => s
  | b :: q =>
    let u := if s.bm.params[c].reservation < (b :: q).length then s.bm.shared - 1 else s.bm.shared
    let s1 := s.setQueue p c q
    (State.testEntry { s1 with bm := { s1.bm with pool := s1.bm.pool + 1, shared := u } } p c).dropRef b

/-- n entries flushed from the head of (p, c), each counted LINK_FLUSH (R89). -/
def flushEntries (p : Link) (c : Class) : Nat → Ev → Ev
  | 0, e => e
  | n + 1, e => flushEntries p c n (Ev.count { e with s := e.s.removeHead p c } p .linkFlush)

/-- Queue (p, c) flushed head to tail. -/
def Ev.flushQueue (e : Ev) (p : Link) (c : Class) : Ev := flushEntries p c (e.s.queue p c).length e

/-- The four queues of port p flushed, C0 to C3 (R89). -/
def Ev.flushPort (e : Ev) (p : Link) : Ev :=
  (((e.flushQueue p 0).flushQueue p 1).flushQueue p 2).flushQueue p 3

/-- n counts of LINK_FLUSH at port p. -/
def countFlushes (p : Link) : Nat → Ev → Ev
  | 0, e => e
  | n + 1, e => countFlushes p n (e.count p .linkFlush)

/-- The Ingress FIFO of link p emptied: own hold flag clear, each entry counted LINK_FLUSH (R44, R45). -/
def Ev.emptyFifo (e : Ev) (p : Link) : Ev :=
  let n := e.s.fifos[p].entries.length
  let s1 := e.s.modFifo p fun f => { f with entries := [] }
  countFlushes p n { e with s := s1.modLink p fun l => { l with ownHold := false } }

/-- The window of port p closed and its pointer at window 0 (R108). -/
def Scheduler.close (x : Scheduler) : Scheduler := { x with w := 0, isOpen := false, budget := 0 }

/-- The staging schedule of port p applied (R107), with its SCHEDULE_APPLIED event. -/
def State.applyStaging (s : State) (p : Link) : State :=
  let s1 := s.modSched p fun x => { x.close with active := x.staging, pending := false }
  s1.notify .scheduleApplied (scheduleDetail p s1.scheds[p].active.length)

/-! ### The link state machine (R15, R17, R24) -/

/-- A training attempt begun, with the attempt count given (R15). -/
def beginAttempt (attempts : Nat) (l : LinkPort) : LinkPort :=
  { l with state := .training, attempts := attempts, run := 0, acknowledged := false, attemptTimer := ⟨0, true⟩,
           holdoffTimer := ⟨0, false⟩ }

/-- DISABLED entered: timers stopped, run 0, acknowledged flag clear (R29). -/
def enterDisabled (l : LinkPort) : LinkPort :=
  { l with state := .disabled, run := 0, acknowledged := false, attemptTimer := { l.attemptTimer with running := false },
           holdoffTimer := { l.holdoffTimer with running := false } }

/-- The Link Port's own part of leaving UP (R24). -/
def portLeavesUp (reason : DownReason) (disable : Bool) (l : LinkPort) : LinkPort :=
  let l1 := { l with lastDown := reason, attempts := 0, score := 0, liveness := 0, partnerHold := false }
  if disable then enterDisabled l1 else beginAttempt 0 l1

/-- Link p leaves UP: the Link Port's part (R24), the FIFO emptied, the queues flushed, the scheduler closed (R25), and the
LINK_STATE event (R26). R25 gives the blocks' parts at one event without an order; that the FIFO's entries are counted before the
queues are flushed is the model's choice (DESIGN CHOICE, unsafe: log 24). -/
def State.leaveUp (s : State) (p : Link) (reason : DownReason) (disable : Bool) : State :=
  let s1 := s.modLink p (portLeavesUp reason disable)
  let e := (Ev.emptyFifo ⟨s1, false, false⟩ p).flushPort p
  let s2 := e.s.modSched p Scheduler.close
  s2.notify .linkState
    (linkStateDetail p (if disable then .disabled else .training) .up reason 0)

/-- Link p enters UP (R17), with the Status Sender's values (R121) and the LINK_STATE event (R26). -/
def State.enterUp (s : State) (p : Link) : State :=
  let s1 := s.modLink p fun l =>
    { l with state := .up, attemptTimer := { l.attemptTimer with running := false }, run := 0, acknowledged := false,
             score := 0, liveness := 0, rxExpect := none, txSeq := 0 }
  let s2 := s1.modSender p fun _ => ⟨none, 0, 0⟩
  s2.notify .linkState (linkStateDetail p .up .training s2.links[p].lastDown s2.links[p].attempts)

/-! ### Transmission (R4, R5) -/

/-- Cell c sent on link p in class `cls`: link sequence, hold bit, class and check written, and the transmit sequence
advanced for a cell other than IDLE and TRAIN. -/
def State.transmit (s : State) (p : Link) (c : Cell) (cls : Class) : State :=
  let h := parseHeader c.header
  let t := cellTypeOf h.type
  let l := s.links[p]
  let h' := { h with seq := if t = .train then 0 else l.txSeq, hold := l.ownHold, cls := classBits cls }
  let s1 := s.setTx p (some ⟨encodeHeader h', c.payload⟩)
  if t = .idle ∨ t = .train then s1 else s1.modLink p fun l => { l with txSeq := l.txSeq + 1 }

/-! ### Banks (R130) -/

/-- The bank of a name. -/
def TableControl.bank (t : TableControl) : BankId → Bank
  | .a => t.bankA
  | .b => t.bankB

/-- The other bank. -/
def BankId.other : BankId → BankId
  | .a => .b
  | .b => .a

/-- The bank of a name, replaced. -/
def TableControl.setBank (t : TableControl) (name : BankId) (x : Bank) : TableControl :=
  match name with
  | .a => { t with bankA := x }
  | .b => { t with bankB := x }

/-- The name of the staging bank. -/
def TableControl.staging (t : TableControl) : BankId := t.active.other

/-- Route entry k of a bank (R11). -/
def Bank.route (b : Bank) (k : Nat) : RouteEntry := tableGet unusedRoute b.routes k

/-- Group entry k of a bank (R12). -/
def Bank.group (b : Bank) (k : Nat) : GroupEntry := tableGet emptyGroup b.groups k

/-- The banks swap (R139), with the COMMIT_DONE event SWAPPED. -/
def State.swap (s : State) : State :=
  let t := { s.tables with active := s.tables.active.other, commit := .mirroring 0 }
  State.notify { s with tables := t } .commitDone (commitDetail 1 t.active t.epoch)

end Sys2Proof.Machine
end

