-- ==== Sys2Proof/Machine/Sru.lean ====
section
/-! DEFINITION. The Service Request Unit: generic checks, completion, the building and submission of responses (chapter 9). -/

namespace Sys2Proof.Machine

/-- The word count that a request number needs; none for an unknown number (R153, 9.8). -/
def requestNeed (number : Nat) : Option Nat :=
  match number with
  | 1 => some 0
  | 2 => some 23
  | 3 => some 2
  | 4 => some 23
  | 5 => some 2
  | 6 => some 2
  | 7 => some 0
  | 8 => some 1
  | 9 => some 0
  | 10 => some 9
  | 11 => some 2
  | 12 => some 1
  | 13 => some 4
  | 14 => some 3
  | 15 => some 2
  | 16 => some 1
  | 17 => some 4
  | 18 => some 1
  | 19 => some 3
  | 20 => some 2
  | 21 => some 3
  | 22 => some 4
  | 23 => some 2
  | 24 => some 0
  | _ => none

/-- The code with which the generic checks end a request; none when it passes them (R153). -/
def genericFailure (r : Request) : Option Code :=
  match requestNeed r.number.toNat with
  | none => some .badRequest
  | some need =>
    if 24 < r.wordCount then some .badLength
    else if r.wordCount < need then some .badLength
    else if r.payloadLength < 4 + 2 * r.wordCount then some .badLength
    else none

/-- What a request's own chapter makes of it: a refusal, or the state it leaves with the output words it writes. -/
inductive Reply where
  | refuse (c : Code)
  | done (s : State) (outputs : List (Nat × Word))

/-- The block of a response, by its code (R8, R155). -/
def replyWords (r : Request) (code : Code) (outputs : List (Nat × Word)) : List Word :=
  match code with
  | .ok => okWords r outputs
  | .badRequest => []
  | .badLength => []
  | .srqFull => []
  | _ => receivedWords r

/-- RSP_LOST counted for a refused response, notices waiting (R157). -/
def countRspLost : List Link → State × Bool → State × Bool
  | [], x => x
  | p :: ps, (s, called) => countRspLost ps ((s.countHeld p .rspLost).1, called || (s.countHeld p .rspLost).2)

/-- A response built with the element ID in force and submitted for (arrival port, C0); a refusal is counted RSP_LOST (R155,
R157). A notice its counts call for follows it (R174). -/
def Ev.respond (e : Ev) (r : Request) (code : Code) (words : List Word) : Ev :=
  let sub := e.s.submit (responseCell e.s.sru.elementId r.number r.tag code words) [r.port] 0
  let x := countRspLost (refusedPorts sub.results) (sub.s, sub.called)
  if e.hold then { e with s := x.1, called := e.called || x.2 } else { e with s := x.1.release x.2 }

/-- The answer to an executed request: none for OK with QUIET (R156). -/
def Ev.answer (e : Ev) (r : Request) (code : Code) (outputs : List (Nat × Word)) : Ev :=
  if r.quiet && code == .ok then e else e.respond r code (replyWords r code outputs)

/-- The head request leaves the SRQ (R152). -/
def State.popRequest (s : State) : State := { s with sru := { s.sru with srq := s.sru.srq.tail } }

/-- One execution event of request r, the head of the SRQ: the generic checks, then the request's own chapter (R151 to R153).
The request leaves the SRQ and is answered. -/
def State.execute (s : State) (r : Request) (body : Request → State → Reply) : State :=
  let s0 := s.popRequest
  match genericFailure r with
  | some c => (Ev.answer ⟨s0, false, false⟩ r c []).s
  | none =>
    match body r s0 with
    | .refuse c => (Ev.answer ⟨s0, false, false⟩ r c []).s
    | .done s1 outputs => (Ev.answer ⟨s1, false, false⟩ r .ok outputs).s

/-- The head of the SRQ, when the SRU may execute it and its number is one the command stands for (R151, R177, log 3). -/
def State.headFor (s : State) (mine : Nat → Bool) : Option Request :=
  if s.resetAsserted then none
  else match s.sru.srq with
    | [] => none
    | r :: _ => if mine r.number.toNat then some r else none

/-- The execution of the head request when its number is one the command stands for; nothing otherwise (log 3). -/
def State.serve (s : State) (mine : Nat → Bool) (body : Request → State → Reply) : State :=
  match s.headFor mine with
  | none => s
  | some r => s.execute r body

end Sys2Proof.Machine
end

