-- ==== Sys2Proof/Machine/BufferRequests.lean ====
section
/-! DEFINITION. The requests of chapters 5 and 7: SET_ADMISSION, READ_BUFFER_STATE, SET_FLOW, SET_STATUS_TIMING. -/

namespace Sys2Proof.Machine

/-- SET_ADMISSION (R92, R93). S' below U' is stated without a negative number: 12,288 below RT' + U'. -/
def setAdmissionBody (r : Request) (s : State) : Reply :=
  let reservation := (blockWord r 1).toNat
  let maximum := (blockWord r 2).toNat
  let alpha := clamp 0 7 (lo8 (blockWord r 3)).toNat
  match classOfByte (lo8 (blockWord r 0)) with
  | none => .refuse .range
  | some c =>
    if 255 < reservation then .refuse .range
    else if maximum = 0 ∨ Config.bufferCount < maximum then .refuse .range
    else
      let params := upd s.bm.params c ⟨reservation, maximum, alpha⟩
      let rt := totalReservation params
      let u := sharedUse s params
      if Config.bufferCount < rt + u then .refuse .admissionConflict
      else
        .done { s with bm := { s.bm with params := params, shared := u } }
          [(3, mkWord 0 (natByte alpha)), (4, natWord rt), (5, natWord (Config.bufferCount - rt)), (6, natWord u),
           (7, natWord (Config.bufferCount - rt - u))]

/-- The map states of a port's four entries in bits 3-0 of a word (R95). -/
def mapWord (v : Vector Bool 4) : Word :=
  ((BitVec.ofBool v[3] ++ BitVec.ofBool v[2] ++ BitVec.ofBool v[1] ++ BitVec.ofBool v[0] : BitVec 4)).setWidth 16

/-- READ_BUFFER_STATE (R95). -/
def readBufferStateBody (r : Request) (s : State) : Reply :=
  match linkOf (lo8 (blockWord r 0)) with
  | none => .refuse .range
  | some p =>
    .done s
      [(1, natWord s.bm.free.length), (2, natWord s.poolSize), (3, natWord s.bm.shared), (4, natWord s.sharedFree),
       (5, natWord s.queuedTotal), (6, natWord (s.queue p 0).length), (7, natWord (s.queue p 1).length),
       (8, natWord (s.queue p 2).length), (9, natWord (s.queue p 3).length), (10, mapWord s.cmap.held[p])]

/-- The entries of class c tested again for each port of a list, in order (R127). -/
def State.retestClass (s : State) (c : Class) : List Link → State
  | [] => s
  | p :: ps => State.retestClass (s.testEntry p c) c ps

/-- SET_FLOW (R126, R127). -/
def setFlowBody (r : Request) (s : State) : Reply :=
  let xoff := (blockWord r 1).toNat
  let xon := (blockWord r 2).toNat
  match classOfByte (lo8 (blockWord r 0)) with
  | none => .refuse .range
  | some c =>
    if xoff < 2 ∨ Config.bufferCount < xoff then .refuse .range
    else if xoff ≤ xon then .refuse .badParam
    else
      let s1 := { s with cmap := { s.cmap with thresholds := upd s.cmap.thresholds c ⟨xoff, xon⟩ } }
      let s2 := State.retestClass s1 c (List.finRange 24)
      let heldPorts := portsWhere fun p => s2.cmap.held[p][c]
      .done s2 [(3, portsLow heldPorts), (4, portsHigh heldPorts), (5, s2.cmap.version)]

/-- SET_STATUS_TIMING (R128). -/
def setStatusTimingBody (r : Request) (s : State) : Reply :=
  let spacing := clamp 2 64 (blockWord r 0).toNat
  let refresh := clamp 256 65535 (blockWord r 1).toNat
  .done { s with timing := ⟨spacing, refresh⟩ } [(0, natWord spacing), (1, natWord refresh)]

def execSetAdmission (s : State) : Host.Outcome State Fault Refusal := .next (s.serve (· == 13) setAdmissionBody)

def execSetFlow (s : State) : Host.Outcome State Fault Refusal := .next (s.serve (· == 14) setFlowBody)

def execSetStatusTiming (s : State) : Host.Outcome State Fault Refusal := .next (s.serve (· == 15) setStatusTimingBody)

def execReadBufferState (s : State) : Host.Outcome State Fault Refusal := .next (s.serve (· == 16) readBufferStateBody)

end Sys2Proof.Machine
end

