-- ==== Sys2Proof/Machine/CounterRequests.lean ====
section
/-! DEFINITION. The requests of chapter 10: READ_COUNTERS, CLEAR_CARRY, SET_NOTICE. -/

namespace Sys2Proof.Machine

/-- Counter i of a port, 0 beyond counter 17. -/
def counterAt (pc : PortCounters) (i : Nat) : BitVec 32 := pc.values.toList.getD i 0

/-- The carry flags of counters first to first + count - 1, flag i in bit 15 - i (R168). -/
def carryFlags (pc : PortCounters) (first count : Nat) : Word :=
  (List.range count).foldl
    (fun w i => if pc.carry.getLsbD (first + i) then w ||| BitVec.twoPow 16 (15 - i) else w) 0

/-- READ_COUNTERS (R168). -/
def readCountersBody (r : Request) (s : State) : Reply :=
  let port := (blockWord r 0).extractLsb' 0 5
  let first := (hi8 (blockWord r 1)).toNat
  let count := (lo8 (blockWord r 1)).toNat
  match linkOf (port.setWidth 8) with
  | none => .refuse .range
  | some p =>
    if 17 < first then .refuse .range
    else if count = 0 ∨ 11 < count then .refuse .range
    else if 18 < first + count then .refuse .range
    else
      let pc := s.counters[p]
      .done s ((0, carryFlags pc first count ||| port.setWidth 16) ::
        (List.range count).flatMap fun i =>
          [(2 + 2 * i, (counterAt pc (first + i)).extractLsb' 16 16), (3 + 2 * i, (counterAt pc (first + i)).extractLsb' 0 16)])

/-- The index set of CLEAR_CARRY (R169). -/
def indexSet (w1 w2 : Word) : BitVec 18 := (w2.extractLsb' 0 2 ++ w1 : BitVec (2 + 16))

/-- The carry mask after a mask action: 1 MASK, 2 UNMASK, 0 NONE (R169). -/
def maskAfter (action : BitVec 2) (selected mask : BitVec 18) : BitVec 18 :=
  if action = 1 then mask ||| selected else if action = 2 then mask &&& ~~~selected else mask

/-- CLEAR_CARRY (R169). -/
def clearCarryBody (r : Request) (s : State) : Reply :=
  let action := (blockWord r 0).extractLsb' 14 2
  let selected := indexSet (blockWord r 1) (blockWord r 2)
  match linkOf (lo8 (blockWord r 0)) with
  | none => .refuse .range
  | some p =>
    if action = 3 then .refuse .badParam
    else
      let pc := s.counters[p]
      .done { s with counters := upd s.counters p { pc with carry := pc.carry &&& ~~~selected },
                     carryMask := maskAfter action selected s.carryMask } []

/-- The settings of a notice kind stored (R176 step 2). -/
def noticeSettings (w0 w1 : Word) (n : NoticeState) : NoticeState :=
  { n with enabled := w0.getLsbD 6, firstOnly := w0.getLsbD 5, interval := clamp 1 256 w1.toNat,
           spent := n.spent && w0.getLsbD 5 }

/-- A notice kind rearmed (R176 step 3). -/
def rearmed (n : NoticeState) : NoticeState := { n with spent := false, pendingCount := 0 }

/-- SET_NOTICE (R175, R176). -/
def setNoticeBody (r : Request) (s : State) : Reply :=
  let w0 := blockWord r 0
  match noticeKindOf (hi8 w0) with
  | none => .refuse .range
  | some k =>
    let ports := if w0.getLsbD 3 then portSet (blockWord r 2) (blockWord r 3) else s.notices.ports
    let n1 := if w0.getLsbD 7 then noticeSettings w0 (blockWord r 1) (s.kind k) else s.kind k
    let n2 := if w0.getLsbD 4 then rearmed n1 else n1
    let s1 := { s with notices := { s.notices with ports := ports } }.setKind k n2
    .done s1
      [(1, natWord n2.interval), (2, portsLow ports), (3, portsHigh ports), (4, natWord n2.pendingCount),
       (5, BitVec.ofBool n2.enabled ++ BitVec.ofBool n2.firstOnly ++ BitVec.ofBool n2.spent ++ (0 : BitVec 13)),
       (6, s.carryMask.extractLsb' 0 16), (7, (s.carryMask.extractLsb' 16 2).setWidth 16)]

def execReadCounters (s : State) : Host.Outcome State Fault Refusal := .next (s.serve (· == 20) readCountersBody)

def execClearCarry (s : State) : Host.Outcome State Fault Refusal := .next (s.serve (· == 21) clearCarryBody)

def execSetNotice (s : State) : Host.Outcome State Fault Refusal := .next (s.serve (· == 22) setNoticeBody)

end Sys2Proof.Machine
end

