-- ==== Sys2Proof/Machine/Egress.lean ====
section
/-! DEFINITION. EGRESS_SLOT: status cells (R122 to R124), held slots (R100), and the service of schedules (R101 to R107). -/

namespace Sys2Proof.Machine

/-- A schedule that holds a FIXED window (R97). -/
def isFixedSchedule (ws : List Window) : Bool := ws.any fun x => x.mode == .fixed

/-- Window w of a schedule. A pointer that names no window, which R96 excludes, reads as an empty DRAIN window of C0. -/
def windowAt (ws : List Window) (w : Nat) : Window := ws.getD w ⟨0, .drain, 0⟩

/-- What a pass over a non-fixed schedule comes to (R102). -/
inductive PassResult where
  /-- Window `w` is open with budget `b` and its queue holds an entry. -/
  | found (w b : Nat)
  /-- Every window was examined and found empty (R104). -/
  | idle
  /-- The pass crossed a wrap with the pending flag set (R107). -/
  | wrapped
deriving DecidableEq, Repr

/-- The pass of R102 with `left` windows still to examine, standing at window w. `busy c` says that the queue of class c holds an
entry. -/
def windowPass (ws : List Window) (busy : Vector Bool 4) (pending : Bool) : Nat → Nat → Bool → Nat → PassResult
  | 0, _, _, _ => .idle
  | left + 1, w, isOpen, b =>
    let x := windowAt ws w
    if busy[x.cls] then .found w (if isOpen then b else x.budget)
    else if left = 0 then .idle
    else if w + 1 < ws.length then windowPass ws busy pending left (w + 1) false 0
    else if pending then .wrapped
    else windowPass ws busy pending left 0 false 0

/-- The classes of port p whose queues hold an entry. -/
def State.busyClasses (s : State) (p : Link) : Vector Bool 4 := Vector.ofFn fun c => !(s.queue p c).isEmpty

/-- The head of (p, c) dequeued and sent, then counted TX_CELLS (R87, R101; the order of the count: log 25). -/
def State.sendHead (s : State) (p : Link) (c : Class) : State :=
  match s.queue p c with
  | [] => s
  | b :: _ => ((s.removeHead p c).transmit p (s.buffer b).cell c).count p .txCells

/-- An IDLE cell sent on link p. -/
def State.sendIdle (s : State) (p : Link) : State := s.transmit p idleCell 0

/-- Window w closed and the pointer advanced; a wrap with the pending flag set applies the staging schedule (R103, R105 to R107). -/
def State.advanceWindow (s : State) (p : Link) (w : Nat) : State :=
  let x := s.scheds[p]
  if w + 1 < x.active.length then s.modSched p fun x => { x with w := w + 1, isOpen := false, budget := 0 }
  else
    let s1 := s.modSched p Scheduler.close
    if x.pending then s1.applyStaging p else s1

/-- Window w of a schedule after it has used one unit of its budget b (R103, R105). -/
def State.spendBudget (s : State) (p : Link) (w b : Nat) : State :=
  if b - 1 = 0 then s.advanceWindow p w
  else s.modSched p fun x => { x with w := w, isOpen := true, budget := b - 1 }

/-- A served slot of a fixed schedule (R105). -/
def State.fixedSlot (s : State) (p : Link) : State :=
  let x := s.scheds[p]
  let win := windowAt x.active x.w
  let b := if x.isOpen then x.budget else win.budget
  let s1 := if (s.queue p win.cls).isEmpty then s.sendIdle p else s.sendHead p win.cls
  s1.spendBudget p x.w b

/-- A served slot of a non-fixed schedule that found window w non-empty with budget b (R101, R103). -/
def State.foundSlot (s : State) (p : Link) (w b : Nat) : State :=
  let win := windowAt s.scheds[p].active w
  let s1 := s.sendHead p win.cls
  match win.mode with
  | .drain => s1.modSched p fun x => { x with w := w, isOpen := true, budget := b }
  | .limited => s1.spendBudget p w b
  | .fixed => s1.spendBudget p w b

/-- An idle slot (R104): IDLE sent, the pointer where the pass began, closed, and a pending schedule applied. -/
def State.idleSlot (s : State) (p : Link) : State :=
  let s1 := (s.sendIdle p).modSched p fun x => { x with isOpen := false, budget := 0 }
  if s1.scheds[p].pending then s1.applyStaging p else s1

/-- A served slot (R98 case 3). A wrap inside a pass applies the staging schedule and the slot starts afresh under it (R107);
that clears the pending flag, so a second round is the last. -/
def State.servedSlot (p : Link) : Nat → State → State
  | 0, s => s
  | rounds + 1, s =>
    let x := s.scheds[p]
    if isFixedSchedule x.active then s.fixedSlot p
    else match windowPass x.active (s.busyClasses p) x.pending x.active.length x.w x.isOpen x.budget with
      | .found w b => s.foundSlot p w b
      | .idle => s.idleSlot p
      | .wrapped => State.servedSlot p rounds (s.applyStaging p)

/-- A status cell built and sent, and the Status Sender told (R99, R124). -/
def State.sendStatus (s : State) (p : Link) : State :=
  let s1 := s.transmit p (statusCell s.sru.elementId s.cmap s.sharedFree) 0
  (s1.modSender p fun _ => ⟨some s.cmap.version, 0, 0⟩).count p .txCells

/-- One egress slot of a link in UP (R98). -/
def State.slotUp (s : State) (p : Link) : State :=
  let s1 := s.modSender p slotCountsRise
  if statusDue s1.senders[p] s1.timing s1.cmap.version then s1.sendStatus p
  else if s1.links[p].partnerHold then s1.sendIdle p
  else State.servedSlot p 2 s1

/-- One egress slot of link p (R13, R98). -/
def State.egress (s : State) (p : Link) : State :=
  if s.resetAsserted then s.setTx p none
  else match s.links[p].state with
    | .up => s.slotUp p
    | .training => if s.links[p].acknowledged then s.sendIdle p else s.transmit p trainCell 0
    | .disabled => s.setTx p none
    | .holdoff => s.setTx p none
    | .failed => s.setTx p none

/-- EGRESS_SLOT. -/
def execEgressSlot (p : Link) (s : State) : Host.Outcome State Fault Refusal := .next (s.egress p)

end Sys2Proof.Machine
end

