-- ==== Sys2Proof/Machine/ElementRequests.lean ====
section
/-! DEFINITION. The requests that the SRU owns (chapter 9): UNKNOWN_REQUEST, IDENTIFY, SET_ELEMENT_ADDRESS, DATAPATH_RESET. -/

namespace Sys2Proof.Machine

/-- A request number that names no request: 0 or 25-255 (R153). -/
def unknownNumber (number : Nat) : Bool := (requestNeed number).isNone

/-- UNKNOWN_REQUEST: check 1 of the generic checks ends it with BAD_REQUEST, so this body is not reached (R153). -/
def unknownRequestBody (_ : Request) (_ : State) : Reply := .refuse .badRequest

/-- IDENTIFY (R159). -/
def identifyBody (_ : Request) (s : State) : Reply :=
  .done s
    [(0, Config.vendorCode), (1, Config.partCode), (2, mkWord Config.revision s.sru.elementId),
     (3, mkWord s.sru.strap s.sru.idMask), (4, mkWord (if s.sru.broadcast then 1 else 0) (bankCode s.tables.active)),
     (5, s.tables.epoch)]

/-- SET_ELEMENT_ADDRESS (R160, R161). -/
def setElementAddressBody (r : Request) (s : State) : Reply :=
  let id := lo8 (blockWord r 0)
  let w1 := blockWord r 1
  if id = 255 then .refuse .range
  else .done { s with sru := { s.sru with elementId := id, idMask := lo8 w1, broadcast := w1.getLsbD 8 } } []

/-- Step 1 of DATAPATH_RESET: the FIFOs of a list of links emptied (R162). -/
def emptyFifos : List Link → Ev → Ev
  | [], e => e
  | p :: ps, e => emptyFifos ps (e.emptyFifo p)

/-- Step 2 of DATAPATH_RESET: the queues of a list of ports flushed (R162, R90). -/
def flushPorts : List Link → Ev → Ev
  | [], e => e
  | p :: ps, e => flushPorts ps (e.flushPort p)

/-- The end of step 2, and steps 3 and 4: the free list rebuilt, the map reset, every window closed (R90, R120, R108). -/
def State.rebuild (s : State) : State :=
  { s with bm := { s.bm with free := List.range Config.bufferCount },
           cmap := { s.cmap with held := Vector.replicate 24 (Vector.replicate 4 false), version := s.cmap.version + 1 },
           scheds := s.scheds.map Scheduler.close }

/-- Steps 1 to 4 of DATAPATH_RESET, notices held (R162). -/
def State.resetDatapath (s : State) : Ev :=
  let e := flushPorts (List.finRange 24) (emptyFifos (List.finRange 24) ⟨s, true, false⟩)
  { e with s := e.s.rebuild }

/-- DATAPATH_RESET executed on request r: the generic checks, steps 1 to 4, the response, the held notices (R162, R163). -/
def State.executeReset (s : State) (r : Request) : State :=
  let s0 := s.popRequest
  match genericFailure r with
  | some c => (Ev.answer ⟨s0, false, false⟩ r c []).s
  | none =>
    let e := s0.resetDatapath.answer r .ok []
    e.s.release e.called

def execUnknownRequest (s : State) : Host.Outcome State Fault Refusal := .next (s.serve unknownNumber unknownRequestBody)

def execIdentify (s : State) : Host.Outcome State Fault Refusal := .next (s.serve (· == 1) identifyBody)

def execSetElementAddress (s : State) : Host.Outcome State Fault Refusal := .next (s.serve (· == 23) setElementAddressBody)

/-- DATAPATH_RESET, when it is the head of the SRQ. -/
def execDatapathReset (s : State) : Host.Outcome State Fault Refusal :=
  .next (match s.headFor (· == 24) with
    | none => s
    | some r => s.executeReset r)

end Sys2Proof.Machine
end

