-- ==== Sys2Proof/Machine/Forwarding.lean ====
section
/-! DEFINITION. FORWARDING_EVENT: the arbiter (R52), the taking of an entry (R42), route lookup and replication (R57 to R67),
and the hand-over to the SRU (R145 to R149). -/

namespace Sys2Proof.Machine

/-- The links in the order in which the arbiter examines them: L + 1 to L + 24, mod 24 (R52). -/
def arbiterOrder (l : Link) : List Link := (List.finRange 24).map fun i => l + 1 + i

/-- The link that the arbiter chooses; none when no FIFO holds an entry (R52). -/
def State.chosenLink (s : State) : Option Link := (arbiterOrder s.arbiter).find? fun p => !s.fifos[p].entries.isEmpty

/-- The queue class of a DATA cell (R66). -/
def queueClass (e : RouteEntry) (h : Header) : Class := if e.overridePresent then e.overrideClass else classOf h.cls

/-- A count raised at each port of a list, in order. -/
def countEach (c : Counter) : List Link → State → State
  | [], s => s
  | p :: ps, s => countEach c ps (s.count p c)

/-- The ports that a group leads to from an arrival port, before pruning, in ascending order (R64 steps 1, 2 and 4). -/
def groupPorts (g : GroupEntry) (arrival : Link) : List Link :=
  (portList g.members).filter fun q => g.returnToSource || decide (q ≠ arrival)

/-- A multicast DATA cell: members that are not UP pruned and counted, the rest then submitted (R64, R65; the order of the counts:
log 25). -/
def State.forwardMulticast (s : State) (p : Link) (c : Cell) (g : GroupEntry) (cls : Class) : State :=
  let ports := groupPorts g p
  let copySet := ports.filter fun q => s.isUp q
  let s1 := countEach .mcastPruned (ports.filter fun q => !s.isUp q) s
  if copySet.isEmpty then s1.count p .routeDown else s1.submitData c copySet cls

/-- A unicast DATA cell: the primary port, or the alternate, counted before the submission (log 25), or none (R61, R62). -/
def State.forwardUnicast (s : State) (p : Link) (c : Cell) (e : RouteEntry) (cls : Class) : State :=
  if s.isUp e.primary then s.submitData c [e.primary] cls
  else if e.altPresent && s.isUp e.alternate then (s.count e.alternate .failover).submitData c [e.alternate] cls
  else s.count p .routeDown

/-- A DATA cell looked up in the active bank and handed over or discarded (R57 to R67). -/
def State.forwardData (s : State) (p : Link) (c : Cell) : State :=
  let h := parseHeader c.header
  let bank := s.tables.bank s.tables.active
  let e := bank.route h.fdi.toNat
  match e.kind with
  | .unused => s.count p .noRoute
  | .discard => s.count p .routeDiscard
  | .unicast => s.forwardUnicast p c e (queueClass e h)
  | .multicast => s.forwardMulticast p c (bank.group e.group.toNat) (queueClass e h)

/-- Whether a target matches the element address (R145). -/
def Sru.addressMatches (x : Sru) (target : Byte) : Bool :=
  if target = 255 then x.broadcast else decide ((target ^^^ x.elementId) &&& ~~~x.idMask = 0)

/-- A matching request queued, or answered SRQ_FULL with its SRQ_OVERFLOW event (R148, R149). -/
def State.queueRequest (s : State) (r : Request) : State :=
  if s.sru.srq.length < Config.srqDepth then { s with sru := { s.sru with srq := s.sru.srq ++ [r] } }
  else
    let e := Ev.respond ⟨s, false, false⟩ r .srqFull []
    e.s.notify .srqOverflow (overflowDetail r.port r.number r.tag)

/-- A MGMT_REQ cell handed to the SRU (R55, R145, R146). -/
def State.handToSru (s : State) (p : Link) (c : Cell) : State :=
  if s.sru.addressMatches (targetOf c) then s.queueRequest (requestOf p c) else s.count p .foreignMgmt

/-- The head entry of link p taken: latches, own hold flag, arbiter position (R42, R45, R51). -/
def State.takeEntry (s : State) (p : Link) (e : FifoEntry) (rest : List FifoEntry) : State :=
  let s1 := s.modFifo p fun f => { latchTaken f e with entries := rest }
  let s2 := s1.modLink p fun l => { l with ownHold := ownHoldAfter rest.length l.ownHold }
  { s2 with arbiter := p }

/-- A taken cell acted on by its type (R54). IDLE, TRAIN and invalid cells never stand in a FIFO (R54). -/
def State.forwardCell (s : State) (p : Link) (c : Cell) : State :=
  match cellTypeOf (parseHeader c.header).type with
  | .data => s.forwardData p c
  | .mgmtReq => s.handToSru p c
  | .mgmtRsp => s.count p .unexpectedType
  | .status => s.count p .unexpectedType
  | .notice => s.count p .unexpectedType
  | .idle => s
  | .train => s
  | .invalid => s

/-- One forwarding event; nothing when no FIFO holds an entry (R52). -/
def State.forward (s : State) : State :=
  if s.resetAsserted then s
  else match s.chosenLink with
    | none => s
    | some p =>
      match s.fifos[p].entries with
      | [] => s
      | e :: rest => (s.takeEntry p e rest).forwardCell p e.cell

/-- FORWARDING_EVENT. -/
def execForwardingEvent (s : State) : Host.Outcome State Fault Refusal := .next s.forward

end Sys2Proof.Machine
end

