-- ==== Sys2Proof/Machine/ScheduleRequests.lean ====
section
/-! DEFINITION. The requests of chapter 6: WRITE_SCHEDULE, APPLY_SCHEDULE, READ_SCHEDULE. -/

namespace Sys2Proof.Machine

/-- The windows of a WRITE_SCHEDULE; none when one has mode field 3 (R110, R111 check 3). -/
def givenWindows (r : Request) (count : Nat) : Option (List Window) :=
  (List.range count).mapM fun i => windowOfWord (blockWord r (1 + i))

/-- A LIMITED or FIXED window of budget 0 (R111 check 4). -/
def emptyBudget (x : Window) : Bool := x.mode != .drain && decide (x.budget = 0)

/-- FIXED and DRAIN windows together (R111 check 5). -/
def mixesFixedAndDrain (ws : List Window) : Bool := (ws.any fun x => x.mode == .fixed) && ws.any fun x => x.mode == .drain

/-- WRITE_SCHEDULE (R110, R111). -/
def writeScheduleBody (r : Request) (s : State) : Reply :=
  let count := (hi8 (blockWord r 0)).toNat
  match linkOf (lo8 (blockWord r 0)) with
  | none => .refuse .range
  | some p =>
    if count = 0 ∨ 8 < count then .refuse .range
    else match givenWindows r count with
      | none => .refuse .badParam
      | some ws =>
        if ws.any emptyBudget then .refuse .badParam
        else if mixesFixedAndDrain ws then .refuse .badParam
        else if s.scheds[p].pending then .refuse .schedulePending
        else .done (s.modSched p fun x => { x with staging := ws }) []

/-- The effect of APPLY_SCHEDULE on one port (R112). -/
def State.applyPort (s : State) (p : Link) : State :=
  if s.isUp p then s.modSched p fun x => { x with pending := true } else s.applyStaging p

/-- An operation done on each port of a list, in order. -/
def forPorts (f : State → Link → State) : List Link → State → State
  | [], s => s
  | p :: ps, s => forPorts f ps (f s p)

/-- APPLY_SCHEDULE (R112). -/
def applyScheduleBody (r : Request) (s : State) : Reply :=
  let s1 := forPorts State.applyPort (portList (portSet (blockWord r 0) (blockWord r 1))) s
  let flags := portsWhere fun p => s1.scheds[p].pending
  .done s1 [(2, portsLow flags), (3, portsHigh flags)]

/-- The words of a schedule's eight places, 0 beyond its window count (R114). -/
def scheduleWords (ws : List Window) : List Word :=
  (List.range 8).map fun i => match ws[i]? with | some x => windowWord x | none => 0

/-- READ_SCHEDULE (R114). -/
def readScheduleBody (r : Request) (s : State) : Reply :=
  let selector := hi8 (blockWord r 0)
  match linkOf (lo8 (blockWord r 0)) with
  | none => .refuse .range
  | some p =>
    if 1 < selector.toNat then .refuse .range
    else
      let x := s.scheds[p]
      let ws := if selector = 0 then x.active else x.staging
      let state : Byte := BitVec.ofBool x.pending ++ BitVec.ofBool x.isOpen ++ (0 : BitVec 3) ++ BitVec.ofNat 3 x.w
      .done s ([(1, mkWord (natByte ws.length) state), (2, mkWord 0 (natByte x.budget))] ++
        (List.range 8).map fun i => (3 + i, (scheduleWords ws).getD i 0))

def execWriteSchedule (s : State) : Host.Outcome State Fault Refusal := .next (s.serve (· == 10) writeScheduleBody)

def execApplySchedule (s : State) : Host.Outcome State Fault Refusal := .next (s.serve (· == 11) applyScheduleBody)

def execReadSchedule (s : State) : Host.Outcome State Fault Refusal := .next (s.serve (· == 12) readScheduleBody)

end Sys2Proof.Machine
end

