-- ==== Sys2Proof/Machine/LinkRequests.lean ====
section
/-! DEFINITION. The requests of chapters 2 and 3: LINK_CONTROL, READ_LINK_STATUS, CLEAR_LINK_STATUS. -/

namespace Sys2Proof.Machine

/-- The actions of LINK_CONTROL (R28). -/
inductive LinkAction where
  | none
  | enable
  | disable
  | retrain
deriving DecidableEq, Repr

/-- The action of a four-bit code; none of them for 4-15 (R28). -/
def linkActionOf (b : BitVec 4) : Option LinkAction :=
  if b = 0 then some .none else if b = 1 then some .enable else if b = 2 then some .disable
  else if b = 3 then some .retrain else Option.none

/-- The action on one link, by its state (R29). -/
def State.linkAction (s : State) (a : LinkAction) (p : Link) : State :=
  match a, s.links[p].state with
  | .none, _ => s
  | .enable, .up => s.leaveUp p .command false
  | .enable, _ => s.modLink p (beginAttempt 0)
  | .disable, .disabled => s
  | .disable, .up => s.leaveUp p .command true
  | .disable, _ => s.modLink p enterDisabled
  | .retrain, .disabled => s
  | .retrain, .up => s.leaveUp p .command false
  | .retrain, _ => s.modLink p (beginAttempt 0)

/-- The flagged settings of LINK_CONTROL stored for one link, clamped (R27, R28, R30). -/
def linkSettings (w0 w3 : Word) (l : LinkPort) : LinkPort :=
  { l with retrainLimit := if w0.getLsbD 11 then clamp 1 15 (hi8 w3).toNat else l.retrainLimit,
           truncation := if w0.getLsbD 10 then clamp 1 10 (lo8 w3).toNat else l.truncation }

/-- The word of the link states of ports 2i and 2i + 1 (R28). -/
def linkStatesWord (s : State) (i : Fin 12) : Word :=
  mkWord (linkStateCode (s.links[2 * i.val]'(by omega)).state) (linkStateCode (s.links[2 * i.val + 1]'(by omega)).state)

/-- LINK_CONTROL (R28 to R30): port by port in ascending order, settings before action. -/
def linkControlBody (r : Request) (s : State) : Reply :=
  let w0 := blockWord r 0
  match linkActionOf (w0.extractLsb' 12 4) with
  | Option.none => .refuse .badParam
  | some a =>
    let s1 := forPorts (fun s p => (s.modLink p (linkSettings w0 (blockWord r 3))).linkAction a p)
      (portList (portSet (blockWord r 1) (blockWord r 2))) s
    .done s1 ((List.finRange 12).map fun i => (4 + i.val, linkStatesWord s1 i))

/-- Word 3 of READ_LINK_STATUS (R48). -/
def linkFlagsWord (l : LinkPort) (f : IngressFifo) : Word :=
  (0 : BitVec 5) ++ BitVec.ofNat 3 f.entries.length ++ (0 : BitVec 2) ++ BitVec.ofBool l.ownHold ++ BitVec.ofBool l.partnerHold ++
    BitVec.ofBool f.hdrErrSeen ++ BitVec.ofBool f.formatErrSeen ++ BitVec.ofBool f.seqGapSeen ++ BitVec.ofBool f.overrunSeen

/-- Word 5 of READ_LINK_STATUS (R48). -/
def expectationWord (e : Option Byte) : Word :=
  match e with
  | some x => mkWord 0x80 x
  | Option.none => 0

/-- READ_LINK_STATUS (R48). -/
def readLinkStatusBody (r : Request) (s : State) : Reply :=
  match linkOf (lo8 (blockWord r 0)) with
  | Option.none => .refuse .range
  | some p =>
    let l := s.links[p]
    .done s
      [(1, mkWord (linkStateCode l.state) (natByte l.attempts)),
       (2, mkWord (downReasonCode l.lastDown) (natByte l.score)),
       (3, linkFlagsWord l s.fifos[p]),
       (4, mkWord (natByte l.retrainLimit) (natByte l.truncation)),
       (5, expectationWord l.rxExpect)]

/-- The selected latched flags cleared (R49). -/
def clearFlags (w : Word) (f : IngressFifo) : IngressFifo :=
  { f with hdrErrSeen := f.hdrErrSeen && !w.getLsbD 3, formatErrSeen := f.formatErrSeen && !w.getLsbD 2,
           seqGapSeen := f.seqGapSeen && !w.getLsbD 1, overrunSeen := f.overrunSeen && !w.getLsbD 0 }

/-- CLEAR_LINK_STATUS (R49). -/
def clearLinkStatusBody (r : Request) (s : State) : Reply :=
  .done (forPorts (fun s p => s.modFifo p (clearFlags (blockWord r 0))) (portList (portSet (blockWord r 1) (blockWord r 2))) s) []

def execLinkControl (s : State) : Host.Outcome State Fault Refusal := .next (s.serve (· == 17) linkControlBody)

def execReadLinkStatus (s : State) : Host.Outcome State Fault Refusal := .next (s.serve (· == 18) readLinkStatusBody)

def execClearLinkStatus (s : State) : Host.Outcome State Fault Refusal := .next (s.serve (· == 19) clearLinkStatusBody)

end Sys2Proof.Machine
end

