-- ==== Sys2Proof/Machine/Reception.lean ====
section
/-! DEFINITION. RECEIVE_SLOT: training reception (R15 to R17), supervision (R21 to R23) and reception in UP (R34 to R41). -/

namespace Sys2Proof.Machine

/-- A good training cell: the run rises, the acknowledged flag is set at 32, and the link enters UP at 64 (R15 to R17). -/
def State.trainOn (s : State) (p : Link) : State :=
  let run := s.links[p].run + 1
  if Config.upRun ≤ run then s.enterUp p
  else s.modLink p fun l =>
    { l with run := run, acknowledged := l.acknowledged || decide (Config.acknowledgeRun ≤ run) }

/-- The training run returned to 0 by a bad or foreign cell, which is counted (R15). -/
def State.runLost (s : State) (p : Link) (c : Counter) : State :=
  (s.modLink p fun l => { l with run := 0 }).count p c

/-- Training reception (R15). -/
def State.receiveTraining (s : State) (p : Link) : SlotClass → State
  | .noCell => s
  | .headerError => s.runLost p .hdrErr
  | .formatError => s.runLost p .formatErr
  | .valid _ h t =>
    let s1 := s.modLink p fun l => { l with partnerHold := h.hold }
    if t = .idle ∨ t = .train then s1.trainOn p else s1.runLost p .linkFlush

/-- A cell written to the Ingress FIFO: at the tail while there is room (R40), else in place of the newest entry (R41). -/
def State.writeFifo (s : State) (p : Link) (c : Cell) (gap : Bool) : State :=
  let q := s.fifos[p].entries
  if q.length < Config.fifoDepth then
    (s.modFifo p fun f => { f with entries := q ++ [⟨c, gap, false⟩] }).modLink p fun l =>
      { l with ownHold := ownHoldAfter (q.length + 1) l.ownHold }
  else
    (s.modFifo p fun f => { f with entries := q.dropLast ++ [⟨c, gap, true⟩] }).count p .overrun

/-- Whether a cell's link sequence does not meet the expectation (R37). -/
def sequenceGap (expectation : Option Byte) (seq : Byte) : Bool :=
  match expectation with
  | none => false
  | some e => decide (e ≠ seq)

/-- A DATA or management cell received in UP: sequence check, counts, and the FIFO (R37, R38). -/
def State.receiveTraffic (s : State) (p : Link) (c : Cell) (seq : Byte) : State :=
  let gap := sequenceGap s.links[p].rxExpect seq
  let s1 := s.modLink p fun l => { l with rxExpect := some (seq + 1) }
  let s2 := s1.count p .rxCells
  let s3 := if gap then s2.count p .seqGap else s2
  s3.writeFifo p c gap

/-- A receive slot of a link in UP (R21 to R23, R34). An error is counted before the link leaves UP (DESIGN CHOICE, unsafe: log 24). -/
def State.receiveUp (s : State) (p : Link) (slot : SlotClass) : State :=
  let l := s.links[p]
  let silent := decide (Config.silenceSlots ≤ l.liveness + 1)
  let raised := s.modLink p fun l => { l with liveness := l.liveness + 1 }
  match slot with
  | .noCell => if silent then raised.leaveUp p .silence false else raised
  | .formatError =>
    let s1 := (raised.modFifo p fun f => { f with formatErrSeen := true }).count p .formatErr
    if silent then s1.leaveUp p .silence false else s1
  | .headerError =>
    let s1 := raised.modLink p fun l => { l with score := l.score + Config.scoreRise }
    let s2 := (s1.modFifo p fun f => { f with hdrErrSeen := true }).count p .hdrErr
    if Config.scoreLimit ≤ l.score + Config.scoreRise then s2.leaveUp p .errorScore false
    else if silent then s2.leaveUp p .silence false
    else s2
  | .valid c h t =>
    let s1 := s.modLink p fun l => { l with partnerHold := h.hold, liveness := 0, score := l.score - 1 }
    if t = .train then s1.leaveUp p .partnerRetrain false
    else if t = .idle then s1
    else s1.receiveTraffic p c h.seq

/-- One receive slot of link p (R13, R14). -/
def State.receive (s : State) (p : Link) (arrival : Option Cell) : State :=
  if s.resetAsserted then s
  else match s.links[p].state with
    | .training => s.receiveTraining p (classify arrival)
    | .up => s.receiveUp p (classify arrival)
    | .disabled => s
    | .holdoff => s
    | .failed => s

/-- RECEIVE_SLOT. -/
def execReceiveSlot (p : Link) (arrival : Option Cell) (s : State) : Host.Outcome State Fault Refusal :=
  .next (s.receive p arrival)

end Sys2Proof.Machine
end

