-- ==== Sys2Proof/Machine/ResetPin.lean ====
section
/-! DEFINITION. The RESET pin: RESET_ASSERT and RESET_RELEASE (R177). -/

namespace Sys2Proof.Machine

/-- RESET asserted: every block takes its values for the release, every transmitter is quiet, and work in flight is abandoned
without a count (R177). The strap value keeps its last sample (log 6). -/
def execResetAssert (s : State) : Host.Outcome State Fault Refusal :=
  .next (State.powerOn s.sru.strap true s.pending s.draws)

/-- RESET released: the straps are sampled, the element ID follows, every block takes its values for the release (R177). -/
def execResetRelease (straps : Byte) (s : State) : Host.Outcome State Fault Refusal :=
  .next (State.powerOn straps false s.pending s.draws)

end Sys2Proof.Machine
end

