-- ==== Sys2Proof/Machine/TableRequests.lean ====
section
/-! DEFINITION. MIRROR_COPY_STEP and the requests of chapter 8: WRITE_ROUTE, READ_ROUTE, WRITE_GROUP, READ_GROUP, COMMIT_ROUTING,
CANCEL_COMMIT, EPOCH_MARK, READ_TABLE_STATE. -/

namespace Sys2Proof.Machine

/-! ### Mirroring (R141) -/

/-- The copy of entry `progress` from bank `src` into bank `dst`: route entries first, then group entries. -/
def copyEntry (src dst : Bank) (progress : Nat) : Bank :=
  if progress < Config.routeCount then
    { dst with routes := tableSet unusedRoute dst.routes progress (src.route progress) }
  else
    let k := progress - Config.routeCount
    { dst with groups := tableSet emptyGroup dst.groups k (src.group k) }

/-- One copy step at progress p; the last ends the mirroring with the COMMIT_DONE event MIRRORED. -/
def State.copyStep (s : State) (p : Nat) : State :=
  let t := s.tables
  let t1 := t.setBank t.staging (copyEntry (t.bank t.active) (t.bank t.staging) p)
  if Config.routeCount + Config.groupCount ≤ p + 1 then
    State.notify { s with tables := { t1 with commit := .idle } } .commitDone (commitDetail 2 t.active t.epoch)
  else { s with tables := { t1 with commit := .mirroring (p + 1) } }

/-- One copy step when a mirroring is in progress; nothing otherwise (log 3). -/
def State.mirror (s : State) : State :=
  if s.resetAsserted then s
  else match s.tables.commit with
    | .mirroring p => s.copyStep p
    | .idle => s
    | .pending _ => s

/-- MIRROR_COPY_STEP. -/
def execMirrorCopyStep (s : State) : Host.Outcome State Fault Refusal := .next s.mirror

/-! ### Writing and reading the tables (R131 to R134) -/

/-- The three words of entry i of a table request's block. -/
def entryWords (r : Request) (i : Nat) : Word × Word × Word :=
  (blockWord r (2 + 3 * i), blockWord r (3 + 3 * i), blockWord r (4 + 3 * i))

/-- The route entries that a WRITE_ROUTE gives; none when a port field holds 24-255 (R131 check 4). -/
def givenRoutes (r : Request) (count : Nat) : Option (List RouteEntry) :=
  (List.range count).mapM fun i => routeOfWords (entryWords r i).1 (entryWords r i).2.1 (entryWords r i).2.2

/-- The group entries that a WRITE_GROUP gives. -/
def givenGroups (r : Request) (count : Nat) : List GroupEntry :=
  (List.range count).map fun i => groupOfWords (entryWords r i).1 (entryWords r i).2.1 (entryWords r i).2.2

/-- A UNICAST entry whose alternate, present, equals its primary (R131 check 5). -/
def sameAlternate (e : RouteEntry) : Bool :=
  e.kind == .unicast && e.altPresent && decide (e.alternate = e.primary)

/-- The refusal of a staging write by the commit state, if any (R131 checks 6 and 7, R133). -/
def stagingWriteRefusal : CommitState → Option Code
  | .idle => none
  | .pending _ => some .commitPending
  | .mirroring _ => some .tableBusy

/-- A run of indexes out of range: the first index, the count 1-7, and their sum (R131, R133). -/
def runOutOfRange (first count size : Nat) : Bool :=
  decide (size ≤ first) || decide (count = 0) || decide (7 < count) || decide (size < first + count)

/-- WRITE_ROUTE (R131). -/
def writeRouteBody (r : Request) (s : State) : Reply :=
  let first := (blockWord r 0).toNat
  let count := (lo8 (blockWord r 1)).toNat
  if runOutOfRange first count Config.routeCount then .refuse .range
  else match givenRoutes r count with
    | none => .refuse .range
    | some es =>
      if es.any sameAlternate then .refuse .badParam
      else match stagingWriteRefusal s.tables.commit with
        | some c => .refuse c
        | none =>
          let t := s.tables
          let b := t.bank t.staging
          .done { s with tables := t.setBank t.staging { b with routes := tableFill unusedRoute b.routes first es } } []

/-- WRITE_GROUP (R133). -/
def writeGroupBody (r : Request) (s : State) : Reply :=
  let first := (blockWord r 0).toNat
  let count := (lo8 (blockWord r 1)).toNat
  if runOutOfRange first count Config.groupCount then .refuse .range
  else match stagingWriteRefusal s.tables.commit with
    | some c => .refuse c
    | none =>
      let t := s.tables
      let b := t.bank t.staging
      let b1 := { b with groups := tableFill emptyGroup b.groups first (givenGroups r count) }
      .done { s with tables := t.setBank t.staging b1 } []

/-- The bank a code names; none for 2-255 (R132). -/
def bankOf (b : Byte) : Option BankId := if b = 0 then some .a else if b = 1 then some .b else none

/-- A commit state in which a bank may not be read: the staging bank in MIRRORING (R132, R134). -/
def readBlocked (t : TableControl) (name : BankId) : Bool :=
  match t.commit with
  | .mirroring _ => decide (name = t.staging)
  | .idle => false
  | .pending _ => false

/-- Words written from a position on, as outputs. -/
def outputsFrom (position : Nat) (ws : List Word) : List (Nat × Word) :=
  (List.range ws.length).map fun i => (position + i, ws.getD i 0)

/-- READ_ROUTE and READ_GROUP (R132, R134): the checks in order, then the words of the entries of the named bank. -/
def readEntries (r : Request) (s : State) (size : Nat) (words : Bank → Nat → List Word) : Reply :=
  let first := (blockWord r 0).toNat
  let count := (lo8 (blockWord r 1)).toNat
  if size ≤ first then .refuse .range
  else match bankOf (hi8 (blockWord r 1)) with
    | none => .refuse .range
    | some name =>
      if runOutOfRange first count size then .refuse .range
      else if readBlocked s.tables name then .refuse .tableBusy
      else .done s (outputsFrom 2 ((List.range count).flatMap fun i => words (s.tables.bank name) (first + i)))

/-- READ_ROUTE (R132). -/
def readRouteBody (r : Request) (s : State) : Reply :=
  readEntries r s Config.routeCount fun b k => routeWords (b.route k)

/-- READ_GROUP (R134). -/
def readGroupBody (r : Request) (s : State) : Reply :=
  readEntries r s Config.groupCount fun b k => groupWords (b.group k)

/-! ### Commit and epochs (R136 to R143) -/

/-- The outputs of the active bank and the commit state in one word. -/
def commitWord (t : TableControl) : Word := mkWord (bankCode t.active) (commitCode t.commit)

/-- COMMIT_ROUTING (R137). -/
def commitRoutingBody (r : Request) (s : State) : Reply :=
  match s.tables.commit with
  | .pending _ => .refuse .commitPending
  | .mirroring _ => .refuse .tableBusy
  | .idle =>
    let target := blockWord r 1
    if (blockWord r 0).getLsbD 15 then
      let s1 := s.swap
      .done s1 [(2, commitWord s1.tables), (3, s1.tables.epoch)]
    else if epochAhead s.tables.epoch target then
      let t := { s.tables with commit := .pending target }
      .done { s with tables := t } [(2, commitWord t), (3, t.epoch)]
    else .refuse .epochStale

/-- CANCEL_COMMIT (R140). -/
def cancelCommitBody (_ : Request) (s : State) : Reply :=
  match s.tables.commit with
  | .pending target => .done { s with tables := { s.tables with commit := .idle } } [(0, target)]
  | .idle => .refuse .noCommit
  | .mirroring _ => .refuse .noCommit

/-- The swap that an advanced epoch counter causes: a PENDING target reached (R135, R136). -/
def State.swapIfReached (s : State) : State :=
  match s.tables.commit with
  | .pending target => if epochAhead s.tables.epoch target then s else s.swap
  | .idle => s
  | .mirroring _ => s

/-- EPOCH_MARK (R136). -/
def epochMarkBody (r : Request) (s : State) : Reply :=
  let m := blockWord r 0
  if epochAhead s.tables.epoch m then
    let s1 := State.swapIfReached { s with tables := { s.tables with epoch := m } }
    .done s1 [(1, s1.tables.epoch), (2, commitWord s1.tables)]
  else .refuse .epochStale

/-- The target epoch as READ_TABLE_STATE returns it (R143). -/
def targetWord : CommitState → Word
  | .pending target => target
  | .idle => 0
  | .mirroring _ => 0

/-- The mirror progress as READ_TABLE_STATE returns it (R143). -/
def progressWord : CommitState → Word
  | .mirroring p => natWord p
  | .idle => 0
  | .pending _ => 0

/-- READ_TABLE_STATE (R143). -/
def readTableStateBody (_ : Request) (s : State) : Reply :=
  let t := s.tables
  .done s [(0, commitWord t), (1, targetWord t.commit), (2, t.epoch), (3, progressWord t.commit)]

def execWriteRoute (s : State) : Host.Outcome State Fault Refusal := .next (s.serve (· == 2) writeRouteBody)

def execReadRoute (s : State) : Host.Outcome State Fault Refusal := .next (s.serve (· == 3) readRouteBody)

def execWriteGroup (s : State) : Host.Outcome State Fault Refusal := .next (s.serve (· == 4) writeGroupBody)

def execReadGroup (s : State) : Host.Outcome State Fault Refusal := .next (s.serve (· == 5) readGroupBody)

def execCommitRouting (s : State) : Host.Outcome State Fault Refusal := .next (s.serve (· == 6) commitRoutingBody)

def execCancelCommit (s : State) : Host.Outcome State Fault Refusal := .next (s.serve (· == 7) cancelCommitBody)

def execEpochMark (s : State) : Host.Outcome State Fault Refusal := .next (s.serve (· == 8) epochMarkBody)

def execReadTableState (s : State) : Host.Outcome State Fault Refusal := .next (s.serve (· == 9) readTableStateBody)

end Sys2Proof.Machine
end

