-- ==== Sys2Proof/Machine/Timers.lean ====
section
/-! DEFINITION. ATTEMPT_TIMER_EXPIRY (R18, R19) and HOLDOFF_TIMER_EXPIRY (R20). -/

namespace Sys2Proof.Machine

/-- The holdoff draw k, a free value in the range 0 to 2^m - 1 (R20, log 4). -/
def holdoffUnits (draws m : Nat) : Nat := Config.holdoffDraw draws % 2 ^ m

/-- FAILED entered with attempt count n (R19). -/
def State.enterFailed (s : State) (p : Link) (n : Nat) : State :=
  let s1 := s.modLink p fun l =>
    { l with state := .failed, attempts := n, run := 0, attemptTimer := ⟨Config.attemptMicros, false⟩ }
  s1.notify .linkState (linkStateDetail p .failed .training s1.links[p].lastDown n)

/-- HOLDOFF entered with attempt count n: the draw, the timer, and at a draw of 0 the new attempt at once (R20). -/
def State.enterHoldoff (s : State) (p : Link) (n : Nat) : State :=
  let k := holdoffUnits s.draws (min n s.links[p].truncation)
  let s1 := { s with draws := s.draws + 1 }
  if k = 0 then s1.modLink p (beginAttempt n)
  else s1.modLink p fun l =>
    { l with state := .holdoff, attempts := n, attemptTimer := ⟨Config.attemptMicros, false⟩,
             holdoffTimer := ⟨k * Config.holdoffUnit, true⟩ }

/-- The attempt timer of link p reaches 2,000 microseconds in TRAINING (R18). -/
def State.attemptExpires (s : State) (p : Link) : State :=
  if s.resetAsserted then s
  else if s.links[p].state = .training then
    let n := s.links[p].attempts + 1
    if s.links[p].retrainLimit ≤ n then s.enterFailed p n else s.enterHoldoff p n
  else s

/-- The holdoff timer of link p reaches 0: the next attempt begins, the attempt count kept (R20, R15). -/
def State.holdoffExpires (s : State) (p : Link) : State :=
  if s.resetAsserted then s
  else if s.links[p].state = .holdoff then s.modLink p (beginAttempt s.links[p].attempts)
  else s

/-- ATTEMPT_TIMER_EXPIRY. -/
def execAttemptTimerExpiry (p : Link) (s : State) : Host.Outcome State Fault Refusal := .next (s.attemptExpires p)

/-- HOLDOFF_TIMER_EXPIRY. -/
def execHoldoffTimerExpiry (p : Link) (s : State) : Host.Outcome State Fault Refusal := .next (s.holdoffExpires p)

end Sys2Proof.Machine
end

