-- ==== Sys2Proof/Machine/Dispatch.lean ====
section
/-! DEFINITION. One arm per command, each a direct call of its meaning. -/

namespace Sys2Proof.Machine

def exec (i : Instr) (s : State) : Host.Outcome State Fault Refusal :=
  match i with
  | .resetAssert => Sys2Proof.Machine.execResetAssert s
  | .resetRelease straps => Sys2Proof.Machine.execResetRelease straps s
  | .receiveSlot p arrival => Sys2Proof.Machine.execReceiveSlot p arrival s
  | .attemptTimerExpiry p => Sys2Proof.Machine.execAttemptTimerExpiry p s
  | .holdoffTimerExpiry p => Sys2Proof.Machine.execHoldoffTimerExpiry p s
  | .forwardingEvent => Sys2Proof.Machine.execForwardingEvent s
  | .egressSlot p => Sys2Proof.Machine.execEgressSlot p s
  | .mirrorCopyStep => Sys2Proof.Machine.execMirrorCopyStep s
  | .unknownRequest => Sys2Proof.Machine.execUnknownRequest s
  | .identify => Sys2Proof.Machine.execIdentify s
  | .writeRoute => Sys2Proof.Machine.execWriteRoute s
  | .readRoute => Sys2Proof.Machine.execReadRoute s
  | .writeGroup => Sys2Proof.Machine.execWriteGroup s
  | .readGroup => Sys2Proof.Machine.execReadGroup s
  | .commitRouting => Sys2Proof.Machine.execCommitRouting s
  | .cancelCommit => Sys2Proof.Machine.execCancelCommit s
  | .epochMark => Sys2Proof.Machine.execEpochMark s
  | .readTableState => Sys2Proof.Machine.execReadTableState s
  | .writeSchedule => Sys2Proof.Machine.execWriteSchedule s
  | .applySchedule => Sys2Proof.Machine.execApplySchedule s
  | .readSchedule => Sys2Proof.Machine.execReadSchedule s
  | .setAdmission => Sys2Proof.Machine.execSetAdmission s
  | .setFlow => Sys2Proof.Machine.execSetFlow s
  | .setStatusTiming => Sys2Proof.Machine.execSetStatusTiming s
  | .readBufferState => Sys2Proof.Machine.execReadBufferState s
  | .linkControl => Sys2Proof.Machine.execLinkControl s
  | .readLinkStatus => Sys2Proof.Machine.execReadLinkStatus s
  | .clearLinkStatus => Sys2Proof.Machine.execClearLinkStatus s
  | .readCounters => Sys2Proof.Machine.execReadCounters s
  | .clearCarry => Sys2Proof.Machine.execClearCarry s
  | .setNotice => Sys2Proof.Machine.execSetNotice s
  | .setElementAddress => Sys2Proof.Machine.execSetElementAddress s
  | .datapathReset => Sys2Proof.Machine.execDatapathReset s

end Sys2Proof.Machine
end

