-- ==== Sys2Proof/WellFormed.lean ====
section
/-! DEFINITION. What makes a value well formed where its type does not say so: tables in canonical form, schedules, parameters,
thresholds, timing. A command's operands need no check: a link is one of 24, a cell has 64 bytes, the straps are 8 bits. -/

namespace Sys2Proof.Machine

/-- The canonical form of an indexed table from an index on: indexes rising, no entry equal to `d`. -/
def tableWfFrom {α : Type} [DecidableEq α] (d : α) : Nat → List (Nat × α) → Bool
  | _, [] => true
  | low, (k, v) :: t => decide (low ≤ k) && decide (v ≠ d) && tableWfFrom d (k + 1) t

/-- The canonical form of an indexed table whose unlisted entries read as `d`. -/
def tableWf {α : Type} [DecidableEq α] (d : α) (t : List (Nat × α)) : Bool := tableWfFrom d 0 t

/-- Every listed index lies below `size`. -/
def tableBelow {α : Type} (size : Nat) (t : List (Nat × α)) : Bool := t.all fun e => decide (e.1 < size)

/-- A window whose budget its mode allows: at most 255, and not 0 on LIMITED and FIXED (R97). -/
def windowWf (x : Window) : Bool := decide (x.budget ≤ 255) && (x.mode == .drain || decide (x.budget ≠ 0))

/-- A schedule a port may hold: 1 to 8 windows, each well formed, and no FIXED beside a DRAIN window (R97). -/
def scheduleWf (ws : List Window) : Bool :=
  decide (1 ≤ ws.length) && decide (ws.length ≤ 8) && ws.all windowWf &&
    !((ws.any fun x => x.mode == .fixed) && ws.any fun x => x.mode == .drain)

/-- Admission parameters in their ranges (R77). -/
def paramsWf (a : ClassParams) : Bool :=
  decide (a.reservation ≤ 255) && decide (1 ≤ a.maximum) && decide (a.maximum ≤ Config.bufferCount) && decide (a.alpha ≤ 7)

/-- Thresholds in their ranges (R115). -/
def thresholdsWf (t : Thresholds) : Bool :=
  decide (2 ≤ t.xoff) && decide (t.xoff ≤ Config.bufferCount) && decide (t.xon < t.xoff)

/-- Spacing and refresh interval in their ranges (R121). -/
def timingWf (t : StatusTiming) : Bool :=
  decide (2 ≤ t.spacing) && decide (t.spacing ≤ 64) && decide (256 ≤ t.refresh) && decide (t.refresh ≤ 65535)

end Sys2Proof.Machine
end

