-- ==== Sys2Proof/Safety.lean ====
section
/-! DEFINITION. The terms in which claims are stated: what the shared operations leave of a state, and the invariants of the
element. -/

namespace Sys2Proof.Machine

/-! ### Counters -/

/-- Counter i of port p (R165). -/
def State.counter (s : State) (p : Link) (i : Fin 18) : BitVec 32 := s.counters[p].values[i]

/-- The carry flag of counter i of port p (R166). -/
def State.carryFlag (s : State) (p : Link) (i : Fin 18) : Bool := s.counters[p].carry.getLsbD i

/-- No counter stands at 4,294,967,295, so that the next count of each does not wrap. -/
def NoCounterAtTop (s : State) : Prop := ∀ p i, s.counter p i ≠ BitVec.allOnes 32

/-- Counter i of port p is raised by `n p i`, no wrap, and nothing else differs (R165). -/
structure CountsRaised (s t : State) (n : Link → Fin 18 → Nat) : Prop where
  frame  : t = { s with counters := t.counters }
  values : ∀ p i, t.counter p i = s.counter p i + BitVec.ofNat 32 (n p i)
  flags  : ∀ p i, t.carryFlag p i = s.carryFlag p i

/-- One count with its wrap (R165, R166): the value rises by 1 modulo 2^32, a wrap sets the carry flag, nothing else differs. -/
structure Bumped (s t : State) (p : Link) (c : Counter) : Prop where
  frame  : t = { s with counters := t.counters }
  values : ∀ q i, t.counter q i = if q = p ∧ i = c.index then s.counter q i + 1 else s.counter q i
  flags  : ∀ q i, t.carryFlag q i =
    (s.carryFlag q i || decide (q = p ∧ i = c.index ∧ s.counter q i = BitVec.allOnes 32))

/-! ### Submissions -/

/-- The outcome of one copy by the steps of R80 and R81: whether its port is UP, its queue's length Q, its class's reservation R, maximum
M and alpha code, and the shared free SF as the copies before it left it. -/
inductive CopyOutcome (up : Bool) (Q R M SF alpha : Nat) : Verdict → Prop where
  | portDown (down : up = false) : CopyOutcome up Q R M SF alpha .portDown
  | reserved (isUp : up = true) (below : Q < R) : CopyOutcome up Q R M SF alpha .reserved
  | queueMax (isUp : up = true) (above : R ≤ Q) (full : M < Q + 1) : CopyOutcome up Q R M SF alpha .queueMax
  | shared (isUp : up = true) (above : R ≤ Q) (room : Q + 1 ≤ M) (free : 1 ≤ SF) (under : Q - R < SF * 2 ^ alpha / 16) :
    CopyOutcome up Q R M SF alpha .shared
  | sharedLimit (isUp : up = true) (above : R ≤ Q) (room : Q + 1 ≤ M) (beyond : SF = 0 ∨ SF * 2 ^ alpha / 16 ≤ Q - R) :
    CopyOutcome up Q R M SF alpha .sharedLimit

/-- The number of shared admissions among the first i copies of a submission (R83). -/
def sharedBefore (vs : List (Link × Verdict)) (i : Nat) : Nat := sharedCopies (vs.take i)

/-- A submission that admits copies at the ports `ps` and takes buffer b, the head of the free list (R84, R86, R116). -/
structure Placed (s t : State) (cell : Cell) (c : Class) (ps : List Link) (raise b : Nat) (rest : List Nat) : Prop where
  frame      : t = { s with bm := t.bm, cmap := t.cmap }
  free       : t.bm.free = rest
  buffers    : ∀ n, t.buffer n = if n = b then ⟨cell, ps.length⟩ else s.buffer n
  queues     : ∀ p k, t.queue p k = if k = c ∧ p ∈ ps then s.queue p k ++ [b] else s.queue p k
  pool       : t.bm.pool = s.bm.pool - ps.length
  shared     : t.bm.shared = s.bm.shared + raise
  params     : t.bm.params = s.bm.params
  thresholds : t.cmap.thresholds = s.cmap.thresholds
  held       : ∀ p k, t.cmap.held[p][k] =
    if k = c ∧ p ∈ ps then entryAfter s.cmap.held[p][k] ((s.queue p k).length + 1) s.cmap.thresholds[k]
    else s.cmap.held[p][k]
  version    : t.cmap.version = s.cmap.version + BitVec.ofNat 16
    (ps.filter fun p => entryAfter s.cmap.held[p][c] ((s.queue p c).length + 1) s.cmap.thresholds[c] != s.cmap.held[p][c]).length

/-- The storage part of a submission, for the outcomes of its copies (R84): nothing when no copy is admitted; nothing either with
no free buffer, which R84 excludes (log 10). -/
def Stored (s t : State) (cell : Cell) (c : Class) (vs : List (Link × Verdict)) : Prop :=
  (admittedPorts vs = [] ∨ s.bm.free = [] → t = s) ∧
  ∀ b rest, admittedPorts vs ≠ [] → s.bm.free = b :: rest → Placed s t cell c (admittedPorts vs) (sharedCopies vs) b rest

/-- The counts that the Buffer Manager raises at counter i of port p for the outcomes of a submission (R85). -/
def refusalCount (vs : List (Link × Verdict)) (p : Link) (i : Fin 18) : Nat :=
  (vs.filter fun v => decide (v.1 = p) && decide (v.2.counter.map Counter.index = some i)).length

/-- The same, with one count at `lost` for each refused copy (R157, R173). -/
def lossCount (lost : Counter) (vs : List (Link × Verdict)) (p : Link) (i : Fin 18) : Nat :=
  refusalCount vs p i + if i = lost.index then ((refusedPorts vs).filter fun q => decide (q = p)).length else 0

/-! ### Notices -/

/-- What the notices that an event causes may change, and no more: settings stay, and entries join only C0 queues of ports of the
notice port set whose links are UP (R172 to R174). -/
structure NoticeEffects (s t : State) : Prop where
  frame      : t = { s with bm := t.bm, cmap := t.cmap, counters := t.counters, notices := t.notices }
  params     : t.bm.params = s.bm.params
  thresholds : t.cmap.thresholds = s.cmap.thresholds
  ports      : t.notices.ports = s.notices.ports
  settings   : ∀ k, (t.kind k).enabled = (s.kind k).enabled ∧ (t.kind k).interval = (s.kind k).interval ∧
    (t.kind k).firstOnly = (s.kind k).firstOnly
  queues     : ∀ p c, ∃ l, t.queue p c = s.queue p c ++ l ∧
    (l = [] ∨ (c = 0 ∧ s.isUp p = true ∧ s.notices.ports.getLsbD p = true))

/-- An event of an enabled kind taken (R172): the pending count rises, held at 65,535, and the detail is replaced. -/
structure Taken (s t : State) (k : NoticeKind) (d : Vector Byte 6) : Prop where
  frame : t = { s with notices := t.notices }
  ports : t.notices.ports = s.notices.ports
  kinds : ∀ j, t.kind j =
    if j = k then { s.kind k with pendingCount := min ((s.kind k).pendingCount + 1) 65535, detail := d } else s.kind j

/-- The outcomes of a notice's copies (R79, R83). -/
def noticeOutcomes (s : State) : List (Link × Verdict) := s.verdicts 0 s.bm.shared (portList s.notices.ports)

/-- The record of a kind after its notice is emitted (R173 step 4). -/
def emittedRecord (n : NoticeState) : NoticeState := { n with pendingCount := 0, spent := n.spent || n.firstOnly }

/-- One emission (R173). Where a count of it wraps, its COUNTER_CARRY event and the notices that this causes follow (R174). -/
structure Emitted (s t : State) (k : NoticeKind) : Prop where
  effects : NoticeEffects s t
  kinds   : ∀ j, j ≠ .counterCarry → t.kind j = if j = k then emittedRecord (s.kind k) else s.kind j
  exact   : NoCounterAtTop s → ∃ m,
    Stored s m (noticeCell s.sru.elementId k (s.kind k).pendingCount (s.kind k).detail) 0 (noticeOutcomes s) ∧
    t = { m with counters := t.counters, notices := t.notices } ∧
    (∀ p i, t.counter p i = s.counter p i + BitVec.ofNat 32 (lossCount .noticeLost (noticeOutcomes s) p i)) ∧
    (∀ p i, t.carryFlag p i = s.carryFlag p i) ∧
    ∀ j, t.kind j = if j = k then emittedRecord (s.kind k) else s.kind j

/-- A notice event handed to Counters and Notices (R172). -/
def Notified (s t : State) (k : NoticeKind) (d : Vector Byte 6) : Prop :=
  if (s.kind k).enabled = false then t = s
  else ∃ m, Taken s m k d ∧
    if (m.kind k).spent = true ∨ (m.kind k).pendingCount < (m.kind k).interval then t = m else Emitted m t k

/-- A count raised by an event, with the COUNTER_CARRY event of a wrap of an unmasked index (R165, R166). -/
def Counted (s t : State) (p : Link) (c : Counter) : Prop :=
  ∃ m, Bumped s m p c ∧
    if s.counter p c.index = BitVec.allOnes 32 ∧ s.carryMask.getLsbD c.index = false then
      Notified m t .counterCarry (carryDetail p c.index)
    else t = m

/-- A count raised while a submission or a DATAPATH_RESET is in progress: the COUNTER_CARRY event of an unmasked wrap is taken at once,
and the notice it calls for waits (R165, R166, R174). -/
def CountedHeld (s t : State) (p : Link) (c : Counter) : Prop :=
  ∃ m, Bumped s m p c ∧
    if s.counter p c.index = BitVec.allOnes 32 ∧ s.carryMask.getLsbD c.index = false ∧ (s.kind .counterCarry).enabled = true then
      Taken m t .counterCarry (carryDetail p c.index)
    else t = m

/-- A COUNTER_CARRY notice waits at u for what happened since s: a counter of an unmasked index wrapped, so that its value fell, and the
kind, on and not spent, has its pending count at or above its interval (R166, R172, R174, log 11). -/
def CarryWaits (s u : State) : Prop :=
  (∃ (q : Link) (i : Fin 18), s.carryMask.getLsbD i = false ∧ (u.counter q i).toNat < (s.counter q i).toNat) ∧
    (u.kind .counterCarry).enabled = true ∧ (u.kind .counterCarry).spent = false ∧
    (u.kind .counterCarry).interval ≤ (u.kind .counterCarry).pendingCount

/-- n counts at one counter, one after another. -/
def CountedTimes (p : Link) (c : Counter) : Nat → State → State → Prop
  | 0, s, t => t = s
  | n + 1, s, t => ∃ m, Counted s m p c ∧ CountedTimes p c n m t

/-- A relation done for each link of a list, in order. -/
def EachLink (R : Link → State → State → Prop) : List Link → State → State → Prop
  | [], s, t => t = s
  | p :: ps, s, t => ∃ m, R p s m ∧ EachLink R ps m t

/-- The submission of a DATA cell (R78 to R85), its refusals counted and the notices that a wrap calls for after it (R174). -/
def DataSubmitted (s t : State) (cell : Cell) (ports : List Link) (c : Class) : Prop :=
  ∃ m, Stored s m cell c (s.verdicts c s.bm.shared ports) ∧ NoticeEffects m t ∧
    (NoCounterAtTop s → CountsRaised m t (refusalCount (s.verdicts c s.bm.shared ports)))

/-! ### Responses -/

/-- A response built and submitted (R155, R157): it joins (arrival port, C0) when admitted, and is counted lost when refused. -/
def Responded (s t : State) (r : Request) (code : Code) (words : List Word) : Prop :=
  let v := s.verdict s.bm.shared r.port 0
  ∃ m, Stored s m (responseCell s.sru.elementId r.number r.tag code words) 0 [(r.port, v)] ∧
    (v.admits = true → t = m) ∧
    (v.admits = false → NoticeEffects m t ∧ (NoCounterAtTop s → CountsRaised m t (lossCount .rspLost [(r.port, v)])))

/-- A response built and submitted while notices wait, as within a DATAPATH_RESET (R157, R163, R174): its refusal is counted by the
Buffer Manager and then RSP_LOST. -/
def RespondedHeld (s t : State) (r : Request) (code : Code) (words : List Word) : Prop :=
  let v := s.verdict s.bm.shared r.port 0
  ∃ m, Stored s m (responseCell s.sru.elementId r.number r.tag code words) 0 [(r.port, v)] ∧
    (v.admits = true → t = m) ∧
    (v.admits = false → ∃ n, (v.counter = none → n = m) ∧ (∀ c, v.counter = some c → CountedHeld m n r.port c) ∧
      CountedHeld n t r.port .rspLost)

/-- The answer to an executed request: none for OK with QUIET (R156). -/
def Answered (s t : State) (r : Request) (code : Code) (words : List Word) : Prop :=
  if r.quiet = true ∧ code = .ok then t = s else Responded s t r code words

/-- The state with the head request taken from the SRQ (R152). -/
def taken (s : State) : State := { s with sru := { s.sru with srq := s.sru.srq.tail } }

/-- Request r stands at the head of the SRQ, RESET is not asserted, its number is n, and it passes the generic checks for a need of
`need` words (R151, R153). -/
structure Accepted (s : State) (r : Request) (n need : Nat) : Prop where
  running : s.resetAsserted = false
  head    : s.sru.srq.head? = some r
  number  : r.number.toNat = n
  enough  : need ≤ r.wordCount
  fits    : r.wordCount ≤ 24
  length  : 4 + 2 * r.wordCount ≤ r.payloadLength

/-- Request r at the head of the SRQ is refused with a code after the generic checks: nothing changes but that it leaves the SRQ and
is answered with its block as received (R153 to R155, R8). -/
def RefusedWith (c : Instr) (s : State) (r : Request) (code : Code) : Prop :=
  ∃ t, exec c s = .next t ∧ Answered (taken s) t r code (receivedWords r)

/-- Request r at the head of the SRQ completes OK: its effect leads from the state without it to s1, and the answer with the given
output words follows (R152, R155, R8). -/
def CompletesWith (c : Instr) (s : State) (r : Request) (effect : State → Prop) (outputs : State → List (Nat × Word)) : Prop :=
  ∃ s1 t, exec c s = .next t ∧ effect s1 ∧ Answered s1 t r .ok (okWords r (outputs s1))

/-! ### Dequeue, flush and transmission -/

/-- The head entry of (p, c), which names b, removed with the accounting of R87 steps 2 to 5. -/
structure Dequeued (s t : State) (p : Link) (c : Class) (b : Nat) (rest : List Nat) : Prop where
  frame      : t = { s with bm := t.bm, cmap := t.cmap }
  queues     : ∀ q k, t.queue q k = if q = p ∧ k = c then rest else s.queue q k
  pool       : t.bm.pool = s.bm.pool + 1
  shared     : t.bm.shared = if s.bm.params[c].reservation < rest.length + 1 then s.bm.shared - 1 else s.bm.shared
  params     : t.bm.params = s.bm.params
  freed      : (s.buffer b).refs ≤ 1 → t.bm.free = s.bm.free ++ [b] ∧
    (tableWf ⟨zeroCell, 0⟩ s.bm.buffers = true → t.buffer b = ⟨zeroCell, 0⟩)
  lowered    : 1 < (s.buffer b).refs → t.bm.free = s.bm.free ∧ t.buffer b = ⟨(s.buffer b).cell, (s.buffer b).refs - 1⟩
  others     : ∀ n, n ≠ b → t.buffer n = s.buffer n
  thresholds : t.cmap.thresholds = s.cmap.thresholds
  held       : ∀ q k, t.cmap.held[q][k] =
    if q = p ∧ k = c then entryAfter s.cmap.held[q][k] rest.length s.cmap.thresholds[k] else s.cmap.held[q][k]
  version    : t.cmap.version =
    versionAfter s.cmap.version s.cmap.held[p][c] (entryAfter s.cmap.held[p][c] rest.length s.cmap.thresholds[c])

/-- Queue (p, c) emptied head to tail, each removal counted LINK_FLUSH at p (R89). -/
inductive Drained (p : Link) (c : Class) : State → State → Prop where
  | done {s : State} (h : s.queue p c = []) : Drained p c s s
  | more {s m n t : State} {b : Nat} {rest : List Nat} (h : s.queue p c = b :: rest) (removed : Dequeued s m p c b rest)
      (counted : Counted m n p .linkFlush) (more : Drained p c n t) : Drained p c s t

/-- The four queues of port p flushed, C0 to C3 (R89). -/
def PortFlushed (p : Link) (s t : State) : Prop :=
  ∃ a b c, Drained p 0 s a ∧ Drained p 1 a b ∧ Drained p 2 b c ∧ Drained p 3 c t

/-- The link record of a training attempt begun with attempt count n (R15). -/
def attemptBegun (n : Nat) (l : LinkPort) : LinkPort :=
  { l with state := .training, attempts := n, run := 0, acknowledged := false, attemptTimer := ⟨0, true⟩,
           holdoffTimer := ⟨0, false⟩ }

/-- The link record of DISABLED entered (R29). -/
def disabledEntered (l : LinkPort) : LinkPort :=
  { l with state := .disabled, run := 0, acknowledged := false, attemptTimer := ⟨l.attemptTimer.micros, false⟩,
           holdoffTimer := ⟨l.holdoffTimer.micros, false⟩ }

/-- The link record after leaving UP (R24), the own hold flag clear with the FIFO empty (R25, R45). -/
def upLeft (reason : DownReason) (disable : Bool) (l : LinkPort) : LinkPort :=
  let l1 := { l with attempts := 0, lastDown := reason, score := 0, liveness := 0, partnerHold := false, ownHold := false }
  if disable then disabledEntered l1 else attemptBegun 0 l1

/-- The window of port p closed with its pointer at window 0 (R108). -/
def WindowClosed (p : Link) (s t : State) : Prop :=
  t = { s with scheds := t.scheds } ∧
  ∀ q, t.scheds[q] = if q = p then { s.scheds[q] with w := 0, isOpen := false, budget := 0 } else s.scheds[q]

/-- Link p leaves UP (R24 to R26): the link record, the FIFO emptied and its entries counted, the queues flushed, the window closed,
and the LINK_STATE event. The FIFO before the queues is the model's order (log 24). -/
def LeftUp (p : Link) (reason : DownReason) (disable : Bool) (s t : State) : Prop :=
  ∃ a b c d,
    (a = { s with links := a.links, fifos := a.fifos } ∧
      (∀ q, a.links[q] = if q = p then upLeft reason disable s.links[q] else s.links[q]) ∧
      ∀ q, a.fifos[q] = if q = p then { s.fifos[q] with entries := [] } else s.fifos[q]) ∧
    CountedTimes p .linkFlush s.fifos[p].entries.length a b ∧ PortFlushed p b c ∧ WindowClosed p c d ∧
    Notified d t .linkState (linkStateDetail p (if disable then .disabled else .training) .up reason 0)

/-- Cell `cell` sent on link p in class `cls` (R4, R5). -/
structure Sent (s t : State) (p : Link) (cell : Cell) (cls : Class) : Prop where
  frame    : t = { s with tx := t.tx, links := t.links }
  others   : ∀ q, q ≠ p → t.tx[q] = s.tx[q]
  header   : t.tx[p] = some ⟨encodeHeader { parseHeader cell.header with
    seq := if cellTypeOf (parseHeader cell.header).type = .train then 0 else s.links[p].txSeq,
    hold := s.links[p].ownHold, cls := classBits cls }, cell.payload⟩
  sequence : ∀ q, t.links[q] =
    if q = p ∧ cellTypeOf (parseHeader cell.header).type ≠ .idle ∧ cellTypeOf (parseHeader cell.header).type ≠ .train then
      { s.links[q] with txSeq := s.links[q].txSeq + 1 }
    else s.links[q]

/-- The head of (p, c), which names b, dequeued and sent, and counted TX_CELLS (R87, R101). -/
def HeadSent (s t : State) (p : Link) (c : Class) (b : Nat) (rest : List Nat) : Prop :=
  ∃ m n, Dequeued s m p c b rest ∧ Sent m n p (s.buffer b).cell c ∧ Counted n t p .txCells

/-- The staging schedule of port p applied (R107), with its SCHEDULE_APPLIED event. -/
def StagingApplied (p : Link) (s t : State) : Prop :=
  ∃ m, (m = { s with scheds := m.scheds } ∧ ∀ q, m.scheds[q] =
      if q = p then ⟨s.scheds[q].staging, s.scheds[q].staging, false, 0, false, 0⟩ else s.scheds[q]) ∧
    Notified m t .scheduleApplied (scheduleDetail p s.scheds[p].staging.length)

/-- What holds of an Egress Scheduler (R96, R97, R108). -/
structure SchedulerWf (isUp : Bool) (x : Scheduler) : Prop where
  active  : scheduleWf x.active = true
  staging : scheduleWf x.staging = true
  pointer : x.w < x.active.length
  closed  : x.isOpen = false → x.budget = 0
  opened  : x.isOpen = true → ∃ win, x.active[x.w]? = some win ∧ x.budget ≤ win.budget ∧ (win.mode ≠ .drain → 1 ≤ x.budget)
  down    : isUp = false → x.w = 0 ∧ x.isOpen = false

/-! ### Reception (R14, R17) -/

/-- A cell whose header check is wrong (R14). -/
def HeaderError (c : Cell) : Prop := headerCheck c.header ≠ c.header[7]

/-- The type of a cell, by its type field (R2). -/
def cellType (c : Cell) : CellType := cellTypeOf (parseHeader c.header).type

/-- The payload length field of a cell (R1). -/
def cellLength (c : Cell) : Nat := (parseHeader c.header).length.toNat

/-- A cell with a right check and type 7, or of a type other than IDLE and TRAIN with a payload length of 57-63 (R14). -/
def FormatError (c : Cell) : Prop :=
  headerCheck c.header = c.header[7] ∧
    (cellType c = .invalid ∨ (cellType c ≠ .idle ∧ cellType c ≠ .train ∧ 57 ≤ cellLength c))

/-- A valid cell of type t (R14). -/
def ValidCell (c : Cell) (t : CellType) : Prop :=
  headerCheck c.header = c.header[7] ∧ cellType c = t ∧ t ≠ .invalid ∧ (t = .idle ∨ t = .train ∨ cellLength c ≤ 56)

/-- A type that reception in UP writes to the Ingress FIFO (R34, R38). -/
def carriesTraffic (t : CellType) : Bool :=
  match t with
  | .data => true
  | .mgmtReq => true
  | .mgmtRsp => true
  | .status => true
  | .notice => true
  | .idle => false
  | .train => false
  | .invalid => false

/-- Nothing but link p's record differs, and it is l. -/
def LinkBecomes (p : Link) (l : LinkPort) (s t : State) : Prop :=
  t = { s with links := t.links } ∧ ∀ q, t.links[q] = if q = p then l else s.links[q]

/-- Link p enters UP with partner hold flag `hold` (R17, R26, R121). -/
def EnteredUp (p : Link) (hold : Bool) (s t : State) : Prop :=
  ∃ a, (a = { s with links := a.links, senders := a.senders } ∧
      (∀ q, a.links[q] = if q = p then
        { s.links[q] with state := .up, attemptTimer := ⟨s.links[q].attemptTimer.micros, false⟩, run := 0, acknowledged := false,
                          score := 0, liveness := 0, rxExpect := none, txSeq := 0, partnerHold := hold }
        else s.links[q]) ∧
      ∀ q, a.senders[q] = if q = p then ⟨none, 0, 0⟩ else s.senders[q]) ∧
    Notified a t .linkState (linkStateDetail p .up .training s.links[p].lastDown s.links[p].attempts)

/-- The own hold flag after a change of occupancy (R45). -/
def holdFlag (occupancy : Nat) (before : Bool) : Bool :=
  match occupancy with
  | 0 => false
  | 1 => false
  | 2 => before
  | _ => true

/-- Reception of a traffic cell up to the FIFO (R34, R37): the record of link p, RX_CELLS, and SEQ_GAP when `gap`. -/
def TrafficReceived (p : Link) (h : Header) (gap : Bool) (s t : State) : Prop :=
  ∃ a b, LinkBecomes p { s.links[p] with partnerHold := h.hold, liveness := 0, score := s.links[p].score - 1,
                                         rxExpect := some (h.seq + 1) } s a ∧
    Counted a b p .rxCells ∧ if gap = true then Counted b t p .seqGap else t = b

/-- The sequence check finds a gap (R37). -/
def gapFound (l : LinkPort) (seq : Byte) : Bool := decide (l.rxExpect ≠ none) && decide (l.rxExpect ≠ some seq)

/-! ### Forwarding (R42, R52) -/

/-- Link p is the link that the arbiter chooses: the first after L, in cyclic order, whose FIFO holds an entry (R52). -/
def NextWaiting (s : State) (p : Link) : Prop :=
  ∃ i : Nat, i < 24 ∧ p.val = (s.arbiter.val + 1 + i) % 24 ∧ s.fifos[p].entries ≠ [] ∧
    ∀ j < i, ∀ q : Link, q.val = (s.arbiter.val + 1 + j) % 24 → s.fifos[q].entries = []

/-- The head entry e of link p's FIFO taken, `rest` left, flags latched, L moved to p (R42, R45, R51). -/
def EntryTaken (p : Link) (e : FifoEntry) (rest : List FifoEntry) (s t : State) : Prop :=
  t = { s with fifos := t.fifos, links := t.links, arbiter := p } ∧
  (∀ q, t.fifos[q] = if q = p then
    { s.fifos[q] with entries := rest, seqGapSeen := s.fifos[q].seqGapSeen || e.seqGap,
                      overrunSeen := s.fifos[q].overrunSeen || e.overrun } else s.fifos[q]) ∧
  ∀ q, t.links[q] = if q = p then { s.links[q] with ownHold := holdFlag rest.length s.links[q].ownHold } else s.links[q]

/-- A forwarding event takes the entry e of link p (R52, R53). -/
structure Forwards (s : State) (p : Link) (e : FifoEntry) (rest : List FifoEntry) : Prop where
  running : s.resetAsserted = false
  chosen  : NextWaiting s p
  head    : s.fifos[p].entries = e :: rest

/-- The active bank (R130). -/
def activeBank (t : TableControl) : Bank := t.bank t.active

/-- The staging bank (R130). -/
def stagingBank (t : TableControl) : Bank := t.bank t.staging

/-- The route entry that a DATA cell's lookup reads (R57). -/
def lookup (s : State) (c : Cell) : RouteEntry := (activeBank s.tables).route (parseHeader c.header).fdi.toNat

/-- A target matches the element address (R145). -/
def TargetMatches (x : Sru) (target : Byte) : Prop :=
  if target = 255 then x.broadcast = true
  else ∀ i < 8, x.idMask.getLsbD i = false → target.getLsbD i = x.elementId.getLsbD i

/-! ### Egress slots (R98 to R107) -/

/-- The slot counts of link p's Status Sender have risen at the start of an egress slot (R122). -/
def SlotBegun (p : Link) (s t : State) : Prop :=
  t = { s with senders := t.senders } ∧
  ∀ q, t.senders[q] = if q = p then ⟨s.senders[q].lastSent, min (s.senders[q].sinceStatus + 1) 64,
    min (s.senders[q].sinceRefresh + 1) 65535⟩ else s.senders[q]

/-- A status cell is due at the start of an egress slot of link p in UP, the counts about to rise (R122, R123). -/
def StatusDue (p : Link) (s : State) : Prop :=
  s.timing.spacing ≤ min (s.senders[p].sinceStatus + 1) 64 ∧
    (s.senders[p].lastSent ≠ some s.cmap.version ∨ s.timing.refresh ≤ min (s.senders[p].sinceRefresh + 1) 65535)

/-- An egress slot of link p reaches the service of its schedule (R98 case 3). -/
structure Serves (p : Link) (s : State) : Prop where
  running : s.resetAsserted = false
  up      : s.links[p].state = .up
  notDue  : ¬ StatusDue p s
  free    : s.links[p].partnerHold = false
  wf      : SchedulerWf true s.scheds[p]

/-- Window i of port p's active schedule is `win`, and its queue holds an entry. -/
def BusyWindow (p : Link) (s : State) (i : Nat) : Prop :=
  ∃ win, s.scheds[p].active[i]? = some win ∧ s.queue p win.cls ≠ []

/-- Nothing but port p's scheduler differs, and it is x. -/
def SchedulerBecomes (p : Link) (x : Scheduler) (s t : State) : Prop :=
  t = { s with scheds := t.scheds } ∧ ∀ q, t.scheds[q] = if q = p then x else s.scheds[q]

/-- Window w of port p has used one unit of its budget b (R103, R105): it stays open with b - 1, or closes and the pointer advances; a
wrap with the pending flag set applies the staging schedule (R106, R107). -/
def BudgetUsed (p : Link) (w b : Nat) (s t : State) : Prop :=
  if b ≠ 1 then SchedulerBecomes p { s.scheds[p] with w := w, isOpen := true, budget := b - 1 } s t
  else if w + 1 < s.scheds[p].active.length then
    SchedulerBecomes p { s.scheds[p] with w := w + 1, isOpen := false, budget := 0 } s t
  else ∃ m, SchedulerBecomes p { s.scheds[p] with w := 0, isOpen := false, budget := 0 } s m ∧
    if s.scheds[p].pending = true then StagingApplied p m t else t = m

/-- Window w of port p, with budget b in force, sends the head of its queue (R101, R103). -/
def WindowServed (p : Link) (w b : Nat) (s t : State) : Prop :=
  ∃ win x rest a, s.scheds[p].active[w]? = some win ∧ s.queue p win.cls = x :: rest ∧ HeadSent s a p win.cls x rest ∧
    if win.mode = .drain then SchedulerBecomes p { a.scheds[p] with w := w, isOpen := true, budget := b } a t
    else BudgetUsed p w b a t

/-- An idle slot (R104): an IDLE cell, the pointer kept, the window closed, and a pending schedule applied. -/
def IdleSlot (p : Link) (s t : State) : Prop :=
  ∃ a b, Sent s a p idleCell 0 ∧ SchedulerBecomes p { a.scheds[p] with isOpen := false, budget := 0 } a b ∧
    if s.scheds[p].pending = true then StagingApplied p b t else t = b

/-- A served slot of a fixed schedule (R105). -/
def FixedSlot (p : Link) (s t : State) : Prop :=
  ∃ win a, s.scheds[p].active[s.scheds[p].w]? = some win ∧
    (s.queue p win.cls = [] → Sent s a p idleCell 0) ∧
    (∀ x rest, s.queue p win.cls = x :: rest → HeadSent s a p win.cls x rest) ∧
    BudgetUsed p s.scheds[p].w (if s.scheds[p].isOpen = true then s.scheds[p].budget else win.budget) a t

/-- A served slot whose pass crosses no wrap with the pending flag set (R102 to R105). -/
def SlotServed (p : Link) (s t : State) : Prop :=
  (isFixedSchedule s.scheds[p].active = true → FixedSlot p s t) ∧
  (isFixedSchedule s.scheds[p].active = false →
    (∀ i < s.scheds[p].active.length, (∀ j < i, ¬ BusyWindow p s ((s.scheds[p].w + j) % s.scheds[p].active.length)) →
      BusyWindow p s ((s.scheds[p].w + i) % s.scheds[p].active.length) →
      ∃ win, s.scheds[p].active[(s.scheds[p].w + i) % s.scheds[p].active.length]? = some win ∧
        WindowServed p ((s.scheds[p].w + i) % s.scheds[p].active.length)
          (if i = 0 ∧ s.scheds[p].isOpen = true then s.scheds[p].budget else win.budget) s t) ∧
    ((∀ i < s.scheds[p].active.length, ¬ BusyWindow p s i) → IdleSlot p s t))

/-- The pass of a served slot of port p crosses a wrap with the pending flag set (R102, R107): it begins behind window 0 and finds every
window from there to the last empty. -/
def CrossesWrap (p : Link) (s : State) : Prop :=
  isFixedSchedule s.scheds[p].active = false ∧ s.scheds[p].pending = true ∧ 0 < s.scheds[p].w ∧
    ∀ i, s.scheds[p].w ≤ i → i < s.scheds[p].active.length → ¬ BusyWindow p s i

/-! ### Invariants -/

/-- The values a Link Port may hold (02 2.1, R13 to R30, R45). -/
structure LinkWf (l : LinkPort) : Prop where
  attempts     : l.attempts ≤ 15
  counting     : l.state = .training ∨ l.state = .holdoff ∨ l.state = .up → l.attempts ≤ 14
  limit        : 1 ≤ l.retrainLimit ∧ l.retrainLimit ≤ 15
  truncation   : 1 ≤ l.truncation ∧ l.truncation ≤ 10
  run          : l.run ≤ 63
  acknowledged : 32 ≤ l.run → l.acknowledged = true
  liveness     : l.liveness ≤ 4095
  score        : l.score ≤ 255
  supervised   : l.state ≠ .up → l.liveness = 0 ∧ l.score = 0
  up           : l.state = .up → l.run = 0 ∧ l.acknowledged = false
  attemptTimer : l.attemptTimer.micros ≤ 2000 ∧ l.attemptTimer.running = decide (l.state = .training)
  holdoffTimer : l.holdoffTimer.micros ≤ 10230 ∧ l.holdoffTimer.running = decide (l.state = .holdoff)

/-- A cell that an Ingress FIFO may hold: a valid cell of a type other than IDLE and TRAIN (R38). -/
def fifoCell (c : Cell) : Bool :=
  match classify (some c) with
  | .valid _ _ t => decide (t ≠ .idle) && decide (t ≠ .train)
  | .noCell => false
  | .headerError => false
  | .formatError => false

/-- What holds of an Ingress FIFO and its link (R38, R39, R45). -/
structure FifoWf (l : LinkPort) (f : IngressFifo) : Prop where
  depth : f.entries.length ≤ 4
  empty : l.state ≠ .up → f.entries = []
  cells : ∀ e ∈ f.entries, fifoCell e.cell = true
  low   : f.entries.length ≤ 1 → l.ownHold = false
  high  : 3 ≤ f.entries.length → l.ownHold = true

/-- The queues whose entries name buffer b. -/
def namingQueues (s : State) (b : Nat) : List (Link × Class) := queueNames.filter fun n => decide (b ∈ s.queue n.1 n.2)

/-- What holds of the Buffer Manager (R73 to R77, R89). -/
structure BuffersWf (s : State) : Prop where
  form     : tableWf ⟨zeroCell, 0⟩ s.bm.buffers = true ∧ tableBelow Config.bufferCount s.bm.buffers = true
  free     : s.bm.free.Nodup
  listed   : ∀ b, b ∈ s.bm.free ↔ b < Config.bufferCount ∧ (s.buffer b).refs = 0
  unused   : ∀ b, (s.buffer b).refs = 0 → s.buffer b = ⟨zeroCell, 0⟩
  refs     : ∀ b, (s.buffer b).refs = (namingQueues s b).length
  distinct : ∀ p c, (s.queue p c).Nodup
  oneClass : ∀ b p q c k, b ∈ s.queue p c → b ∈ s.queue q k → c = k
  pool     : s.bm.pool + s.queuedTotal = Config.bufferCount
  shared   : s.bm.shared = sharedUse s s.bm.params
  fits     : totalReservation s.bm.params + s.bm.shared ≤ Config.bufferCount
  params   : ∀ c : Class, paramsWf s.bm.params[c] = true
  down     : ∀ p c, s.isUp p = false → s.queue p c = []

/-- What holds of the Congestion Map (R115, R116). -/
structure MapWf (s : State) : Prop where
  thresholds : ∀ c : Class, thresholdsWf s.cmap.thresholds[c] = true
  held       : ∀ p c, s.cmap.thresholds[c].xoff ≤ (s.queue p c).length → s.cmap.held[p][c] = true
  flowing    : ∀ p c, (s.queue p c).length ≤ s.cmap.thresholds[c].xon → s.cmap.held[p][c] = false

/-- A bank in canonical form, every listed index in range (R129). -/
def bankWf (b : Bank) : Prop :=
  tableWf unusedRoute b.routes = true ∧ tableBelow Config.routeCount b.routes = true ∧
    tableWf emptyGroup b.groups = true ∧ tableBelow Config.groupCount b.groups = true

/-- The first p entries of a mirroring copied: routes before groups (R141). -/
def Mirrored (t : TableControl) (p : Nat) : Prop :=
  (∀ k, k < Config.routeCount → k < p → (t.bank t.staging).route k = (t.bank t.active).route k) ∧
    ∀ k, k < Config.groupCount → Config.routeCount + k < p → (t.bank t.staging).group k = (t.bank t.active).group k

/-- What holds of Table Control (R129, R138, R141). -/
structure TablesWf (t : TableControl) : Prop where
  bankA     : bankWf t.bankA
  bankB     : bankWf t.bankB
  pending   : ∀ x, t.commit = .pending x → 1 ≤ epochDistance t.epoch x ∧ epochDistance t.epoch x ≤ 32767
  mirroring : ∀ p, t.commit = .mirroring p → p < Config.routeCount + Config.groupCount ∧ Mirrored t p

/-- What holds of the Service Request Unit, the Status Senders and the notice records (R121, R144, R147, R171). -/
structure ServiceWf (s : State) : Prop where
  srq     : s.sru.srq.length ≤ 4
  address : s.sru.elementId ≠ 255
  timing  : timingWf s.timing = true
  slots   : ∀ p : Link, s.senders[p].sinceRefresh ≤ 65535 ∧ s.senders[p].sinceStatus = min s.senders[p].sinceRefresh 64
  notices : ∀ k, 1 ≤ (s.kind k).interval ∧ (s.kind k).interval ≤ 256 ∧ (s.kind k).pendingCount ≤ 65535

/-- Every port's link, FIFO and scheduler as they should be. -/
structure PortsWf (s : State) : Prop where
  links  : ∀ p : Link, LinkWf s.links[p]
  fifos  : ∀ p : Link, FifoWf s.links[p] s.fifos[p]
  scheds : ∀ p : Link, SchedulerWf (s.isUp p) s.scheds[p]

end Sys2Proof.Machine
end

