-- ==== Sys2Proof/Certificates/Slice0/Obligations.lean ====
section
/-! DEFINITION. The statements for the provers. A statement that gives a request's result says it for the request at the head of the
SRQ that passes the generic checks (`Accepted`); what becomes of any other head is stated by `RequestsWaitForTheirTurn`
and `GenericChecksRefuse`. -/

open Sys2Proof Sys2Proof.Machine

namespace Sys2Proof.Claims

/-- The register of every element value that a release of RESET sets (R177), for straps at `straps`. -/
structure ReleaseValues (straps : Byte) (t : State) : Prop where
  links    : ∀ p : Link, t.links[p] =
    { state := .training, attempts := 0, attemptTimer := ⟨0, true⟩, run := 0, acknowledged := false, holdoffTimer := ⟨0, false⟩,
      liveness := 0, score := 0, partnerHold := false, ownHold := false, txSeq := 0, rxExpect := none, lastDown := .none,
      retrainLimit := 15, truncation := 10 }
  fifos    : ∀ p : Link, t.fifos[p] = ⟨[], false, false, false, false⟩
  arbiter  : t.arbiter = 23
  buffers  : ∀ b, (t.buffer b).refs = 0
  free     : t.bm.free = List.range 12288
  pool     : t.bm.pool = 12288
  queues   : ∀ p c, t.queue p c = []
  params   : t.bm.params = #v[⟨16, 4096, 4⟩, ⟨8, 4096, 3⟩, ⟨8, 4096, 2⟩, ⟨4, 4096, 1⟩]
  shared   : t.bm.shared = 0
  scheds   : ∀ p : Link, t.scheds[p] =
    { active := [⟨0, .drain, 0⟩, ⟨1, .limited, 32⟩, ⟨2, .limited, 16⟩, ⟨3, .limited, 8⟩],
      staging := [⟨0, .drain, 0⟩, ⟨1, .limited, 32⟩, ⟨2, .limited, 16⟩, ⟨3, .limited, 8⟩],
      pending := false, w := 0, isOpen := false, budget := 0 }
  held     : ∀ (p : Link) (c : Class), t.cmap.held[p][c] = false
  cmap     : t.cmap.thresholds = #v[⟨512, 256⟩, ⟨256, 128⟩, ⟨256, 128⟩, ⟨256, 128⟩] ∧ t.cmap.version = 0
  senders  : ∀ p : Link, t.senders[p] = ⟨none, 0, 0⟩
  timing   : t.timing = ⟨8, 8192⟩
  routes   : ∀ k, t.tables.bankA.route k = unusedRoute ∧ t.tables.bankB.route k = unusedRoute
  groups   : ∀ k, t.tables.bankA.group k = emptyGroup ∧ t.tables.bankB.group k = emptyGroup
  tables   : t.tables.active = .a ∧ t.tables.commit = .idle ∧ t.tables.epoch = 0
  address  : t.sru.elementId = (if straps = 255 then 254 else straps) ∧ t.sru.idMask = 0 ∧ t.sru.broadcast = true ∧
    t.sru.strap = straps ∧ t.sru.srq = []
  counters : ∀ p i, t.counter p i = 0 ∧ t.carryFlag p i = false
  mask     : t.carryMask = 0
  notices  : (∀ k, t.kind k = ⟨decide (k = .linkState), 1, false, 0, false, Vector.replicate 6 0⟩) ∧ t.notices.ports = 0

/-- The commands of the 24 requests, each with its number and the word count it needs (the directory of 9.8). -/
def requestDirectory : List (Instr × Nat × Nat) :=
  [(.identify, 1, 0), (.writeRoute, 2, 23), (.readRoute, 3, 2), (.writeGroup, 4, 23), (.readGroup, 5, 2), (.commitRouting, 6, 2),
   (.cancelCommit, 7, 0), (.epochMark, 8, 1), (.readTableState, 9, 0), (.writeSchedule, 10, 9), (.applySchedule, 11, 2),
   (.readSchedule, 12, 1), (.setAdmission, 13, 4), (.setFlow, 14, 3), (.setStatusTiming, 15, 2), (.readBufferState, 16, 1),
   (.linkControl, 17, 4), (.readLinkStatus, 18, 1), (.clearLinkStatus, 19, 3), (.readCounters, 20, 2), (.clearCarry, 21, 3),
   (.setNotice, 22, 4), (.setElementAddress, 23, 2), (.datapathReset, 24, 0)]

/-- The header of a cell the element builds (R6), but for the three fields that transmission overwrites (log 17). -/
structure BuiltHeader (x : Cell) (t : CellType) (id : Byte) (length : Nat) : Prop where
  type   : cellType x = t
  cls    : (parseHeader x.header).cls = 0
  first  : (parseHeader x.header).first = false
  last   : (parseHeader x.header).last = false
  fdi    : (parseHeader x.header).fdi = (0 : BitVec 4) ++ id
  source : (parseHeader x.header).source = 0
  length : cellLength x = length
  user   : (parseHeader x.header).user = 0

/-- What a count at 4,294,967,295 leaves (R165, R166): the counter at 0, its carry flag set, every other counter as it stands. -/
structure WrapsToZero (s t : State) (p : Link) (c : Counter) : Prop where
  frame  : t = { s with counters := t.counters, notices := t.notices }
  value  : t.counter p c.index = 0
  flag   : t.carryFlag p c.index = true
  others : ∀ q i, ¬ (q = p ∧ i = c.index) → t.counter q i = s.counter q i ∧ t.carryFlag q i = s.carryFlag q i
  quiet  : s.carryMask.getLsbD c.index = true ∨ (s.kind .counterCarry).enabled = false → t.notices = s.notices

/-- The COUNTER_CARRY record after an event with detail d, its notice held (R172, R174). -/
def carryTaken (n : NoticeState) (d : Vector Byte 6) : NoticeState :=
  { n with pendingCount := min (n.pendingCount + 1) 65535, detail := d }

/-- The same, its notice emitted at once when the kind calls for one (R172, R173). -/
def carryEmitted (n : NoticeState) (d : Vector Byte 6) : NoticeState :=
  if n.spent = true ∨ min (n.pendingCount + 1) 65535 < n.interval then carryTaken n d
  else { carryTaken n d with pendingCount := 0, spent := n.firstOnly }

/-- Among the notice records only that of COUNTER_CARRY differs, and it is n. -/
def CarryBecomes (n : NoticeState) (s t : State) : Prop :=
  t.notices.ports = s.notices.ports ∧ ∀ k, t.kind k = if k = .counterCarry then n else s.kind k

/-- The new run and acknowledged flag after a good training cell that does not complete the run (R15, R16). -/
def runRaised (hold : Bool) (l : LinkPort) : LinkPort :=
  { l with partnerHold := hold, run := l.run + 1, acknowledged := l.acknowledged || decide (l.run + 1 = 32) }

/-- Word i of a table request's entry j: words 2 + 3j to 4 + 3j (8.2). -/
def entryWord (r : Request) (j i : Nat) : Word := blockWord r (2 + 3 * j + i)

/-- First index and count of a table request (R131 to R134). -/
def firstIndex (r : Request) : Nat := (blockWord r 0).toNat
def entryCount (r : Request) : Nat := (lo8 (blockWord r 1)).toNat

/-- A given entry has a port field of 24-255 (R131 check 4). -/
def BadPort (r : Request) (j : Nat) : Prop := 24 ≤ (hi8 (entryWord r j 1)).toNat ∨ 24 ≤ (lo8 (entryWord r j 1)).toNat

/-- A given entry is UNICAST with an alternate equal to its primary (R131 check 5). -/
def BadAlternate (r : Request) (j : Nat) : Prop :=
  (entryWord r j 0).extractLsb' 14 2 = 1 ∧ (entryWord r j 0).getLsbD 13 = true ∧ hi8 (entryWord r j 1) = lo8 (entryWord r j 1)

/-- First index and count of a run lie in a table of `size` entries. -/
def RunFits (r : Request) (size : Nat) : Prop :=
  firstIndex r < size ∧ 1 ≤ entryCount r ∧ entryCount r ≤ 7 ∧ firstIndex r + entryCount r ≤ size

/-- Only Table Control differs, and of it neither the roles, the commit state, the epoch nor the active bank (R130). -/
def StagingWritten (s t : State) : Prop :=
  t = { s with tables := t.tables } ∧ t.tables.active = s.tables.active ∧ t.tables.commit = s.tables.commit ∧
    t.tables.epoch = s.tables.epoch ∧ activeBank t.tables = activeBank s.tables

/-- A swap (R139): roles exchanged, MIRRORING at progress 0, both banks as they stand, and the COMMIT_DONE event SWAPPED. -/
def Swapped (epoch : BitVec 16) (s t : State) : Prop :=
  ∃ m, m = { s with tables := ⟨s.tables.bankA, s.tables.bankB, s.tables.active.other, .mirroring 0, epoch⟩ } ∧
    Notified m t .commitDone (commitDetail 1 s.tables.active.other epoch)

/-- The outputs of entries read: entry j's three words at positions 2 + 3j to 4 + 3j. -/
def entryOutputs (count : Nat) (words : Nat → List Word) : List (Nat × Word) :=
  (List.range count).flatMap fun j =>
    [(2 + 3 * j, (words j).getD 0 0), (3 + 3 * j, (words j).getD 1 0), (4 + 3 * j, (words j).getD 2 0)]

/-- The effect of LINK_CONTROL on one link: the flagged settings, then the action by the link's state (R28 to R30). -/
def LinkControlled (action : LinkAction) (setLimit setTruncation : Bool) (limit truncation : Nat) (p : Link) (s t : State) : Prop :=
  ∃ m, LinkBecomes p { s.links[p] with
      retrainLimit := if setLimit then (if limit = 0 then 1 else min limit 15) else s.links[p].retrainLimit,
      truncation := if setTruncation then (if truncation = 0 then 1 else min truncation 10) else s.links[p].truncation } s m ∧
    match action, s.links[p].state with
    | .none, _ => t = m
    | .enable, .up => LeftUp p .command false m t
    | .enable, _ => LinkBecomes p (attemptBegun 0 m.links[p]) m t
    | .disable, .up => LeftUp p .command true m t
    | .disable, .disabled => t = m
    | .disable, _ => LinkBecomes p (disabledEntered m.links[p]) m t
    | .retrain, .up => LeftUp p .command false m t
    | .retrain, .disabled => t = m
    | .retrain, _ => LinkBecomes p (attemptBegun 0 m.links[p]) m t

/-- The number of entries that DATAPATH_RESET flushes at port p (R162). -/
def flushedAt (s : State) (p : Link) : Nat :=
  s.fifos[p].entries.length + (s.queue p 0).length + (s.queue p 1).length + (s.queue p 2).length + (s.queue p 3).length

/-- The number of HELD entries of the map. -/
def heldCount (s : State) : Nat := (queueNames.filter fun n => s.cmap.held[n.1][n.2]).length

/-- The ports whose LINK_FLUSH counter wraps in a DATAPATH_RESET, in the order of the wraps: those of step 1, which counts the FIFOs'
entries, in ascending order, then those of step 2, which counts the queues' (R162). -/
def flushWraps (s : State) : List Link :=
  ((List.finRange 24).filter fun q : Link =>
    decide (2 ^ 32 ≤ (s.counter q Counter.linkFlush.index).toNat + s.fifos[q].entries.length)) ++
  (List.finRange 24).filter fun q : Link =>
    decide ((s.counter q Counter.linkFlush.index).toNat + s.fifos[q].entries.length < 2 ^ 32 ∧
      2 ^ 32 ≤ (s.counter q Counter.linkFlush.index).toNat + flushedAt s q)

/-- Steps 1 to 4 of DATAPATH_RESET (R162). The COUNTER_CARRY events of LINK_FLUSH counters that wrap are taken, and no notice is sent. -/
structure DatapathCleared (s t : State) : Prop where
  frame    : t = { s with links := t.links, fifos := t.fifos, bm := t.bm, cmap := t.cmap, scheds := t.scheds, counters := t.counters,
                          notices := t.notices }
  links    : ∀ p : Link, t.links[p] = { s.links[p] with ownHold := false }
  fifos    : ∀ p : Link, t.fifos[p] = { s.fifos[p] with entries := [] }
  scheds   : ∀ p : Link, t.scheds[p] = { s.scheds[p] with w := 0, isOpen := false, budget := 0 }
  queues   : ∀ p c, t.queue p c = []
  buffers  : ∀ b, (t.buffer b).refs = 0
  free     : t.bm.free = List.range 12288
  pool     : t.bm.pool = 12288
  shared   : t.bm.shared = 0
  params   : t.bm.params = s.bm.params
  held     : ∀ (p : Link) (c : Class), t.cmap.held[p][c] = false
  version  : t.cmap.version = s.cmap.version + BitVec.ofNat 16 (heldCount s) + 1
  limits   : t.cmap.thresholds = s.cmap.thresholds
  values   : ∀ p i, t.counter p i = s.counter p i + if i = Counter.linkFlush.index then BitVec.ofNat 32 (flushedAt s p) else 0
  flags    : ∀ p i, t.carryFlag p i =
    (s.carryFlag p i || decide (i = Counter.linkFlush.index ∧ 2 ^ 32 ≤ (s.counter p i).toNat + flushedAt s p))
  quiet    : flushWraps s = [] ∨ s.carryMask.getLsbD Counter.linkFlush.index = true ∨ (s.kind .counterCarry).enabled = false →
    t.notices = s.notices
  events   : ∀ q, (flushWraps s).getLast? = some q → s.carryMask.getLsbD Counter.linkFlush.index = false →
    (s.kind .counterCarry).enabled = true →
    CarryBecomes { s.kind .counterCarry with
      pendingCount := min ((s.kind .counterCarry).pendingCount + (flushWraps s).length) 65535,
      detail := carryDetail q Counter.linkFlush.index } s t

end Sys2Proof.Claims

open Sys2Proof.Claims

/-! ### The queue of commands and RESET -/

/-- The command at the front of the queue is executed with the queue's rest; an empty queue idles. The queue, by which commands come to
run (log 20), and the idling (log 2) are the model's choice. -/
def Obligations.StepRunsTheFrontCommand : Prop :=
  (∀ (s : State) (c : Instr) (rest : List Instr), s.pending = c :: rest → step s = exec c { s with pending := rest }) ∧
  ∀ s : State, s.pending = [] → step s = .next s

/-- Every command answers a next state in every state, leaves the queue of commands alone, and leaves the level of the RESET pin
alone unless it is one of that pin's. That a command answers a next state also where its event cannot occur is the model's choice
(log 3), and so is the queue of commands (log 20). -/
def Obligations.EveryCommandHasANextState : Prop :=
  ∀ (c : Instr) (s : State), ∃ t, exec c s = .next t ∧ t.pending = s.pending ∧
    (c ≠ .resetAssert → (∀ x, c ≠ .resetRelease x) → t.resetAsserted = s.resetAsserted)

/-- RESET_RELEASE: every value that R177 and the reset tables of the chapters give, from every state. -/
def Obligations.ReleaseOfResetValues : Prop :=
  ∀ (straps : Byte) (s : State), ∃ t, exec (.resetRelease straps) s = .next t ∧ ReleaseValues straps t ∧
    t.resetAsserted = false ∧ t.pending = s.pending

/-- RESET_ASSERT, and every other command while RESET is asserted: the values are held, every transmitter is quiet, nothing is counted
or executed (R177, R32). That the strap value keeps its last sample meanwhile is the model's choice (log 6), and so is the field `tx`,
in which the quiet of the transmitters is seen and which the other commands leave (log 7). -/
def Obligations.AssertedResetHoldsTheElement : Prop :=
  (∀ s : State, ∃ t, exec .resetAssert s = .next t ∧ ReleaseValues s.sru.strap t ∧ t.resetAsserted = true ∧
    t.pending = s.pending ∧ ∀ p : Link, t.tx[p] = none) ∧
  ∀ (c : Instr) (s : State), s.resetAsserted = true → c ≠ .resetAssert → (∀ x, c ≠ .resetRelease x) →
    ∃ t, exec c s = .next t ∧ t = { s with tx := t.tx } ∧
      ∀ q : Link, t.tx[q] = if c = .egressSlot q then none else s.tx[q]

/-! ### Receive slots and timers of a link -/

/-- Training reception short of the 64th cell: the run rises with a valid TRAIN or IDLE cell, the acknowledged flag is set at 32,
and any other cell returns the run to 0 and is counted (R14 to R16). A notice that the wrap of a count calls for is emitted at once
(log 12). -/
def Obligations.TrainingReception : Prop :=
  ∀ (s : State) (p : Link), s.resetAsserted = false → s.links[p].state = .training →
    exec (.receiveSlot p none) s = .next s ∧
    (∀ c, ValidCell c .train ∨ ValidCell c .idle → s.links[p].run + 1 < 64 → (32 ≤ s.links[p].run → s.links[p].acknowledged = true) →
      ∃ t, exec (.receiveSlot p (some c)) s = .next t ∧ LinkBecomes p (runRaised (parseHeader c.header).hold s.links[p]) s t) ∧
    (∀ c, HeaderError c → ∃ a t, exec (.receiveSlot p (some c)) s = .next t ∧
      LinkBecomes p { s.links[p] with run := 0 } s a ∧ Counted a t p .hdrErr) ∧
    (∀ c, FormatError c → ∃ a t, exec (.receiveSlot p (some c)) s = .next t ∧
      LinkBecomes p { s.links[p] with run := 0 } s a ∧ Counted a t p .formatErr) ∧
    ∀ c k, carriesTraffic k = true → ValidCell c k → ∃ a t, exec (.receiveSlot p (some c)) s = .next t ∧
      LinkBecomes p { s.links[p] with run := 0, partnerHold := (parseHeader c.header).hold } s a ∧ Counted a t p .linkFlush

/-- The cell that brings the run to 64 takes the link to UP, with the entry values of R17 and R121 and the LINK_STATE event of R26.
The stopped attempt timer keeps its value (log 15). -/
def Obligations.SixtyFourthTrainingCellEntersUp : Prop :=
  ∀ (s : State) (p : Link) (c : Cell), s.resetAsserted = false → s.links[p].state = .training →
    ValidCell c .train ∨ ValidCell c .idle → s.links[p].run = 63 →
    ∃ t, exec (.receiveSlot p (some c)) s = .next t ∧ EnteredUp p (parseHeader c.header).hold s t

/-- Receive slots in UP after which the link is still UP and which write no cell: no cell, format error, header error, IDLE (R21,
R22, R34, R35). A notice that the wrap of a count calls for is emitted at once (log 12). -/
def Obligations.QuietSlotsInUp : Prop :=
  ∀ (s : State) (p : Link), s.resetAsserted = false → s.links[p].state = .up →
    (s.links[p].liveness < 4095 → ∃ t, exec (.receiveSlot p none) s = .next t ∧
      LinkBecomes p { s.links[p] with liveness := s.links[p].liveness + 1 } s t) ∧
    (∀ c, FormatError c → s.links[p].liveness < 4095 → ∃ a b t, exec (.receiveSlot p (some c)) s = .next t ∧
      LinkBecomes p { s.links[p] with liveness := s.links[p].liveness + 1 } s a ∧
      (b = { a with fifos := b.fifos } ∧ ∀ q : Link, b.fifos[q] = if q = p then { s.fifos[q] with formatErrSeen := true } else s.fifos[q]) ∧
      Counted b t p .formatErr) ∧
    (∀ c, HeaderError c → s.links[p].liveness < 4095 → s.links[p].score + 16 < 256 →
      ∃ a b t, exec (.receiveSlot p (some c)) s = .next t ∧
        LinkBecomes p { s.links[p] with liveness := s.links[p].liveness + 1, score := s.links[p].score + 16 } s a ∧
        (b = { a with fifos := b.fifos } ∧ ∀ q : Link, b.fifos[q] = if q = p then { s.fifos[q] with hdrErrSeen := true } else s.fifos[q]) ∧
        Counted b t p .hdrErr) ∧
    ∀ c, ValidCell c .idle → ∃ t, exec (.receiveSlot p (some c)) s = .next t ∧
      LinkBecomes p { s.links[p] with partnerHold := (parseHeader c.header).hold, liveness := 0, score := s.links[p].score - 1 } s t

/-- The receive slots that take a link out of UP: the 4,096th slot without a valid cell, the header error that brings the score to
256, which prevails, and a valid TRAIN cell (R21 to R26). A notice that the wrap of a count calls for is emitted at once (log 12).
That the FIFO's entries are counted before the queues are flushed, and an error before the link leaves UP, is the model's choice (log
24). -/
def Obligations.SlotsThatTakeALinkDown : Prop :=
  ∀ (s : State) (p : Link), s.resetAsserted = false → s.links[p].state = .up →
    (s.links[p].liveness = 4095 → ∃ t, exec (.receiveSlot p none) s = .next t ∧ LeftUp p .silence false s t) ∧
    (∀ c, FormatError c → s.links[p].liveness = 4095 → ∃ a b t, exec (.receiveSlot p (some c)) s = .next t ∧
      (a = { s with links := a.links, fifos := a.fifos } ∧
        (∀ q : Link, a.links[q] = if q = p then { s.links[q] with liveness := 4096 } else s.links[q]) ∧
        ∀ q : Link, a.fifos[q] = if q = p then { s.fifos[q] with formatErrSeen := true } else s.fifos[q]) ∧
      Counted a b p .formatErr ∧ LeftUp p .silence false b t) ∧
    (∀ c, HeaderError c → 240 ≤ s.links[p].score ∨ s.links[p].liveness = 4095 →
      ∃ a b t, exec (.receiveSlot p (some c)) s = .next t ∧
        (a = { s with links := a.links, fifos := a.fifos } ∧
          (∀ q : Link, a.links[q] = if q = p then
            { s.links[q] with liveness := s.links[q].liveness + 1, score := s.links[q].score + 16 } else s.links[q]) ∧
          ∀ q : Link, a.fifos[q] = if q = p then { s.fifos[q] with hdrErrSeen := true } else s.fifos[q]) ∧
        Counted a b p .hdrErr ∧ LeftUp p (if 240 ≤ s.links[p].score then .errorScore else .silence) false b t) ∧
    ∀ c, ValidCell c .train → ∃ t, exec (.receiveSlot p (some c)) s = .next t ∧ LeftUp p .partnerRetrain false s t

/-- A cell written to the Ingress FIFO when its occupancy is 0 to 3 joins the tail with its reception status; the entries already waiting
are unchanged, and the own hold flag follows the new occupancy (R40). Beside that the slot does what reception does: the link record, and
the counts RX_CELLS and, at a gap, SEQ_GAP. -/
def Obligations.ArrivalJoinsTheFifo : Prop :=
  ∀ (s : State) (p : Link) (c : Cell) (k : CellType), s.resetAsserted = false → s.links[p].state = .up → carriesTraffic k = true →
    ValidCell c k → s.fifos[p].entries.length ≤ 3 →
    let h := parseHeader c.header
    let gap := gapFound s.links[p] h.seq
    ∃ m t, exec (.receiveSlot p (some c)) s = .next t ∧ NoticeEffects s m ∧
      (NoCounterAtTop s → CountsRaised s m fun q i =>
        if q = p ∧ (i = Counter.rxCells.index ∨ (i = Counter.seqGap.index ∧ gap = true)) then 1 else 0) ∧
      t = { m with fifos := t.fifos, links := t.links } ∧
      (∀ q : Link, t.fifos[q] = if q = p then { s.fifos[q] with entries := s.fifos[q].entries ++ [⟨c, gap, false⟩] } else s.fifos[q]) ∧
      ∀ q : Link, t.links[q] = if q = p then
        { s.links[q] with partnerHold := h.hold, liveness := 0, score := s.links[q].score - 1, rxExpect := some (h.seq + 1),
                          ownHold := holdFlag (s.fifos[p].entries.length + 1) s.links[p].ownHold }
        else s.links[q]

/-- A cell that arrives at a full Ingress FIFO replaces the newest entry, which is counted OVERRUN; the arriving cell is marked
OVERRUN, and SEQ_GAP if a gap was found (R37, R38, R41). The order RX_CELLS, SEQ_GAP, OVERRUN of the counts is the model's (log 14).
A notice that the wrap of a count calls for is emitted at once (log 12). -/
def Obligations.ArrivalAtAFullFifoReplacesTheNewest : Prop :=
  ∀ (s : State) (p : Link) (c : Cell) (k : CellType), s.resetAsserted = false → s.links[p].state = .up → carriesTraffic k = true →
    ValidCell c k → s.fifos[p].entries.length = 4 →
    ∃ m n t, exec (.receiveSlot p (some c)) s = .next t ∧
      TrafficReceived p (parseHeader c.header) (gapFound s.links[p] (parseHeader c.header).seq) s m ∧
      (n = { m with fifos := n.fifos } ∧ ∀ q : Link, n.fifos[q] = if q = p then
        { s.fifos[q] with entries := s.fifos[q].entries.take 3 ++ [⟨c, gapFound s.links[p] (parseHeader c.header).seq, true⟩] }
        else s.fifos[q]) ∧
      Counted n t p .overrun

/-- The attempt timer's expiry (R18 to R20) and the holdoff timer's (R20, R15). The draw k of 0 to 2^m - 1 is the model's free value
`Config.holdoffDraw` at the count `draws` of the draws made, a field of the model's own that rises by 1 (log 4): nothing says which k it
is, so the statement holds whichever it is. That a timer of a link in another state does not expire is the model's choice (log 3), and
so is what a stopped timer, and out of TRAINING the run and the acknowledged flag, keep (logs 15, 16). -/
def Obligations.LinkTimersExpire : Prop :=
  ∀ (s : State) (p : Link), s.resetAsserted = false →
    (s.links[p].state = .training → s.links[p].retrainLimit ≤ s.links[p].attempts + 1 →
      ∃ a t, exec (.attemptTimerExpiry p) s = .next t ∧
        LinkBecomes p { s.links[p] with state := .failed, attempts := s.links[p].attempts + 1, run := 0,
                                        attemptTimer := ⟨2000, false⟩ } s a ∧
        Notified a t .linkState (linkStateDetail p .failed .training s.links[p].lastDown (s.links[p].attempts + 1))) ∧
    (s.links[p].state = .training → s.links[p].attempts + 1 < s.links[p].retrainLimit →
      let m := min (s.links[p].attempts + 1) s.links[p].truncation
      let k := Config.holdoffDraw s.draws % 2 ^ m
      k < 2 ^ m ∧ ∃ t, exec (.attemptTimerExpiry p) s = .next t ∧
        LinkBecomes p
          (if k = 0 then attemptBegun (s.links[p].attempts + 1) s.links[p]
           else { s.links[p] with state := .holdoff, attempts := s.links[p].attempts + 1, attemptTimer := ⟨2000, false⟩,
                                  holdoffTimer := ⟨k * 10, true⟩ })
          { s with draws := s.draws + 1 } t) ∧
    (s.links[p].state = .holdoff → ∃ t, exec (.holdoffTimerExpiry p) s = .next t ∧
      LinkBecomes p (attemptBegun s.links[p].attempts s.links[p]) s t) ∧
    (s.links[p].state ≠ .training → exec (.attemptTimerExpiry p) s = .next s) ∧
    (s.links[p].state ≠ .holdoff → exec (.holdoffTimerExpiry p) s = .next s)

/-! ### Egress slots -/

/-- A link that is not UP: in DISABLED, HOLDOFF and FAILED a receive slot changes nothing, whatever it brings, and an egress slot
sends nothing; in TRAINING an egress slot sends a TRAIN cell, or an IDLE cell once acknowledged (R13, R16). What a link sent is seen
in the model's own field `tx` (log 7). -/
def Obligations.SlotsOfLinksThatAreNotUp : Prop :=
  ∀ (s : State) (p : Link), s.resetAsserted = false →
    (s.links[p].state = .disabled ∨ s.links[p].state = .holdoff ∨ s.links[p].state = .failed →
      (∀ arrival, exec (.receiveSlot p arrival) s = .next s) ∧
      ∃ t, exec (.egressSlot p) s = .next t ∧ t = { s with tx := t.tx } ∧ t.tx[p] = none ∧ ∀ q : Link, q ≠ p → t.tx[q] = s.tx[q]) ∧
    (s.links[p].state = .training → ∃ t, exec (.egressSlot p) s = .next t ∧
      Sent s t p (if s.links[p].acknowledged = true then idleCell else trainCell) 0)

/-- In UP a status cell that is due takes the slot, built from the map, version, ID and SF as they stand; otherwise a set partner hold
flag makes it an IDLE cell. Neither changes the scheduler or a queue (R98 to R100, R122 to R124). Sent cells are seen in `tx` (log 7).
A notice that the wrap of a count calls for is emitted at once (log 12). That TX_CELLS is counted after the Status Sender's values are
set is the model's inference (log 25). -/
def Obligations.StatusAndHeldSlots : Prop :=
  ∀ (s : State) (p : Link), s.resetAsserted = false → s.links[p].state = .up →
    (StatusDue p s → ∃ a b t, exec (.egressSlot p) s = .next t ∧
      Sent s a p (statusCell s.sru.elementId s.cmap (12288 - totalReservation s.bm.params - s.bm.shared)) 0 ∧
      (b = { a with senders := b.senders } ∧
        ∀ q : Link, b.senders[q] = if q = p then ⟨some s.cmap.version, 0, 0⟩ else s.senders[q]) ∧
      Counted b t p .txCells) ∧
    (¬ StatusDue p s → s.links[p].partnerHold = true → ∃ a t, exec (.egressSlot p) s = .next t ∧ SlotBegun p s a ∧ Sent a t p idleCell 0)

/-- A served slot follows the active schedule: the first window of the pass whose queue holds an entry, or an idle slot, or a fixed
window's slot (R98, R101 to R106). Sent cells are seen in `tx` (log 7). A notice that the wrap of a count calls for is emitted at once
(log 12). That TX_CELLS is counted after the dequeue and before the window's budget is used is the model's inference (log 25). -/
def Obligations.ServedSlotFollowsTheSchedule : Prop :=
  ∀ (s : State) (p : Link), Serves p s → ¬ CrossesWrap p s →
    ∃ a t, exec (.egressSlot p) s = .next t ∧ SlotBegun p s a ∧ SlotServed p a t

/-- A pass that crosses a wrap with the pending flag set applies the staging schedule there, and the slot goes on under it as a fresh
served slot (R107). A SCHEDULE_APPLIED notice may join the port's own C0 queue before the slot goes on (log 22). Sent cells are seen
in `tx` (log 7). That TX_CELLS is counted after the dequeue and before the window's budget is used is the model's inference (log 25). -/
def Obligations.WrapInsideAPassAppliesTheStagingSchedule : Prop :=
  ∀ (s : State) (p : Link), Serves p s → CrossesWrap p s →
    ∃ a m t, exec (.egressSlot p) s = .next t ∧ SlotBegun p s a ∧ StagingApplied p a m ∧ SlotServed p m t

/-- Every cell the element sends carries a right header check and zeros in the reserved bits, whatever it carried when it arrived,
and an egress slot touches no other link's transmitter (R1, R3, R5). Sent cells are seen in `tx` (log 7). -/
def Obligations.SentCellsCarryARightCheck : Prop :=
  ∀ (s t : State) (p : Link), exec (.egressSlot p) s = .next t →
    (∀ x, t.tx[p] = some x → headerCheck x.header = x.header[7] ∧ x.header[2].extractLsb' 0 4 = 0 ∧ x.header[5].extractLsb' 6 2 = 0) ∧
    ∀ q : Link, q ≠ p → t.tx[q] = s.tx[q]

/-! ### Forwarding and admission -/

/-- A forwarding event serves the next waiting link in cyclic order and takes the head of its FIFO whole; nothing later in the event
touches a FIFO, a link or the arbiter again (R42, R45, R51, R52). That the command changes nothing with no entry waiting is the model's
choice (log 3), and so is the field `tx`, which it leaves (log 7). -/
def Obligations.ForwardingTakesTheNextEntry : Prop :=
  (∀ (s : State) (p : Link) (e : FifoEntry) (rest : List FifoEntry), Forwards s p e rest →
    ∃ a t, exec .forwardingEvent s = .next t ∧ EntryTaken p e rest s a ∧
      t.fifos = a.fifos ∧ t.links = a.links ∧ t.arbiter = p ∧ t.scheds = s.scheds ∧ t.tables = s.tables ∧ t.senders = s.senders ∧
      t.tx = s.tx) ∧
  ∀ s : State, (∀ p : Link, s.fifos[p].entries = []) → exec .forwardingEvent s = .next s

/-- A DATA cell whose route entry is DISCARD is discarded at its forwarding event and counted ROUTE_DISCARD at its arrival port, whatever
the link states (R60): its entry is taken, the count is raised, and nothing else happens but what the wrap of a count calls for. -/
def Obligations.DiscardRouteIsCounted : Prop :=
  ∀ (s : State) (p : Link) (e : FifoEntry) (rest : List FifoEntry), Forwards s p e rest → cellType e.cell = .data →
    (lookup s e.cell).kind = .discard →
    ∃ a t, exec .forwardingEvent s = .next t ∧ EntryTaken p e rest s a ∧ NoticeEffects a t ∧
      t.counter p Counter.routeDiscard.index = s.counter p Counter.routeDiscard.index + 1 ∧
      (NoCounterAtTop s → CountsRaised a t fun q i => if q = p ∧ i = Counter.routeDiscard.index then 1 else 0)

/-- The discards at the arrival port, with their counts: a DISCARD or UNUSED route, a type the element does not expect, a request for another element (R56,
R59, R145, R146). A notice that the wrap of a count calls for is emitted at once (log 12). -/
def Obligations.DiscardsAtTheArrivalPort : Prop :=
  ∀ (s : State) (p : Link) (e : FifoEntry) (rest : List FifoEntry), Forwards s p e rest →
    ∃ a t, EntryTaken p e rest s a ∧ exec .forwardingEvent s = .next t ∧
      (cellType e.cell = .data → (lookup s e.cell).kind = .unused → Counted a t p .noRoute) ∧
      (cellType e.cell = .data → (lookup s e.cell).kind = .discard → Counted a t p .routeDiscard) ∧
      (cellType e.cell = .mgmtRsp ∨ cellType e.cell = .status ∨ cellType e.cell = .notice → Counted a t p .unexpectedType) ∧
      (cellType e.cell = .mgmtReq → ¬ TargetMatches s.sru (targetOf e.cell) → Counted a t p .foreignMgmt)

/-- A UNICAST lookup: the primary port when UP, else the alternate when present and UP, counted FAILOVER there, else ROUTE_DOWN at the
arrival port; the queue class is the override's or the cell's (R61, R62, R66, R67). A notice that the wrap of a count calls for is
emitted at once (log 12). That FAILOVER is counted before the submission is the model's inference (log 25). -/
def Obligations.UnicastForwarding : Prop :=
  ∀ (s : State) (p : Link) (e : FifoEntry) (rest : List FifoEntry), Forwards s p e rest → cellType e.cell = .data →
    (lookup s e.cell).kind = .unicast →
    let r := lookup s e.cell
    let c : Sys2Proof.Class := if r.overridePresent = true then r.overrideClass else classOf (parseHeader e.cell.header).cls
    ∃ a t, exec .forwardingEvent s = .next t ∧ EntryTaken p e rest s a ∧
      (s.isUp r.primary = true → DataSubmitted a t e.cell [r.primary] c) ∧
      (s.isUp r.primary = false → r.altPresent = true → s.isUp r.alternate = true →
        ∃ b, Counted a b r.alternate .failover ∧ DataSubmitted b t e.cell [r.alternate] c) ∧
      (s.isUp r.primary = false → r.altPresent = false ∨ s.isUp r.alternate = false → Counted a t p .routeDown)

/-- A MULTICAST lookup: the members less the arrival port (unless return-to-source), those not UP pruned and counted in ascending
order, the rest submitted in ascending order; an empty copy set is counted ROUTE_DOWN (R63 to R67). A notice that the wrap of a count
calls for is emitted at once (log 12). That MCAST_PRUNED is counted before the submission is the model's inference (log 25). -/
def Obligations.MulticastForwarding : Prop :=
  ∀ (s : State) (p : Link) (e : FifoEntry) (rest : List FifoEntry), Forwards s p e rest → cellType e.cell = .data →
    (lookup s e.cell).kind = .multicast →
    let r := lookup s e.cell
    let c : Sys2Proof.Class := if r.overridePresent = true then r.overrideClass else classOf (parseHeader e.cell.header).cls
    let g := (activeBank s.tables).group r.group.toNat
    let members := (List.finRange 24).filter fun q : Link => g.members.getLsbD q && (g.returnToSource || decide (q ≠ p))
    let copySet := members.filter fun q => s.isUp q
    ∃ a b t, exec .forwardingEvent s = .next t ∧ EntryTaken p e rest s a ∧
      EachLink (fun q x y => Counted x y q .mcastPruned) (members.filter fun q => !s.isUp q) a b ∧
      (copySet ≠ [] → DataSubmitted b t e.cell copySet c) ∧ (copySet = [] → Counted b t p .routeDown)

/-- Admission of one copy (R80, R81) and what it leaves (R84 to R86): a DATA cell routed to one port q that is UP, c the override's class
or the cell's own (R66), Q its queue's length, SF the shared free, T the shared threshold floor(SF x 2^a / 16). A DATA copy for a port
that is not UP does not occur (R79); responses and several copies are in AdmissionOfEachCopy. -/
def Obligations.AdmissionOfOneCopy : Prop :=
  ∀ (s : State) (p q : Link) (e : FifoEntry) (rest : List FifoEntry) (b : Nat) (tail : List Nat),
    Forwards s p e rest → cellType e.cell = .data → (lookup s e.cell).kind = .unicast → (lookup s e.cell).primary = q →
    s.isUp q = true → s.bm.free = b :: tail → NoCounterAtTop s →
    let c : Sys2Proof.Class := if (lookup s e.cell).overridePresent = true then (lookup s e.cell).overrideClass
      else classOf (parseHeader e.cell.header).cls
    let Q := (s.queue q c).length
    let R := s.bm.params[c].reservation
    let SF := 12288 - totalReservation s.bm.params - s.bm.shared
    let T := SF * 2 ^ s.bm.params[c].alpha / 16
    ∃ a t, exec .forwardingEvent s = .next t ∧ EntryTaken p e rest s a ∧
      (Q < R → Placed a t e.cell c [q] 0 b tail) ∧
      (R ≤ Q → Q + 1 ≤ s.bm.params[c].maximum → 1 ≤ SF → Q - R < T → Placed a t e.cell c [q] 1 b tail) ∧
      (R ≤ Q → s.bm.params[c].maximum < Q + 1 →
        CountsRaised a t fun o i => if o = q ∧ i = Counter.queueMax.index then 1 else 0) ∧
      (R ≤ Q → Q + 1 ≤ s.bm.params[c].maximum → SF = 0 ∨ T ≤ Q - R →
        CountsRaised a t fun o i => if o = q ∧ i = Counter.sharedLimit.index then 1 else 0)

/-- A submission that admits at least one copy always finds the free list non-empty (R84), in every state whose accounting holds. -/
def Obligations.AdmissionFindsAFreeBuffer : Prop :=
  ∀ (s : State) (c : Sys2Proof.Class) (ports : List Link), BuffersWf s → admittedPorts (s.verdicts c s.bm.shared ports) ≠ [] →
    s.bm.free ≠ []

/-! ### Requests: the queue, the generic checks, the answers -/

/-- A matching request handed to the SRU while the SRQ holds 0 to 3 requests is queued at the tail, with its fields taken from the cell;
the requests already queued are unchanged (R148). -/
def Obligations.MatchingRequestIsQueued : Prop :=
  ∀ (s : State) (p : Link) (e : FifoEntry) (rest : List FifoEntry), Forwards s p e rest → cellType e.cell = .mgmtReq →
    TargetMatches s.sru (targetOf e.cell) → s.sru.srq.length ≤ 3 →
    ∃ a t r, exec .forwardingEvent s = .next t ∧ EntryTaken p e rest s a ∧
      t = { a with sru := { s.sru with srq := s.sru.srq ++ [r] } } ∧
      r.port = p ∧ r.number = e.cell.payload[0] ∧ r.tag = e.cell.payload[1] ∧ r.quiet = e.cell.payload[2].getLsbD 0 ∧
      r.wordCount = e.cell.payload[3].toNat ∧ r.payloadLength = cellLength e.cell ∧
      ∀ i : Fin 24, r.block[i] = e.cell.payload[4 + 2 * i.val] ++ e.cell.payload[5 + 2 * i.val]

/-- A matching request that finds 4 requests queued is answered SRQ_FULL at once, QUIET or not, and raises SRQ_OVERFLOW; the queued
requests are unchanged (R149). -/
def Obligations.FullQueueIsAnsweredSrqFull : Prop :=
  ∀ (s : State) (p : Link) (e : FifoEntry) (rest : List FifoEntry), Forwards s p e rest → cellType e.cell = .mgmtReq →
    TargetMatches s.sru (targetOf e.cell) → s.sru.srq.length = 4 →
    ∃ a b t, exec .forwardingEvent s = .next t ∧ EntryTaken p e rest s a ∧ Responded a b (requestOf p e.cell) .srqFull [] ∧
      Notified b t .srqOverflow (overflowDetail p e.cell.payload[0] e.cell.payload[1]) ∧ t.sru = s.sru

/-- The generic checks (R153, R8): a request numbered 0 or 25 to 255 at the head of the SRQ is answered BAD_REQUEST by UNKNOWN_REQUEST,
whatever else it carries; a defined request whose word count is above 24 or below its need (9.8), or whose payload is too short for its
word count, is answered BAD_LENGTH. Neither answer carries words, and neither changes anything but that the request leaves the SRQ. -/
def Obligations.GenericChecksRefuse : Prop :=
  (∀ (s : State) (r : Request), s.resetAsserted = false → s.sru.srq.head? = some r → r.number.toNat = 0 ∨ 25 ≤ r.number.toNat →
    ∃ t, exec .unknownRequest s = .next t ∧ Answered (taken s) t r .badRequest []) ∧
  ∀ (c : Instr) (n need : Nat) (s : State) (r : Request), (c, n, need) ∈ requestDirectory →
    s.resetAsserted = false → s.sru.srq.head? = some r → r.number.toNat = n →
    24 < r.wordCount ∨ r.wordCount < need ∨ r.payloadLength < 4 + 2 * r.wordCount →
    ∃ t, exec c s = .next t ∧ Answered (taken s) t r .badLength []

/-- The SRU executes only the request at the head of the SRQ: a request's command changes nothing when the SRQ is empty or another
request is at its head, nor does UNKNOWN_REQUEST when a defined one is (R151; that such a command is then without effect is the model's
choice, log 3). -/
def Obligations.RequestsWaitForTheirTurn : Prop :=
  (∀ (c : Instr) (n need : Nat) (s : State), (c, n, need) ∈ requestDirectory →
    (s.sru.srq = [] ∨ ∃ r, s.sru.srq.head? = some r ∧ r.number.toNat ≠ n) → exec c s = .next s) ∧
  ∀ s : State, (s.sru.srq = [] ∨ ∃ r, s.sru.srq.head? = some r ∧ 1 ≤ r.number.toNat ∧ r.number.toNat ≤ 24) →
    exec .unknownRequest s = .next s

/-- The five cells the element builds: every header field of R6 but the link sequence, hold bit and check, which transmission writes
(log 17), and the payloads of R8 to R10, byte by byte, 0 beyond their length. Then the block of an OK response: its exact length, and
the word at each position (R8). -/
def Obligations.BuiltCellLayouts : Prop :=
  (∀ (id number tag : Byte) (code : Code) (words : List Word), words.length ≤ 24 →
    let x := responseCell id number tag code words
    BuiltHeader x .mgmtRsp id (4 + 2 * words.length) ∧
    x.payload[0] = number ∧ x.payload[1] = tag ∧ x.payload[2] = codeByte code ∧ x.payload[3] = BitVec.ofNat 8 words.length ∧
    (∀ i : Fin 24, x.payload[4 + 2 * i.val] ++ x.payload[5 + 2 * i.val] = words.getD i.val 0) ∧
    ∀ i : Fin 56, 4 + 2 * words.length ≤ i.val → x.payload[i] = 0) ∧
  (∀ (id : Byte) (m : CongestionMap) (sharedFree : Nat),
    let x := statusCell id m sharedFree
    BuiltHeader x .status id 17 ∧
    x.payload[0] ++ x.payload[1] = m.version ∧ x.payload[2] = id ∧ x.payload[15] ++ x.payload[16] = BitVec.ofNat 16 sharedFree ∧
    (∀ (p : Link) (c : Sys2Proof.Class), (x.payload[3 + (4 * p.val + c.val) / 8]'(by omega)).getLsbD (7 - (4 * p.val + c.val) % 8) = m.held[p][c]) ∧
    ∀ i : Fin 56, 17 ≤ i.val → x.payload[i] = 0) ∧
  (∀ (id : Byte) (k : NoticeKind) (count : Nat) (detail : Vector Byte 6), count ≤ 65535 →
    let x := noticeCell id k count detail
    BuiltHeader x .notice id 10 ∧
    x.payload[0] = k.code ∧ x.payload[1] = id ∧ (x.payload[2] ++ x.payload[3]).toNat = count ∧
    (∀ i : Fin 6, x.payload[4 + i.val] = detail[i]) ∧ ∀ i : Fin 56, 10 ≤ i.val → x.payload[i] = 0) ∧
  (BuiltHeader idleCell .idle 0 0 ∧ BuiltHeader trainCell .train 0 0 ∧
    ∀ i : Fin 56, idleCell.payload[i] = 0 ∧ trainCell.payload[i] = 0) ∧
  ∀ (r : Request) (outputs : List (Nat × Word)),
    let block := okWords r outputs
    (r.wordCount ≤ block.length ∧ (∀ o ∈ outputs, o.1 + 1 ≤ block.length) ∧
      (block.length = r.wordCount ∨ ∃ o ∈ outputs, block.length = o.1 + 1)) ∧
    ∀ i < block.length,
      (∀ w, outputs.find? (fun o => o.1 == i) = some (i, w) → block[i]? = some w) ∧
      (outputs.find? (fun o => o.1 == i) = none → block[i]? = some (if i < r.wordCount then blockWord r i else 0))

/-- IDENTIFY returns the codes, the address settings, the strap value, the active bank and the epoch, and changes nothing (R159). -/
def Obligations.IdentifyReturnsTheElement : Prop :=
  ∀ (s : State) (r : Request), Accepted s r 1 0 →
    CompletesWith .identify s r (fun s1 => s1 = taken s) fun _ =>
      [(0, 0x0A31), (1, 0x0F24), (2, (3 : Byte) ++ s.sru.elementId), (3, s.sru.strap ++ s.sru.idMask),
       (4, (if s.sru.broadcast = true then (1 : Byte) else 0) ++ bankCode s.tables.active), (5, s.tables.epoch)]

/-- SET_ELEMENT_ADDRESS sets ID, mask and broadcast acceptance together, and its answer carries the new ID; an ID of 255 is refused with
RANGE (R160, R161). -/
def Obligations.SetElementAddressTakesEffect : Prop :=
  ∀ (s : State) (r : Request), Accepted s r 23 2 →
    (lo8 (blockWord r 0) ≠ 255 → CompletesWith .setElementAddress s r
      (fun s1 => s1 = { taken s with sru := ⟨lo8 (blockWord r 0), lo8 (blockWord r 1), (blockWord r 1).getLsbD 8, s.sru.strap,
        s.sru.srq.tail⟩ }) fun _ => []) ∧
    (lo8 (blockWord r 0) = 255 → RefusedWith .setElementAddress s r .range)

/-! ### Tables, commit and epochs -/

/-- WRITE_ROUTE stores the given entries in the staging bank, or is refused by the first check that fails (R131, R11). -/
def Obligations.WriteRouteStoresInTheStagingBank : Prop :=
  ∀ (s : State) (r : Request), Accepted s r 2 23 →
    (∀ es : List RouteEntry, RunFits r 4096 → es.length = entryCount r →
      (∀ j < entryCount r, routeOfWords (entryWord r j 0) (entryWord r j 1) (entryWord r j 2) = es[j]?) →
      (∀ j < entryCount r, ¬ BadAlternate r j) → s.tables.commit = .idle → bankWf (stagingBank s.tables) →
      CompletesWith .writeRoute s r (fun s1 => StagingWritten (taken s) s1 ∧
        (stagingBank s1.tables).groups = (stagingBank s.tables).groups ∧
        ∀ k, (stagingBank s1.tables).route k =
          if firstIndex r ≤ k ∧ k < firstIndex r + entryCount r then es.getD (k - firstIndex r) unusedRoute
          else (stagingBank s.tables).route k) fun _ => []) ∧
    (¬ RunFits r 4096 → RefusedWith .writeRoute s r .range) ∧
    (RunFits r 4096 → (∃ j < entryCount r, BadPort r j) → RefusedWith .writeRoute s r .range) ∧
    (RunFits r 4096 → (∀ j < entryCount r, ¬ BadPort r j) → (∃ j < entryCount r, BadAlternate r j) →
      RefusedWith .writeRoute s r .badParam) ∧
    (RunFits r 4096 → (∀ j < entryCount r, ¬ BadPort r j ∧ ¬ BadAlternate r j) →
      (∀ x, s.tables.commit = .pending x → RefusedWith .writeRoute s r .commitPending) ∧
      ∀ x, s.tables.commit = .mirroring x → RefusedWith .writeRoute s r .tableBusy)

/-- WRITE_GROUP stores the given entries in the staging bank, or is refused by the first check that fails (R133, R12). -/
def Obligations.WriteGroupStoresInTheStagingBank : Prop :=
  ∀ (s : State) (r : Request), Accepted s r 4 23 →
    (RunFits r 1024 → s.tables.commit = .idle → bankWf (stagingBank s.tables) →
      CompletesWith .writeGroup s r (fun s1 => StagingWritten (taken s) s1 ∧
        (stagingBank s1.tables).routes = (stagingBank s.tables).routes ∧
        ∀ k, (stagingBank s1.tables).group k =
          if firstIndex r ≤ k ∧ k < firstIndex r + entryCount r then
            groupOfWords (entryWord r (k - firstIndex r) 0) (entryWord r (k - firstIndex r) 1) (entryWord r (k - firstIndex r) 2)
          else (stagingBank s.tables).group k) fun _ => []) ∧
    (¬ RunFits r 1024 → RefusedWith .writeGroup s r .range) ∧
    (RunFits r 1024 → ∀ x, s.tables.commit = .pending x → RefusedWith .writeGroup s r .commitPending) ∧
    (RunFits r 1024 → ∀ x, s.tables.commit = .mirroring x → RefusedWith .writeGroup s r .tableBusy)

/-- READ_ROUTE and READ_GROUP return the entries of the named bank as stored and change nothing; a run or bank out of range is refused with
RANGE, and the staging bank in MIRRORING with TABLE_BUSY (R132, R134). -/
def Obligations.TableReadsReturnTheNamedBank : Prop :=
  ∀ (s : State) (r : Request),
    (Accepted s r 3 2 →
      (∀ name : BankId, RunFits r 4096 → hi8 (blockWord r 1) = bankCode name →
        ((∃ x, s.tables.commit = .mirroring x) → name = s.tables.active) →
        CompletesWith .readRoute s r (fun s1 => s1 = taken s) fun _ =>
          entryOutputs (entryCount r) fun j => routeWords ((s.tables.bank name).route (firstIndex r + j))) ∧
      (¬ RunFits r 4096 ∨ 2 ≤ (hi8 (blockWord r 1)).toNat → RefusedWith .readRoute s r .range) ∧
      ∀ x, RunFits r 4096 → hi8 (blockWord r 1) = bankCode s.tables.active.other → s.tables.commit = .mirroring x →
        RefusedWith .readRoute s r .tableBusy) ∧
    (Accepted s r 5 2 →
      (∀ name : BankId, RunFits r 1024 → hi8 (blockWord r 1) = bankCode name →
        ((∃ x, s.tables.commit = .mirroring x) → name = s.tables.active) →
        CompletesWith .readGroup s r (fun s1 => s1 = taken s) fun _ =>
          entryOutputs (entryCount r) fun j => groupWords ((s.tables.bank name).group (firstIndex r + j))) ∧
      (¬ RunFits r 1024 ∨ 2 ≤ (hi8 (blockWord r 1)).toNat → RefusedWith .readGroup s r .range) ∧
      ∀ x, RunFits r 1024 → hi8 (blockWord r 1) = bankCode s.tables.active.other → s.tables.commit = .mirroring x →
        RefusedWith .readGroup s r .tableBusy)

/-- COMMIT_ROUTING in each commit state (R137, R139). The SWAPPED notice precedes the answer (log 12). -/
def Obligations.CommitRoutingByCommitState : Prop :=
  ∀ (s : State) (r : Request), Accepted s r 6 2 →
    (s.tables.commit = .idle → (blockWord r 0).getLsbD 15 = true →
      CompletesWith .commitRouting s r (fun s1 => Swapped s.tables.epoch (taken s) s1) fun _ =>
        [(2, bankCode s.tables.active.other ++ (2 : Byte)), (3, s.tables.epoch)]) ∧
    (s.tables.commit = .idle → (blockWord r 0).getLsbD 15 = false →
      1 ≤ (blockWord r 1 - s.tables.epoch).toNat → (blockWord r 1 - s.tables.epoch).toNat ≤ 32767 →
      CompletesWith .commitRouting s r
        (fun s1 => s1 = { taken s with tables := { s.tables with commit := .pending (blockWord r 1) } }) fun _ =>
        [(2, bankCode s.tables.active ++ (1 : Byte)), (3, s.tables.epoch)]) ∧
    (s.tables.commit = .idle → (blockWord r 0).getLsbD 15 = false →
      (blockWord r 1 - s.tables.epoch).toNat = 0 ∨ 32768 ≤ (blockWord r 1 - s.tables.epoch).toNat →
      RefusedWith .commitRouting s r .epochStale) ∧
    (∀ x, s.tables.commit = .pending x → RefusedWith .commitRouting s r .commitPending) ∧
    ∀ x, s.tables.commit = .mirroring x → RefusedWith .commitRouting s r .tableBusy

/-- CANCEL_COMMIT withdraws a PENDING commit and returns its target, and is refused with NO_COMMIT otherwise (R140); READ_TABLE_STATE
returns the state of Table Control and changes nothing (R143). -/
def Obligations.CancelCommitAndReadTableState : Prop :=
  ∀ (s : State) (r : Request),
    (Accepted s r 7 0 →
      (∀ x, s.tables.commit = .pending x → CompletesWith .cancelCommit s r
        (fun s1 => s1 = { taken s with tables := { s.tables with commit := .idle } }) fun _ => [(0, x)]) ∧
      (s.tables.commit = .idle ∨ (∃ x, s.tables.commit = .mirroring x) → RefusedWith .cancelCommit s r .noCommit)) ∧
    (Accepted s r 9 0 → CompletesWith .readTableState s r (fun s1 => s1 = taken s) fun _ =>
      match s.tables.commit with
      | .idle => [(0, bankCode s.tables.active ++ (0 : Byte)), (1, 0), (2, s.tables.epoch), (3, 0)]
      | .pending x => [(0, bankCode s.tables.active ++ (1 : Byte)), (1, x), (2, s.tables.epoch), (3, 0)]
      | .mirroring p => [(0, bankCode s.tables.active ++ (2 : Byte)), (1, 0), (2, s.tables.epoch), (3, BitVec.ofNat 16 p)])

/-- EPOCH_MARK moves the epoch counter forward by 1 to 32,767 and swaps the banks when it reaches the target of a PENDING commit;
any other mark is stale (R135, R136). The SWAPPED notice precedes the answer (log 12). -/
def Obligations.EpochMarkAdvancesTheCounter : Prop :=
  ∀ (s : State) (r : Request), Accepted s r 8 1 →
    let m := blockWord r 0
    let f := (m - s.tables.epoch).toNat
    (1 ≤ f → f ≤ 32767 → (∀ x, s.tables.commit = .pending x → 32768 < (m - x).toNat) →
      CompletesWith .epochMark s r (fun s1 => s1 = { taken s with tables := { s.tables with epoch := m } }) fun _ =>
        [(1, m), (2, bankCode s.tables.active ++ commitCode s.tables.commit)]) ∧
    (1 ≤ f → f ≤ 32767 → ∀ x, s.tables.commit = .pending x → (m - x).toNat ≤ 32768 →
      CompletesWith .epochMark s r (fun s1 => Swapped m (taken s) s1) fun _ =>
        [(1, m), (2, bankCode s.tables.active.other ++ (2 : Byte))]) ∧
    (f = 0 ∨ 32768 ≤ f → RefusedWith .epochMark s r .epochStale)

/-- A copy step copies one entry from the active bank into the staging bank; the step at 5,119 ends the mirroring with COMMIT_DONE MIRRORED;
out of MIRRORING nothing happens (R141; the last is the model's choice, log 3). -/
def Obligations.MirrorCopyStepCopiesOneEntry : Prop :=
  ∀ s : State, s.resetAsserted = false →
    (∀ p, s.tables.commit = .mirroring p → p < 5120 → bankWf (stagingBank s.tables) →
      ∃ a t, exec .mirrorCopyStep s = .next t ∧
        (a = { s with tables := a.tables } ∧ a.tables.active = s.tables.active ∧ a.tables.epoch = s.tables.epoch ∧
          activeBank a.tables = activeBank s.tables ∧
          (∀ k, (stagingBank a.tables).route k =
            if k = p ∧ p < 4096 then (activeBank s.tables).route k else (stagingBank s.tables).route k) ∧
          (∀ k, (stagingBank a.tables).group k =
            if 4096 + k = p then (activeBank s.tables).group k else (stagingBank s.tables).group k) ∧
          a.tables.commit = if p = 5119 then .idle else .mirroring (p + 1)) ∧
        if p = 5119 then Notified a t .commitDone (commitDetail 2 s.tables.active s.tables.epoch) else t = a) ∧
    ((∀ p, s.tables.commit ≠ .mirroring p) → exec .mirrorCopyStep s = .next s)

/-! ### Schedules -/

/-- WRITE_SCHEDULE replaces the staging schedule of one port, or is refused by the first check that fails (R110, R111, R12). -/
def Obligations.WriteScheduleStagesASchedule : Prop :=
  ∀ (s : State) (r : Request), Accepted s r 10 9 →
    let n := (hi8 (blockWord r 0)).toNat
    let port := (lo8 (blockWord r 0)).toNat
    (24 ≤ port ∨ n = 0 ∨ 8 < n → RefusedWith .writeSchedule s r .range) ∧
    (port < 24 → 1 ≤ n → n ≤ 8 → (∃ i < n, (blockWord r (1 + i)).extractLsb' 12 2 = 3) → RefusedWith .writeSchedule s r .badParam) ∧
    ∀ (p : Link) (ws : List Window), p.val = port → 1 ≤ n → n ≤ 8 → ws.length = n →
      (∀ i < n, windowOfWord (blockWord r (1 + i)) = ws[i]?) →
      ((∃ x ∈ ws, x.mode ≠ .drain ∧ x.budget = 0) ∨ ((∃ x ∈ ws, x.mode = .fixed) ∧ ∃ x ∈ ws, x.mode = .drain) →
        RefusedWith .writeSchedule s r .badParam) ∧
      (scheduleWf ws = true → s.scheds[p].pending = true → RefusedWith .writeSchedule s r .schedulePending) ∧
      (scheduleWf ws = true → s.scheds[p].pending = false → CompletesWith .writeSchedule s r
        (fun s1 => SchedulerBecomes p { s.scheds[p] with staging := ws } (taken s) s1) fun _ => [])

/-- APPLY_SCHEDULE sets the pending flag of a port in UP and applies the staging schedule of any other at once, in ascending port
order, and returns the pending flags (R112, R107). Its notices are emitted port by port, before the answer (log 12). -/
def Obligations.ApplyScheduleByLinkState : Prop :=
  ∀ (s : State) (r : Request), Accepted s r 11 2 →
    CompletesWith .applySchedule s r
      (fun s1 => EachLink (fun p x y => if x.isUp p = true then SchedulerBecomes p { x.scheds[p] with pending := true } x y
          else StagingApplied p x y)
        ((List.finRange 24).filter fun p : Link => (lo8 (blockWord r 1) ++ blockWord r 0 : BitVec 24).getLsbD p) (taken s) s1)
      fun s1 => [(2, portsLow (portsWhere fun p => s1.scheds[p].pending)), (3, portsHigh (portsWhere fun p => s1.scheds[p].pending))]

/-- READ_SCHEDULE returns the selected schedule and the state of the active service and changes nothing; a port or selector out of range is
refused with RANGE (R114). -/
def Obligations.ReadScheduleReturnsTheService : Prop :=
  ∀ (s : State) (r : Request), Accepted s r 12 1 →
    (24 ≤ (lo8 (blockWord r 0)).toNat ∨ 2 ≤ (hi8 (blockWord r 0)).toNat → RefusedWith .readSchedule s r .range) ∧
    ∀ p : Link, p.val = (lo8 (blockWord r 0)).toNat → (hi8 (blockWord r 0)).toNat ≤ 1 →
      let x := s.scheds[p]
      let ws := if hi8 (blockWord r 0) = 0 then x.active else x.staging
      CompletesWith .readSchedule s r (fun s1 => s1 = taken s) fun _ =>
        [(1, BitVec.ofNat 8 ws.length ++ BitVec.ofBool x.pending ++ BitVec.ofBool x.isOpen ++ (0 : BitVec 3) ++ BitVec.ofNat 3 x.w),
         (2, BitVec.ofNat 8 x.budget |>.setWidth 16)] ++
        (List.range 8).map fun i => (3 + i, match ws[i]? with | some win => windowWord win | none => 0)

/-! ### Buffer, map and timing settings -/

/-- SET_ADMISSION changes the parameters of one class and recomputes U, unless S' lies below U'; ranges are checked first (R92, R93, R76). -/
def Obligations.SetAdmissionKeepsTheSharedPoolCovered : Prop :=
  ∀ (s : State) (r : Request), Accepted s r 13 4 →
    let R := (blockWord r 1).toNat
    let M := (blockWord r 2).toNat
    let alpha := min (lo8 (blockWord r 3)).toNat 7
    (4 ≤ (lo8 (blockWord r 0)).toNat ∨ 255 < R ∨ M = 0 ∨ 12288 < M → RefusedWith .setAdmission s r .range) ∧
    ∀ c : Sys2Proof.Class, c.val = (lo8 (blockWord r 0)).toNat → R ≤ 255 → 1 ≤ M → M ≤ 12288 →
      let params := upd s.bm.params c ⟨R, M, alpha⟩
      let RT := 24 * (params[0].reservation + params[1].reservation + params[2].reservation + params[3].reservation)
      let U := (queueNames.map fun n => (s.queue n.1 n.2).length - params[n.2].reservation).sum
      ((12288 : Int) - RT < U → RefusedWith .setAdmission s r .admissionConflict) ∧
      ((U : Int) ≤ 12288 - RT → CompletesWith .setAdmission s r
        (fun s1 => s1 = { taken s with bm := { s.bm with params := params, shared := U } }) fun _ =>
        [(3, BitVec.ofNat 16 alpha), (4, BitVec.ofNat 16 RT), (5, BitVec.ofNat 16 (12288 - RT)), (6, BitVec.ofNat 16 U),
         (7, BitVec.ofNat 16 (12288 - RT - U))])

/-- SET_FLOW stores the thresholds of one class and tests its 24 entries again; each change raises the version (R126, R127). -/
def Obligations.SetFlowTestsTheEntriesAgain : Prop :=
  ∀ (s : State) (r : Request), Accepted s r 14 3 →
    let X := (blockWord r 1).toNat
    let N := (blockWord r 2).toNat
    (4 ≤ (lo8 (blockWord r 0)).toNat ∨ X < 2 ∨ 12288 < X → RefusedWith .setFlow s r .range) ∧
    ((lo8 (blockWord r 0)).toNat < 4 → 2 ≤ X → X ≤ 12288 → X ≤ N → RefusedWith .setFlow s r .badParam) ∧
    ∀ c : Sys2Proof.Class, c.val = (lo8 (blockWord r 0)).toNat → 2 ≤ X → X ≤ 12288 → N < X →
      CompletesWith .setFlow s r
        (fun s1 => s1 = { taken s with cmap := s1.cmap } ∧
          (∀ k : Sys2Proof.Class, s1.cmap.thresholds[k] = if k = c then ⟨X, N⟩ else s.cmap.thresholds[k]) ∧
          (∀ (p : Link) (k : Sys2Proof.Class), s1.cmap.held[p][k] =
            if k = c then (if s.cmap.held[p][k] = true then decide (N < (s.queue p k).length) else decide (X ≤ (s.queue p k).length))
            else s.cmap.held[p][k]) ∧
          s1.cmap.version = s.cmap.version +
            BitVec.ofNat 16 ((List.finRange 24).filter fun p : Link => s1.cmap.held[p][c] != s.cmap.held[p][c]).length)
        fun s1 => [(3, portsLow (portsWhere fun p => s1.cmap.held[p][c])), (4, portsHigh (portsWhere fun p => s1.cmap.held[p][c])),
                   (5, s1.cmap.version)]

/-- SET_STATUS_TIMING stores the clamped spacing and refresh interval and returns them (R128, R121). READ_BUFFER_STATE returns the
accounting and the queues of one port and changes nothing; a port out of range is refused with RANGE (R95). -/
def Obligations.StatusTimingAndBufferState : Prop :=
  ∀ (s : State) (r : Request),
    (Accepted s r 15 2 →
      let spacing := max 2 (min 64 (blockWord r 0).toNat)
      let refresh := max 256 (blockWord r 1).toNat
      CompletesWith .setStatusTiming s r (fun s1 => s1 = { taken s with timing := ⟨spacing, refresh⟩ }) fun _ =>
        [(0, BitVec.ofNat 16 spacing), (1, BitVec.ofNat 16 refresh)]) ∧
    (Accepted s r 16 1 →
      (24 ≤ (lo8 (blockWord r 0)).toNat → RefusedWith .readBufferState s r .range) ∧
      ∀ p : Link, p.val = (lo8 (blockWord r 0)).toNat →
        let S := 12288 - totalReservation s.bm.params
        CompletesWith .readBufferState s r (fun s1 => s1 = taken s) fun _ =>
          [(1, BitVec.ofNat 16 s.bm.free.length), (2, BitVec.ofNat 16 S), (3, BitVec.ofNat 16 s.bm.shared),
           (4, BitVec.ofNat 16 (S - s.bm.shared)), (5, BitVec.ofNat 16 (queueNames.map fun n => (s.queue n.1 n.2).length).sum),
           (6, BitVec.ofNat 16 (s.queue p 0).length), (7, BitVec.ofNat 16 (s.queue p 1).length),
           (8, BitVec.ofNat 16 (s.queue p 2).length), (9, BitVec.ofNat 16 (s.queue p 3).length),
           (10, (0 : BitVec 12) ++ BitVec.ofBool s.cmap.held[p][(3 : Sys2Proof.Class)] ++
              BitVec.ofBool s.cmap.held[p][(2 : Sys2Proof.Class)] ++ BitVec.ofBool s.cmap.held[p][(1 : Sys2Proof.Class)] ++
              BitVec.ofBool s.cmap.held[p][(0 : Sys2Proof.Class)])])

/-! ### Link requests -/

/-- LINK_CONTROL acts port by port in ascending order, settings first, by the table of R29, and returns the 24 link states; an action
of 4 to 15 is refused with BAD_PARAM (R27 to R30). The stopped timers of a link disabled keep their values (log 15). Notices are
emitted link by link, before the answer (log 12). That the FIFO's entries are counted before the queues are flushed is the model's
choice (log 24). -/
def Obligations.LinkControlByLinkState : Prop :=
  ∀ (s : State) (r : Request), Accepted s r 17 4 →
    (4 ≤ ((blockWord r 0).extractLsb' 12 4).toNat → RefusedWith .linkControl s r .badParam) ∧
    ∀ a : LinkAction, linkActionOf ((blockWord r 0).extractLsb' 12 4) = some a →
      CompletesWith .linkControl s r
        (fun s1 => EachLink (LinkControlled a ((blockWord r 0).getLsbD 11) ((blockWord r 0).getLsbD 10)
            (hi8 (blockWord r 3)).toNat (lo8 (blockWord r 3)).toNat)
          ((List.finRange 24).filter fun p : Link => (lo8 (blockWord r 2) ++ blockWord r 1 : BitVec 24).getLsbD p) (taken s) s1)
        fun s1 => (List.finRange 12).map fun i => (4 + i.val,
          linkStateCode (s1.links[2 * i.val]'(by omega)).state ++ linkStateCode (s1.links[2 * i.val + 1]'(by omega)).state)

/-- READ_LINK_STATUS returns the state of one link and changes nothing (R48); CLEAR_LINK_STATUS clears the selected flags of the selected
ports and nothing else (R49). -/
def Obligations.LinkStatusRequests : Prop :=
  ∀ (s : State) (r : Request),
    (Accepted s r 18 1 →
      (24 ≤ (lo8 (blockWord r 0)).toNat → RefusedWith .readLinkStatus s r .range) ∧
      ∀ p : Link, p.val = (lo8 (blockWord r 0)).toNat →
        let l := s.links[p]
        let f := s.fifos[p]
        CompletesWith .readLinkStatus s r (fun s1 => s1 = taken s) fun _ =>
          [(1, linkStateCode l.state ++ BitVec.ofNat 8 l.attempts), (2, downReasonCode l.lastDown ++ BitVec.ofNat 8 l.score),
           (3, (0 : BitVec 5) ++ BitVec.ofNat 3 f.entries.length ++ (0 : BitVec 2) ++ BitVec.ofBool l.ownHold ++ BitVec.ofBool l.partnerHold ++
              BitVec.ofBool f.hdrErrSeen ++ BitVec.ofBool f.formatErrSeen ++ BitVec.ofBool f.seqGapSeen ++ BitVec.ofBool f.overrunSeen),
           (4, BitVec.ofNat 8 l.retrainLimit ++ BitVec.ofNat 8 l.truncation),
           (5, match l.rxExpect with | some x => (0x80 : Byte) ++ x | none => 0)]) ∧
    (Accepted s r 19 3 → CompletesWith .clearLinkStatus s r
      (fun s1 => s1 = { taken s with fifos := s1.fifos } ∧ ∀ p : Link, s1.fifos[p] =
        if (lo8 (blockWord r 2) ++ blockWord r 1 : BitVec 24).getLsbD p = true then
          { s.fifos[p] with hdrErrSeen := s.fifos[p].hdrErrSeen && !(blockWord r 0).getLsbD 3,
                            formatErrSeen := s.fifos[p].formatErrSeen && !(blockWord r 0).getLsbD 2,
                            seqGapSeen := s.fifos[p].seqGapSeen && !(blockWord r 0).getLsbD 1,
                            overrunSeen := s.fifos[p].overrunSeen && !(blockWord r 0).getLsbD 0 }
        else s.fifos[p]) fun _ => [])

/-! ### Counters and notices -/

/-- A count at 4,294,967,295, of any counter at any port: it brings the counter to 0 and sets its carry flag, and unmasked, with the kind
on, it raises a COUNTER_CARRY event, masked none (R166, R172). The event of a count raised within a submission or a DATAPATH_RESET is
taken, and its notice waits (R174); that of any other count is followed by the notice it calls for, at once (log 12), said for an empty
notice port set, to which R173 sends no cell. Then the same of a command: the NO_ROUTE count of a forwarding event. -/
def Obligations.CountAtTheTopWraps : Prop :=
  (∀ (s : State) (p : Link) (c : Counter), s.counter p c.index = BitVec.allOnes 32 →
    WrapsToZero s (s.countHeld p c).1 p c ∧
    (s.carryMask.getLsbD c.index = false → (s.kind .counterCarry).enabled = true →
      CarryBecomes (carryTaken (s.kind .counterCarry) (carryDetail p c.index)) s (s.countHeld p c).1) ∧
    (s.notices.ports = 0 → WrapsToZero s (s.count p c) p c ∧
      (s.carryMask.getLsbD c.index = false → (s.kind .counterCarry).enabled = true →
        CarryBecomes (carryEmitted (s.kind .counterCarry) (carryDetail p c.index)) s (s.count p c)))) ∧
  ∀ (s : State) (p : Link) (e : FifoEntry) (rest : List FifoEntry), Forwards s p e rest → cellType e.cell = .data →
    (lookup s e.cell).kind = .unused → s.counter p Counter.noRoute.index = BitVec.allOnes 32 → s.notices.ports = 0 →
    ∃ a t, exec .forwardingEvent s = .next t ∧ EntryTaken p e rest s a ∧ WrapsToZero a t p .noRoute ∧
      (s.carryMask.getLsbD Counter.noRoute.index = false → (s.kind .counterCarry).enabled = true →
        CarryBecomes (carryEmitted (s.kind .counterCarry) (carryDetail p Counter.noRoute.index)) s t)

/-- READ_COUNTERS returns a run of counters of one port with their carry flags and changes nothing; CLEAR_CARRY clears the selected flags of
one port and acts on the mask; ranges are checked in the order given (R168, R169). -/
def Obligations.CounterRequests : Prop :=
  ∀ (s : State) (r : Request),
    (Accepted s r 20 2 →
      let port := ((blockWord r 0).extractLsb' 0 5).toNat
      let first := (hi8 (blockWord r 1)).toNat
      let count := (lo8 (blockWord r 1)).toNat
      (24 ≤ port ∨ 18 ≤ first ∨ count = 0 ∨ 12 ≤ count ∨ 18 < first + count → RefusedWith .readCounters s r .range) ∧
      ∀ p : Link, p.val = port → first < 18 → 1 ≤ count → count ≤ 11 → first + count ≤ 18 →
        ∃ w : Word, (w.extractLsb' 0 5).toNat = p.val ∧
          (∀ i < 11, w.getLsbD (15 - i) = (decide (i < count) && s.counters[p].carry.getLsbD (first + i))) ∧
          CompletesWith .readCounters s r (fun s1 => s1 = taken s) fun _ =>
            (0, w) :: (List.range count).flatMap fun i =>
              [(2 + 2 * i, (s.counters[p].values.toList.getD (first + i) 0).extractLsb' 16 16),
               (3 + 2 * i, (s.counters[p].values.toList.getD (first + i) 0).extractLsb' 0 16)]) ∧
    (Accepted s r 21 3 →
      (24 ≤ (lo8 (blockWord r 0)).toNat → RefusedWith .clearCarry s r .range) ∧
      ((lo8 (blockWord r 0)).toNat < 24 → (blockWord r 0).extractLsb' 14 2 = 3 → RefusedWith .clearCarry s r .badParam) ∧
      ∀ p : Link, p.val = (lo8 (blockWord r 0)).toNat → (blockWord r 0).extractLsb' 14 2 ≠ 3 →
        CompletesWith .clearCarry s r
          (fun s1 => s1 = { taken s with counters := s1.counters, carryMask := s1.carryMask } ∧
            (∀ q i, s1.counter q i = s.counter q i) ∧
            (∀ q (i : Fin 18), s1.carryFlag q i =
              (s.carryFlag q i && !(decide (q = p) && ((blockWord r 2).extractLsb' 0 2 ++ blockWord r 1 : BitVec 18).getLsbD i))) ∧
            ∀ i : Fin 18, s1.carryMask.getLsbD i =
              if ((blockWord r 2).extractLsb' 0 2 ++ blockWord r 1 : BitVec 18).getLsbD i = true ∧ (blockWord r 0).extractLsb' 14 2 ≠ 0
              then decide ((blockWord r 0).extractLsb' 14 2 = 1) else s.carryMask.getLsbD i) fun _ => [])

/-- SET_NOTICE: port set, then kind settings, then rearm; the outputs as they stand after; no notice is emitted; a kind out of range is
refused with RANGE (R175, R176). -/
def Obligations.SetNoticeActsInOrder : Prop :=
  ∀ (s : State) (r : Request), Accepted s r 22 4 →
    ((hi8 (blockWord r 0)).toNat = 0 ∨ 6 ≤ (hi8 (blockWord r 0)).toNat → RefusedWith .setNotice s r .range) ∧
    ∀ k : NoticeKind, hi8 (blockWord r 0) = k.code →
      let w := blockWord r 0
      let n := s.kind k
      let spent := n.spent && !(w.getLsbD 7 && !w.getLsbD 5) && !w.getLsbD 4
      let count := if w.getLsbD 4 = true then 0 else n.pendingCount
      let interval := if w.getLsbD 7 = true then max 1 (min 256 (blockWord r 1).toNat) else n.interval
      let enabled := if w.getLsbD 7 = true then w.getLsbD 6 else n.enabled
      let firstOnly := if w.getLsbD 7 = true then w.getLsbD 5 else n.firstOnly
      let ports : BitVec 24 := if w.getLsbD 3 = true then lo8 (blockWord r 3) ++ blockWord r 2 else s.notices.ports
      CompletesWith .setNotice s r
        (fun s1 => s1 = { taken s with notices := s1.notices } ∧ s1.notices.ports = ports ∧
          ∀ j, s1.kind j = if j = k then ⟨enabled, interval, firstOnly, count, spent, n.detail⟩ else s.kind j)
        fun _ => [(1, BitVec.ofNat 16 interval), (2, ports.extractLsb' 0 16), (3, (0 : Byte) ++ ports.extractLsb' 16 8),
          (4, BitVec.ofNat 16 count), (5, BitVec.ofBool enabled ++ BitVec.ofBool firstOnly ++ BitVec.ofBool spent ++ (0 : BitVec 13)),
          (6, s.carryMask.extractLsb' 0 16), (7, (0 : BitVec 14) ++ s.carryMask.extractLsb' 16 2)]

/-! ### DATAPATH_RESET -/

/-- DATAPATH_RESET empties FIFOs and queues, rebuilds the free list, releases the map and raises its version, closes every window, keeps the
rest, and is answered after that (R33, R90, R108, R120, R162, R163); with R_0 of 1 or more the answer is written into buffer 0 and is
alone in its queue, and at a port that is not UP it is counted RSP_LOST. A COUNTER_CARRY event of a counter that wraps meanwhile is taken
as it comes, and the notice it calls for follows the answer (R162 step 6, R174); that several wraps make one notice is the model's
inference (log 11). -/
def Obligations.DatapathResetEmptiesTheTraffic : Prop :=
  ∀ (s : State) (r : Request), Accepted s r 24 0 → BuffersWf s → MapWf s → (∀ p : Link, s.fifos[p].entries.length ≤ 4) →
    let x := responseCell s.sru.elementId 24 r.tag .ok (okWords r [])
    ∃ s1 u t, exec .datapathReset s = .next t ∧ DatapathCleared (taken s) s1 ∧
      (r.quiet = true → u = s1) ∧
      (r.quiet = false → RespondedHeld s1 u r .ok (okWords r []) ∧
        (s.links[r.port].state = .up → 1 ≤ s.bm.params[(0 : Sys2Proof.Class)].reservation →
          Placed s1 u x 0 [r.port] 0 0 ((List.range 12288).tail)) ∧
        (s.links[r.port].state ≠ .up → CountedHeld s1 u r.port .rspLost)) ∧
      (CarryWaits s u → Emitted u t .counterCarry) ∧ (¬ CarryWaits s u → t = u)

/-! ### Encodings -/

/-- Header fields written and read back: no field is lost, and the bytes written carry their own check and zero reserved bits; bytes read and
written again are the same when their check is right and their reserved bits are 0 (R1, R3). -/
def Obligations.HeaderRoundTrip : Prop :=
  (∀ h : Header, parseHeader (encodeHeader h) = h ∧ headerCheck (encodeHeader h) = (encodeHeader h)[7]) ∧
  ∀ b : Vector Byte 8, headerCheck b = b[7] → b[2].extractLsb' 0 4 = 0 → b[5].extractLsb' 6 2 = 0 → encodeHeader (parseHeader b) = b

/-- Table entries, windows and port sets written as words and read back: no field is lost (R11, R12). -/
def Obligations.EntryWordsRoundTrip : Prop :=
  (∀ e : RouteEntry, ∃ w0 w1 w2, routeWords e = [w0, w1, w2] ∧ routeOfWords w0 w1 w2 = some e) ∧
  (∀ g : GroupEntry, ∃ w0 w1 w2, groupWords g = [w0, w1, w2] ∧ groupOfWords w0 w1 w2 = g) ∧
  (∀ x : Window, x.budget ≤ 255 → windowOfWord (windowWord x) = some x) ∧
  ∀ (f : Link → Bool) (p : Link), (portsWhere f).getLsbD p = f p ∧
    portSet (portsLow (portsWhere f)) (portsHigh (portsWhere f)) = portsWhere f

/-! ### Invariants -/

/-- Right after a release of RESET, for every strap value, 255 included, and while RESET is asserted, every invariant below holds. So it does
at `State.reset`, the release with straps 0, which is the model's choice (log 5). The strap value kept while RESET is asserted (log 6)
and the zeros of a free buffer (log 8) are the model's choice too. -/
def Obligations.InvariantsHoldAtReset : Prop :=
  (∀ (straps : Byte) (s : State), ∃ t, exec (.resetRelease straps) s = .next t ∧
    PortsWf t ∧ BuffersWf t ∧ MapWf t ∧ TablesWf t.tables ∧ ServiceWf t) ∧
  (∀ s : State, ∃ t, exec .resetAssert s = .next t ∧ PortsWf t ∧ BuffersWf t ∧ MapWf t ∧ TablesWf t.tables ∧ ServiceWf t) ∧
  PortsWf State.reset ∧ BuffersWf State.reset ∧ MapWf State.reset ∧ TablesWf State.reset.tables ∧ ServiceWf State.reset

/-- Every step keeps every port's link record, Ingress FIFO and scheduler as they should be: counts in range, timers running only in their
states, FIFOs of at most 4 entries and empty out of UP, hold flags following occupancy, windows within their schedules. -/
def Obligations.StepKeepsThePorts : Prop :=
  ∀ s t : State, PortsWf s → step s = .next t → PortsWf t

/-- Every step keeps the Buffer Manager's accounting: the free list and the buffers in use partition the 12,288 buffers, reference
counts equal the entries that name a buffer, U equals its definition and fits in S, and queues of ports that are not UP are empty.
That a free buffer reads as a cell of zeros is the model's (log 8). -/
def Obligations.StepKeepsTheBuffers : Prop :=
  ∀ s t : State, BuffersWf s → step s = .next t → BuffersWf t

/-- Every step keeps the Congestion Map in step with the queues: at or above XOFF an entry is HELD, at or below XON it is FLOWING. -/
def Obligations.StepKeepsTheMap : Prop :=
  ∀ s t : State, MapWf s → step s = .next t → MapWf t

/-- Every step keeps Table Control: tables in canonical form, a PENDING target 1 to 32,767 ahead of the epoch counter, and in MIRRORING the
entries copied so far equal in both banks. -/
def Obligations.StepKeepsTheTables : Prop :=
  ∀ s t : State, TablesWf s.tables → step s = .next t → TablesWf t.tables

/-- Every step keeps the SRQ within 4 requests, the element ID off 255, the status timing and slot counts and the notice records in range. -/
def Obligations.StepKeepsTheServices : Prop :=
  ∀ s t : State, ServiceWf s → step s = .next t → ServiceWf t

/-! ### Rules of the whole machine -/

/-- The contents of the bank that is active are altered by no command but RESET: writes and mirroring go to the staging bank, and a swap
exchanges roles alone (R130). -/
def Obligations.ActiveBankIsNeverWritten : Prop :=
  ∀ (c : Instr) (s t : State), c ≠ .resetAssert → (∀ x, c ≠ .resetRelease x) → exec c s = .next t →
    t.tables.bank s.tables.active = activeBank s.tables

/-- Which commands may change a setting or a lasting value, RESET apart: every other command leaves it. The arbiter position (R51), the
address (R144, R160), admission parameters (R77, R92), thresholds (R115, R126), status timing (R121, R128), carry mask (R169), epoch
(R136), active bank and commit state (R137, R139, R140, R141), link settings (R27), staging schedules (R110) and notice settings (R175).
The fields `tx` (log 7) and `draws` (log 4) are the model's own. -/
def Obligations.SettingsChangeOnlyByTheirCommands : Prop :=
  ∀ (c : Instr) (s t : State), c ≠ .resetAssert → (∀ x, c ≠ .resetRelease x) → exec c s = .next t →
    (c ≠ .forwardingEvent → t.arbiter = s.arbiter) ∧
    (c ≠ .setElementAddress → t.sru.elementId = s.sru.elementId ∧ t.sru.idMask = s.sru.idMask ∧ t.sru.broadcast = s.sru.broadcast) ∧
    t.sru.strap = s.sru.strap ∧
    (c ≠ .setAdmission → t.bm.params = s.bm.params) ∧
    (c ≠ .setFlow → t.cmap.thresholds = s.cmap.thresholds) ∧
    (c ≠ .setStatusTiming → t.timing = s.timing) ∧
    (c ≠ .clearCarry → t.carryMask = s.carryMask) ∧
    (c ≠ .epochMark → t.tables.epoch = s.tables.epoch) ∧
    (c ≠ .commitRouting → c ≠ .epochMark → t.tables.active = s.tables.active) ∧
    (c ≠ .commitRouting → c ≠ .epochMark → c ≠ .cancelCommit → c ≠ .mirrorCopyStep → t.tables.commit = s.tables.commit) ∧
    (c ≠ .linkControl → ∀ p : Link, t.links[p].retrainLimit = s.links[p].retrainLimit ∧ t.links[p].truncation = s.links[p].truncation) ∧
    (c ≠ .writeSchedule → ∀ p : Link, t.scheds[p].staging = s.scheds[p].staging) ∧
    (c ≠ .setNotice → t.notices.ports = s.notices.ports ∧ ∀ k, (t.kind k).enabled = (s.kind k).enabled ∧
      (t.kind k).interval = (s.kind k).interval ∧ (t.kind k).firstOnly = (s.kind k).firstOnly) ∧
    ((∀ p, c ≠ .egressSlot p) → t.tx = s.tx) ∧
    ((∀ p, c ≠ .attemptTimerExpiry p) → t.draws = s.draws)

/-! ### The outcomes of a submission's copies -/

/-- The outcome of every copy of a submission, of a DATA cell, a response or a notice: by the steps of R80, PORT_DOWN first, each copy with
the shared free as the shared admissions of the copies before it left it (R83). Then the same for the one copy of a response (R157), of
IDENTIFY without QUIET: where it joins (arrival port, C0) and what is counted when it is refused, PORT_DOWN as RSP_LOST alone (R85). -/
def Obligations.AdmissionOfEachCopy : Prop :=
  (∀ (s : State) (c : Sys2Proof.Class) (ports : List Link), ports.Pairwise (· < ·) →
    let vs := s.verdicts c s.bm.shared ports
    vs.map Prod.fst = ports ∧ ∀ (i : Nat) (p : Link) (v : Verdict), vs[i]? = some (p, v) →
      CopyOutcome (decide (s.links[p].state = .up)) (s.queue p c).length s.bm.params[c].reservation s.bm.params[c].maximum
        (12288 - totalReservation s.bm.params - (s.bm.shared + sharedBefore vs i)) s.bm.params[c].alpha v) ∧
  ∀ (s : State) (r : Request) (b : Nat) (tail : List Nat), Accepted s r 1 0 → r.quiet = false → s.bm.free = b :: tail →
    NoCounterAtTop s →
    let p := r.port
    let Q := (s.queue p 0).length
    let R := s.bm.params[(0 : Sys2Proof.Class)].reservation
    let M := s.bm.params[(0 : Sys2Proof.Class)].maximum
    let SF := 12288 - totalReservation s.bm.params - s.bm.shared
    let T := SF * 2 ^ s.bm.params[(0 : Sys2Proof.Class)].alpha / 16
    ∃ words t, exec .identify s = .next t ∧
      (s.links[p].state ≠ .up → CountsRaised (taken s) t fun o i => if o = p ∧ i = Counter.rspLost.index then 1 else 0) ∧
      (s.links[p].state = .up → Q < R → Placed (taken s) t (responseCell s.sru.elementId 1 r.tag .ok words) 0 [p] 0 b tail) ∧
      (s.links[p].state = .up → R ≤ Q → M < Q + 1 → CountsRaised (taken s) t fun o i =>
        if o = p ∧ (i = Counter.queueMax.index ∨ i = Counter.rspLost.index) then 1 else 0) ∧
      (s.links[p].state = .up → R ≤ Q → Q + 1 ≤ M → 1 ≤ SF → Q - R < T →
        Placed (taken s) t (responseCell s.sru.elementId 1 r.tag .ok words) 0 [p] 1 b tail) ∧
      (s.links[p].state = .up → R ≤ Q → Q + 1 ≤ M → SF = 0 ∨ T ≤ Q - R → CountsRaised (taken s) t fun o i =>
        if o = p ∧ (i = Counter.sharedLimit.index ∨ i = Counter.rspLost.index) then 1 else 0)
end

