-- ==== Sys2Proof/Laws/State.lean ====
section
/-! SUPPORT. What each update of one block leaves in each field of the state. -/

namespace Sys2Proof.Machine

variable (s : State)

/-! modLink -/

@[simp] theorem State.modLink_pending (p : Link) (f : LinkPort → LinkPort) : (s.modLink p f).pending = s.pending := rfl
@[simp] theorem State.modLink_resetAsserted (p : Link) (f : LinkPort → LinkPort) : (s.modLink p f).resetAsserted = s.resetAsserted := rfl
@[simp] theorem State.modLink_links (p : Link) (f : LinkPort → LinkPort) : (s.modLink p f).links = upd s.links p (f s.links[p]) := rfl
@[simp] theorem State.modLink_fifos (p : Link) (f : LinkPort → LinkPort) : (s.modLink p f).fifos = s.fifos := rfl
@[simp] theorem State.modLink_arbiter (p : Link) (f : LinkPort → LinkPort) : (s.modLink p f).arbiter = s.arbiter := rfl
@[simp] theorem State.modLink_bm (p : Link) (f : LinkPort → LinkPort) : (s.modLink p f).bm = s.bm := rfl
@[simp] theorem State.modLink_scheds (p : Link) (f : LinkPort → LinkPort) : (s.modLink p f).scheds = s.scheds := rfl
@[simp] theorem State.modLink_cmap (p : Link) (f : LinkPort → LinkPort) : (s.modLink p f).cmap = s.cmap := rfl
@[simp] theorem State.modLink_senders (p : Link) (f : LinkPort → LinkPort) : (s.modLink p f).senders = s.senders := rfl
@[simp] theorem State.modLink_timing (p : Link) (f : LinkPort → LinkPort) : (s.modLink p f).timing = s.timing := rfl
@[simp] theorem State.modLink_tables (p : Link) (f : LinkPort → LinkPort) : (s.modLink p f).tables = s.tables := rfl
@[simp] theorem State.modLink_sru (p : Link) (f : LinkPort → LinkPort) : (s.modLink p f).sru = s.sru := rfl
@[simp] theorem State.modLink_counters (p : Link) (f : LinkPort → LinkPort) : (s.modLink p f).counters = s.counters := rfl
@[simp] theorem State.modLink_carryMask (p : Link) (f : LinkPort → LinkPort) : (s.modLink p f).carryMask = s.carryMask := rfl
@[simp] theorem State.modLink_notices (p : Link) (f : LinkPort → LinkPort) : (s.modLink p f).notices = s.notices := rfl
@[simp] theorem State.modLink_tx (p : Link) (f : LinkPort → LinkPort) : (s.modLink p f).tx = s.tx := rfl
@[simp] theorem State.modLink_draws (p : Link) (f : LinkPort → LinkPort) : (s.modLink p f).draws = s.draws := rfl

/-! modFifo -/

@[simp] theorem State.modFifo_pending (p : Link) (f : IngressFifo → IngressFifo) : (s.modFifo p f).pending = s.pending := rfl
@[simp] theorem State.modFifo_resetAsserted (p : Link) (f : IngressFifo → IngressFifo) : (s.modFifo p f).resetAsserted = s.resetAsserted := rfl
@[simp] theorem State.modFifo_links (p : Link) (f : IngressFifo → IngressFifo) : (s.modFifo p f).links = s.links := rfl
@[simp] theorem State.modFifo_fifos (p : Link) (f : IngressFifo → IngressFifo) : (s.modFifo p f).fifos = upd s.fifos p (f s.fifos[p]) := rfl
@[simp] theorem State.modFifo_arbiter (p : Link) (f : IngressFifo → IngressFifo) : (s.modFifo p f).arbiter = s.arbiter := rfl
@[simp] theorem State.modFifo_bm (p : Link) (f : IngressFifo → IngressFifo) : (s.modFifo p f).bm = s.bm := rfl
@[simp] theorem State.modFifo_scheds (p : Link) (f : IngressFifo → IngressFifo) : (s.modFifo p f).scheds = s.scheds := rfl
@[simp] theorem State.modFifo_cmap (p : Link) (f : IngressFifo → IngressFifo) : (s.modFifo p f).cmap = s.cmap := rfl
@[simp] theorem State.modFifo_senders (p : Link) (f : IngressFifo → IngressFifo) : (s.modFifo p f).senders = s.senders := rfl
@[simp] theorem State.modFifo_timing (p : Link) (f : IngressFifo → IngressFifo) : (s.modFifo p f).timing = s.timing := rfl
@[simp] theorem State.modFifo_tables (p : Link) (f : IngressFifo → IngressFifo) : (s.modFifo p f).tables = s.tables := rfl
@[simp] theorem State.modFifo_sru (p : Link) (f : IngressFifo → IngressFifo) : (s.modFifo p f).sru = s.sru := rfl
@[simp] theorem State.modFifo_counters (p : Link) (f : IngressFifo → IngressFifo) : (s.modFifo p f).counters = s.counters := rfl
@[simp] theorem State.modFifo_carryMask (p : Link) (f : IngressFifo → IngressFifo) : (s.modFifo p f).carryMask = s.carryMask := rfl
@[simp] theorem State.modFifo_notices (p : Link) (f : IngressFifo → IngressFifo) : (s.modFifo p f).notices = s.notices := rfl
@[simp] theorem State.modFifo_tx (p : Link) (f : IngressFifo → IngressFifo) : (s.modFifo p f).tx = s.tx := rfl
@[simp] theorem State.modFifo_draws (p : Link) (f : IngressFifo → IngressFifo) : (s.modFifo p f).draws = s.draws := rfl

/-! modSched -/

@[simp] theorem State.modSched_pending (p : Link) (f : Scheduler → Scheduler) : (s.modSched p f).pending = s.pending := rfl
@[simp] theorem State.modSched_resetAsserted (p : Link) (f : Scheduler → Scheduler) : (s.modSched p f).resetAsserted = s.resetAsserted := rfl
@[simp] theorem State.modSched_links (p : Link) (f : Scheduler → Scheduler) : (s.modSched p f).links = s.links := rfl
@[simp] theorem State.modSched_fifos (p : Link) (f : Scheduler → Scheduler) : (s.modSched p f).fifos = s.fifos := rfl
@[simp] theorem State.modSched_arbiter (p : Link) (f : Scheduler → Scheduler) : (s.modSched p f).arbiter = s.arbiter := rfl
@[simp] theorem State.modSched_bm (p : Link) (f : Scheduler → Scheduler) : (s.modSched p f).bm = s.bm := rfl
@[simp] theorem State.modSched_scheds (p : Link) (f : Scheduler → Scheduler) : (s.modSched p f).scheds = upd s.scheds p (f s.scheds[p]) := rfl
@[simp] theorem State.modSched_cmap (p : Link) (f : Scheduler → Scheduler) : (s.modSched p f).cmap = s.cmap := rfl
@[simp] theorem State.modSched_senders (p : Link) (f : Scheduler → Scheduler) : (s.modSched p f).senders = s.senders := rfl
@[simp] theorem State.modSched_timing (p : Link) (f : Scheduler → Scheduler) : (s.modSched p f).timing = s.timing := rfl
@[simp] theorem State.modSched_tables (p : Link) (f : Scheduler → Scheduler) : (s.modSched p f).tables = s.tables := rfl
@[simp] theorem State.modSched_sru (p : Link) (f : Scheduler → Scheduler) : (s.modSched p f).sru = s.sru := rfl
@[simp] theorem State.modSched_counters (p : Link) (f : Scheduler → Scheduler) : (s.modSched p f).counters = s.counters := rfl
@[simp] theorem State.modSched_carryMask (p : Link) (f : Scheduler → Scheduler) : (s.modSched p f).carryMask = s.carryMask := rfl
@[simp] theorem State.modSched_notices (p : Link) (f : Scheduler → Scheduler) : (s.modSched p f).notices = s.notices := rfl
@[simp] theorem State.modSched_tx (p : Link) (f : Scheduler → Scheduler) : (s.modSched p f).tx = s.tx := rfl
@[simp] theorem State.modSched_draws (p : Link) (f : Scheduler → Scheduler) : (s.modSched p f).draws = s.draws := rfl

/-! modSender -/

@[simp] theorem State.modSender_pending (p : Link) (f : StatusSender → StatusSender) : (s.modSender p f).pending = s.pending := rfl
@[simp] theorem State.modSender_resetAsserted (p : Link) (f : StatusSender → StatusSender) : (s.modSender p f).resetAsserted = s.resetAsserted := rfl
@[simp] theorem State.modSender_links (p : Link) (f : StatusSender → StatusSender) : (s.modSender p f).links = s.links := rfl
@[simp] theorem State.modSender_fifos (p : Link) (f : StatusSender → StatusSender) : (s.modSender p f).fifos = s.fifos := rfl
@[simp] theorem State.modSender_arbiter (p : Link) (f : StatusSender → StatusSender) : (s.modSender p f).arbiter = s.arbiter := rfl
@[simp] theorem State.modSender_bm (p : Link) (f : StatusSender → StatusSender) : (s.modSender p f).bm = s.bm := rfl
@[simp] theorem State.modSender_scheds (p : Link) (f : StatusSender → StatusSender) : (s.modSender p f).scheds = s.scheds := rfl
@[simp] theorem State.modSender_cmap (p : Link) (f : StatusSender → StatusSender) : (s.modSender p f).cmap = s.cmap := rfl
@[simp] theorem State.modSender_senders (p : Link) (f : StatusSender → StatusSender) : (s.modSender p f).senders = upd s.senders p (f s.senders[p]) := rfl
@[simp] theorem State.modSender_timing (p : Link) (f : StatusSender → StatusSender) : (s.modSender p f).timing = s.timing := rfl
@[simp] theorem State.modSender_tables (p : Link) (f : StatusSender → StatusSender) : (s.modSender p f).tables = s.tables := rfl
@[simp] theorem State.modSender_sru (p : Link) (f : StatusSender → StatusSender) : (s.modSender p f).sru = s.sru := rfl
@[simp] theorem State.modSender_counters (p : Link) (f : StatusSender → StatusSender) : (s.modSender p f).counters = s.counters := rfl
@[simp] theorem State.modSender_carryMask (p : Link) (f : StatusSender → StatusSender) : (s.modSender p f).carryMask = s.carryMask := rfl
@[simp] theorem State.modSender_notices (p : Link) (f : StatusSender → StatusSender) : (s.modSender p f).notices = s.notices := rfl
@[simp] theorem State.modSender_tx (p : Link) (f : StatusSender → StatusSender) : (s.modSender p f).tx = s.tx := rfl
@[simp] theorem State.modSender_draws (p : Link) (f : StatusSender → StatusSender) : (s.modSender p f).draws = s.draws := rfl

/-! setKind -/

@[simp] theorem State.setKind_pending (k : NoticeKind) (n : NoticeState) : (s.setKind k n).pending = s.pending := rfl
@[simp] theorem State.setKind_resetAsserted (k : NoticeKind) (n : NoticeState) : (s.setKind k n).resetAsserted = s.resetAsserted := rfl
@[simp] theorem State.setKind_links (k : NoticeKind) (n : NoticeState) : (s.setKind k n).links = s.links := rfl
@[simp] theorem State.setKind_fifos (k : NoticeKind) (n : NoticeState) : (s.setKind k n).fifos = s.fifos := rfl
@[simp] theorem State.setKind_arbiter (k : NoticeKind) (n : NoticeState) : (s.setKind k n).arbiter = s.arbiter := rfl
@[simp] theorem State.setKind_bm (k : NoticeKind) (n : NoticeState) : (s.setKind k n).bm = s.bm := rfl
@[simp] theorem State.setKind_scheds (k : NoticeKind) (n : NoticeState) : (s.setKind k n).scheds = s.scheds := rfl
@[simp] theorem State.setKind_cmap (k : NoticeKind) (n : NoticeState) : (s.setKind k n).cmap = s.cmap := rfl
@[simp] theorem State.setKind_senders (k : NoticeKind) (n : NoticeState) : (s.setKind k n).senders = s.senders := rfl
@[simp] theorem State.setKind_timing (k : NoticeKind) (n : NoticeState) : (s.setKind k n).timing = s.timing := rfl
@[simp] theorem State.setKind_tables (k : NoticeKind) (n : NoticeState) : (s.setKind k n).tables = s.tables := rfl
@[simp] theorem State.setKind_sru (k : NoticeKind) (n : NoticeState) : (s.setKind k n).sru = s.sru := rfl
@[simp] theorem State.setKind_counters (k : NoticeKind) (n : NoticeState) : (s.setKind k n).counters = s.counters := rfl
@[simp] theorem State.setKind_carryMask (k : NoticeKind) (n : NoticeState) : (s.setKind k n).carryMask = s.carryMask := rfl
@[simp] theorem State.setKind_notices (k : NoticeKind) (n : NoticeState) : (s.setKind k n).notices = { s.notices with kinds := upd s.notices.kinds k.index n } := rfl
@[simp] theorem State.setKind_tx (k : NoticeKind) (n : NoticeState) : (s.setKind k n).tx = s.tx := rfl
@[simp] theorem State.setKind_draws (k : NoticeKind) (n : NoticeState) : (s.setKind k n).draws = s.draws := rfl

/-! setQueue -/

@[simp] theorem State.setQueue_pending (p : Link) (c : Class) (q : List Nat) : (s.setQueue p c q).pending = s.pending := rfl
@[simp] theorem State.setQueue_resetAsserted (p : Link) (c : Class) (q : List Nat) : (s.setQueue p c q).resetAsserted = s.resetAsserted := rfl
@[simp] theorem State.setQueue_links (p : Link) (c : Class) (q : List Nat) : (s.setQueue p c q).links = s.links := rfl
@[simp] theorem State.setQueue_fifos (p : Link) (c : Class) (q : List Nat) : (s.setQueue p c q).fifos = s.fifos := rfl
@[simp] theorem State.setQueue_arbiter (p : Link) (c : Class) (q : List Nat) : (s.setQueue p c q).arbiter = s.arbiter := rfl
@[simp] theorem State.setQueue_bm (p : Link) (c : Class) (q : List Nat) : (s.setQueue p c q).bm = { s.bm with queues := upd s.bm.queues p (upd s.bm.queues[p] c q) } := rfl
@[simp] theorem State.setQueue_scheds (p : Link) (c : Class) (q : List Nat) : (s.setQueue p c q).scheds = s.scheds := rfl
@[simp] theorem State.setQueue_cmap (p : Link) (c : Class) (q : List Nat) : (s.setQueue p c q).cmap = s.cmap := rfl
@[simp] theorem State.setQueue_senders (p : Link) (c : Class) (q : List Nat) : (s.setQueue p c q).senders = s.senders := rfl
@[simp] theorem State.setQueue_timing (p : Link) (c : Class) (q : List Nat) : (s.setQueue p c q).timing = s.timing := rfl
@[simp] theorem State.setQueue_tables (p : Link) (c : Class) (q : List Nat) : (s.setQueue p c q).tables = s.tables := rfl
@[simp] theorem State.setQueue_sru (p : Link) (c : Class) (q : List Nat) : (s.setQueue p c q).sru = s.sru := rfl
@[simp] theorem State.setQueue_counters (p : Link) (c : Class) (q : List Nat) : (s.setQueue p c q).counters = s.counters := rfl
@[simp] theorem State.setQueue_carryMask (p : Link) (c : Class) (q : List Nat) : (s.setQueue p c q).carryMask = s.carryMask := rfl
@[simp] theorem State.setQueue_notices (p : Link) (c : Class) (q : List Nat) : (s.setQueue p c q).notices = s.notices := rfl
@[simp] theorem State.setQueue_tx (p : Link) (c : Class) (q : List Nat) : (s.setQueue p c q).tx = s.tx := rfl
@[simp] theorem State.setQueue_draws (p : Link) (c : Class) (q : List Nat) : (s.setQueue p c q).draws = s.draws := rfl

/-! setTx -/

@[simp] theorem State.setTx_pending (p : Link) (c : Option Cell) : (s.setTx p c).pending = s.pending := rfl
@[simp] theorem State.setTx_resetAsserted (p : Link) (c : Option Cell) : (s.setTx p c).resetAsserted = s.resetAsserted := rfl
@[simp] theorem State.setTx_links (p : Link) (c : Option Cell) : (s.setTx p c).links = s.links := rfl
@[simp] theorem State.setTx_fifos (p : Link) (c : Option Cell) : (s.setTx p c).fifos = s.fifos := rfl
@[simp] theorem State.setTx_arbiter (p : Link) (c : Option Cell) : (s.setTx p c).arbiter = s.arbiter := rfl
@[simp] theorem State.setTx_bm (p : Link) (c : Option Cell) : (s.setTx p c).bm = s.bm := rfl
@[simp] theorem State.setTx_scheds (p : Link) (c : Option Cell) : (s.setTx p c).scheds = s.scheds := rfl
@[simp] theorem State.setTx_cmap (p : Link) (c : Option Cell) : (s.setTx p c).cmap = s.cmap := rfl
@[simp] theorem State.setTx_senders (p : Link) (c : Option Cell) : (s.setTx p c).senders = s.senders := rfl
@[simp] theorem State.setTx_timing (p : Link) (c : Option Cell) : (s.setTx p c).timing = s.timing := rfl
@[simp] theorem State.setTx_tables (p : Link) (c : Option Cell) : (s.setTx p c).tables = s.tables := rfl
@[simp] theorem State.setTx_sru (p : Link) (c : Option Cell) : (s.setTx p c).sru = s.sru := rfl
@[simp] theorem State.setTx_counters (p : Link) (c : Option Cell) : (s.setTx p c).counters = s.counters := rfl
@[simp] theorem State.setTx_carryMask (p : Link) (c : Option Cell) : (s.setTx p c).carryMask = s.carryMask := rfl
@[simp] theorem State.setTx_notices (p : Link) (c : Option Cell) : (s.setTx p c).notices = s.notices := rfl
@[simp] theorem State.setTx_tx (p : Link) (c : Option Cell) : (s.setTx p c).tx = upd s.tx p c := rfl
@[simp] theorem State.setTx_draws (p : Link) (c : Option Cell) : (s.setTx p c).draws = s.draws := rfl

/-! testEntry -/

@[simp] theorem State.testEntry_pending (p : Link) (c : Class) : (s.testEntry p c).pending = s.pending := rfl
@[simp] theorem State.testEntry_resetAsserted (p : Link) (c : Class) : (s.testEntry p c).resetAsserted = s.resetAsserted := rfl
@[simp] theorem State.testEntry_links (p : Link) (c : Class) : (s.testEntry p c).links = s.links := rfl
@[simp] theorem State.testEntry_fifos (p : Link) (c : Class) : (s.testEntry p c).fifos = s.fifos := rfl
@[simp] theorem State.testEntry_arbiter (p : Link) (c : Class) : (s.testEntry p c).arbiter = s.arbiter := rfl
@[simp] theorem State.testEntry_bm (p : Link) (c : Class) : (s.testEntry p c).bm = s.bm := rfl
@[simp] theorem State.testEntry_scheds (p : Link) (c : Class) : (s.testEntry p c).scheds = s.scheds := rfl
@[simp] theorem State.testEntry_senders (p : Link) (c : Class) : (s.testEntry p c).senders = s.senders := rfl
@[simp] theorem State.testEntry_timing (p : Link) (c : Class) : (s.testEntry p c).timing = s.timing := rfl
@[simp] theorem State.testEntry_tables (p : Link) (c : Class) : (s.testEntry p c).tables = s.tables := rfl
@[simp] theorem State.testEntry_sru (p : Link) (c : Class) : (s.testEntry p c).sru = s.sru := rfl
@[simp] theorem State.testEntry_counters (p : Link) (c : Class) : (s.testEntry p c).counters = s.counters := rfl
@[simp] theorem State.testEntry_carryMask (p : Link) (c : Class) : (s.testEntry p c).carryMask = s.carryMask := rfl
@[simp] theorem State.testEntry_notices (p : Link) (c : Class) : (s.testEntry p c).notices = s.notices := rfl
@[simp] theorem State.testEntry_tx (p : Link) (c : Class) : (s.testEntry p c).tx = s.tx := rfl
@[simp] theorem State.testEntry_draws (p : Link) (c : Class) : (s.testEntry p c).draws = s.draws := rfl

/-! popRequest -/

@[simp] theorem State.popRequest_pending : (s.popRequest).pending = s.pending := rfl
@[simp] theorem State.popRequest_resetAsserted : (s.popRequest).resetAsserted = s.resetAsserted := rfl
@[simp] theorem State.popRequest_links : (s.popRequest).links = s.links := rfl
@[simp] theorem State.popRequest_fifos : (s.popRequest).fifos = s.fifos := rfl
@[simp] theorem State.popRequest_arbiter : (s.popRequest).arbiter = s.arbiter := rfl
@[simp] theorem State.popRequest_bm : (s.popRequest).bm = s.bm := rfl
@[simp] theorem State.popRequest_scheds : (s.popRequest).scheds = s.scheds := rfl
@[simp] theorem State.popRequest_cmap : (s.popRequest).cmap = s.cmap := rfl
@[simp] theorem State.popRequest_senders : (s.popRequest).senders = s.senders := rfl
@[simp] theorem State.popRequest_timing : (s.popRequest).timing = s.timing := rfl
@[simp] theorem State.popRequest_tables : (s.popRequest).tables = s.tables := rfl
@[simp] theorem State.popRequest_sru : (s.popRequest).sru = { s.sru with srq := s.sru.srq.tail } := rfl
@[simp] theorem State.popRequest_counters : (s.popRequest).counters = s.counters := rfl
@[simp] theorem State.popRequest_carryMask : (s.popRequest).carryMask = s.carryMask := rfl
@[simp] theorem State.popRequest_notices : (s.popRequest).notices = s.notices := rfl
@[simp] theorem State.popRequest_tx : (s.popRequest).tx = s.tx := rfl
@[simp] theorem State.popRequest_draws : (s.popRequest).draws = s.draws := rfl

end Sys2Proof.Machine
end

