-- ==== Sys2Proof/Laws/Accounts.lean ====
section
/-! SUPPORT. What a count, a notice event and the update of a notice record leave. -/

namespace Sys2Proof.Machine

theorem NoticeKind.index_inj {j k : NoticeKind} (h : j.index = k.index) : j = k := by
  cases j <;> cases k <;> first | rfl | (exact absurd h (by decide))

@[simp] theorem State.setKind_kind (s : State) (k : NoticeKind) (n : NoticeState) (j : NoticeKind) :
    (s.setKind k n).kind j = if j = k then n else s.kind j := by
  unfold State.kind State.setKind
  simp only [upd_getElem, Fin.getElem_fin]
  by_cases h : j = k
  · subst h; simp
  · rw [if_neg h, if_neg]
    intro e; exact h (NoticeKind.index_inj (Fin.ext e.symm))

theorem State.setKind_ports (s : State) (k : NoticeKind) (n : NoticeState) :
    (s.setKind k n).notices.ports = s.notices.ports := rfl

/-- A count and its wrap. -/
theorem State.bump_spec (s : State) (p : Link) (c : Counter) : Bumped s (s.bump p c).1 p c where
  frame := rfl
  values q i := by
    simp only [State.counter, State.bump, Fin.getElem_fin, upd_getElem]
    by_cases hq : q = p
    · subst hq
      by_cases hi : i = c.index
      · subst hi; simp
      · have : ¬ c.index.val = i.val := fun e => hi (Fin.ext e.symm)
        simp [hi, this]
    · have : ¬ p.val = q.val := fun e => hq (Fin.ext e.symm)
      simp [hq, this]
  flags q i := by
    simp only [State.carryFlag, State.counter, State.bump, Fin.getElem_fin, upd_getElem]
    by_cases hq : q = p
    · subst hq
      by_cases hi : i = c.index
      · subst hi
        simp only [if_true, true_and]
        generalize BitVec.allOnes 32 = top
        by_cases hv : (s.counters[q.val]).values[c.index.val] = top <;> simp [hv]
      · have h : c.index.val ≠ i.val := fun e => hi (Fin.ext e.symm)
        simp only [if_true, hi, false_and, and_false, decide_false, Bool.or_false]
        split
        · simp [Ne.symm h]
        · rfl
    · have : ¬ p.val = q.val := fun e => hq (Fin.ext e.symm)
      simp [hq, this]

/-- When a count raises a COUNTER_CARRY event. -/
theorem State.bump_event (s : State) (p : Link) (c : Counter) :
    (s.bump p c).2 = true ↔ s.counter p c.index = BitVec.allOnes 32 ∧ s.carryMask.getLsbD c.index = false := by
  simp [State.bump, State.counter]

/-- An event of an enabled kind. -/
theorem State.takeEvent_on (s : State) (k : NoticeKind) (d : Vector Byte 6) (h : (s.kind k).enabled = true) :
    Taken s (s.takeEvent k d).1 k d := by
  unfold State.takeEvent
  rw [if_pos h]
  exact ⟨rfl, rfl, fun j => by simp [Config.pendingLimit]⟩

/-- An event of a kind that is off. -/
theorem State.takeEvent_off (s : State) (k : NoticeKind) (d : Vector Byte 6) (h : (s.kind k).enabled = false) :
    s.takeEvent k d = (s, false) := by
  unfold State.takeEvent
  simp [h]

/-- When an event of an enabled kind calls for an emission. -/
theorem State.takeEvent_calls (s : State) (k : NoticeKind) (d : Vector Byte 6) (h : (s.kind k).enabled = true) :
    (s.takeEvent k d).2 = true ↔
      ¬ (((s.takeEvent k d).1.kind k).spent = true ∨
        ((s.takeEvent k d).1.kind k).pendingCount < ((s.takeEvent k d).1.kind k).interval) := by
  unfold State.takeEvent
  rw [if_pos h]
  simp

end Sys2Proof.Machine
end

