-- ==== Sys2Proof/Laws/Table.lean ====
section
/-! SUPPORT. Indexed tables: a read after a write, and the canonical form kept by every write. -/

namespace Sys2Proof.Machine

variable {α : Type} [DecidableEq α] (d : α)

/-- From a lower bound, an index below it is unlisted. -/
theorem tableGet_below (t : List (Nat × α)) : ∀ low k, tableWfFrom d low t = true → k < low → tableGet d t k = d := by
  induction t with
  | nil => intros; rfl
  | cons e t ih =>
    obtain ⟨k', v⟩ := e
    intro low k h hk
    simp only [tableWfFrom, Bool.and_eq_true, decide_eq_true_eq] at h
    rw [tableGet, if_neg (by omega)]
    exact ih (k' + 1) k h.2 (by omega)

/-- A read of another index after a write gives what it gave before. -/
theorem tableGet_set_other (t : List (Nat × α)) (k j : Nat) (v : α) (h : j ≠ k) :
    tableGet d (tableSet d t k v) j = tableGet d t j := by
  induction t with
  | nil => unfold tableSet; split <;> simp [tableGet, h]
  | cons e t ih =>
    obtain ⟨k', v'⟩ := e
    unfold tableSet
    split
    · split <;> simp [tableGet, h]
    · split
      · rename_i e; subst e
        split <;> simp [tableGet, h]
      · simp [tableGet, ih]

/-- A read of the written index gives the value written, for a value that is not the unlisted one. -/
theorem tableGet_set_value (t : List (Nat × α)) (k : Nat) (v : α) (h : v ≠ d) :
    tableGet d (tableSet d t k v) k = v := by
  induction t with
  | nil => simp [tableSet, tableGet, h]
  | cons e t ih =>
    obtain ⟨k', v'⟩ := e
    unfold tableSet
    split
    · simp [tableGet]
    · split
      · simp [tableGet]
      · rename_i _ hk; simp [tableGet, ih, hk]

/-- A read of the written index gives the value written, in a table in canonical form. -/
theorem tableGet_set_from (t : List (Nat × α)) : ∀ low k v, tableWfFrom d low t = true →
    tableGet d (tableSet d t k v) k = v := by
  induction t with
  | nil => intro low k v _; unfold tableSet; split <;> simp_all [tableGet]
  | cons e t ih =>
    obtain ⟨k', v'⟩ := e
    intro low k v h
    simp only [tableWfFrom, Bool.and_eq_true, decide_eq_true_eq] at h
    unfold tableSet
    split
    · rename_i hk
      split
      · rename_i hv
        rw [tableGet, if_neg (by omega), hv]
        exact tableGet_below d t (k' + 1) k h.2 (by omega)
      · simp [tableGet]
    · split
      · rename_i hk
        split
        · rename_i hv
          rw [hv, hk]; exact tableGet_below d t (k' + 1) k' h.2 (by omega)
        · simp [tableGet]
      · rename_i hk
        rw [tableGet, if_neg hk]
        exact ih (k' + 1) k v h.2

theorem tableGet_set_same (t : List (Nat × α)) (k : Nat) (v : α) (h : tableWf d t = true) :
    tableGet d (tableSet d t k v) k = v := tableGet_set_from d t 0 k v h

/-- A write keeps the canonical form from a lower bound not above the written index. -/
theorem tableSet_wfFrom (t : List (Nat × α)) : ∀ low k v, tableWfFrom d low t = true → low ≤ k →
    tableWfFrom d low (tableSet d t k v) = true := by
  induction t with
  | nil =>
    intro low k v _ hk
    unfold tableSet; split
    · rfl
    · rename_i hv; simp [tableWfFrom, hk, hv]
  | cons e t ih =>
    obtain ⟨k', v'⟩ := e
    intro low k v h hk
    have h' := h
    simp only [tableWfFrom, Bool.and_eq_true, decide_eq_true_eq] at h
    obtain ⟨⟨h1, h2⟩, h3⟩ := h
    unfold tableSet
    split
    · rename_i hlt
      split
      · exact h'
      · rename_i hv
        simp only [tableWfFrom, Bool.and_eq_true, decide_eq_true_eq]
        exact ⟨⟨hk, hv⟩, ⟨by omega, h2⟩, h3⟩
    · split
      · rename_i hkk
        split
        · exact tableWfFrom_mono t (k' + 1) low (by omega) h3
        · rename_i hv
          simp only [tableWfFrom, Bool.and_eq_true, decide_eq_true_eq]
          subst hkk
          exact ⟨⟨hk, hv⟩, h3⟩
      · simp only [tableWfFrom, Bool.and_eq_true, decide_eq_true_eq]
        exact ⟨⟨h1, h2⟩, ih (k' + 1) k v h3 (by omega)⟩
where
  /-- The canonical form from a bound holds from a lower one. -/
  tableWfFrom_mono (t : List (Nat × α)) (a b : Nat) (hab : b ≤ a) (h : tableWfFrom d a t = true) :
      tableWfFrom d b t = true := by
    cases t with
    | nil => rfl
    | cons e t =>
      obtain ⟨k, v⟩ := e
      simp only [tableWfFrom, Bool.and_eq_true, decide_eq_true_eq] at h ⊢
      exact ⟨⟨by omega, h.1.2⟩, h.2⟩

/-- A write keeps the canonical form. -/
theorem tableSet_wf (t : List (Nat × α)) (k : Nat) (v : α) (h : tableWf d t = true) : tableWf d (tableSet d t k v) = true :=
  tableSet_wfFrom d t 0 k v h (Nat.zero_le k)

/-- A run of writes keeps the canonical form. -/
theorem tableFill_wf (vs : List α) : ∀ (t : List (Nat × α)) first, tableWf d t = true → tableWf d (tableFill d t first vs) = true := by
  induction vs with
  | nil => intro t first h; exact h
  | cons v vs ih => intro t first h; exact ih _ _ (tableSet_wf d t first v h)

/-- A run of writes, read: the values from `first` on, everything else as before. -/
theorem tableGet_fill (vs : List α) : ∀ (t : List (Nat × α)) first k, tableWf d t = true →
    tableGet d (tableFill d t first vs) k = if first ≤ k then vs.getD (k - first) (tableGet d t k) else tableGet d t k := by
  induction vs with
  | nil => intro t first k _; simp [tableFill]
  | cons v vs ih =>
    intro t first k h
    rw [tableFill, ih _ _ _ (tableSet_wf d t first v h)]
    by_cases hk : k = first
    · subst hk
      simp [tableGet_set_same d t k v h]
    · rw [tableGet_set_other d t first k v hk]
      by_cases h1 : first ≤ k
      · have h2 : k - first = (k - (first + 1)) + 1 := by omega
        rw [if_pos (by omega), if_pos h1, h2]
        simp
      · rw [if_neg (by omega), if_neg h1]

/-- A write below a size keeps every listed index below it. -/
theorem tableSet_below (t : List (Nat × α)) (size k : Nat) (v : α) (h : tableBelow size t = true) (hk : k < size) :
    tableBelow size (tableSet d t k v) = true := by
  induction t with
  | nil => unfold tableSet; split <;> simp [tableBelow, hk]
  | cons e t ih =>
    obtain ⟨k', v'⟩ := e
    have h1 : k' < size ∧ tableBelow size t = true := by simpa [tableBelow] using h
    unfold tableSet
    split
    · split
      · exact h
      · simpa [tableBelow, hk] using h
    · split
      · split
        · exact h1.2
        · simpa [tableBelow, hk] using h1.2
      · have := ih h1.2
        simp only [tableBelow, List.all_cons, Bool.and_eq_true, decide_eq_true_eq] at this ⊢
        exact ⟨h1.1, this⟩

/-- Two tables in canonical form that read alike at every index are equal. -/
theorem table_ext (t : List (Nat × α)) : ∀ (u : List (Nat × α)) low, tableWfFrom d low t = true → tableWfFrom d low u = true →
    (∀ k, tableGet d t k = tableGet d u k) → t = u := by
  induction t with
  | nil =>
    intro u low _ hu h
    cases u with
    | nil => rfl
    | cons e u =>
      obtain ⟨k, v⟩ := e
      simp only [tableWfFrom, Bool.and_eq_true, decide_eq_true_eq] at hu
      have := h k
      simp [tableGet] at this
      exact absurd this.symm hu.1.2
  | cons e t ih =>
    obtain ⟨k, v⟩ := e
    intro u low ht hu h
    cases u with
    | nil =>
      simp only [tableWfFrom, Bool.and_eq_true, decide_eq_true_eq] at ht
      have := h k
      simp [tableGet] at this
      exact absurd this ht.1.2
    | cons e' u =>
      obtain ⟨k', v'⟩ := e'
      simp only [tableWfFrom, Bool.and_eq_true, decide_eq_true_eq] at ht hu
      have hkk : k = k' := by
        by_contra hne
        rcases Nat.lt_or_gt_of_ne hne with hlt | hgt
        · have := h k
          rw [tableGet, if_pos rfl, tableGet, if_neg hne, tableGet_below d u (k' + 1) k hu.2 (by omega)] at this
          exact ht.1.2 this
        · have := h k'
          rw [tableGet, if_neg (Ne.symm hne), tableGet, if_pos rfl, tableGet_below d t (k + 1) k' ht.2 (by omega)] at this
          exact hu.1.2 this.symm
      subst hkk
      have hv : v = v' := by have := h k; simpa [tableGet] using this
      subst hv
      have : t = u := ih u (k + 1) ht.2 hu.2 fun j => by
        by_cases hj : j = k
        · subst hj
          rw [tableGet_below d t (j + 1) j ht.2 (by omega), tableGet_below d u (j + 1) j hu.2 (by omega)]
        · have := h j
          rwa [tableGet, if_neg hj, tableGet, if_neg hj] at this
      rw [this]

end Sys2Proof.Machine
end

