-- ==== Sys2Proof/Laws/Buffers.lean ====
section
/-! SUPPORT. What storage, removal of a head entry, and the map's test of an entry leave. -/

namespace Sys2Proof.Machine

@[simp] theorem State.setQueue_queue (s : State) (p : Link) (c : Class) (l : List Nat) (q : Link) (k : Class) :
    (s.setQueue p c l).queue q k = if q = p ∧ k = c then l else s.queue q k := by
  simp only [State.queue, State.setQueue, Fin.getElem_fin, upd_getElem]
  by_cases hq : q = p
  · subst hq
    by_cases hk : k = c
    · subst hk; simp
    · have : ¬ c.val = k.val := fun e => hk (Fin.ext e.symm)
      simp [hk, this]
  · have : ¬ p.val = q.val := fun e => hq (Fin.ext e.symm)
    simp [hq, this]

/-- The map's test of one entry (R116, R117). -/
theorem State.testEntry_held (s : State) (p : Link) (c : Class) (q : Link) (k : Class) :
    (s.testEntry p c).cmap.held[q][k] =
      if q = p ∧ k = c then entryAfter s.cmap.held[q][k] (s.queue q k).length s.cmap.thresholds[k]
      else s.cmap.held[q][k] := by
  simp only [State.testEntry, Fin.getElem_fin, upd_getElem]
  by_cases hq : q = p
  · subst hq
    by_cases hk : k = c
    · subst hk; simp
    · have : ¬ c.val = k.val := fun e => hk (Fin.ext e.symm)
      simp [hk, this]
  · have : ¬ p.val = q.val := fun e => hq (Fin.ext e.symm)
    simp [hq, this]

theorem State.testEntry_version (s : State) (p : Link) (c : Class) :
    (s.testEntry p c).cmap.version = versionAfter s.cmap.version s.cmap.held[p][c]
      (entryAfter s.cmap.held[p][c] (s.queue p c).length s.cmap.thresholds[c]) := rfl

@[simp] theorem State.testEntry_thresholds (s : State) (p : Link) (c : Class) :
    (s.testEntry p c).cmap.thresholds = s.cmap.thresholds := rfl

@[simp] theorem State.testEntry_queue (s : State) (p : Link) (c : Class) (q : Link) (k : Class) :
    (s.testEntry p c).queue q k = s.queue q k := rfl

@[simp] theorem State.testEntry_buffer (s : State) (p : Link) (c : Class) (n : Nat) :
    (s.testEntry p c).buffer n = s.buffer n := rfl

theorem State.testEntry_frame (s : State) (p : Link) (c : Class) :
    s.testEntry p c = { s with cmap := (s.testEntry p c).cmap } := rfl

/-! ### Storage (R84) -/

theorem State.place_frame (s : State) (b : Nat) (c : Class) (p : Link) :
    s.place b c p = { s with bm := (s.place b c p).bm, cmap := (s.place b c p).cmap } := rfl

@[simp] theorem State.place_queue (s : State) (b : Nat) (c : Class) (p q : Link) (k : Class) :
    (s.place b c p).queue q k = if q = p ∧ k = c then s.queue q k ++ [b] else s.queue q k := by
  have : (s.place b c p).queue q k = (s.setQueue p c (s.queue p c ++ [b])).queue q k := rfl
  rw [this, State.setQueue_queue]
  split
  · rename_i h; rw [h.1, h.2]
  · rfl

theorem State.place_held (s : State) (b : Nat) (c : Class) (p q : Link) (k : Class) :
    (s.place b c p).cmap.held[q][k] =
      if q = p ∧ k = c then entryAfter s.cmap.held[q][k] ((s.queue q k).length + 1) s.cmap.thresholds[k]
      else s.cmap.held[q][k] := by
  unfold State.place
  rw [State.testEntry_held]
  split
  · rename_i h
    obtain ⟨rfl, rfl⟩ := h
    have : ∀ x : State, (State.queue { x with bm := { x.bm with pool := x.bm.pool - 1 } } q k) = x.queue q k := fun _ => rfl
    rw [this, State.setQueue_queue]
    simp
  · rfl

theorem State.place_version (s : State) (b : Nat) (c : Class) (p : Link) :
    (s.place b c p).cmap.version = versionAfter s.cmap.version s.cmap.held[p][c]
      (entryAfter s.cmap.held[p][c] ((s.queue p c).length + 1) s.cmap.thresholds[c]) := by
  unfold State.place
  rw [State.testEntry_version]
  have : ∀ x : State, (State.queue { x with bm := { x.bm with pool := x.bm.pool - 1 } } p c) = x.queue p c := fun _ => rfl
  rw [this, State.setQueue_queue]
  simp

theorem versionAfter_eq (v : BitVec 16) (before after : Bool) :
    versionAfter v before after = v + BitVec.ofNat 16 (if after != before then 1 else 0) := by
  cases before <;> cases after <;> simp [versionAfter]

/-- Entries naming b placed for each of several distinct ports, in order. -/
theorem placeAll_spec (b : Nat) (c : Class) (ps : List Link) : ∀ s : State, ps.Nodup →
    let t := ps.foldl (fun s p => s.place b c p) s
    t = { s with bm := t.bm, cmap := t.cmap } ∧ t.bm.free = s.bm.free ∧ t.bm.buffers = s.bm.buffers ∧
    t.bm.params = s.bm.params ∧ t.bm.shared = s.bm.shared ∧ t.bm.pool = s.bm.pool - ps.length ∧
    t.cmap.thresholds = s.cmap.thresholds ∧
    (∀ p k, t.queue p k = if k = c ∧ p ∈ ps then s.queue p k ++ [b] else s.queue p k) ∧
    (∀ p k, t.cmap.held[p][k] =
      if k = c ∧ p ∈ ps then entryAfter s.cmap.held[p][k] ((s.queue p k).length + 1) s.cmap.thresholds[k]
      else s.cmap.held[p][k]) ∧
    t.cmap.version = s.cmap.version + BitVec.ofNat 16
      (ps.filter fun p => entryAfter s.cmap.held[p][c] ((s.queue p c).length + 1) s.cmap.thresholds[c] != s.cmap.held[p][c]).length := by
  induction ps with
  | nil => intro s _; simp
  | cons a ps ih =>
    intro s hn
    obtain ⟨ha, hn⟩ := List.nodup_cons.mp hn
    obtain ⟨h1, h2, h3, h4, h5, h6, h7, h8, h9, h10⟩ := ih (s.place b c a) hn
    simp only [List.foldl_cons]
    refine ⟨?_, ?_, ?_, ?_, ?_, ?_, ?_, ?_, ?_, ?_⟩
    · rw [h1, State.place_frame]
    · rw [h2]; rfl
    · rw [h3]; rfl
    · rw [h4]; rfl
    · rw [h5]; rfl
    · rw [h6]; change s.bm.pool - 1 - ps.length = _; simp only [List.length_cons]; omega
    · rw [h7]; rfl
    · intro p k
      rw [h8, State.place_queue]
      by_cases hk : k = c
      · subst hk
        by_cases hp : p = a
        · subst hp; simp [ha]
        · simp [hp]
      · simp [hk]
    · intro p k
      rw [h9, State.place_held]
      have hth : (s.place b c a).cmap.thresholds = s.cmap.thresholds := rfl
      rw [hth, State.place_queue]
      by_cases hk : k = c
      · subst hk
        by_cases hp : p = a
        · subst hp; simp [ha]
        · simp [hp]
      · simp [hk]
    · rw [h10, State.place_version, versionAfter_eq, BitVec.add_assoc, ← BitVec.ofNat_add]
      congr 2
      have hth : (s.place b c a).cmap.thresholds = s.cmap.thresholds := rfl
      have : (ps.filter fun p => entryAfter (s.place b c a).cmap.held[p][c] (((s.place b c a).queue p c).length + 1)
            (s.place b c a).cmap.thresholds[c] != (s.place b c a).cmap.held[p][c]) =
          ps.filter fun p => entryAfter s.cmap.held[p][c] ((s.queue p c).length + 1) s.cmap.thresholds[c] != s.cmap.held[p][c] := by
        apply List.filter_congr
        intro p hp
        have hpa : ¬ p = a := fun e => ha (e ▸ hp)
        rw [State.place_held, hth, State.place_queue]
        simp [hpa]
      rw [this, List.filter_cons]
      split <;> simp; omega

theorem admittedPorts_nodup {vs : List (Link × Verdict)} (h : (vs.map Prod.fst).Nodup) : (admittedPorts vs).Nodup :=
  h.sublist (List.filter_sublist.map _)

/-- Storage for the outcomes of a submission to distinct ports. -/
theorem State.store_spec (s : State) (cell : Cell) (c : Class) (vs : List (Link × Verdict)) (h : (vs.map Prod.fst).Nodup) :
    Stored s (s.store cell c vs) cell c vs := by
  refine ⟨fun h0 => ?_, fun b rest hne hfree => ?_⟩
  · unfold State.store
    split
    · rfl
    · rfl
    · rename_i h1 h2; rw [h1, h2] at h0; simp at h0
  · have hn := admittedPorts_nodup h
    unfold State.store
    split
    · rename_i h1; exact absurd h1 hne
    · rename_i h2; rw [hfree] at h2; cases h2
    · rename_i p ps b' rest' h1 h2
      rw [hfree] at h2
      obtain ⟨rfl, rfl⟩ := List.cons.inj h2
      rw [h1] at hn ⊢
      obtain ⟨h1, h2, h3, h4, h5, h6, h7, h8, h9, h10⟩ := placeAll_spec b c (p :: ps)
        { s with bm := { s.bm with
          free := rest,
          buffers := tableSet ⟨zeroCell, 0⟩ s.bm.buffers b ⟨cell, (p :: ps).length⟩,
          shared := s.bm.shared + sharedCopies vs } } hn
      refine ⟨h1, h2, ?_, h8, h6, h5, h4, h7, h9, h10⟩
      intro n
      unfold State.buffer
      rw [h3]
      by_cases hn : n = b
      · subst hn
        rw [if_pos rfl]
        exact tableGet_set_value _ _ _ _ (by simp)
      · rw [if_neg hn]
        exact tableGet_set_other _ _ _ _ _ hn

/-! ### Removal (R87) -/

/-- The last reference to a buffer dropped. -/
theorem State.dropRef_last (s : State) (b : Nat) (h : (s.buffer b).refs ≤ 1) :
    s.dropRef b = { s with bm := { s.bm with
      buffers := tableSet ⟨zeroCell, 0⟩ s.bm.buffers b ⟨zeroCell, 0⟩, free := s.bm.free ++ [b] } } := if_pos h

/-- A reference to a buffer dropped that is not the last. -/
theorem State.dropRef_more (s : State) (b : Nat) (h : 1 < (s.buffer b).refs) :
    s.dropRef b = { s with bm := { s.bm with
      buffers := tableSet ⟨zeroCell, 0⟩ s.bm.buffers b ⟨(s.buffer b).cell, (s.buffer b).refs - 1⟩ } } := if_neg (by omega)

theorem State.dropRef_frame (s : State) (b : Nat) : s.dropRef b = { s with bm := (s.dropRef b).bm } := by
  rcases Nat.lt_or_ge 1 (s.buffer b).refs with h | h
  · rw [s.dropRef_more b h]
  · rw [s.dropRef_last b h]

theorem State.dropRef_keeps (s : State) (b : Nat) : (s.dropRef b).bm.queues = s.bm.queues ∧ (s.dropRef b).bm.pool = s.bm.pool ∧
    (s.dropRef b).bm.params = s.bm.params ∧ (s.dropRef b).bm.shared = s.bm.shared ∧ (s.dropRef b).cmap = s.cmap := by
  rcases Nat.lt_or_ge 1 (s.buffer b).refs with h | h
  · rw [s.dropRef_more b h]; exact ⟨rfl, rfl, rfl, rfl, rfl⟩
  · rw [s.dropRef_last b h]; exact ⟨rfl, rfl, rfl, rfl, rfl⟩

/-- The head entry of a queue removed. -/
theorem State.removeHead_spec (s : State) (p : Link) (c : Class) (b : Nat) (rest : List Nat) (h : s.queue p c = b :: rest) :
    Dequeued s (s.removeHead p c) p c b rest := by
  have he : s.removeHead p c = (State.testEntry { s.setQueue p c rest with bm := { (s.setQueue p c rest).bm with
      pool := s.bm.pool + 1,
      shared := if s.bm.params[c].reservation < (b :: rest).length then s.bm.shared - 1 else s.bm.shared } } p c).dropRef b := by
    unfold State.removeHead; rw [h]; rfl
  rw [he]
  generalize hm : State.testEntry { s.setQueue p c rest with bm := { (s.setQueue p c rest).bm with
      pool := s.bm.pool + 1,
      shared := if s.bm.params[c].reservation < (b :: rest).length then s.bm.shared - 1 else s.bm.shared } } p c = m
  obtain ⟨k1, k2, k3, k4, k5⟩ := State.dropRef_keeps m b
  have mq : ∀ q k, m.queue q k = if q = p ∧ k = c then rest else s.queue q k := by
    intro q k
    rw [← hm]
    have : ∀ x : BufferManager, State.queue (State.testEntry { s.setQueue p c rest with bm := { (s.setQueue p c rest).bm with pool := x.pool, shared := x.shared } } p c) q k = (s.setQueue p c rest).queue q k := fun _ => rfl
    exact (this ⟨[], [], _, Vector.replicate 24 (Vector.replicate 4 []), s.bm.params, _⟩).trans (State.setQueue_queue ..)
  have mb : ∀ n, m.buffer n = s.buffer n := fun n => by rw [← hm]; rfl
  have mbb : m.bm.buffers = s.bm.buffers := by rw [← hm]; rfl
  have mf : m.bm.free = s.bm.free := by rw [← hm]; rfl
  have mfr : m = { s with bm := m.bm, cmap := m.cmap } := by rw [← hm]; rfl
  refine ⟨?_, ?_, ?_, ?_, ?_, ?_, ?_, ?_, ?_, ?_, ?_⟩
  · rw [State.dropRef_frame, mfr]
  · intro q k
    have : (m.dropRef b).queue q k = m.queue q k := by unfold State.queue; rw [k1]
    rw [this, mq]
  · rw [k2, ← hm]; rfl
  · rw [k4, ← hm]; rfl
  · rw [k3, ← hm]; rfl
  · intro hr
    rw [← mb] at hr
    rw [m.dropRef_last b hr]
    refine ⟨by rw [← mf], fun hw => ?_⟩
    unfold State.buffer
    rw [← mbb] at hw
    exact tableGet_set_same _ _ _ _ hw
  · intro hr
    rw [← mb] at hr ⊢
    rw [m.dropRef_more b hr]
    refine ⟨mf, ?_⟩
    have hne : (⟨(m.buffer b).cell, (m.buffer b).refs - 1⟩ : Buffer) ≠ ⟨zeroCell, 0⟩ := by
      intro e; injection e with _ e; omega
    exact tableGet_set_value _ _ _ _ hne
  · intro n hn
    rw [← mb]
    rcases Nat.lt_or_ge 1 (m.buffer b).refs with h | h
    · rw [m.dropRef_more b h]; exact tableGet_set_other _ _ _ _ _ hn
    · rw [m.dropRef_last b h]; exact tableGet_set_other _ _ _ _ _ hn
  · rw [k5, ← hm]; rfl
  · intro q k
    rw [k5, ← hm, State.testEntry_held]
    split
    · rename_i h'
      obtain ⟨rfl, rfl⟩ := h'
      have := mq q k
      rw [← hm] at this
      rw [State.testEntry_queue] at this
      rw [this]
      simp
    · rfl
  · rw [k5, ← hm, State.testEntry_version]
    have := mq p c
    rw [← hm] at this
    rw [State.testEntry_queue] at this
    rw [this]
    simp

end Sys2Proof.Machine
end

