-- ==== Sys2Proof/Laws/Notices.lean ====
section
/-! SUPPORT. What a notice event, a count, a submission and a response leave: one lemma for each shared operation. -/

namespace Sys2Proof.Machine

/-! ### Effects of notices -/

theorem NoticeEffects.refl (s : State) : NoticeEffects s s :=
  ⟨rfl, rfl, rfl, rfl, fun _ => ⟨rfl, rfl, rfl⟩, fun _ _ => ⟨[], by simp, .inl rfl⟩⟩

theorem NoticeEffects.isUp {s t : State} (h : NoticeEffects s t) (p : Link) : t.isUp p = s.isUp p := by
  rw [h.frame]; rfl

theorem NoticeEffects.trans {s t u : State} (h : NoticeEffects s t) (g : NoticeEffects t u) : NoticeEffects s u where
  frame := by rw [g.frame, h.frame]
  params := g.params.trans h.params
  thresholds := g.thresholds.trans h.thresholds
  ports := g.ports.trans h.ports
  settings k := ⟨(g.settings k).1.trans (h.settings k).1, (g.settings k).2.1.trans (h.settings k).2.1,
    (g.settings k).2.2.trans (h.settings k).2.2⟩
  queues p c := by
    obtain ⟨l, hl, hc⟩ := h.queues p c
    obtain ⟨m, hm, gc⟩ := g.queues p c
    refine ⟨l ++ m, by rw [hm, hl, List.append_assoc], ?_⟩
    rcases hc with rfl | hc
    · rcases gc with rfl | gc
      · exact .inl rfl
      · rw [h.isUp, h.ports] at gc; exact .inr gc
    · exact .inr hc

theorem NoticeEffects.of_counters {s t : State} (h : t = { s with counters := t.counters }) : NoticeEffects s t := by
  rw [h]
  exact ⟨rfl, rfl, rfl, rfl, fun _ => ⟨rfl, rfl, rfl⟩, fun _ _ => ⟨[], by simp [State.queue], .inl rfl⟩⟩

theorem NoticeEffects.setKind (s : State) (k : NoticeKind) (n : NoticeState) (h1 : n.enabled = (s.kind k).enabled)
    (h2 : n.interval = (s.kind k).interval) (h3 : n.firstOnly = (s.kind k).firstOnly) : NoticeEffects s (s.setKind k n) where
  frame := rfl
  params := rfl
  thresholds := rfl
  ports := rfl
  settings j := by
    rw [State.setKind_kind]
    by_cases h : j = k
    · subst h; simp [h1, h2, h3]
    · simp [h]
  queues p c := ⟨[], by simp [State.queue], .inl rfl⟩

theorem State.bump_effects (s : State) (p : Link) (c : Counter) : NoticeEffects s (s.bump p c).1 :=
  .of_counters (s.bump_spec p c).frame

theorem State.takeEvent_effects (s : State) (k : NoticeKind) (d : Vector Byte 6) : NoticeEffects s (s.takeEvent k d).1 := by
  unfold State.takeEvent
  simp only
  split
  · exact .setKind s k _ rfl rfl rfl
  · exact .refl s

theorem State.countHeld_cases (s : State) (p : Link) (c : Counter) :
    s.countHeld p c = if (s.bump p c).2 then (s.bump p c).1.takeEvent .counterCarry (carryDetail p c.index)
      else ((s.bump p c).1, false) := by
  unfold State.countHeld
  rcases h : s.bump p c with ⟨a, _ | _⟩ <;> simp

theorem State.countHeld_effects (s : State) (p : Link) (c : Counter) : NoticeEffects s (s.countHeld p c).1 := by
  rw [State.countHeld_cases]
  split
  · exact (s.bump_effects p c).trans (State.takeEvent_effects ..)
  · exact s.bump_effects p c

/-! ### Outcomes of copies (R80, R83) -/

theorem State.verdicts_ports (s : State) (c : Class) (ps : List Link) : ∀ u, (s.verdicts c u ps).map Prod.fst = ps := by
  induction ps with
  | nil => intro u; rfl
  | cons p ps ih => intro u; simp [State.verdicts, ih]

/-- A copy for a port whose link is not UP is refused (R80 step 1). -/
theorem State.verdict_down (s : State) (u : Nat) (p : Link) (c : Class) (h : s.isUp p = false) :
    s.verdict u p c = .portDown := by
  unfold State.verdict; simp [h]

/-- The outcome of a copy, by the steps of R80. -/
theorem State.verdict_outcome (s : State) (u : Nat) (p : Link) (c : Class) :
    CopyOutcome (s.isUp p) (s.queue p c).length s.bm.params[c].reservation s.bm.params[c].maximum (s.poolSize - u)
      s.bm.params[c].alpha (s.verdict u p c) := by
  unfold State.verdict
  cases hu : s.isUp p with
  | false => exact .portDown rfl
  | true =>
    simp only [Bool.not_true, Bool.false_eq_true, if_false]
    generalize (s.queue p c).length = Q, s.bm.params[c] = x, s.poolSize - u = free
    by_cases h1 : Q < x.reservation
    · rw [if_pos h1]; exact .reserved rfl h1
    rw [if_neg h1]
    by_cases h2 : x.maximum < Q + 1
    · rw [if_pos h2]; exact .queueMax rfl (by omega) h2
    rw [if_neg h2]
    by_cases h3 : 1 ≤ free ∧ Q - x.reservation < sharedThreshold free x.alpha
    · rw [if_pos h3]; exact .shared rfl (by omega) (by omega) h3.1 h3.2
    · rw [if_neg h3]
      unfold sharedThreshold at h3
      exact .sharedLimit rfl (by omega) (by omega) (by omega)

theorem State.verdict_admits_up (s : State) (u : Nat) (p : Link) (c : Class) (h : (s.verdict u p c).admits = true) :
    s.isUp p = true := by
  by_contra hn
  rw [s.verdict_down u p c (by simpa using hn)] at h
  exact absurd h (by decide)

theorem State.verdicts_admits_up (s : State) (c : Class) (ps : List Link) : ∀ u, ∀ v ∈ s.verdicts c u ps,
    v.2.admits = true → s.isUp v.1 = true := by
  induction ps with
  | nil => intro u v hv; cases hv
  | cons p ps ih =>
    intro u v hv ha
    simp only [State.verdicts, List.mem_cons] at hv
    rcases hv with rfl | hv
    · exact s.verdict_admits_up _ _ _ ha
    · exact ih _ v hv ha

theorem State.admitted_up (s : State) (c : Class) (u : Nat) (ps : List Link) (p : Link)
    (h : p ∈ admittedPorts (s.verdicts c u ps)) : s.isUp p = true ∧ p ∈ ps := by
  obtain ⟨v, hv, rfl⟩ := List.mem_map.mp h
  obtain ⟨hv, ha⟩ := List.mem_filter.mp hv
  refine ⟨s.verdicts_admits_up c ps u v hv ha, ?_⟩
  have := List.mem_map_of_mem (f := Prod.fst) hv
  rwa [State.verdicts_ports] at this

theorem portList_mem (m : BitVec 24) (p : Link) : p ∈ portList m ↔ m.getLsbD p = true := by simp [portList]

theorem portList_nodup (m : BitVec 24) : (portList m).Nodup := (List.nodup_finRange 24).filter _

/-- Storage for copies that are admitted only in C0 of ports of the notice port set. -/
theorem NoticeEffects.of_stored {s t : State} {cell : Cell} {vs : List (Link × Verdict)} (h : Stored s t cell 0 vs)
    (hp : ∀ p ∈ admittedPorts vs, s.isUp p = true ∧ s.notices.ports.getLsbD p = true) : NoticeEffects s t := by
  by_cases h0 : admittedPorts vs = [] ∨ s.bm.free = []
  · rw [h.1 h0]; exact .refl s
  · obtain ⟨h1, h2⟩ := not_or.mp h0
    obtain ⟨b, rest, hb⟩ := List.exists_cons_of_ne_nil h2
    have g := h.2 b rest h1 hb
    refine ⟨by rw [g.frame], g.params, g.thresholds, by rw [g.frame], fun k => by rw [g.frame]; exact ⟨rfl, rfl, rfl⟩, fun p c => ?_⟩
    rw [g.queues]
    by_cases hc : c = 0 ∧ p ∈ admittedPorts vs
    · exact ⟨[b], by rw [if_pos hc], .inr ⟨hc.1, hp p hc.2⟩⟩
    · exact ⟨[], by rw [if_neg hc, List.append_nil], .inl rfl⟩

theorem countRefusals_effects (vs : List (Link × Verdict)) : ∀ s called, NoticeEffects s (countRefusals vs (s, called)).1 := by
  induction vs with
  | nil => intro s _; exact .refl s
  | cons v vs ih =>
    obtain ⟨p, v⟩ := v
    intro s called
    unfold countRefusals
    split
    · exact ih s called
    · exact (s.countHeld_effects p _).trans (ih _ _)

theorem countLost_effects (ps : List Link) : ∀ s : State, NoticeEffects s (countLost ps s).1 := by
  induction ps with
  | nil => intro s; exact .refl s
  | cons p ps ih => intro s; exact (s.bump_effects p _).trans (ih _)

theorem countRspLost_effects (ps : List Link) : ∀ s called, NoticeEffects s (countRspLost ps (s, called)).1 := by
  induction ps with
  | nil => intro s _; exact .refl s
  | cons p ps ih => intro s called; exact (s.countHeld_effects p _).trans (ih _ _)

theorem State.submit_results (s : State) (cell : Cell) (ports : List Link) (c : Class) :
    (s.submit cell ports c).results = s.verdicts c s.bm.shared ports := rfl

theorem State.submit_stored (s : State) (cell : Cell) (ports : List Link) (c : Class) (h : ports.Nodup) :
    Stored s (s.store cell c (s.verdicts c s.bm.shared ports)) cell c (s.verdicts c s.bm.shared ports) :=
  s.store_spec _ _ _ (by rwa [State.verdicts_ports])

theorem State.submit_counts_effects (s : State) (cell : Cell) (ports : List Link) (c : Class) :
    NoticeEffects (s.store cell c (s.verdicts c s.bm.shared ports)) (s.submit cell ports c).s :=
  countRefusals_effects _ _ _

theorem State.emit_effects (s : State) (k : NoticeKind) : NoticeEffects s (s.emit k).1 := by
  have h1 := NoticeEffects.of_stored
    (s.submit_stored (noticeCell s.sru.elementId k (s.kind k).pendingCount (s.kind k).detail) (portList s.notices.ports) 0
      (portList_nodup _))
    (fun p hp => ⟨(s.admitted_up _ _ _ p hp).1, (portList_mem _ p).mp (s.admitted_up _ _ _ p hp).2⟩)
  have h2 := h1.trans (s.submit_counts_effects _ _ _)
  have h3 := h2.trans (countLost_effects (refusedPorts (s.submit (noticeCell s.sru.elementId k (s.kind k).pendingCount
    (s.kind k).detail) (portList s.notices.ports) 0).results) _)
  exact h3.trans (.setKind _ _ _ rfl rfl rfl)

theorem settle_take (n : Nat) (k : NoticeKind) (d : Vector Byte 6) (ws : List Work) (s : State) :
    settle (n + 1) (.take k d :: ws) s =
      if (s.takeEvent k d).2 then settle n (.emit k :: ws) (s.takeEvent k d).1 else settle n ws (s.takeEvent k d).1 := by
  rw [settle]
  rcases h : s.takeEvent k d with ⟨a, _ | _⟩ <;> simp

theorem settle_emit (n : Nat) (k : NoticeKind) (ws : List Work) (s : State) :
    settle (n + 1) (.emit k :: ws) s = if s.due k then settle n (ws ++ (s.emit k).2) (s.emit k).1 else settle n ws s := by
  rw [settle]

theorem settle_nil (n : Nat) (s : State) : settle n [] s = s := by cases n <;> rfl

/-- Whatever waits, only the effects of notices come of it. -/
theorem settle_effects (n : Nat) : ∀ ws s, NoticeEffects s (settle n ws s) := by
  induction n with
  | zero => intro ws s; exact .refl s
  | succ n ih =>
    intro ws s
    match ws with
    | [] => exact .refl s
    | .take k d :: ws =>
      rw [settle_take]
      split <;> exact (s.takeEvent_effects k d).trans (ih _ _)
    | .emit k :: ws =>
      rw [settle_emit]
      split
      · exact (s.emit_effects k).trans (ih _ _)
      · exact ih _ _

theorem State.notify_effects (s : State) (k : NoticeKind) (d : Vector Byte 6) : NoticeEffects s (s.notify k d) :=
  settle_effects _ _ _

theorem State.count_cases (s : State) (p : Link) (c : Counter) :
    s.count p c = if (s.bump p c).2 then (s.bump p c).1.notify .counterCarry (carryDetail p c.index) else (s.bump p c).1 := by
  unfold State.count
  rcases h : s.bump p c with ⟨a, _ | _⟩ <;> simp

theorem State.count_effects (s : State) (p : Link) (c : Counter) : NoticeEffects s (s.count p c) := by
  rw [State.count_cases]
  split
  · exact (s.bump_effects p c).trans (State.notify_effects ..)
  · exact s.bump_effects p c

theorem State.release_effects (s : State) (called : Bool) : NoticeEffects s (s.release called) := by
  unfold State.release
  split
  · exact settle_effects _ _ _
  · exact .refl s

/-! ### The records of other kinds -/

/-- Work that concerns COUNTER_CARRY alone. -/
def Work.carries : Work → Bool
  | .take k _ => k == .counterCarry
  | .emit k => k == .counterCarry

theorem State.takeEvent_kind (s : State) (k : NoticeKind) (d : Vector Byte 6) (j : NoticeKind) (h : j ≠ k) :
    (s.takeEvent k d).1.kind j = s.kind j := by
  unfold State.takeEvent
  simp only
  split
  · rw [State.setKind_kind, if_neg h]
  · rfl

theorem State.bump_kind (s : State) (p : Link) (c : Counter) (j : NoticeKind) : (s.bump p c).1.kind j = s.kind j := rfl

theorem State.countHeld_kind (s : State) (p : Link) (c : Counter) (j : NoticeKind) (h : j ≠ .counterCarry) :
    (s.countHeld p c).1.kind j = s.kind j := by
  rw [State.countHeld_cases]
  split
  · rw [State.takeEvent_kind _ _ _ _ h, State.bump_kind]
  · rfl

theorem countRefusals_kind (vs : List (Link × Verdict)) (j : NoticeKind) (h : j ≠ .counterCarry) : ∀ x : State × Bool,
    (countRefusals vs x).1.kind j = x.1.kind j := by
  induction vs with
  | nil => intro x; rfl
  | cons v vs ih =>
    obtain ⟨p, v⟩ := v
    rintro ⟨s, called⟩
    unfold countRefusals
    split
    · exact ih (s, called)
    · rw [ih]; exact s.countHeld_kind p _ j h

theorem countLost_kind (ps : List Link) (j : NoticeKind) : ∀ s : State, (countLost ps s).1.kind j = s.kind j := by
  induction ps with
  | nil => intro s; rfl
  | cons p ps ih => intro s; exact (ih _).trans (s.bump_kind p _ j)

theorem countLost_carries (ps : List Link) : ∀ s : State, ∀ w ∈ (countLost ps s).2, w.carries = true := by
  induction ps with
  | nil => intro s w hw; cases hw
  | cons p ps ih =>
    intro s w hw
    simp only [countLost] at hw
    split at hw
    · rcases List.mem_cons.mp hw with rfl | hw
      · rfl
      · exact ih _ w hw
    · exact ih _ w hw

theorem Stored.frame {s t : State} {cell : Cell} {c : Class} {vs : List (Link × Verdict)} (h : Stored s t cell c vs) :
    t = { s with bm := t.bm, cmap := t.cmap } := by
  by_cases h0 : admittedPorts vs = [] ∨ s.bm.free = []
  · rw [h.1 h0]
  · obtain ⟨h1, h2⟩ := not_or.mp h0
    obtain ⟨b, rest, hb⟩ := List.exists_cons_of_ne_nil h2
    exact (h.2 b rest h1 hb).frame

theorem Stored.kind {s t : State} {cell : Cell} {c : Class} {vs : List (Link × Verdict)} (h : Stored s t cell c vs)
    (j : NoticeKind) : t.kind j = s.kind j := by rw [h.frame]; rfl

theorem State.emit_kind (s : State) (k j : NoticeKind) (h : j ≠ .counterCarry) :
    (s.emit k).1.kind j = if j = k then emittedRecord (s.kind k) else s.kind j := by
  have key : ∀ i, i ≠ .counterCarry → (countLost (refusedPorts (s.submit (noticeCell s.sru.elementId k (s.kind k).pendingCount
      (s.kind k).detail) (portList s.notices.ports) 0).results) (s.submit (noticeCell s.sru.elementId k (s.kind k).pendingCount
      (s.kind k).detail) (portList s.notices.ports) 0).s).1.kind i = s.kind i := by
    intro i hi
    rw [countLost_kind]
    exact (countRefusals_kind _ i hi _).trans ((s.submit_stored _ _ _ (portList_nodup _)).kind i)
  unfold State.emit
  simp only [State.setKind_kind]
  by_cases hj : j = k
  · subst hj; rw [if_pos rfl, if_pos rfl, key j h]; rfl
  · rw [if_neg hj, if_neg hj, key j h]

theorem State.emit_carries (s : State) (k : NoticeKind) : ∀ w ∈ (s.emit k).2, w.carries = true := by
  intro w hw
  unfold State.emit at hw
  simp only [List.mem_append] at hw
  rcases hw with hw | hw
  · split at hw
    · rw [List.mem_singleton] at hw; subst hw; rfl
    · cases hw
  · exact countLost_carries _ _ w hw

/-- COUNTER_CARRY work leaves the records of the other kinds. -/
theorem settle_kind (n : Nat) (j : NoticeKind) (hj : j ≠ .counterCarry) : ∀ ws s, (∀ w ∈ ws, w.carries = true) →
    (settle n ws s).kind j = s.kind j := by
  induction n with
  | zero => intro ws s _; rfl
  | succ n ih =>
    intro ws s hw
    match ws, hw with
    | [], _ => rfl
    | .take k d :: ws, hw =>
      have hk : k = .counterCarry := by simpa [Work.carries] using hw _ List.mem_cons_self
      subst hk
      rw [settle_take]
      split
      · rw [ih _ _ (fun w h => ?_), State.takeEvent_kind _ _ _ _ hj]
        rcases List.mem_cons.mp h with rfl | h
        · rfl
        · exact hw w (List.mem_cons_of_mem _ h)
      · rw [ih _ _ (fun w h => hw w (List.mem_cons_of_mem _ h)), State.takeEvent_kind _ _ _ _ hj]
    | .emit k :: ws, hw =>
      have hk : k = .counterCarry := by simpa [Work.carries] using hw _ List.mem_cons_self
      subst hk
      rw [settle_emit]
      split
      · rw [ih _ _ (fun w h => ?_), State.emit_kind _ _ _ hj, if_neg hj]
        rcases List.mem_append.mp h with h | h
        · exact hw w (List.mem_cons_of_mem _ h)
        · exact State.emit_carries _ _ w h
      · exact ih _ _ fun w h => hw w (List.mem_cons_of_mem _ h)

/-! ### Counts without a wrap -/

theorem CountsRaised.refl (s : State) : CountsRaised s s fun _ _ => 0 := ⟨rfl, fun _ _ => by simp, fun _ _ => rfl⟩

theorem CountsRaised.trans {s t u : State} {m n : Link → Fin 18 → Nat} (h : CountsRaised s t m) (g : CountsRaised t u n) :
    CountsRaised s u fun p i => m p i + n p i where
  frame := by rw [g.frame, h.frame]
  values p i := by rw [g.values, h.values, BitVec.add_assoc, ← BitVec.ofNat_add]
  flags p i := (g.flags p i).trans (h.flags p i)

theorem CountsRaised.congr {s t : State} {m n : Link → Fin 18 → Nat} (h : CountsRaised s t m) (e : ∀ p i, m p i = n p i) :
    CountsRaised s t n := ⟨h.frame, fun p i => by rw [h.values, e], h.flags⟩

/-- A count of a counter that does not stand at its top. -/
theorem Bumped.raised {s t : State} {p : Link} {c : Counter} (h : Bumped s t p c) (hv : s.counter p c.index ≠ BitVec.allOnes 32) :
    CountsRaised s t fun q i => if q = p ∧ i = c.index then 1 else 0 where
  frame := h.frame
  values q i := by
    rw [h.values]
    split
    · rfl
    · exact (BitVec.add_zero _).symm
  flags q i := by
    rw [h.flags]
    have : ¬ (q = p ∧ i = c.index ∧ s.counter q i = BitVec.allOnes 32) := by rintro ⟨rfl, rfl, h⟩; exact hv h
    rw [decide_eq_false this, Bool.or_false]

theorem State.bump_quiet (s : State) (p : Link) (c : Counter) (h : s.counter p c.index ≠ BitVec.allOnes 32) :
    (s.bump p c).2 = false := by
  by_contra hn
  exact h ((s.bump_event p c).mp (by simpa using hn)).1

theorem State.countHeld_quiet (s : State) (p : Link) (c : Counter) (h : s.counter p c.index ≠ BitVec.allOnes 32) :
    s.countHeld p c = ((s.bump p c).1, false) := by
  rw [State.countHeld_cases, s.bump_quiet p c h]; rfl

theorem State.count_quiet (s : State) (p : Link) (c : Counter) (h : s.counter p c.index ≠ BitVec.allOnes 32) :
    s.count p c = (s.bump p c).1 := by
  rw [State.count_cases, s.bump_quiet p c h]; rfl

theorem refusalCount_cons (v : Link × Verdict) (vs : List (Link × Verdict)) (p : Link) (i : Fin 18) :
    refusalCount (v :: vs) p i =
      (if p = v.1 ∧ v.2.counter.map Counter.index = some i then 1 else 0) + refusalCount vs p i := by
  unfold refusalCount
  rw [List.filter_cons]
  by_cases h : p = v.1 ∧ v.2.counter.map Counter.index = some i
  · simp only [h.1, h.2, decide_true, Bool.and_self, if_true, and_self, List.length_cons]; omega
  · rw [if_neg h, if_neg]
    · omega
    · intro e
      simp only [Bool.and_eq_true, decide_eq_true_eq] at e
      exact h ⟨e.1.symm, e.2⟩

/-- The Buffer Manager's counts for copies at distinct ports, none of whose counters stands at its top (R85). -/
theorem countRefusals_raised (vs : List (Link × Verdict)) : ∀ (s : State) (called : Bool), (vs.map Prod.fst).Nodup →
    (∀ v ∈ vs, ∀ i, s.counter v.1 i ≠ BitVec.allOnes 32) →
    CountsRaised s (countRefusals vs (s, called)).1 (refusalCount vs) ∧ (countRefusals vs (s, called)).2 = called := by
  induction vs with
  | nil => intro s called _ _; exact ⟨.refl s, rfl⟩
  | cons v vs ih =>
    obtain ⟨p, v⟩ := v
    intro s called hn ht
    have hn' : (vs.map Prod.fst).Nodup := (List.nodup_cons.mp hn).2
    have hp : ∀ w ∈ vs, w.1 ≠ p := fun w hw e => (List.nodup_cons.mp hn).1 (List.mem_map.mpr ⟨w, hw, e⟩)
    unfold countRefusals
    cases hc : v.counter with
    | none =>
      obtain ⟨h1, h2⟩ := ih s called hn' fun w hw => ht w (List.mem_cons_of_mem _ hw)
      refine ⟨h1.congr fun q i => ?_, h2⟩
      rw [refusalCount_cons]; simp [hc]
    | some c =>
      simp only
      have hq := ht (p, v) List.mem_cons_self c.index
      rw [s.countHeld_quiet p c hq]
      have hb := (s.bump_spec p c).raised hq
      obtain ⟨h1, h2⟩ := ih (s.bump p c).1 (called || false) hn' fun w hw i => by
        rw [hb.values, if_neg (by rintro ⟨e, _⟩; exact hp w hw e)]
        simpa using ht w (List.mem_cons_of_mem _ hw) i
      refine ⟨(hb.trans h1).congr fun q i => ?_, by rw [h2]; simp⟩
      rw [refusalCount_cons]
      simp only [hc, Option.map_some, Option.some.injEq]
      congr 1
      by_cases e : q = p ∧ i = c.index
      · rw [if_pos e, if_pos ⟨e.1, e.2.symm⟩]
      · rw [if_neg e, if_neg fun e' => e ⟨e'.1, e'.2.symm⟩]

/-- NOTICE_LOST counts at distinct ports without a wrap (R173). -/
theorem countLost_raised (ps : List Link) : ∀ s : State, ps.Nodup →
    (∀ p ∈ ps, s.counter p Counter.noticeLost.index ≠ BitVec.allOnes 32) →
    CountsRaised s (countLost ps s).1 (fun p i => if i = Counter.noticeLost.index then (ps.filter fun q => decide (q = p)).length else 0) ∧
      (countLost ps s).2 = [] := by
  induction ps with
  | nil => intro s _ _; exact ⟨(CountsRaised.refl s).congr fun p i => by simp, rfl⟩
  | cons p ps ih =>
    intro s hn ht
    obtain ⟨hp, hn⟩ := List.nodup_cons.mp hn
    have hq := ht p List.mem_cons_self
    have hb := (s.bump_spec p .noticeLost).raised hq
    obtain ⟨h1, h2⟩ := ih (s.bump p .noticeLost).1 hn fun q hq' => by
      rw [hb.values, if_neg (by rintro ⟨e, _⟩; exact hp (e ▸ hq'))]
      simpa using ht q (List.mem_cons_of_mem _ hq')
    refine ⟨(hb.trans h1).congr fun q i => ?_, ?_⟩
    · by_cases hi : i = Counter.noticeLost.index
      · by_cases e : p = q
        · subst e; simp [hi]; omega
        · simp [hi, e, Ne.symm e]
      · simp [hi]
    · simp only [countLost, s.bump_quiet p _ hq, h2]; rfl

/-- RSP_LOST of one refused response without a wrap (R157). -/
theorem refusedPorts_nodup {vs : List (Link × Verdict)} (h : (vs.map Prod.fst).Nodup) : (refusedPorts vs).Nodup :=
  h.sublist (List.filter_sublist.map _)

theorem Stored.counter {s t : State} {cell : Cell} {c : Class} {vs : List (Link × Verdict)} (h : Stored s t cell c vs)
    (p : Link) (i : Fin 18) : t.counter p i = s.counter p i := by rw [h.frame]; rfl

theorem Counter.index_loss (c : Counter) (v : Verdict) (h : v.counter = some c) : c = .queueMax ∨ c = .sharedLimit := by
  cases v <;> simp [Verdict.counter] at h <;> simp [← h]

/-- The counts of a refused copy are QUEUE_MAX and SHARED_LIMIT alone. -/
theorem refusalCount_other (vs : List (Link × Verdict)) (p : Link) (i : Fin 18) (h : i ≠ Counter.queueMax.index)
    (h' : i ≠ Counter.sharedLimit.index) : refusalCount vs p i = 0 := by
  induction vs with
  | nil => rfl
  | cons v vs ih =>
    rw [refusalCount_cons, ih, if_neg]
    rintro ⟨_, hv⟩
    cases hc : v.2.counter with
    | none => simp [hc] at hv
    | some c =>
      simp only [hc, Option.map_some, Option.some.injEq] at hv
      rcases Counter.index_loss c v.2 hc with rfl | rfl
      · exact h hv.symm
      · exact h' hv.symm

/-- An emission when no counter stands at its top: nothing more is called for. -/
theorem State.emit_exact (s : State) (k : NoticeKind) (h : NoCounterAtTop s) :
    (s.emit k).2 = [] ∧ ∃ m,
      Stored s m (noticeCell s.sru.elementId k (s.kind k).pendingCount (s.kind k).detail) 0 (noticeOutcomes s) ∧
      (s.emit k).1 = { m with counters := (s.emit k).1.counters, notices := (s.emit k).1.notices } ∧
      (∀ p i, (s.emit k).1.counter p i = s.counter p i + BitVec.ofNat 32 (lossCount .noticeLost (noticeOutcomes s) p i)) ∧
      (∀ p i, (s.emit k).1.carryFlag p i = s.carryFlag p i) ∧
      ∀ j, (s.emit k).1.kind j = if j = k then emittedRecord (s.kind k) else s.kind j := by
  have hs := s.submit_stored (noticeCell s.sru.elementId k (s.kind k).pendingCount (s.kind k).detail) (portList s.notices.ports) 0
    (portList_nodup _)
  have hv : ((s.verdicts 0 s.bm.shared (portList s.notices.ports)).map Prod.fst).Nodup := by
    rw [State.verdicts_ports]; exact portList_nodup _
  generalize hm : s.store (noticeCell s.sru.elementId k (s.kind k).pendingCount (s.kind k).detail) 0
    (s.verdicts 0 s.bm.shared (portList s.notices.ports)) = m at hs
  obtain ⟨r1, r2⟩ := countRefusals_raised _ m false hv fun v _ i => by rw [hs.counter]; exact h _ _
  obtain ⟨l1, l2⟩ := countLost_raised _ (countRefusals (s.verdicts 0 s.bm.shared (portList s.notices.ports)) (m, false)).1
    (refusedPorts_nodup hv) fun p _ => by
      rw [r1.values, refusalCount_other _ _ _ (by decide) (by decide), hs.counter]; simpa using h _ _
  have he : s.emit k = ((countLost (refusedPorts (s.verdicts 0 s.bm.shared (portList s.notices.ports)))
      (countRefusals (s.verdicts 0 s.bm.shared (portList s.notices.ports)) (m, false)).1).1.setKind k
      (emittedRecord ((countLost (refusedPorts (s.verdicts 0 s.bm.shared (portList s.notices.ports)))
      (countRefusals (s.verdicts 0 s.bm.shared (portList s.notices.ports)) (m, false)).1).1.kind k)), []) := by
    unfold State.emit State.submit
    simp only [hm]
    refine Prod.ext rfl ?_
    simp only [r2, l2]; rfl
  rw [he]
  have hl := r1.trans l1
  refine ⟨rfl, m, hs, ?_, ?_, ?_, ?_⟩
  · rw [hl.frame]; rfl
  · intro p i
    have := hl.values p i
    rw [hs.counter] at this
    exact this
  · intro p i
    have : (m.carryFlag p i) = s.carryFlag p i := by rw [hs.frame]; rfl
    exact (hl.flags p i).trans this
  · intro j
    have hk : ∀ j, (countLost (refusedPorts (s.verdicts 0 s.bm.shared (portList s.notices.ports)))
      (countRefusals (s.verdicts 0 s.bm.shared (portList s.notices.ports)) (m, false)).1).1.kind j = s.kind j := by
      intro j
      rw [countLost_kind]
      have : (countRefusals (s.verdicts 0 s.bm.shared (portList s.notices.ports)) (m, false)).1.kind j = m.kind j := by
        rw [r1.frame]; rfl
      rw [this, hs.kind]
    simp only [State.setKind_kind, hk]

/-! ### The lemmas to cite -/

/-- An emission that is due. -/
theorem settle_emitted (n : Nat) (s : State) (k : NoticeKind) (h : s.due k = true) :
    Emitted s (settle (n + 1) [.emit k] s) k := by
  rw [settle_emit, if_pos h, List.nil_append]
  refine ⟨(s.emit_effects k).trans (settle_effects _ _ _), fun j hj => ?_, fun ht => ?_⟩
  · rw [settle_kind _ _ hj _ _ (s.emit_carries k), s.emit_kind k j hj]
  · obtain ⟨h1, h2⟩ := s.emit_exact k ht
    rw [h1, settle_nil]; exact h2

/-- A notice event handed over (R172 to R174). -/
theorem State.notify_spec (s : State) (k : NoticeKind) (d : Vector Byte 6) : Notified s (s.notify k d) k d := by
  unfold Notified State.notify settleBound
  rw [settle_take]
  cases he : (s.kind k).enabled with
  | false => simp [s.takeEvent_off k d he, settle_nil]
  | true =>
    rw [if_neg (by simp)]
    refine ⟨_, s.takeEvent_on k d he, ?_⟩
    by_cases hc : (s.takeEvent k d).2 = true
    · rw [if_neg ((s.takeEvent_calls k d he).mp hc), if_pos hc]
      refine settle_emitted _ _ _ ?_
      have := (s.takeEvent_calls k d he).mp hc
      simp only [not_or, Bool.not_eq_true, not_lt] at this
      simp [State.due, this]
    · rw [if_neg hc, settle_nil]
      have hx := (not_congr (s.takeEvent_calls k d he)).mp hc
      rw [not_not] at hx
      rw [if_pos hx]

/-- A count raised (R165, R166). -/
theorem State.count_spec (s : State) (p : Link) (c : Counter) : Counted s (s.count p c) p c := by
  refine ⟨_, s.bump_spec p c, ?_⟩
  rw [State.count_cases]
  split
  · rename_i h; rw [if_pos ((s.bump_event p c).mpr h)]; exact State.notify_spec ..
  · rename_i h; rw [if_neg fun e => h ((s.bump_event p c).mp e)]

/-- A count raised while notices wait (R165, R166, R174). -/
theorem State.countHeld_spec (s : State) (p : Link) (c : Counter) : CountedHeld s (s.countHeld p c).1 p c := by
  refine ⟨_, s.bump_spec p c, ?_⟩
  rw [State.countHeld_cases]
  by_cases hb : (s.bump p c).2 = true
  · rw [if_pos hb]
    have h := (s.bump_event p c).mp hb
    cases he : (s.kind .counterCarry).enabled with
    | true => rw [if_pos ⟨h.1, h.2, rfl⟩]; exact State.takeEvent_on _ _ _ (by rw [State.bump_kind, he])
    | false => rw [if_neg (by simp)]; rw [State.takeEvent_off _ _ _ (by rw [State.bump_kind, he])]
  · rw [if_neg hb, if_neg fun h => hb ((s.bump_event p c).mpr ⟨h.1, h.2.1⟩)]

/-- The release of a COUNTER_CARRY notice that may wait (R174, log 11). -/
theorem State.release_spec (s : State) (called : Bool) :
    (called = true → s.due .counterCarry = true → Emitted s (s.release called) .counterCarry) ∧
    (called = false ∨ s.due .counterCarry = false → s.release called = s) := by
  unfold State.release settleBound
  refine ⟨fun hc hd => by rw [if_pos hc]; exact settle_emitted _ _ _ hd, ?_⟩
  rintro (hc | hd)
  · simp [hc]
  · rw [settle_emit, hd]; simp [settle_nil]

theorem Taken.effects {s t : State} {k : NoticeKind} {d : Vector Byte 6} (h : Taken s t k d) : NoticeEffects s t := by
  refine ⟨by rw [h.frame], by rw [h.frame], by rw [h.frame], h.ports, fun j => ?_, fun p c => ⟨[], ?_, .inl rfl⟩⟩
  · rw [h.kinds]
    split
    · rename_i e; subst e; exact ⟨rfl, rfl, rfl⟩
    · exact ⟨rfl, rfl, rfl⟩
  · rw [h.frame]; simp [State.queue]

theorem Notified.effects {s t : State} {k : NoticeKind} {d : Vector Byte 6} (h : Notified s t k d) : NoticeEffects s t := by
  unfold Notified at h
  split at h
  · rw [h]; exact .refl s
  · obtain ⟨m, hm, h⟩ := h
    split at h
    · rw [h]; exact hm.effects
    · exact hm.effects.trans h.effects

theorem Counted.effects {s t : State} {p : Link} {c : Counter} (h : Counted s t p c) : NoticeEffects s t := by
  obtain ⟨m, hb, h⟩ := h
  split at h
  · exact (NoticeEffects.of_counters hb.frame).trans h.effects
  · rw [h]; exact .of_counters hb.frame

/-- The submission of a DATA cell (R78 to R85, R174). -/
theorem State.submitData_spec (s : State) (cell : Cell) (ports : List Link) (c : Class) (h : ports.Nodup) :
    DataSubmitted s (s.submitData cell ports c) cell ports c := by
  have hs := s.submit_stored cell ports c h
  refine ⟨_, hs, ?_, fun ht => ?_⟩
  · exact (s.submit_counts_effects cell ports c).trans (State.release_effects _ _)
  · obtain ⟨r1, r2⟩ := countRefusals_raised (s.verdicts c s.bm.shared ports)
      (s.store cell c (s.verdicts c s.bm.shared ports)) false (by rw [State.verdicts_ports]; exact h) fun v _ i => by rw [hs.counter]; exact ht _ _
    have : s.submitData cell ports c = (countRefusals (s.verdicts c s.bm.shared ports)
        (s.store cell c (s.verdicts c s.bm.shared ports), false)).1 := by
      unfold State.submitData State.submit State.release
      simp only [r2, Bool.false_eq_true, if_false]
    rw [this]; exact r1

theorem State.verdicts_one (s : State) (c : Class) (u : Nat) (p : Link) : s.verdicts c u [p] = [(p, s.verdict u p c)] := rfl

/-- A response built and submitted (R155, R157). -/
theorem Ev.respond_spec (s : State) (r : Request) (code : Code) (words : List Word) :
    Responded s (Ev.respond ⟨s, false, false⟩ r code words).s r code words := by
  have hs := s.submit_stored (responseCell s.sru.elementId r.number r.tag code words) [r.port] 0 (by simp)
  rw [State.verdicts_one] at hs
  refine ⟨_, hs, fun ha => ?_, fun ha => ⟨?_, fun ht => ?_⟩⟩
  · have hc : (s.verdict s.bm.shared r.port 0).counter = none := by
      cases hv : s.verdict s.bm.shared r.port 0 <;> simp_all [Verdict.admits, Verdict.counter]
    unfold Ev.respond State.submit
    simp [State.verdicts_one, countRefusals, hc, refusedPorts, ha, countRspLost, State.release]
  · unfold Ev.respond
    simp only [Bool.false_eq_true, if_false]
    exact ((s.submit_counts_effects (responseCell s.sru.elementId r.number r.tag code words) [r.port] 0).trans
      (countRspLost_effects _ _ _)).trans (State.release_effects _ _)
  · have hp : refusedPorts [(r.port, s.verdict s.bm.shared r.port 0)] = [r.port] := by simp [refusedPorts, ha]
    generalize hm : s.store (responseCell s.sru.elementId r.number r.tag code words) 0 [(r.port, s.verdict s.bm.shared r.port 0)] = m at hs
    obtain ⟨r1, r2⟩ := countRefusals_raised [(r.port, s.verdict s.bm.shared r.port 0)] m false (by simp) fun v _ i => by
      rw [hs.counter]; exact ht _ _
    have hq : (countRefusals [(r.port, s.verdict s.bm.shared r.port 0)] (m, false)).1.counter r.port Counter.rspLost.index ≠
        BitVec.allOnes 32 := by
      rw [r1.values, refusalCount_other _ _ _ (by decide) (by decide), hs.counter]; simpa using ht _ _
    have hb := (State.bump_spec (countRefusals [(r.port, s.verdict s.bm.shared r.port 0)] (m, false)).1 r.port .rspLost).raised hq
    have he : (Ev.respond ⟨s, false, false⟩ r code words).s =
        ((countRefusals [(r.port, s.verdict s.bm.shared r.port 0)] (m, false)).1.bump r.port .rspLost).1 := by
      unfold Ev.respond State.submit
      simp only [State.verdicts_one, hm, hp, countRspLost, State.countHeld_quiet _ _ _ hq, r2, Bool.false_eq_true, if_false,
        Bool.or_false, State.release]
    rw [he]
    refine (r1.trans hb).congr fun p i => ?_
    unfold lossCount
    rw [hp]
    congr 1
    by_cases hi : i = Counter.rspLost.index
    · by_cases e : r.port = p
      · subst e; simp [hi]
      · simp [hi, e, Ne.symm e]
    · simp [hi]

/-- A response built and submitted while notices wait (R157, R174). -/
theorem Ev.respond_held (s : State) (called : Bool) (r : Request) (code : Code) (words : List Word) :
    RespondedHeld s (Ev.respond ⟨s, true, called⟩ r code words).s r code words := by
  have hs := s.submit_stored (responseCell s.sru.elementId r.number r.tag code words) [r.port] 0 (by simp)
  rw [State.verdicts_one] at hs
  unfold Ev.respond State.submit
  simp only [State.verdicts_one, if_true]
  refine ⟨_, hs, fun ha => ?_, fun ha => ?_⟩
  · have hc : (s.verdict s.bm.shared r.port 0).counter = none := by
      cases hv : s.verdict s.bm.shared r.port 0 <;> simp_all [Verdict.admits, Verdict.counter]
    simp [countRefusals, hc, refusedPorts, ha, countRspLost]
  · have hp : refusedPorts [(r.port, s.verdict s.bm.shared r.port 0)] = [r.port] := by simp [refusedPorts, ha]
    rw [hp]
    cases hc : (s.verdict s.bm.shared r.port 0).counter with
    | none =>
      simp only [countRefusals, hc, countRspLost]
      exact ⟨_, fun _ => rfl, fun c h => (by cases h), State.countHeld_spec ..⟩
    | some c =>
      simp only [countRefusals, hc, countRspLost]
      exact ⟨_, fun h => by (cases h), fun k h => by (cases h; exact State.countHeld_spec ..), State.countHeld_spec ..⟩

/-- The answer to a request (R155 to R157). -/
theorem Ev.answer_spec (s : State) (r : Request) (code : Code) (outputs : List (Nat × Word)) :
    Answered s (Ev.answer ⟨s, false, false⟩ r code outputs).s r code (replyWords r code outputs) := by
  unfold Answered Ev.answer
  by_cases h : r.quiet = true ∧ code = .ok
  · rw [if_pos h]; simp [h.1, h.2]
  · rw [if_neg h, if_neg]
    · exact Ev.respond_spec ..
    · intro e; simp only [Bool.and_eq_true, beq_iff_eq] at e; exact h e

end Sys2Proof.Machine
end

