-- ==== Sys2Proof/Laws/Links.lean ====
section
/-! SUPPORT. What transmission, flushes, schedule application and the leaving of UP leave. -/

namespace Sys2Proof.Machine

theorem upd_get {α : Type} {n : Nat} (v : Vector α n) (i j : Fin n) (x : α) : (upd v i x)[j] = if j = i then x else v[j] := by
  by_cases h : j = i
  · subst h; simp
  · rw [if_neg h, upd_other v i j x h]

/-! ### Transmission -/

/-- A cell sent (R4, R5). -/
theorem State.transmit_spec (s : State) (p : Link) (cell : Cell) (cls : Class) : Sent s (s.transmit p cell cls) p cell cls := by
  by_cases h : cellTypeOf (parseHeader cell.header).type = .idle ∨ cellTypeOf (parseHeader cell.header).type = .train
  · have e : s.transmit p cell cls = s.setTx p (some ⟨encodeHeader { parseHeader cell.header with
        seq := if cellTypeOf (parseHeader cell.header).type = .train then 0 else s.links[p].txSeq,
        hold := s.links[p].ownHold, cls := classBits cls }, cell.payload⟩) := if_pos h
    rw [e]
    refine ⟨rfl, fun q hq => ?_, ?_, fun q => ?_⟩
    · exact upd_other _ _ _ _ hq
    · exact upd_same _ _ _
    · exact (if_neg fun e => h.elim e.2.1 e.2.2).symm
  · have e : s.transmit p cell cls = (s.setTx p (some ⟨encodeHeader { parseHeader cell.header with
        seq := if cellTypeOf (parseHeader cell.header).type = .train then 0 else s.links[p].txSeq,
        hold := s.links[p].ownHold, cls := classBits cls }, cell.payload⟩)).modLink p
          fun l => { l with txSeq := l.txSeq + 1 } := if_neg h
    rw [e]
    refine ⟨rfl, fun q hq => ?_, ?_, fun q => ?_⟩
    · exact upd_other _ _ _ _ hq
    · exact upd_same _ _ _
    · rw [State.modLink_links, upd_get]
      by_cases hq : q = p
      · subst hq
        rw [if_pos rfl]
        exact (if_pos ⟨rfl, not_or.mp h⟩).symm
      · rw [if_neg hq]
        exact (if_neg fun e => hq e.1).symm

theorem State.sendHead_spec (s : State) (p : Link) (c : Class) (b : Nat) (rest : List Nat) (h : s.queue p c = b :: rest) :
    HeadSent s (s.sendHead p c) p c b rest := by
  have e : s.sendHead p c = (((s.removeHead p c).transmit p (s.buffer b).cell c).count p .txCells) := by
    unfold State.sendHead; rw [h]
  rw [e]
  exact ⟨_, _, s.removeHead_spec p c b rest h, State.transmit_spec _ _ _ _, State.count_spec _ _ _⟩

/-! ### Schedules -/

/-- The window of a port closed (R108). -/
theorem State.close_spec (s : State) (p : Link) : WindowClosed p s (s.modSched p Scheduler.close) := by
  refine ⟨rfl, fun q => ?_⟩
  rw [State.modSched_scheds, upd_get]
  by_cases hq : q = p
  · subst hq; rw [if_pos rfl, if_pos rfl]; rfl
  · rw [if_neg hq, if_neg hq]

/-- The staging schedule of a port applied (R107). -/
theorem State.applyStaging_spec (s : State) (p : Link) : StagingApplied p s (s.applyStaging p) := by
  refine ⟨s.modSched p fun x => { x.close with active := x.staging, pending := false }, ⟨rfl, fun q => ?_⟩, ?_⟩
  · rw [State.modSched_scheds, upd_get]
    by_cases hq : q = p
    · subst hq; rw [if_pos rfl, if_pos rfl]; rfl
    · rw [if_neg hq, if_neg hq]
  · have : ((s.modSched p fun x => { x.close with active := x.staging, pending := false }).scheds[p]).active.length =
        s.scheds[p].staging.length := by rw [State.modSched_scheds, upd_same]
    unfold State.applyStaging
    rw [← this]
    exact State.notify_spec _ _ _

/-! ### Lists of links -/

/-- An operation done on each port of a list, in order. -/
theorem forPorts_spec (f : State → Link → State) (R : Link → State → State → Prop) (h : ∀ p s, R p s (f s p)) (ps : List Link) :
    ∀ s, EachLink R ps s (forPorts f ps s) := by
  induction ps with
  | nil => intro s; rfl
  | cons p ps ih => intro s; exact ⟨_, h p s, ih _⟩

theorem countEach_spec (c : Counter) (ps : List Link) : ∀ s, EachLink (fun p s t => Counted s t p c) ps s (countEach c ps s) := by
  induction ps with
  | nil => intro s; rfl
  | cons p ps ih => intro s; exact ⟨_, s.count_spec p c, ih _⟩

/-! ### Flushes -/

theorem NoticeEffects.queue_down {s t : State} (h : NoticeEffects s t) (p : Link) (c : Class) (hp : s.isUp p = false) :
    t.queue p c = s.queue p c := by
  obtain ⟨l, hl, hc⟩ := h.queues p c
  rcases hc with rfl | ⟨_, hu, _⟩
  · rw [hl, List.append_nil]
  · rw [hp] at hu; cases hu

theorem Dequeued.isUp {s t : State} {p : Link} {c : Class} {b : Nat} {rest : List Nat} (h : Dequeued s t p c b rest) (q : Link) :
    t.isUp q = s.isUp q := by rw [h.frame]; rfl

theorem flushEntries_drained (p : Link) (c : Class) (n : Nat) : ∀ s : State, (s.queue p c).length = n → s.isUp p = false →
    Drained p c s (flushEntries p c n ⟨s, false, false⟩).s := by
  induction n with
  | zero => intro s h _; exact .done (List.length_eq_zero_iff.mp h)
  | succ n ih =>
    intro s h hu
    obtain ⟨b, rest, hq⟩ := List.exists_cons_of_length_eq_add_one h
    have hd := s.removeHead_spec p c b rest hq
    have hc := (s.removeHead p c).count_spec p .linkFlush
    have he := (s.removeHead p c).count_effects p .linkFlush
    have hu' : (s.removeHead p c).isUp p = false := by rw [hd.isUp]; exact hu
    have hr : ((s.removeHead p c).count p .linkFlush).queue p c = rest := by
      rw [he.queue_down p c hu', hd.queues, if_pos ⟨rfl, rfl⟩]
    refine .more hq hd hc (ih _ ?_ ?_)
    · rw [hr]; rw [hq] at h; simpa using h
    · rw [he.isUp]; exact hu'

/-- What a flush of one queue of a port that is not UP may change. -/
structure FlushEffects (p : Link) (c : Class) (s t : State) : Prop where
  frame      : t = { s with bm := t.bm, cmap := t.cmap, counters := t.counters, notices := t.notices }
  params     : t.bm.params = s.bm.params
  thresholds : t.cmap.thresholds = s.cmap.thresholds
  ports      : t.notices.ports = s.notices.ports
  empty      : t.queue p c = []
  others     : s.isUp p = false → ∀ k, k ≠ c → t.queue p k = s.queue p k

theorem FlushEffects.isUp {p : Link} {c : Class} {s t : State} (h : FlushEffects p c s t) (q : Link) : t.isUp q = s.isUp q := by
  rw [h.frame]; rfl

theorem Drained.effects {p : Link} {c : Class} {s t : State} (h : Drained p c s t) : FlushEffects p c s t := by
  induction h with
  | done h => exact ⟨rfl, rfl, rfl, rfl, h, fun _ _ _ => rfl⟩
  | more h removed counted more ih =>
    rename_i s m n t b rest
    have he := counted.effects
    refine ⟨by rw [ih.frame, he.frame, removed.frame], by rw [ih.params, he.params, removed.params],
      by rw [ih.thresholds, he.thresholds, removed.thresholds], by rw [ih.ports, he.ports, removed.frame], ih.empty, fun hu k hk => ?_⟩
    have hm : m.isUp p = false := by rw [removed.isUp]; exact hu
    rw [ih.others (by rw [he.isUp]; exact hm) k hk, he.queue_down p k hm, removed.queues, if_neg (fun e => hk e.2)]

/-- The four queues of a port that is not UP flushed (R89). -/
theorem Ev.flushPort_spec (s : State) (p : Link) (hu : s.isUp p = false) :
    PortFlushed p s ((Ev.flushPort ⟨s, false, false⟩ p).s) := by
  have hev : ∀ (c : Class) (n : Nat) (x : State), (flushEntries p c n ⟨x, false, false⟩) =
      ⟨(flushEntries p c n ⟨x, false, false⟩).s, false, false⟩ := by
    intro c n
    induction n with
    | zero => intro x; rfl
    | succ n ih => intro x; exact ih _
  have step : ∀ (c : Class) (x : State), x.isUp p = false →
      ∃ y, Ev.flushQueue ⟨x, false, false⟩ p c = ⟨y, false, false⟩ ∧ Drained p c x y ∧ y.isUp p = false := by
    intro c x hx
    have hd : Drained p c x (Ev.flushQueue ⟨x, false, false⟩ p c).s := flushEntries_drained p c _ x rfl hx
    exact ⟨_, hev c _ x, hd, (hd.effects.isUp p).trans hx⟩
  obtain ⟨x0, e0, d0, u0⟩ := step 0 s hu
  obtain ⟨x1, e1, d1, u1⟩ := step 1 x0 u0
  obtain ⟨x2, e2, d2, u2⟩ := step 2 x1 u1
  obtain ⟨x3, e3, d3, -⟩ := step 3 x2 u2
  refine ⟨x0, x1, x2, d0, d1, d2, ?_⟩
  have : Ev.flushPort ⟨s, false, false⟩ p = ⟨x3, false, false⟩ := by
    unfold Ev.flushPort
    rw [e0, e1, e2, e3]
  rw [this]
  exact d3

/-- What the flush of a port that is not UP may change, and that its queues are empty. -/
theorem PortFlushed.effects {p : Link} {s t : State} (h : PortFlushed p s t) (hu : s.isUp p = false) :
    t = { s with bm := t.bm, cmap := t.cmap, counters := t.counters, notices := t.notices } ∧
    t.bm.params = s.bm.params ∧ t.cmap.thresholds = s.cmap.thresholds ∧ t.notices.ports = s.notices.ports ∧
    ∀ c, t.queue p c = [] := by
  obtain ⟨a, b, c, h0, h1, h2, h3⟩ := h
  have e0 := h0.effects
  have e1 := h1.effects
  have e2 := h2.effects
  have e3 := h3.effects
  have u0 : a.isUp p = false := by rw [e0.isUp]; exact hu
  have u1 : b.isUp p = false := by rw [e1.isUp]; exact u0
  have u2 : c.isUp p = false := by rw [e2.isUp]; exact u1
  refine ⟨by rw [e3.frame, e2.frame, e1.frame, e0.frame], by rw [e3.params, e2.params, e1.params, e0.params],
    by rw [e3.thresholds, e2.thresholds, e1.thresholds, e0.thresholds], by rw [e3.ports, e2.ports, e1.ports, e0.ports], fun k => ?_⟩
  by_cases k3 : k = 3
  · subst k3; exact e3.empty
  rw [e3.others u2 k k3]
  by_cases k2 : k = 2
  · subst k2; exact e2.empty
  rw [e2.others u1 k k2]
  by_cases k1 : k = 1
  · subst k1; exact e1.empty
  rw [e1.others u0 k k1]
  have : k = 0 := by
    have := k.isLt
    have : k.val ≠ 1 := fun e => k1 (Fin.ext e)
    have : k.val ≠ 2 := fun e => k2 (Fin.ext e)
    have : k.val ≠ 3 := fun e => k3 (Fin.ext e)
    apply Fin.ext; show k.val = 0; omega
  subst this
  exact e0.empty

theorem countFlushes_spec (p : Link) (n : Nat) : ∀ s : State,
    CountedTimes p .linkFlush n s (countFlushes p n ⟨s, false, false⟩).s ∧
    countFlushes p n ⟨s, false, false⟩ = ⟨(countFlushes p n ⟨s, false, false⟩).s, false, false⟩ := by
  induction n with
  | zero => intro s; exact ⟨rfl, rfl⟩
  | succ n ih => intro s; exact ⟨⟨_, s.count_spec p .linkFlush, (ih _).1⟩, (ih _).2⟩

theorem CountedTimes.effects {p : Link} {c : Counter} (n : Nat) : ∀ {s t : State}, CountedTimes p c n s t → NoticeEffects s t := by
  induction n with
  | zero => intro s t h; cases h; exact .refl s
  | succ n ih => rintro s t ⟨m, h, g⟩; exact h.effects.trans (ih g)

/-! ### Leaving UP -/

theorem upLeft_eq (reason : DownReason) (disable : Bool) (l : LinkPort) :
    { portLeavesUp reason disable l with ownHold := false } = upLeft reason disable l := by
  cases disable <;> rfl

theorem upLeft_state (reason : DownReason) (disable : Bool) (l : LinkPort) : (upLeft reason disable l).state ≠ .up := by
  cases disable <;> simp [upLeft, disabledEntered, attemptBegun]

/-- A link leaves UP (R24 to R26). -/
theorem State.leaveUp_spec (s : State) (p : Link) (reason : DownReason) (disable : Bool) :
    LeftUp p reason disable s (s.leaveUp p reason disable) := by
  let a : State := ((s.modLink p (portLeavesUp reason disable)).modFifo p fun f => { f with entries := [] }).modLink p
    fun l => { l with ownHold := false }
  have ha : a = { s with links := a.links, fifos := a.fifos } := rfl
  have hal : ∀ q : Link, a.links[q] = if q = p then upLeft reason disable s.links[q] else s.links[q] := by
    intro q
    show (upd (upd s.links p _) p _)[q] = _
    rw [upd_get, upd_get]
    by_cases hq : q = p
    · subst hq
      rw [if_pos rfl, if_pos rfl]
      show { ((upd s.links q (portLeavesUp reason disable s.links[q]))[q]) with ownHold := false } = _
      rw [upd_same, upLeft_eq]
    · rw [if_neg hq, if_neg hq, if_neg hq]
  have haf : ∀ q : Link, a.fifos[q] = if q = p then { s.fifos[q] with entries := [] } else s.fifos[q] := by
    intro q
    show (upd s.fifos p _)[q] = _
    rw [upd_get]
    by_cases hq : q = p
    · subst hq; rw [if_pos rfl, if_pos rfl]; rfl
    · rw [if_neg hq, if_neg hq]
  have hau : a.isUp p = false := by
    unfold State.isUp
    rw [hal, if_pos rfl]
    simpa using upLeft_state reason disable s.links[p]
  obtain ⟨hc, hce⟩ := countFlushes_spec p s.fifos[p].entries.length a
  have hn : Ev.emptyFifo ⟨s.modLink p (portLeavesUp reason disable), false, false⟩ p =
      countFlushes p s.fifos[p].entries.length ⟨a, false, false⟩ := rfl
  have hbu : (countFlushes p s.fifos[p].entries.length ⟨a, false, false⟩).s.isUp p = false := by
    rw [(CountedTimes.effects _ hc).isUp]; exact hau
  have hf := Ev.flushPort_spec _ p hbu
  refine ⟨a, _, _, _, ⟨ha, hal, haf⟩, hc, hf, State.close_spec _ p, ?_⟩
  have he : s.leaveUp p reason disable = (State.modSched (Ev.flushPort ⟨(countFlushes p s.fifos[p].entries.length
      ⟨a, false, false⟩).s, false, false⟩ p).s p Scheduler.close).notify .linkState
      (linkStateDetail p (if disable then .disabled else .training) .up reason 0) := by
    unfold State.leaveUp
    simp only [hn]
    rw [← hce]
  rw [he]
  exact State.notify_spec _ _ _

end Sys2Proof.Machine
end

