-- ==== Sys2Proof/Laws/Egress.lean ====
section
/-! SUPPORT. What a pass over a schedule comes to, and what the parts of a served slot leave. -/

namespace Sys2Proof.Machine

/-! ### The pass (R102, R104, R107) -/

section pass
variable (ws : List Window) (busy : Vector Bool 4) (pending : Bool)

/-- Whether the queue of window i's class holds an entry. -/
abbrev busyAt (i : Nat) : Bool := busy[(windowAt ws i).cls]

theorem windowPass_hit (left w : Nat) (isOpen : Bool) (b : Nat) (h : busyAt ws busy w = true) :
    windowPass ws busy pending (left + 1) w isOpen b = .found w (if isOpen then b else (windowAt ws w).budget) := by
  simp only [windowPass, if_pos h]

theorem windowPass_last (w : Nat) (isOpen : Bool) (b : Nat) (h : busyAt ws busy w = false) :
    windowPass ws busy pending 1 w isOpen b = .idle := by
  simp [windowPass, h]

theorem windowPass_next (left w : Nat) (isOpen : Bool) (b : Nat) (h : busyAt ws busy w = false) (hw : w + 1 < ws.length) :
    windowPass ws busy pending (left + 2) w isOpen b = windowPass ws busy pending (left + 1) (w + 1) false 0 := by
  rw [windowPass.eq_def]
  simp [h, hw]

theorem windowPass_wrap (left w : Nat) (isOpen : Bool) (b : Nat) (h : busyAt ws busy w = false) (hw : ¬ w + 1 < ws.length) :
    windowPass ws busy pending (left + 2) w isOpen b =
      if pending then .wrapped else windowPass ws busy pending (left + 1) 0 false 0 := by
  rw [windowPass.eq_def]
  simp [h, hw]

/-- The window after window w, in cyclic order. -/
theorem cyclic_next {w len : Nat} (hw : w < len) (j : Nat) :
    (w + (j + 1)) % len = ((if w + 1 < len then w + 1 else 0) + j) % len := by
  split
  · congr 1; omega
  · have : w + (j + 1) = j + len := by omega
    rw [this, Nat.add_mod_right, Nat.zero_add]

/-- The first non-empty window of a pass that crosses no wrap with the pending flag set is found. -/
theorem windowPass_found (i : Nat) : ∀ (left w : Nat) (isOpen : Bool) (b : Nat), w < ws.length → i < left →
    (∀ j < i, busyAt ws busy ((w + j) % ws.length) = false) → busyAt ws busy ((w + i) % ws.length) = true →
    (pending = true → w + i < ws.length) →
    windowPass ws busy pending left w isOpen b =
      .found ((w + i) % ws.length) (if i = 0 ∧ isOpen = true then b else (windowAt ws ((w + i) % ws.length)).budget) := by
  induction i with
  | zero =>
    intro left w isOpen b hw hl _ hb _
    obtain ⟨left, rfl⟩ : ∃ k, left = k + 1 := ⟨left - 1, by omega⟩
    have h0 : (w + 0) % ws.length = w := Nat.mod_eq_of_lt hw
    rw [h0] at hb
    rw [h0, windowPass_hit _ _ _ _ _ _ _ hb]
    simp
  | succ i ih =>
    intro left w isOpen b hw hl hn hb hp
    obtain ⟨left, rfl⟩ : ∃ k, left = k + 2 := ⟨left - 2, by omega⟩
    have h0 : busyAt ws busy w = false := by simpa [Nat.mod_eq_of_lt hw] using hn 0 (by omega)
    have hc := cyclic_next hw
    by_cases hx : w + 1 < ws.length
    · rw [windowPass_next _ _ _ _ _ _ _ h0 hx]
      simp only [if_pos hx] at hc
      rw [hc] at hb ⊢
      rw [ih (left + 1) (w + 1) false 0 hx (by omega) (fun j hj => hc j ▸ hn (j + 1) (by omega)) hb (fun h => by have := hp h; omega)]
      simp
    · rw [windowPass_wrap _ _ _ _ _ _ _ h0 hx]
      have hpf : pending = false := by
        cases hq : pending with
        | false => rfl
        | true => have := hp hq; omega
      simp only [if_neg hx] at hc
      rw [hc] at hb ⊢
      rw [if_neg (by simp [hpf]), ih (left + 1) 0 false 0 (by omega) (by omega) (fun j hj => hc j ▸ hn (j + 1) (by omega)) hb
        (fun h => by simp [hpf] at h)]
      simp

/-- A pass that finds every window empty and crosses no wrap with the pending flag set is idle. -/
theorem windowPass_idle (left : Nat) : ∀ (w : Nat) (isOpen : Bool) (b : Nat), w < ws.length →
    (∀ i < ws.length, busyAt ws busy i = false) → (pending = true → w + left ≤ ws.length) →
    windowPass ws busy pending left w isOpen b = .idle := by
  induction left with
  | zero => intros; rfl
  | succ left ih =>
    intro w isOpen b hw hn hp
    have h0 := hn w hw
    obtain _ | left := left
    · exact windowPass_last _ _ _ _ _ _ h0
    · by_cases hx : w + 1 < ws.length
      · rw [windowPass_next _ _ _ _ _ _ _ h0 hx]
        exact ih (w + 1) false 0 hx hn (fun h => by have := hp h; omega)
      · rw [windowPass_wrap _ _ _ _ _ _ _ h0 hx]
        have hpf : pending = false := by
          cases hq : pending with
          | false => rfl
          | true => have := hp hq; omega
        rw [if_neg (by simp [hpf])]
        exact ih 0 false 0 (by omega) hn (fun h => by simp [hpf] at h)

/-- A pass that finds every window empty up to the last, with windows still to examine and the pending flag set, crosses the wrap. -/
theorem windowPass_wrapped (k : Nat) : ∀ (left w : Nat) (isOpen : Bool) (b : Nat), w + k + 1 = ws.length → k + 1 < left →
    (∀ i, w ≤ i → i < ws.length → busyAt ws busy i = false) → pending = true →
    windowPass ws busy pending left w isOpen b = .wrapped := by
  induction k with
  | zero =>
    intro left w isOpen b hk hl hn hp
    obtain ⟨left, rfl⟩ : ∃ k, left = k + 2 := ⟨left - 2, by omega⟩
    rw [windowPass_wrap _ _ _ _ _ _ _ (hn w (le_refl w) (by omega)) (by omega), if_pos hp]
  | succ k ih =>
    intro left w isOpen b hk hl hn hp
    obtain ⟨left, rfl⟩ : ∃ k, left = k + 2 := ⟨left - 2, by omega⟩
    rw [windowPass_next _ _ _ _ _ _ _ (hn w (le_refl w) (by omega)) (by omega)]
    exact ih (left + 1) (w + 1) false 0 (by omega) (by omega) (fun i hi => hn i (by omega)) hp

end pass

/-! ### Parts of a served slot -/

theorem SchedulerBecomes.of_mod (s : State) (p : Link) (f : Scheduler → Scheduler) :
    SchedulerBecomes p (f s.scheds[p]) s (s.modSched p f) := by
  refine ⟨rfl, fun q => ?_⟩
  rw [State.modSched_scheds, upd_get]

/-- A window that has used one unit of a budget of at least 1. -/
theorem State.spendBudget_spec (s : State) (p : Link) (w b : Nat) (hb : 1 ≤ b) : BudgetUsed p w b s (s.spendBudget p w b) := by
  unfold BudgetUsed
  by_cases h1 : b = 1
  · have e : s.spendBudget p w b = s.advanceWindow p w := if_pos (by omega)
    rw [if_neg (by omega), e]
    by_cases hw : w + 1 < s.scheds[p].active.length
    · have e : s.advanceWindow p w = s.modSched p fun x => { x with w := w + 1, isOpen := false, budget := 0 } := if_pos hw
      rw [if_pos hw, e]
      exact SchedulerBecomes.of_mod s p _
    · have e : s.advanceWindow p w = if s.scheds[p].pending then (s.modSched p Scheduler.close).applyStaging p
          else s.modSched p Scheduler.close := if_neg hw
      rw [if_neg hw, e]
      refine ⟨s.modSched p Scheduler.close, SchedulerBecomes.of_mod s p _, ?_⟩
      by_cases hp : s.scheds[p].pending = true
      · rw [if_pos hp, if_pos hp]; exact State.applyStaging_spec _ p
      · rw [if_neg hp, if_neg hp]
  · have e : s.spendBudget p w b = s.modSched p fun x => { x with w := w, isOpen := true, budget := b - 1 } := if_neg (by omega)
    rw [if_pos h1, e]
    exact SchedulerBecomes.of_mod s p _

theorem Dequeued.scheds {s t : State} {p : Link} {c : Class} {b : Nat} {rest : List Nat} (h : Dequeued s t p c b rest) :
    t.scheds = s.scheds := by rw [h.frame]

theorem HeadSent.scheds {s t : State} {p : Link} {c : Class} {b : Nat} {rest : List Nat} (h : HeadSent s t p c b rest) :
    t.scheds = s.scheds := by
  obtain ⟨m, n, h1, h2, h3⟩ := h
  rw [h3.effects.frame, ← h1.scheds]
  show n.scheds = m.scheds
  rw [h2.frame]

/-- An idle slot (R104). -/
theorem State.idleSlot_spec (s : State) (p : Link) : IdleSlot p s (s.idleSlot p) := by
  have ht : Sent s (s.sendIdle p) p idleCell 0 := State.transmit_spec ..
  have hs : (s.sendIdle p).scheds = s.scheds := by rw [ht.frame]
  have hb : SchedulerBecomes p { (s.sendIdle p).scheds[p] with isOpen := false, budget := 0 } (s.sendIdle p)
      ((s.sendIdle p).modSched p fun x => { x with isOpen := false, budget := 0 }) := SchedulerBecomes.of_mod _ p _
  have hp : ((s.sendIdle p).modSched p fun x => { x with isOpen := false, budget := 0 }).scheds[p].pending = s.scheds[p].pending := by
    rw [hb.2, if_pos rfl, hs]
  refine ⟨_, _, ht, hb, ?_⟩
  unfold State.idleSlot
  simp only [hp]
  by_cases h : s.scheds[p].pending = true
  · rw [if_pos h, if_pos h]; exact State.applyStaging_spec _ p
  · rw [if_neg h, if_neg h]

theorem windowAt_some {ws : List Window} {w : Nat} {win : Window} (h : ws[w]? = some win) : windowAt ws w = win := by
  unfold windowAt; rw [List.getD_eq_getElem?_getD, h]; rfl

theorem window_exists {ws : List Window} {w : Nat} (h : w < ws.length) : ws[w]? = some (windowAt ws w) := by
  unfold windowAt; rw [List.getD_eq_getElem?_getD, List.getElem?_eq_getElem h]; rfl

/-- A window of a scheduler in order whose budget is limited has at least 1 of it, open or not. -/
theorem SchedulerWf.budget {up : Bool} {x : Scheduler} (h : SchedulerWf up x) {i : Nat} {win : Window} (hi : x.active[i]? = some win)
    (hm : win.mode ≠ .drain) : 1 ≤ win.budget := by
  have ha := h.active
  unfold scheduleWf at ha
  simp only [Bool.and_eq_true, List.all_eq_true] at ha
  have hw := ha.1.2 win (List.mem_of_getElem? hi)
  unfold windowWf at hw
  simp only [Bool.and_eq_true, Bool.or_eq_true, decide_eq_true_eq, beq_iff_eq] at hw
  have := hw.2.resolve_left hm
  omega

/-- A served slot that finds window w non-empty with budget b (R101, R103). -/
theorem State.foundSlot_spec (s : State) (p : Link) (w b : Nat) (win : Window) (x : Nat) (rest : List Nat)
    (hw : s.scheds[p].active[w]? = some win) (hq : s.queue p win.cls = x :: rest) (hb : win.mode ≠ .drain → 1 ≤ b) :
    WindowServed p w b s (s.foundSlot p w b) := by
  have hs := s.sendHead_spec p win.cls x rest hq
  refine ⟨win, x, rest, s.sendHead p win.cls, hw, hq, hs, ?_⟩
  unfold State.foundSlot
  simp only [windowAt_some hw]
  cases hm : win.mode with
  | drain => simp only [if_true]; exact SchedulerBecomes.of_mod _ p _
  | limited => simp only [reduceCtorEq, if_false]; exact State.spendBudget_spec _ p w b (hb (by simp [hm]))
  | fixed => simp only [reduceCtorEq, if_false]; exact State.spendBudget_spec _ p w b (hb (by simp [hm]))

/-- A served slot of a fixed schedule (R105). -/
theorem State.fixedSlot_spec (s : State) (p : Link) (win : Window) (hw : s.scheds[p].active[s.scheds[p].w]? = some win)
    (hb : 1 ≤ (if s.scheds[p].isOpen = true then s.scheds[p].budget else win.budget)) : FixedSlot p s (s.fixedSlot p) := by
  refine ⟨win, if (s.queue p win.cls).isEmpty then s.sendIdle p else s.sendHead p win.cls, hw, fun h => ?_, fun x rest h => ?_, ?_⟩
  · rw [h]; exact State.transmit_spec s p idleCell 0
  · rw [h]; exact s.sendHead_spec p win.cls x rest h
  · unfold State.fixedSlot
    simp only [windowAt_some hw]
    exact State.spendBudget_spec _ p _ _ hb

end Sys2Proof.Machine
end

