-- ==== Sys2Proof/Laws/Empty.lean ====
section
/-! SUPPORT. An element whose Buffer Manager stands as after the release of RESET meets its invariant. -/

namespace Sys2Proof.Machine

theorem powerOn_queue (s : State) (h : s.bm = powerOnBuffers) (p : Link) (c : Class) : s.queue p c = [] := by
  unfold State.queue
  rw [h]
  simp [powerOnBuffers]

theorem powerOn_buffer (s : State) (h : s.bm = powerOnBuffers) (b : Nat) : s.buffer b = ⟨zeroCell, 0⟩ := by
  unfold State.buffer
  rw [h]
  rfl

theorem powerOn_sums (s : State) (h : s.bm = powerOnBuffers) : s.queuedTotal = 0 ∧ sharedUse s s.bm.params = 0 := by
  have hq := powerOn_queue s h
  constructor
  · unfold State.queuedTotal
    simp [hq]
  · unfold sharedUse
    simp [hq]

theorem powerOn_params : ∀ c : Class, paramsWf powerOnBuffers.params[c] = true := by decide

theorem powerOn_thresholds : ∀ c : Class, thresholdsWf powerOnMap.thresholds[c] = true := by decide

/-- The Buffer Manager of the release of RESET (R91) is in order. -/
theorem BuffersWf.powerOn (s : State) (h : s.bm = powerOnBuffers) : BuffersWf s where
  form := by
    have hb : s.bm.buffers = [] := congrArg BufferManager.buffers h
    rw [hb]
    exact ⟨rfl, rfl⟩
  free := by
    have hf : s.bm.free = List.range Config.bufferCount := by simp only [h, powerOnBuffers]
    simp only [hf, List.nodup_range]
  listed b := by
    have hf : s.bm.free = List.range Config.bufferCount := by simp only [h, powerOnBuffers]
    simp only [powerOn_buffer s h, hf, List.mem_range, and_true]
  unused b _ := powerOn_buffer s h b
  refs b := by
    rw [powerOn_buffer s h]
    unfold namingQueues
    simp [powerOn_queue s h]
  distinct p c := by rw [powerOn_queue s h]; exact List.nodup_nil
  oneClass b p q c k hb := by rw [powerOn_queue s h] at hb; simp at hb
  pool := by
    have hp : s.bm.pool = Config.bufferCount := congrArg BufferManager.pool h
    simp only [(powerOn_sums s h).1, hp, Nat.add_zero]
  shared := (congrArg BufferManager.shared h).trans (powerOn_sums s h).2.symm
  fits := by
    have hu : s.bm.shared = 0 := congrArg BufferManager.shared h
    have hr : s.bm.params = powerOnBuffers.params := congrArg BufferManager.params h
    simp only [hu, hr]
    decide
  params c := by
    have hr : s.bm.params = powerOnBuffers.params := congrArg BufferManager.params h
    simp only [hr]
    exact powerOn_params c
  down p c _ := powerOn_queue s h p c

/-- The Congestion Map of the release of RESET (R115) is in order beside empty queues. -/
theorem MapWf.powerOn (s : State) (h : s.bm = powerOnBuffers) (hm : s.cmap = powerOnMap) : MapWf s where
  thresholds c := by rw [hm]; exact powerOn_thresholds c
  held p c hx := by
    rw [powerOn_queue s h, hm] at hx
    exact absurd hx (by fin_cases c <;> decide)
  flowing p c _ := by rw [hm]; simp [powerOnMap]

end Sys2Proof.Machine
end

