-- ==== Sys2Proof/Laws/PerInstr.lean ====
section
/-! SUPPORT. The request directory, command by command: a command that executes a numbered request has its need in the directory,
a number in the range 1 to 24, and so is no number of UNKNOWN_REQUEST (R153, 09 section 9.8). -/

namespace Sys2Proof.Laws.RequestDirectory

open Sys2Proof.Machine

/-- The request number of a command, where it has one, is defined: 1 to 24, with a need of at most 24 words. -/
def Statement (i : Instr) : Prop :=
  ∀ n, i.requestNumber = some n → 1 ≤ n ∧ n ≤ 24 ∧ unknownNumber n = false ∧ ∃ need, requestNeed n = some need ∧ need ≤ 24

theorem of_number {i : Instr} (k need : Nat) (h : i.requestNumber = some k) (hk : 1 ≤ k ∧ k ≤ 24) (hn : requestNeed k = some need)
    (hw : need ≤ 24) : Statement i := by
  intro n e
  rw [h] at e
  cases e
  exact ⟨hk.1, hk.2, by unfold unknownNumber; rw [hn]; rfl, need, hn, hw⟩

theorem of_none {i : Instr} (h : i.requestNumber = none) : Statement i := by
  intro n e
  rw [h] at e
  cases e

theorem resetAssert : Statement .resetAssert := of_none rfl

theorem resetRelease (straps : Byte) : Statement (.resetRelease straps) := of_none rfl

theorem receiveSlot (p : Link) (arrival : Option Cell) : Statement (.receiveSlot p arrival) := of_none rfl

theorem attemptTimerExpiry (p : Link) : Statement (.attemptTimerExpiry p) := of_none rfl

theorem holdoffTimerExpiry (p : Link) : Statement (.holdoffTimerExpiry p) := of_none rfl

theorem forwardingEvent : Statement .forwardingEvent := of_none rfl

theorem egressSlot (p : Link) : Statement (.egressSlot p) := of_none rfl

theorem mirrorCopyStep : Statement .mirrorCopyStep := of_none rfl

theorem unknownRequest : Statement .unknownRequest := of_none rfl

theorem identify : Statement .identify := of_number 1 0 rfl (by decide) rfl (by decide)

theorem writeRoute : Statement .writeRoute := of_number 2 23 rfl (by decide) rfl (by decide)

theorem readRoute : Statement .readRoute := of_number 3 2 rfl (by decide) rfl (by decide)

theorem writeGroup : Statement .writeGroup := of_number 4 23 rfl (by decide) rfl (by decide)

theorem readGroup : Statement .readGroup := of_number 5 2 rfl (by decide) rfl (by decide)

theorem commitRouting : Statement .commitRouting := of_number 6 2 rfl (by decide) rfl (by decide)

theorem cancelCommit : Statement .cancelCommit := of_number 7 0 rfl (by decide) rfl (by decide)

theorem epochMark : Statement .epochMark := of_number 8 1 rfl (by decide) rfl (by decide)

theorem readTableState : Statement .readTableState := of_number 9 0 rfl (by decide) rfl (by decide)

theorem writeSchedule : Statement .writeSchedule := of_number 10 9 rfl (by decide) rfl (by decide)

theorem applySchedule : Statement .applySchedule := of_number 11 2 rfl (by decide) rfl (by decide)

theorem readSchedule : Statement .readSchedule := of_number 12 1 rfl (by decide) rfl (by decide)

theorem setAdmission : Statement .setAdmission := of_number 13 4 rfl (by decide) rfl (by decide)

theorem setFlow : Statement .setFlow := of_number 14 3 rfl (by decide) rfl (by decide)

theorem setStatusTiming : Statement .setStatusTiming := of_number 15 2 rfl (by decide) rfl (by decide)

theorem readBufferState : Statement .readBufferState := of_number 16 1 rfl (by decide) rfl (by decide)

theorem linkControl : Statement .linkControl := of_number 17 4 rfl (by decide) rfl (by decide)

theorem readLinkStatus : Statement .readLinkStatus := of_number 18 1 rfl (by decide) rfl (by decide)

theorem clearLinkStatus : Statement .clearLinkStatus := of_number 19 3 rfl (by decide) rfl (by decide)

theorem readCounters : Statement .readCounters := of_number 20 2 rfl (by decide) rfl (by decide)

theorem clearCarry : Statement .clearCarry := of_number 21 3 rfl (by decide) rfl (by decide)

theorem setNotice : Statement .setNotice := of_number 22 4 rfl (by decide) rfl (by decide)

theorem setElementAddress : Statement .setElementAddress := of_number 23 2 rfl (by decide) rfl (by decide)

theorem datapathReset : Statement .datapathReset := of_number 24 0 rfl (by decide) rfl (by decide)

end Sys2Proof.Laws.RequestDirectory
end

