-- ==== Sys2Proof/Laws/Requests.lean ====
section
/-! SUPPORT. What the execution of a request at the head of the SRQ comes to, by what its own chapter makes of it. -/

namespace Sys2Proof.Machine

theorem Accepted.srq {s : State} {r : Request} {n need : Nat} (h : Accepted s r n need) : s.sru.srq = r :: s.sru.srq.tail := by
  have := h.head
  cases e : s.sru.srq with
  | nil => simp [e] at this
  | cons a t => simp [e] at this; simp [this]

theorem Accepted.passes {s : State} {r : Request} {n need : Nat} (h : Accepted s r n need) (hn : requestNeed n = some need) :
    genericFailure r = none := by
  have h1 := h.enough; have h2 := h.fits; have h3 := h.length
  unfold genericFailure
  rw [h.number, hn]
  simp only
  rw [if_neg (by omega), if_neg (by omega), if_neg (by omega)]

theorem Accepted.headFor {s : State} {r : Request} {n need : Nat} (h : Accepted s r n need) (mine : Nat → Bool) (hm : mine n = true) :
    s.headFor mine = some r := by
  unfold State.headFor
  rw [h.running, h.srq]
  simp [h.number, hm]

theorem Accepted.serve_refused {s : State} {r : Request} {n need : Nat} (h : Accepted s r n need) (hn : requestNeed n = some need)
    (mine : Nat → Bool) (hm : mine n = true) (body : Request → State → Reply) (c : Code) (hb : body r (taken s) = .refuse c) :
    Answered (taken s) (s.serve mine body) r c (replyWords r c []) := by
  unfold State.serve
  rw [h.headFor mine hm]
  simp only [State.execute, h.passes hn]
  rw [show s.popRequest = taken s from rfl, hb]
  exact Ev.answer_spec ..

theorem Accepted.serve_done {s : State} {r : Request} {n need : Nat} (h : Accepted s r n need) (hn : requestNeed n = some need)
    (mine : Nat → Bool) (hm : mine n = true) (body : Request → State → Reply) (s1 : State) (outputs : List (Nat × Word))
    (hb : body r (taken s) = .done s1 outputs) : Answered s1 (s.serve mine body) r .ok (okWords r outputs) := by
  unfold State.serve
  rw [h.headFor mine hm]
  simp only [State.execute, h.passes hn]
  rw [show s.popRequest = taken s from rfl, hb]
  exact Ev.answer_spec ..

theorem serve_failed {s : State} {r : Request} (hr : s.resetAsserted = false) (hh : s.sru.srq.head? = some r) (mine : Nat → Bool)
    (hm : mine r.number.toNat = true) (body : Request → State → Reply) (c : Code) (hg : genericFailure r = some c) :
    Answered (taken s) (s.serve mine body) r c (replyWords r c []) := by
  cases e : s.sru.srq with
  | nil => simp [e] at hh
  | cons a t =>
    simp [e] at hh
    subst hh
    have : s.headFor mine = some a := by unfold State.headFor; rw [hr, e]; simp [hm]
    unfold State.serve
    rw [this]
    simp only [State.execute, hg]
    exact Ev.answer_spec ..

/-- A command whose request is not at the head of the SRQ changes nothing. -/
theorem serve_idle {s : State} (mine : Nat → Bool) (body : Request → State → Reply) (h : s.headFor mine = none) :
    s.serve mine body = s := by
  unfold State.serve; rw [h]

theorem linkOf_val {b : Byte} {p : Link} (h : p.val = b.toNat) : linkOf b = some p := by
  unfold linkOf
  rw [dif_pos (by have := p.isLt; omega)]
  exact congrArg some (Fin.ext h.symm)

theorem linkOf_none {b : Byte} (h : 24 ≤ b.toNat) : linkOf b = none := by
  unfold linkOf; rw [dif_neg (by omega)]

theorem classOfByte_val {b : Byte} {c : Class} (h : c.val = b.toNat) : classOfByte b = some c := by
  unfold classOfByte
  rw [dif_pos (by have := c.isLt; omega)]
  exact congrArg some (Fin.ext h.symm)

theorem classOfByte_none {b : Byte} (h : 4 ≤ b.toNat) : classOfByte b = none := by
  unfold classOfByte; rw [dif_neg (by omega)]

end Sys2Proof.Machine
end

