-- ==== Sys2Proof/Tests/Slice0.lean ====
section
/-! SUPPORT. Tests: expected values are the spec's examples and worked sequences, or taken by hand from its rules. -/

namespace Sys2Proof.Tests

-- one theorem at a time: the evaluations of many at once would hold too many threads
set_option Elab.async false

open Sys2Proof.Machine Sys2Proof.Claims

/-! ### Small states and what is seen of them -/

/-- The state that a command leaves. -/
def after (c : Instr) (s : State) : State :=
  match exec c s with
  | .next t => t
  | .fault _ => s
  | .refused _ => s

/-- A link in UP. -/
def upPort : LinkPort := { powerOnLink with state := .up, attemptTimer := ⟨500, false⟩ }

/-- Links 0, 3, 7, 9, 12 and 20 in UP, element ID 16, and a free list of six buffers, short so that it is quick to evaluate. -/
def bench : State :=
  { State.powerOn 16 false [] 0 with
    links := (upd (upd (upd (upd (upd (upd (Vector.replicate 24 powerOnLink) 0 upPort) 3 upPort) 7 upPort) 9 upPort) 12 upPort) 20 upPort),
    bm := { powerOnBuffers with free := [0, 1, 2, 3, 4, 5] } }

def cellOf (t : CellType) (fdi : BitVec 12) (cls : BitVec 2) (seq : Byte) (length : BitVec 6) (bytes : List Byte) : Cell :=
  ⟨encodeHeader { builtHeader t 0 0 with fdi := fdi, cls := cls, seq := seq, length := length }, payloadOf bytes⟩

def dataCell (fdi : BitVec 12) (cls : BitVec 2) : Cell := cellOf .data fdi cls 0 3 [1, 2, 3]

/-- A TRAIN cell whose header check is wrong. -/
def badCell : Cell := ⟨upd trainCell.header 7 0, trainCell.payload⟩

/-- A DATA cell with a payload length of 57. -/
def longCell : Cell := cellOf .data 0 0 0 57 []

/-- A request from link 0 as queued, with the given words. -/
def request (n : Byte) (ws : List Word) : Request :=
  ⟨0, n, 0x5A, false, ws.length, 4 + 2 * ws.length, Vector.ofFn fun i => ws.getD i.val 0⟩

/-- Words padded with zeros to the need of a table write. -/
def padded (ws : List Word) : List Word := ws ++ List.replicate (23 - ws.length) 0

def asked (s : State) (n : Byte) (ws : List Word) : State := { s with sru := { s.sru with srq := [request n ws] } }

/-- The payload of the cell at the head of (0, C0). -/
def reply (t : State) : List Byte :=
  match t.queue 0 0 with
  | [] => []
  | b :: _ => (t.buffer b).cell.payload.toList

/-- Completion code and words of the response at the head of (0, C0), as many as are asked for. -/
def replied (t : State) (n : Nat) : Byte × List Word :=
  ((reply t).getD 2 0, (List.range n).map fun i => mkWord ((reply t).getD (4 + 2 * i) 0) ((reply t).getD (5 + 2 * i) 0))

/-- A link's FIFO holding the given cells. -/
def waiting (s : State) (p : Link) (cs : List Cell) : State :=
  s.modFifo p fun f => { f with entries := cs.map fun c => ⟨c, false, false⟩ }

/-- The routes and groups of chapter 4's worked cases in the active bank. -/
def routed : State :=
  { bench with tables := { bench.tables with bankA :=
      { routes := [(7, ⟨.discard, false, false, 0, 0, 0, 0⟩), (100, ⟨.unicast, true, true, 5, 9, 1, 0⟩),
          (101, ⟨.unicast, true, true, 7, 9, 3, 0⟩), (102, ⟨.unicast, false, true, 5, 9, 1, 0⟩),
          (103, ⟨.unicast, false, false, 7, 9, 3, 0⟩), (200, ⟨.multicast, false, false, 0, 0, 0, 37⟩),
          (201, ⟨.multicast, false, false, 0, 0, 0, 38⟩)],
        groups := [(37, ⟨0x101088, false⟩)] } } }

/-- Link p's queues hold the given buffer numbers in class c. -/
def queued (s : State) (p : Link) (c : Sys2Proof.Class) (q : List Nat) : State :=
  let s1 := s.setQueue p c q
  { s1 with bm := { s1.bm with buffers := q.foldl (fun t b => tableSet ⟨zeroCell, 0⟩ t b ⟨dataCell 100 2, 1⟩) s1.bm.buffers,
                               pool := s1.bm.pool - q.length } }

/-! ### Well-formedness: each check refuses an ill-formed term -/

theorem test_wellformed_refuses_unordered_table : tableWf (0 : Nat) [(3, 1), (2, 1)] = false := by decide
theorem test_wellformed_refuses_listed_default : tableWf (0 : Nat) [(3, 0)] = false := by decide
theorem test_wellformed_refuses_index_out_of_table : tableBelow 4096 [(4096, 1)] = false := by decide
theorem test_wellformed_refuses_budget_of_256 : windowWf ⟨0, .limited, 256⟩ = false := by decide
theorem test_wellformed_refuses_limited_zero : windowWf ⟨0, .limited, 0⟩ = false ∧ windowWf ⟨0, .drain, 0⟩ = true := by decide
theorem test_wellformed_refuses_empty_schedule : scheduleWf [] = false := by decide
theorem test_wellformed_refuses_nine_windows : scheduleWf (List.replicate 9 ⟨0, .drain, 0⟩) = false := by decide +kernel
theorem test_wellformed_refuses_fixed_beside_drain : scheduleWf [⟨0, .fixed, 1⟩, ⟨1, .drain, 0⟩] = false := by decide
theorem test_wellformed_takes_the_default_schedule : scheduleWf defaultSchedule = true := by decide
theorem test_wellformed_refuses_params :
    paramsWf ⟨256, 1, 0⟩ = false ∧ paramsWf ⟨0, 0, 0⟩ = false ∧ paramsWf ⟨0, 12289, 0⟩ = false ∧ paramsWf ⟨0, 1, 8⟩ = false := by decide
theorem test_wellformed_refuses_thresholds :
    thresholdsWf ⟨1, 0⟩ = false ∧ thresholdsWf ⟨12289, 0⟩ = false ∧ thresholdsWf ⟨2, 2⟩ = false := by decide
theorem test_wellformed_refuses_timing :
    timingWf ⟨1, 256⟩ = false ∧ timingWf ⟨65, 256⟩ = false ∧ timingWf ⟨2, 255⟩ = false ∧ timingWf ⟨2, 65536⟩ = false := by decide

/-! ### Layouts (chapter 1) -/

/-- 01, 1.3.1: the two header check examples. -/
theorem test_header_check_examples : crc8 [0xC0, 0, 0, 0, 0, 0, 0] = 0xCF ∧ crc8 [0x20, 0, 0, 0, 0, 0, 0] = 0xA1 := by decide +kernel

/-- 01, R11: the encoded route entries. -/
theorem test_route_words_examples :
    routeWords ⟨.unicast, true, true, 5, 9, 1, 0⟩ = [0x7000, 0x0509, 0x4000] ∧
    routeOfWords 0x8000 0x0000 0x0025 = some ⟨.multicast, false, false, 0, 0, 0, 37⟩ ∧
    routeOfWords 0xC000 0 0 = some ⟨.discard, false, false, 0, 0, 0, 0⟩ ∧ routeOfWords 0x4000 0x1800 0 = none := by decide

/-- 01, R12: the group of ports 3, 7, 12 and 20, and the default schedule's words. -/
theorem test_group_and_window_words_examples :
    portList (groupOfWords 0x1088 0x0010 0).members = [3, 7, 12, 20] ∧
    defaultSchedule.map windowWord = [0x1000, 0x4020, 0x8010, 0xC008] ∧ windowOfWord 0x3001 = none := by decide +kernel

/-- 01, R9: queue (5, C2) is bit 1 of payload byte 5. -/
theorem test_status_bit_example :
    (statusCell 16 { powerOnMap with held := upd powerOnMap.held 5 #v[false, false, true, false] } 0).payload[5] = 0x02 := by
  decide +kernel

/-! ### Pins, receive slots, timers -/

/-- R177: a strap value of 255 is taken as 254, and kept. -/
theorem test_reset_release_strap_255 :
    (after (.resetRelease 255) bench).sru = ⟨254, 0, true, 255, []⟩ ∧ (after (.resetRelease 16) bench).isUp 3 = false := by decide +kernel

theorem test_reset_assert_abandons_work :
    (after .resetAssert (asked (waiting bench 3 [dataCell 100 2]) 1 [])).sru.srq = [] ∧
    ((after .resetAssert (waiting bench 3 [dataCell 100 2])).fifos[(3 : Link)]).entries = [] ∧
    (after .resetAssert bench).resetAsserted = true := by decide +kernel

/-- R15, R16: run 31 becomes 32 with the acknowledged flag. -/
theorem test_receive_training_acknowledges :
    ((after (.receiveSlot 1 (some trainCell)) (bench.modLink 1 fun l => { l with run := 31 })).links[(1 : Link)]).acknowledged = true := by
  decide +kernel

/-- 03, 3.9 and R41: a fifth cell replaces the newest, is marked OVERRUN, and the older three stay. -/
theorem test_receive_overrun :
    let t := after (.receiveSlot 3 (some (dataCell 9 0))) (waiting bench 3 [dataCell 1 0, dataCell 2 0, dataCell 3 0, dataCell 4 0])
    t.fifos[(3 : Link)].entries.map (fun e => ((parseHeader e.cell.header).fdi, e.overrun)) = [(1, false), (2, false), (3, false), (9, true)] ∧
    t.counter 3 Counter.overrun.index = 1 := by decide +kernel

/-- R18, R19: the fifteenth attempt ends in FAILED with the default limit. -/
theorem test_attempt_expiry_fails_at_the_limit :
    let t := after (.attemptTimerExpiry 1) (bench.modLink 1 fun l => { l with attempts := 14 })
    t.links[(1 : Link)].state = .failed ∧ t.links[(1 : Link)].attempts = 15 ∧ t.links[(1 : Link)].attemptTimer = ⟨2000, false⟩ := by
  decide +kernel

theorem test_holdoff_expiry_begins_the_next_attempt :
    let t := after (.holdoffTimerExpiry 1) (bench.modLink 1 fun l => { l with state := .holdoff, attempts := 3, holdoffTimer := ⟨70, true⟩ })
    t.links[(1 : Link)] = { powerOnLink with attempts := 3 } := by decide +kernel

/-! ### Forwarding, egress and copy steps -/

/-- 04, 4.8: FDI 100 with port 5 not UP goes to port 9 in class C1, counted FAILOVER at 9. -/
theorem test_forwarding_failover :
    let t := after .forwardingEvent (waiting routed 12 [dataCell 100 2])
    t.queue 9 1 = [0] ∧ t.counter 9 Counter.failover.index = 1 ∧ (t.buffer 0).cell = dataCell 100 2 ∧ t.arbiter = 12 := by decide +kernel

/-- 04, 4.8 and 11.4: FDI 200 from port 20 goes to 3, 7 and 12 in the cell's class, one buffer with three references. -/
theorem test_forwarding_multicast :
    let t := after .forwardingEvent (waiting routed 20 [dataCell 200 3])
    t.queue 3 3 = [0] ∧ t.queue 7 3 = [0] ∧ t.queue 12 3 = [0] ∧ t.queue 20 3 = [] ∧ (t.buffer 0).refs = 3 ∧ t.bm.free = [1, 2, 3, 4, 5] := by
  decide +kernel

/-- R5, R101: the queued cell leaves in its queue's class with the link's own sequence and a right check. -/
theorem test_egress_sends_the_head :
    let t := after (.egressSlot 9) (queued bench 9 1 [6])
    t.tx[(9 : Link)].map (fun c => ((parseHeader c.header).cls, (parseHeader c.header).fdi, (parseHeader c.header).seq)) = some (1, 100, 0) ∧
    t.queue 9 1 = [] ∧ t.bm.free = [0, 1, 2, 3, 4, 5, 6] ∧ t.links[(9 : Link)].txSeq = 1 ∧ t.scheds[(9 : Link)].budget = 31 := by
  decide +kernel

/-- 11.2: the first status cell leaves in the eighth egress slot: version 0, SF 11,424. -/
theorem test_egress_first_status_cell :
    let t := after (.egressSlot 3) (bench.modSender 3 fun _ => ⟨none, 7, 7⟩)
    (t.tx[(3 : Link)].map fun c => (c.header[0], c.payload[2], c.payload[15], c.payload[16])) = some (0x80, 16, 0x2C, 0xA0) ∧
    t.senders[(3 : Link)] = ⟨some 0, 0, 0⟩ := by decide +kernel

/-- R141: the last copy step copies group entry 1,023 and ends the mirroring. -/
theorem test_mirror_last_step :
    let t := after .mirrorCopyStep { bench with tables := ⟨⟨[], [(1023, ⟨8, true⟩)]⟩, ⟨[], []⟩, .a, .mirroring 5119, 4⟩ }
    t.tables = ⟨⟨[], [(1023, ⟨8, true⟩)]⟩, ⟨[], [(1023, ⟨8, true⟩)]⟩, .a, .idle, 4⟩ := by decide +kernel

/-! ### Requests -/

theorem test_unknown_request : replied (after .unknownRequest (asked bench 25 [])) 0 = (1, []) := by decide +kernel

/-- 11.2: IDENTIFY's response. -/
theorem test_identify :
    (reply (after .identify (asked { bench with sru := ⟨16, 0, true, 16, []⟩ } 1 []))).take 16 =
      [1, 0x5A, 0, 6, 0x0A, 0x31, 0x0F, 0x24, 3, 16, 16, 0, 1, 0, 0, 0] := by decide +kernel

/-- 11.2: WRITE_ROUTE of FDI 100 into staging bank B. -/
theorem test_write_route :
    (after .writeRoute (asked bench 2 (padded [100, 1, 0x7000, 0x0709, 0x4000]))).tables.bankB.routes =
      [(100, ⟨.unicast, true, true, 7, 9, 1, 0⟩)] := by decide +kernel

/-- R131: an alternate equal to the primary is refused with BAD_PARAM. -/
theorem test_write_route_refused :
    replied (after .writeRoute (asked bench 2 (padded [100, 1, 0x6000, 0x0707]))) 2 = (3, [100, 1]) := by decide +kernel

theorem test_read_route :
    replied (after .readRoute (asked routed 3 [100, 1])) 5 = (0, [100, 1, 0x7000, 0x0509, 0x4000]) := by decide +kernel

theorem test_write_group :
    (after .writeGroup (asked bench 4 (padded [37, 1, 0x1088, 0x0010, 0]))).tables.bankB.groups = [(37, ⟨0x101088, false⟩)] := by
  decide +kernel

theorem test_read_group : replied (after .readGroup (asked routed 5 [37, 1])) 5 = (0, [37, 1, 0x1088, 0x0010, 0]) := by decide +kernel

/-- 11.2: the immediate commit answers bank B, MIRRORING, E 0. -/
theorem test_commit_routing : replied (after .commitRouting (asked bench 6 [0x8000, 0])) 4 = (0, [0x8000, 0, 0x0102, 0]) := by
  decide +kernel

theorem test_cancel_commit :
    replied (after .cancelCommit (asked { bench with tables := { bench.tables with commit := .pending 310 } } 7 [])) 1 = (0, [310]) := by
  decide +kernel

/-- 11.3: the mark 305 does not reach 310; the mark 310 does, and swaps. -/
theorem test_epoch_mark :
    let s : State := { bench with tables := ⟨⟨[], []⟩, ⟨[], []⟩, .b, .pending 310, 300⟩ }
    (after .epochMark (asked s 8 [305])).tables.commit = .pending 310 ∧ (after .epochMark (asked s 8 [310])).tables =
      ⟨⟨[], []⟩, ⟨[], []⟩, .a, .mirroring 0, 310⟩ := by decide +kernel

theorem test_read_table_state :
    replied (after .readTableState (asked { bench with tables := ⟨⟨[], []⟩, ⟨[], []⟩, .b, .mirroring 9, 300⟩ } 9 [])) 4 =
      (0, [0x0102, 0, 300, 9]) := by decide +kernel

theorem test_write_schedule :
    (after .writeSchedule (asked bench 10 [0x0205, 0x0003, 0x4002, 0, 0, 0, 0, 0, 0])).scheds[(5 : Link)].staging =
      [⟨0, .limited, 3⟩, ⟨1, .limited, 2⟩] := by decide +kernel

/-- R112: port 3 is UP and waits for a wrap, port 5 is not and takes the schedule at once. -/
theorem test_apply_schedule : replied (after .applySchedule (asked bench 11 [0x0028, 0])) 4 = (0, [0x0028, 0, 0x0008, 0]) := by
  decide +kernel

theorem test_read_schedule :
    replied (after .readSchedule (asked bench 12 [5])) 7 = (0, [5, 0x0400, 0, 0x1000, 0x4020, 0x8010, 0xC008]) := by decide +kernel

/-- R92, R76: RT = 24 (16 + 8 + 8 + 5) = 888 and S = 11,400. -/
theorem test_set_admission :
    replied (after .setAdmission (asked bench 13 [3, 5, 100, 9])) 8 = (0, [3, 5, 100, 7, 888, 11400, 0, 11400]) := by decide +kernel

/-- R126: five entries of (9, C1) with XOFF 3 and XON 1 turn HELD. -/
theorem test_set_flow :
    replied (after .setFlow (asked (queued bench 9 1 [6, 7, 8, 9, 10]) 14 [1, 3, 1])) 6 = (0, [1, 3, 1, 0x0200, 0, 1]) := by decide +kernel

theorem test_set_status_timing : replied (after .setStatusTiming (asked bench 15 [1, 70])) 2 = (0, [2, 256]) := by decide +kernel

/-- R95: six free buffers stand in the bench's list; S and SF are 11,424. -/
theorem test_read_buffer_state :
    replied (after .readBufferState (asked (queued bench 9 1 [6, 7]) 16 [9])) 11 = (0, [9, 6, 11424, 0, 11424, 2, 0, 2, 0, 0, 0]) := by
  decide +kernel

/-- R28, R29: RETRAIN takes link 3 out of UP and answers its state TRAINING. -/
theorem test_link_control :
    (replied (after .linkControl (asked bench 17 [0x3000, 0x0008, 0, 0])) 8).2 = [0x3000, 0x0008, 0, 0, 0x0301, 0x0101, 0x0101, 0x0103] := by
  decide +kernel

theorem test_read_link_status :
    replied (after .readLinkStatus (asked bench 18 [3])) 6 = (0, [3, 0x0300, 0, 0, 0x0F0A, 0]) := by decide +kernel

theorem test_clear_link_status :
    (after .clearLinkStatus (asked (bench.modFifo 20 fun f => { f with hdrErrSeen := true, overrunSeen := true }) 19 [8, 0, 0x0010])).fifos[(20 : Link)]
      = ⟨[], false, false, false, true⟩ := by decide +kernel

/-- R168: carry flag i of the run stands in bit 15 - i. -/
theorem test_read_counters :
    replied (after .readCounters (asked { bench with counters := upd bench.counters 3 ⟨upd (Vector.replicate 18 0) 5 0x12345678, 0x20⟩ } 20
      [3, 0x0402])) 6 = (0, [0x4003, 0x0402, 0, 0, 0x1234, 0x5678]) := by decide +kernel

theorem test_clear_carry :
    let t := after .clearCarry (asked { bench with counters := upd bench.counters 3 ⟨Vector.replicate 18 0, 0x3FFFF⟩ } 21 [0x4003, 2, 2])
    t.counters[(3 : Link)].carry = 0x1FFFD ∧ t.carryMask = 0x20002 := by decide +kernel

/-- 11.2: the port set {0} stored. -/
theorem test_set_notice :
    let t := after .setNotice (asked bench 22 [0x0108, 0, 1, 0])
    t.notices.ports = 1 ∧ replied t 8 = (0, [0x0108, 1, 1, 0, 0, 0x8000, 0, 0]) := by decide +kernel

/-- R160, R161: the answer carries the new ID. -/
theorem test_set_element_address :
    let t := after .setElementAddress (asked bench 23 [0x24, 0x0103])
    t.sru = ⟨0x24, 3, true, 16, []⟩ ∧ ((parseHeader (t.buffer 0).cell.header).fdi) = 0x024 := by decide +kernel

/-- R162: a flushed entry is counted LINK_FLUSH, and the map version rises by 1. -/
theorem test_datapath_reset :
    let t := after .datapathReset (asked (queued bench 9 1 [6]) 24 [])
    t.queue 9 1 = [] ∧ t.counter 9 Counter.linkFlush.index = 1 ∧ t.cmap.version = 1 ∧ t.bm.pool = 12287 := by decide +kernel

/-! ### Witnesses: states and operands that meet the hypotheses of each statement, clause by clause, at the edges of their ranges -/

theorem accepted (s : State) (n : Byte) (ws : List Word) (need : Nat) (h : s.resetAsserted = false) (h1 : need ≤ ws.length)
    (h2 : ws.length ≤ 24) : Accepted (asked s n ws) (request n ws) n.toNat need :=
  ⟨h, rfl, rfl, h1, h2, le_refl _⟩

/-- Link 0 comes first after the arbiter's position at reset, 23. -/
theorem forwards (s : State) (c : Cell) (cs : List Cell) (h : s.resetAsserted = false) (ha : s.arbiter = 23) :
    Forwards (waiting s 0 (c :: cs)) 0 ⟨c, false, false⟩ (cs.map fun c => ⟨c, false, false⟩) := by
  have e : ((waiting s 0 (c :: cs)).fifos[(0 : Link)]).entries = ⟨c, false, false⟩ :: cs.map fun c => ⟨c, false, false⟩ := by
    show ((upd s.fifos 0 _)[(0 : Link)]).entries = _
    rw [upd_same]
    rfl
  refine ⟨h, ⟨0, by decide, ?_, by rw [e]; simp, fun j hj => absurd hj (Nat.not_lt_zero j)⟩, e⟩
  show 0 = ((waiting s 0 (c :: cs)).arbiter.val + 1 + 0) % 24
  rw [show (waiting s 0 (c :: cs)).arbiter = s.arbiter from rfl, ha]
  rfl

theorem no_busy {s : State} {p : Link} (h : ∀ c, s.queue p c = []) (i : Nat) : ¬ BusyWindow p s i := fun ⟨_, _, hb⟩ => hb (h _)

theorem wf_default (up : Bool) : SchedulerWf up powerOnScheduler :=
  ⟨by decide, by decide, by decide, fun _ => rfl, fun h => by simp [powerOnScheduler] at h, fun _ => ⟨rfl, rfl⟩⟩

theorem test_met_StepRunsTheFrontCommand :
    ({ bench with pending := [.identify, .forwardingEvent] } : State).pending = .identify :: [.forwardingEvent] ∧ bench.pending = [] :=
  ⟨rfl, rfl⟩

theorem test_met_EveryCommandHasANextState : (Instr.identify ≠ .resetAssert) ∧ ∀ x, Instr.identify ≠ .resetRelease x :=
  ⟨by decide, fun x h => by cases h⟩

theorem test_met_AssertedResetHoldsTheElement :
    (after .resetAssert bench).resetAsserted = true ∧ Instr.egressSlot 3 ≠ .resetAssert ∧ ∀ x, Instr.egressSlot 3 ≠ .resetRelease x :=
  ⟨rfl, by decide, fun x h => by cases h⟩

/-- Runs 31, 32 with the flag set, and 62, the last short of UP. -/
theorem test_met_TrainingReception :
    let s (n : Nat) (ack : Bool) := bench.modLink 1 fun l => { l with run := n, acknowledged := ack }
    ((s 31 false).resetAsserted = false ∧ (s 31 false).links[(1 : Link)].state = .training ∧ ValidCell trainCell .train ∧
      ValidCell idleCell .idle ∧ (s 31 false).links[(1 : Link)].run + 1 < 64 ∧ ¬ 32 ≤ (s 31 false).links[(1 : Link)].run) ∧
    (32 ≤ (s 32 true).links[(1 : Link)].run ∧ (s 32 true).links[(1 : Link)].acknowledged = true) ∧
    ((s 62 true).links[(1 : Link)].run + 1 < 64 ∧ (s 62 true).links[(1 : Link)].acknowledged = true) ∧
    HeaderError badCell ∧ FormatError longCell ∧ (carriesTraffic .data = true ∧ ValidCell (dataCell 1 0) .data) := by
  unfold ValidCell HeaderError FormatError; decide +kernel

theorem test_met_SixtyFourthTrainingCellEntersUp :
    let s := bench.modLink 1 fun l => { l with run := 63, acknowledged := true }
    s.resetAsserted = false ∧ s.links[(1 : Link)].state = .training ∧ ValidCell idleCell .idle ∧ s.links[(1 : Link)].run = 63 := by
  unfold ValidCell; decide +kernel

/-- Liveness 4,094 and score 239 are the last values that leave the link UP. -/
theorem test_met_QuietSlotsInUp :
    let s := bench.modLink 3 fun l => { l with liveness := 4094, score := 239 }
    s.resetAsserted = false ∧ s.links[(3 : Link)].state = .up ∧ s.links[(3 : Link)].liveness < 4095 ∧ FormatError longCell ∧
      HeaderError badCell ∧ s.links[(3 : Link)].score + 16 < 256 ∧ ValidCell idleCell .idle := by
  unfold ValidCell HeaderError FormatError; decide +kernel

theorem test_met_SlotsThatTakeALinkDown :
    let s (n k : Nat) := bench.modLink 3 fun l => { l with liveness := n, score := k }
    ((s 4095 0).resetAsserted = false ∧ (s 4095 0).links[(3 : Link)].state = .up ∧ (s 4095 0).links[(3 : Link)].liveness = 4095 ∧
      FormatError longCell ∧ HeaderError badCell ∧ ¬ 240 ≤ (s 4095 0).links[(3 : Link)].score) ∧
    (240 ≤ (s 0 240).links[(3 : Link)].score ∧ (s 0 240).links[(3 : Link)].liveness ≠ 4095) ∧ ValidCell trainCell .train := by
  unfold ValidCell HeaderError FormatError; decide +kernel

theorem test_met_ArrivalJoinsTheFifo :
    let s := waiting bench 3 [dataCell 1 0, dataCell 2 0, dataCell 3 0]
    s.resetAsserted = false ∧ s.links[(3 : Link)].state = .up ∧ carriesTraffic .data = true ∧ ValidCell (dataCell 9 0) .data ∧
      s.fifos[(3 : Link)].entries.length = 3 ∧ bench.fifos[(3 : Link)].entries.length = 0 := by
  unfold ValidCell; decide +kernel

theorem test_met_ArrivalAtAFullFifoReplacesTheNewest :
    let s := waiting bench 3 [dataCell 1 0, dataCell 2 0, dataCell 3 0, dataCell 4 0]
    s.resetAsserted = false ∧ s.links[(3 : Link)].state = .up ∧ carriesTraffic .data = true ∧ ValidCell (dataCell 9 0) .data ∧
      s.fifos[(3 : Link)].entries.length = 4 := by
  unfold ValidCell; decide +kernel

/-- Attempts 14 and 13 under the retrain limit 15; HOLDOFF; a link in UP. -/
theorem test_met_LinkTimersExpire :
    let s (n : Nat) (x : LinkState) := bench.modLink 1 fun l => { l with attempts := n, state := x }
    (s 14 .training).resetAsserted = false ∧
    ((s 14 .training).links[(1 : Link)].state = .training ∧
      (s 14 .training).links[(1 : Link)].retrainLimit ≤ (s 14 .training).links[(1 : Link)].attempts + 1) ∧
    ((s 13 .training).links[(1 : Link)].state = .training ∧
      (s 13 .training).links[(1 : Link)].attempts + 1 < (s 13 .training).links[(1 : Link)].retrainLimit) ∧
    ((s 3 .holdoff).links[(1 : Link)].state = .holdoff ∧ (s 3 .holdoff).links[(1 : Link)].state ≠ .training) ∧
    (s 3 .up).links[(1 : Link)].state ≠ .holdoff := by decide +kernel

theorem test_met_SlotsOfLinksThatAreNotUp :
    let s (x : LinkState) := bench.modLink 1 fun l => { l with state := x }
    bench.resetAsserted = false ∧ (s .disabled).links[(1 : Link)].state = .disabled ∧ (s .holdoff).links[(1 : Link)].state = .holdoff ∧
      (s .failed).links[(1 : Link)].state = .failed ∧ bench.links[(1 : Link)].state = .training := by decide +kernel

/-- Due by the version in the slot that brings the count to the spacing, 8; due by the refresh interval, 8,192; not due one slot
earlier, and held. -/
theorem test_met_StatusAndHeldSlots :
    let s (n k : Nat) (v : Option (BitVec 16)) := (bench.modSender 3 fun _ => ⟨v, n, k⟩).modLink 3 fun l => { l with partnerHold := true }
    ((s 7 7 none).resetAsserted = false ∧ (s 7 7 none).links[(3 : Link)].state = .up ∧ StatusDue 3 (s 7 7 none)) ∧
    StatusDue 3 (s 64 8191 (some 0)) ∧
    (¬ StatusDue 3 (s 6 6 none) ∧ ¬ StatusDue 3 (s 64 8190 (some 0)) ∧ (s 6 6 none).links[(3 : Link)].partnerHold = true) := by
  unfold StatusDue; decide +kernel

theorem serves_bench (x : Scheduler) (h : SchedulerWf true x) : Serves 3 (bench.modSched 3 fun _ => x) := by
  have e : (bench.modSched 3 fun _ => x).scheds[(3 : Link)] = x := by rw [State.modSched_scheds, upd_same]
  have hu : bench.links[(3 : Link)].state = .up ∧ bench.links[(3 : Link)].partnerHold = false := by decide +kernel
  have hd : ¬ StatusDue 3 bench := by unfold StatusDue; decide +kernel
  exact ⟨rfl, hu.1, hd, hu.2, e.symm ▸ h⟩

/-- No schedule waits. -/
theorem test_met_ServedSlotFollowsTheSchedule :
    Serves 3 (bench.modSched 3 fun _ => powerOnScheduler) ∧ ¬ CrossesWrap 3 (bench.modSched 3 fun _ => powerOnScheduler) := by
  refine ⟨serves_bench _ (wf_default true), fun h => ?_⟩
  have := h.2.1
  revert this
  decide +kernel

/-- A schedule waits, the pointer stands at window 1, and every queue of port 3 is empty. -/
theorem test_met_WrapInsideAPassAppliesTheStagingSchedule :
    let x : Scheduler := { powerOnScheduler with pending := true, w := 1 }
    Serves 3 (bench.modSched 3 fun _ => x) ∧ CrossesWrap 3 (bench.modSched 3 fun _ => x) := by
  refine ⟨serves_bench _ ⟨by decide, by decide, by decide, fun _ => rfl, fun h => by simp [powerOnScheduler] at h, fun h => by simp at h⟩,
    by decide +kernel, by decide +kernel, by decide +kernel, fun i _ _ => no_busy ?_ i⟩
  decide +kernel

theorem test_met_SentCellsCarryARightCheck : ∃ t x, exec (.egressSlot 3) bench = .next t ∧ t.tx[(3 : Link)] = some x := by
  refine ⟨bench.egress 3, ((bench.egress 3).tx[(3 : Link)]).getD zeroCell, rfl, ?_⟩
  decide +kernel

/-- One FIFO waits at the first link examined, with an entry behind; one at the fourth, links 0 to 2 being empty; none. -/
theorem test_met_ForwardingTakesTheNextEntry :
    Forwards (waiting bench 0 [dataCell 100 2, dataCell 7 0]) 0 ⟨dataCell 100 2, false, false⟩ [⟨dataCell 7 0, false, false⟩] ∧
    NextWaiting (waiting bench 3 [dataCell 100 2]) 3 ∧ ∀ p : Link, bench.fifos[p].entries = [] := by
  refine ⟨forwards bench _ [dataCell 7 0] rfl rfl, ⟨3, by decide, by decide +kernel, by decide +kernel, ?_⟩, by decide +kernel⟩
  have : ∀ j : Fin 3, ∀ q : Link, q.val = ((waiting bench 3 [dataCell 100 2]).arbiter.val + 1 + j.val) % 24 →
    ((waiting bench 3 [dataCell 100 2]).fifos[q]).entries = [] := by decide +kernel
  exact fun j hj => this ⟨j, hj⟩

theorem test_met_DiscardRouteIsCounted :
    let s := waiting routed 0 [dataCell 7 0]
    Forwards s 0 ⟨dataCell 7 0, false, false⟩ [] ∧ cellType (dataCell 7 0) = .data ∧ (lookup s (dataCell 7 0)).kind = .discard :=
  ⟨forwards routed _ [] rfl rfl, by decide +kernel, by decide +kernel⟩

/-- An UNUSED route; a STATUS cell; a request for ID 17. -/
theorem test_met_DiscardsAtTheArrivalPort :
    let s := waiting routed 0 [dataCell 8 0]
    Forwards s 0 ⟨dataCell 8 0, false, false⟩ [] ∧ (cellType (dataCell 8 0) = .data ∧ (lookup s (dataCell 8 0)).kind = .unused) ∧
    cellType (cellOf .status 0 0 0 17 []) = .status ∧
    (cellType (cellOf .mgmtReq 17 0 0 4 []) = .mgmtReq ∧ ¬ TargetMatches s.sru (targetOf (cellOf .mgmtReq 17 0 0 4 []))) := by
  refine ⟨forwards routed _ [] rfl rfl, by decide +kernel, by decide +kernel, by decide +kernel, ?_⟩
  unfold TargetMatches; decide +kernel

/-- Primary UP (FDI 101); primary down with the alternate UP (FDI 100); primary down without an alternate (FDI 102). -/
theorem test_met_UnicastForwarding :
    let s (n : BitVec 12) := waiting routed 0 [dataCell n 2]
    let e (n : BitVec 12) := lookup (s n) (dataCell n 2)
    (∀ n : BitVec 12, Forwards (s n) 0 ⟨dataCell n 2, false, false⟩ []) ∧
    (cellType (dataCell 101 2) = .data ∧ (e 101).kind = .unicast ∧ (s 101).isUp (e 101).primary = true) ∧
    ((e 100).kind = .unicast ∧ (s 100).isUp (e 100).primary = false ∧ (e 100).altPresent = true ∧ (s 100).isUp (e 100).alternate = true) ∧
    ((e 102).kind = .unicast ∧ (s 102).isUp (e 102).primary = false ∧ (e 102).altPresent = false) := by
  refine ⟨fun n => forwards routed _ [] rfl rfl, ?_⟩
  decide +kernel

/-- A group with members UP (FDI 200), and an empty group (FDI 201). -/
theorem test_met_MulticastForwarding :
    let s (n : BitVec 12) := waiting routed 0 [dataCell n 3]
    let copies (n : BitVec 12) := (groupPorts ((activeBank (s n).tables).group (lookup (s n) (dataCell n 3)).group.toNat) 0).filter (s n).isUp
    (∀ n : BitVec 12, Forwards (s n) 0 ⟨dataCell n 3, false, false⟩ []) ∧
    ((lookup (s 200) (dataCell 200 3)).kind = .multicast ∧ copies 200 = [3, 7, 12, 20]) ∧
    ((lookup (s 201) (dataCell 201 3)).kind = .multicast ∧ copies 201 = []) := by
  refine ⟨fun n => forwards routed _ [] rfl rfl, ?_⟩
  decide +kernel

theorem bench_counters (s : State) (h : s.counters = bench.counters) : NoCounterAtTop s := by
  have : ∀ p i, bench.counter p i ≠ BitVec.allOnes 32 := by decide +kernel
  intro p i
  unfold State.counter
  rw [h]
  exact this p i

/-- Queue (7, C3) under R = 1, M = 3: Q = 0, below R; Q = 1 and 2, shared; Q = 3, at M; and with nothing free in the shared pool. The
class is the override's (FDI 101) or the cell's own (FDI 103, class C3). -/
theorem test_met_AdmissionOfOneCopy :
    let base (q : List Nat) (u : Nat) : State :=
      let s := queued routed 7 3 q
      { s with bm := { s.bm with params := upd s.bm.params 3 ⟨1, 3, 7⟩, shared := u } }
    let s (n : BitVec 12) (q : List Nat) (u : Nat) := waiting (base q u) 0 [dataCell n 3]
    let route (n : BitVec 12) := lookup (s n [] 0) (dataCell n 3)
    let free (q : List Nat) (u : Nat) := 12288 - totalReservation (s 101 q u).bm.params - (s 101 q u).bm.shared
    (∀ n q u, Forwards (s n q u) 0 ⟨dataCell n 3, false, false⟩ [] ∧ NoCounterAtTop (s n q u) ∧ (s n q u).bm.free = [0, 1, 2, 3, 4, 5]) ∧
    (cellType (dataCell 101 3) = .data ∧ (route 101).kind = .unicast ∧ (route 101).primary = 7 ∧ (s 101 [] 0).isUp 7 = true ∧
      (route 101).overridePresent = true ∧ (route 101).overrideClass = 3) ∧
    ((route 103).kind = .unicast ∧ (route 103).primary = 7 ∧ (route 103).overridePresent = false ∧
      classOf (parseHeader (dataCell 103 3).header).cls = 3) ∧
    ((s 101 [] 0).queue 7 3).length < 1 ∧
    (((s 101 [6] 0).queue 7 3).length = 1 ∧ ((s 101 [6, 8] 0).queue 7 3).length + 1 = 3 ∧ 1 ≤ free [6, 8] 0 ∧
      2 - 1 < free [6, 8] 0 * 2 ^ 7 / 16) ∧
    3 < ((s 101 [6, 8, 9] 0).queue 7 3).length + 1 ∧
    (((s 101 [6] 11496).queue 7 3).length = 1 ∧ free [6] 11496 = 0) := by
  refine ⟨fun n q u => ⟨forwards _ _ [] rfl rfl, bench_counters _ rfl, rfl⟩, ?_⟩
  decide +kernel

/-- The bench with (0, C0) holding q under R = r, M = 2, alpha code a, and the shared use at u. -/
def pressed (q : List Nat) (r a u : Nat) : State :=
  let s := queued bench 0 0 q
  { s with bm := { s.bm with params := upd s.bm.params 0 ⟨r, 2, a⟩, shared := u } }

/-- Six copies with one buffer left in the shared pool of 11,808: ports 0, 3 and 7 UP with empty queues and 5 not, then 9 at its maximum
and 12 below a reservation. The outcomes are R80's by hand: 0 takes the last shared buffer, 3 and 7 find none. -/
theorem test_copies_see_what_the_earlier_left :
    let s := pressed [] 0 7 11807
    (s.verdicts 0 s.bm.shared [0, 3, 5, 7]).map Prod.snd = [.shared, .sharedLimit, .portDown, .sharedLimit] ∧
    ((queued (pressed [] 0 7 11806) 9 0 [6, 8]).verdicts 0 11806 [0, 5, 9, 12]).map Prod.snd = [.shared, .portDown, .queueMax, .shared] ∧
    ((pressed [] 1 7 11784).verdicts 0 11784 [0, 5, 9]).map Prod.snd = [.reserved, .portDown, .reserved] := by decide +kernel

/-- Ascending ports; IDENTIFY from port 0 in UP with Q = 0 below R = 1, Q = 1 under M = 2 and with SF 1, Q = 2 at M, SF 0, and T = 0 with
SF 1 (alpha code 0); and from port 1, not UP. -/
theorem test_met_AdmissionOfEachCopy :
    let ask (q : List Nat) (r a u : Nat) := asked (pressed q r a u) 1 []
    let free (q : List Nat) (r a u : Nat) := 12288 - totalReservation (ask q r a u).bm.params - (ask q r a u).bm.shared
    let down : State := { bench with sru := { bench.sru with srq := [{ request 1 [] with port := 1 }] } }
    ([3, 5, 7] : List Link).Pairwise (· < ·) ∧
    (∀ q r a u, Accepted (ask q r a u) (request 1 []) 1 0 ∧ NoCounterAtTop (ask q r a u) ∧ (ask q r a u).bm.free = [0, 1, 2, 3, 4, 5]) ∧
    (request 1 []).quiet = false ∧ ((ask [] 1 7 0).links[(0 : Link)].state = .up ∧ ((ask [] 1 7 0).queue 0 0).length < 1) ∧
    (((ask [6] 1 7 11783).queue 0 0).length = 1 ∧ free [6] 1 7 11783 = 1 ∧ 1 - 1 < 1 * 2 ^ 7 / 16) ∧
    2 < ((ask [6, 8] 1 7 0).queue 0 0).length + 1 ∧
    (free [6] 1 7 11784 = 0 ∧ free [6] 1 0 11783 = 1 ∧ 1 * 2 ^ 0 / 16 ≤ 1 - 1) ∧
    (Accepted down { request 1 [] with port := 1 } 1 0 ∧ down.links[(1 : Link)].state ≠ .up) := by
  refine ⟨by decide, fun q r a u => ⟨accepted _ 1 [] 0 rfl (by decide) (by decide), bench_counters _ rfl, rfl⟩, ?_⟩
  refine ⟨rfl, by decide +kernel, by decide +kernel, by decide +kernel, by decide +kernel, ⟨rfl, rfl, rfl, by decide, by decide, by decide⟩, ?_⟩
  decide +kernel

/-- Links in UP beside the Buffer Manager of the release of RESET. -/
def fresh : State := { bench with bm := powerOnBuffers }

theorem test_met_AdmissionFindsAFreeBuffer : BuffersWf fresh ∧ admittedPorts (fresh.verdicts 0 fresh.bm.shared [3, 5, 7]) = [3, 7] :=
  ⟨BuffersWf.powerOn fresh rfl, by decide +kernel⟩

/-- A request for every element, with 0 and 3 requests queued, and with 4. -/
theorem test_met_MatchingRequestIsQueued :
    let c := cellOf .mgmtReq 255 0 0 4 [1, 9, 0, 0]
    let s (n : Nat) : State := waiting { bench with sru := { bench.sru with srq := List.replicate n (request 1 []) } } 0 [c]
    (∀ n, Forwards (s n) 0 ⟨c, false, false⟩ []) ∧ cellType c = .mgmtReq ∧ TargetMatches (s 0).sru (targetOf c) ∧
      (s 0).sru.srq.length = 0 ∧ (s 3).sru.srq.length = 3 := by
  refine ⟨fun n => forwards _ _ [] rfl rfl, by decide +kernel, ?_, by decide +kernel, by decide +kernel⟩
  unfold TargetMatches; decide +kernel

theorem test_met_FullQueueIsAnsweredSrqFull :
    let c := cellOf .mgmtReq 16 0 0 4 [1, 9, 0, 0]
    let s : State := waiting { bench with sru := { bench.sru with srq := List.replicate 4 (request 1 []) } } 0 [c]
    Forwards s 0 ⟨c, false, false⟩ [] ∧ cellType c = .mgmtReq ∧ TargetMatches s.sru (targetOf c) ∧ s.sru.srq.length = 4 := by
  refine ⟨forwards _ _ [] rfl rfl, by decide +kernel, ?_, by decide +kernel⟩
  unfold TargetMatches; decide +kernel

/-- Numbers 0, 25 and 255; a word count of 22 where 23 are needed, one of 25, and a payload a byte short. -/
theorem test_met_GenericChecksRefuse :
    (∀ n : Byte, (asked bench n []).resetAsserted = false ∧ (asked bench n []).sru.srq.head? = some (request n [])) ∧
    ((request 0 []).number.toNat = 0 ∧ 25 ≤ (request 25 []).number.toNat ∧ 25 ≤ (request 255 []).number.toNat) ∧
    ((Instr.writeRoute, 2, 23) ∈ requestDirectory ∧ requestDirectory.length = 24 ∧ (request 2 []).number.toNat = 2 ∧
      (request 2 (List.replicate 22 0)).wordCount < 23 ∧ 24 < (request 2 (List.replicate 25 0)).wordCount ∧
      ({ request 2 (List.replicate 23 0) with payloadLength := 49 } : Request).payloadLength < 4 + 2 * (request 2 (List.replicate 23 0)).wordCount) :=
  ⟨fun n => ⟨rfl, rfl⟩, by decide +kernel, by decide +kernel⟩

theorem test_met_RequestsWaitForTheirTurn :
    (Instr.identify, 1, 0) ∈ requestDirectory ∧ bench.sru.srq = [] ∧
    (∀ n : Byte, (asked bench n []).sru.srq.head? = some (request n [])) ∧ (request 2 []).number.toNat ≠ 1 ∧
    (1 ≤ (request 1 []).number.toNat ∧ (request 24 []).number.toNat ≤ 24) :=
  ⟨by decide, rfl, fun _ => rfl, by decide, by decide⟩

/-- A response of 24 words, none, a notice count of 65,535, an output at a position and none at another. -/
theorem test_met_BuiltCellLayouts :
    (List.replicate 24 (0 : Word)).length ≤ 24 ∧ ([] : List Word).length ≤ 24 ∧ 65535 ≤ 65535 ∧
    (3 < (okWords (request 1 [7]) [(3, 9)]).length ∧ [((3 : Nat), (9 : Word))].find? (fun o => o.1 == 3) = some (3, 9) ∧
      [((3 : Nat), (9 : Word))].find? (fun o => o.1 == 0) = none) := by decide +kernel

/-- R8: an answer is as long as its request, or reaches to the highest position written, here 3. R6: a response of 2 words. -/
theorem test_answer_length :
    (okWords (request 1 [7, 8, 9]) [(0, 1)]).length = 3 ∧ okWords (request 1 [7]) [(3, 9), (1, 5)] = [7, 5, 0, 9] ∧
    (responseCell 16 1 2 .ok [1, 2]).header[0] = 0x60 ∧ (responseCell 16 1 2 .ok [1, 2]).header[5] = 8 := by decide +kernel

theorem test_met_IdentifyReturnsTheElement : Accepted (asked bench 1 []) (request 1 []) 1 0 := accepted bench 1 [] 0 rfl (by decide) (by decide)

theorem test_met_SetElementAddressTakesEffect :
    (Accepted (asked bench 23 [254, 0]) (request 23 [254, 0]) 23 2 ∧ lo8 (blockWord (request 23 [254, 0]) 0) ≠ 255) ∧
    (Accepted (asked bench 23 [255, 0]) (request 23 [255, 0]) 23 2 ∧ lo8 (blockWord (request 23 [255, 0]) 0) = 255) :=
  ⟨⟨accepted bench 23 _ 2 rfl (by decide) (by decide), by decide +kernel⟩, accepted bench 23 _ 2 rfl (by decide) (by decide), by decide +kernel⟩

/-- The commit states of the statements about Table Control. -/
def committing (x : CommitState) : State := { routed with tables := { routed.tables with commit := x, epoch := 300 } }

theorem test_met_CommitStates :
    (committing (.pending 310)).tables.commit = .pending 310 ∧ (committing (.mirroring 5119)).tables.commit = .mirroring 5119 ∧
      (committing .idle).tables.commit = .idle := ⟨rfl, rfl, rfl⟩

/-- The last entry; index 4,096; seven entries from 4,090; a port of 24; an alternate equal to its primary; PENDING; MIRRORING. -/
theorem test_met_WriteRouteStoresInTheStagingBank :
    let r (ws : List Word) := request 2 (padded ws)
    let good := r [4095, 1, 0x7000, 0x0709, 0x4000]
    (∀ w0 w1 w2 w3 w4 : Word, Accepted (asked bench 2 (padded [w0, w1, w2, w3, w4])) (r [w0, w1, w2, w3, w4]) 2 23 ∧
      Accepted (asked (committing (.pending 310)) 2 (padded [w0, w1, w2, w3, w4])) (r [w0, w1, w2, w3, w4]) 2 23 ∧
      Accepted (asked (committing (.mirroring 5119)) 2 (padded [w0, w1, w2, w3, w4])) (r [w0, w1, w2, w3, w4]) 2 23) ∧
    (RunFits good 4096 ∧ [(⟨.unicast, true, true, 7, 9, 1, 0⟩ : RouteEntry)].length = entryCount good ∧
      (∀ j < entryCount good, routeOfWords (entryWord good j 0) (entryWord good j 1) (entryWord good j 2) =
        [(⟨.unicast, true, true, 7, 9, 1, 0⟩ : RouteEntry)][j]?) ∧
      (∀ j < entryCount good, ¬ BadPort good j ∧ ¬ BadAlternate good j) ∧ bench.tables.commit = .idle ∧ bankWf (stagingBank bench.tables)) ∧
    (¬ RunFits (r [4096, 1, 0, 0, 0]) 4096 ∧ ¬ RunFits (r [0, 0, 0, 0, 0]) 4096 ∧ ¬ RunFits (r [0, 8, 0, 0, 0]) 4096 ∧
      ¬ RunFits (r [4090, 7, 0, 0, 0]) 4096 ∧ RunFits (r [4089, 7, 0, 0, 0]) 4096) ∧
    (RunFits (r [0, 1, 0, 0x0018, 0]) 4096 ∧ BadPort (r [0, 1, 0, 0x0018, 0]) 0 ∧ 0 < entryCount (r [0, 1, 0, 0x0018, 0])) ∧
    (RunFits (r [0, 1, 0x6000, 0x1717, 0]) 4096 ∧ ¬ BadPort (r [0, 1, 0x6000, 0x1717, 0]) 0 ∧ BadAlternate (r [0, 1, 0x6000, 0x1717, 0]) 0) := by
  refine ⟨fun w0 w1 w2 w3 w4 => ⟨accepted bench 2 _ 23 rfl (by simp [padded]) (by simp [padded]),
    accepted _ 2 _ 23 rfl (by simp [padded]) (by simp [padded]), accepted _ 2 _ 23 rfl (by simp [padded]) (by simp [padded])⟩, ?_⟩
  unfold RunFits BadPort BadAlternate bankWf
  decide +kernel

theorem test_met_WriteGroupStoresInTheStagingBank :
    let r (ws : List Word) := request 4 (padded ws)
    (Accepted (asked bench 4 (padded [1023, 1])) (r [1023, 1]) 4 23 ∧
      ∀ x, Accepted (asked (committing x) 4 (padded [1023, 1])) (r [1023, 1]) 4 23) ∧ RunFits (r [1023, 1]) 1024 ∧ bench.tables.commit = .idle ∧
      bankWf (stagingBank bench.tables) ∧ ¬ RunFits (r [1024, 1]) 1024 ∧ ¬ RunFits (r [1018, 7]) 1024 := by
  refine ⟨⟨accepted bench 4 _ 23 rfl (by simp [padded]) (by simp [padded]), fun _ => accepted _ 4 _ 23 rfl (by simp [padded]) (by simp [padded])⟩,
    ?_⟩
  unfold RunFits bankWf
  decide +kernel

/-- Bank A read in IDLE and, being active, in MIRRORING; bank 2; bank B in MIRRORING. -/
theorem test_met_TableReadsReturnTheNamedBank :
    (∀ w : Word, Accepted (asked (committing (.mirroring 0)) 3 [4095, w]) (request 3 [4095, w]) 3 2 ∧
      Accepted (asked (committing (.mirroring 0)) 5 [1023, w]) (request 5 [1023, w]) 5 2) ∧
    (RunFits (request 3 [4095, 1]) 4096 ∧ hi8 (blockWord (request 3 [4095, 1]) 1) = bankCode .a ∧
      (committing (.mirroring 0)).tables.active = .a) ∧
    (RunFits (request 5 [1023, 1]) 1024 ∧ hi8 (blockWord (request 5 [1023, 1]) 1) = bankCode .a) ∧
    2 ≤ (hi8 (blockWord (request 3 [4095, 0x0201]) 1)).toNat ∧
    (RunFits (request 3 [4095, 0x0101]) 4096 ∧
      hi8 (blockWord (request 3 [4095, 0x0101]) 1) = bankCode (committing (.mirroring 0)).tables.active.other ∧
      (committing (.mirroring 0)).tables.commit = .mirroring 0) := by
  refine ⟨fun w => ⟨accepted _ 3 _ 2 rfl (by simp) (by simp), accepted _ 5 _ 2 rfl (by simp) (by simp)⟩, ?_⟩
  unfold RunFits
  decide +kernel

/-- Immediate; targets 1 and 32,767 ahead; targets 0 and 32,768 ahead; PENDING and MIRRORING. -/
theorem test_met_CommitRoutingByCommitState :
    (∀ x w0 w1, Accepted (asked (committing x) 6 [w0, w1]) (request 6 [w0, w1]) 6 2) ∧
    (blockWord (request 6 [0x8000, 0]) 0).getLsbD 15 = true ∧ (blockWord (request 6 [0, 301]) 0).getLsbD 15 = false ∧
    (blockWord (request 6 [0, 301]) 1 - (300 : Word)).toNat = 1 ∧ (blockWord (request 6 [0, 33067]) 1 - (300 : Word)).toNat = 32767 ∧
    (blockWord (request 6 [0, 300]) 1 - (300 : Word)).toNat = 0 ∧ (blockWord (request 6 [0, 33068]) 1 - (300 : Word)).toNat = 32768 := by
  refine ⟨fun x w0 w1 => accepted _ 6 _ 2 rfl (by simp) (by simp), ?_⟩
  decide +kernel

theorem test_met_CancelCommitAndReadTableState :
    ∀ x, Accepted (asked (committing x) 7 []) (request 7 []) 7 0 ∧ Accepted (asked (committing x) 9 []) (request 9 []) 9 0 :=
  fun _ => ⟨accepted _ 7 _ 0 rfl (by simp) (by simp), accepted _ 9 _ 0 rfl (by simp) (by simp)⟩

/-- Marks 1 and 32,767 forward; 309 short of the target 310, 310 at it; marks 0 and 32,768 forward. -/
theorem test_met_EpochMarkAdvancesTheCounter :
    (∀ x w, Accepted (asked (committing x) 8 [w]) (request 8 [w]) 8 1) ∧
    ((301 : Word) - 300).toNat = 1 ∧ ((33067 : Word) - 300).toNat = 32767 ∧ 32768 < ((309 : Word) - 310).toNat ∧
    ((310 : Word) - 310).toNat ≤ 32768 ∧ ((33067 : Word) - 310).toNat ≤ 32768 ∧ ((300 : Word) - 300).toNat = 0 ∧
    32768 ≤ ((33068 : Word) - 300).toNat := by
  refine ⟨fun x w => accepted _ 8 _ 1 rfl (by simp) (by simp), ?_⟩
  decide +kernel

theorem test_met_MirrorCopyStepCopiesOneEntry :
    (committing (.mirroring 0)).resetAsserted = false ∧ (committing (.mirroring 5119)).tables.commit = .mirroring 5119 ∧ 5119 < 5120 ∧
      bankWf (stagingBank (committing (.mirroring 5119)).tables) ∧ ∀ p, (committing .idle).tables.commit ≠ .mirroring p :=
  ⟨rfl, rfl, by decide, by unfold bankWf; decide +kernel, fun p h => by cases h⟩

/-- Eight windows for port 23; port 24; none and nine windows; mode 3; a LIMITED budget of 0; FIXED beside DRAIN; a schedule pending. -/
theorem test_met_WriteScheduleStagesASchedule :
    let r (w0 w1 w2 : Word) := request 10 ([w0, w1, w2] ++ List.replicate 6 0x4001)
    (∀ (s : State) (w0 w1 w2 : Word), s.resetAsserted = false →
      Accepted (asked s 10 ([w0, w1, w2] ++ List.replicate 6 0x4001)) (r w0 w1 w2) 10 9) ∧
    (∀ i < 8, windowOfWord (blockWord (r 0x0817 0x0001 0x4001) (1 + i)) = (⟨0, .limited, 1⟩ :: List.replicate 7 ⟨1, .limited, 1⟩)[i]?) ∧
    scheduleWf (⟨0, .limited, 1⟩ :: List.replicate 7 ⟨1, .limited, 1⟩) = true ∧ bench.scheds[(23 : Link)].pending = false ∧
    (bench.modSched 23 fun x => { x with pending := true }).scheds[(23 : Link)].pending = true ∧
    24 ≤ (lo8 (blockWord (r 0x0118 0 0) 0)).toNat ∧ (hi8 (blockWord (r 0x0017 0 0) 0)).toNat = 0 ∧ 8 < (hi8 (blockWord (r 0x0917 0 0) 0)).toNat ∧
    (blockWord (r 0x0117 0x3001 0) 1).extractLsb' 12 2 = 3 ∧
    windowOfWord (blockWord (r 0x0117 0x4000 0) 1) = some ⟨1, .limited, 0⟩ ∧
    (windowOfWord (blockWord (r 0x0217 0x2001 0x5000) 1) = some ⟨0, .fixed, 1⟩ ∧
      windowOfWord (blockWord (r 0x0217 0x2001 0x5000) 2) = some ⟨1, .drain, 0⟩) := by
  refine ⟨fun s w0 w1 w2 h => accepted s 10 _ 9 h (by simp) (by simp), ?_⟩
  decide +kernel

theorem test_met_ApplyScheduleByLinkState : Accepted (asked bench 11 [0x28, 0]) (request 11 [0x28, 0]) 11 2 :=
  accepted bench 11 _ 2 rfl (by simp) (by simp)

/-- Port 23 and selectors 0 and 1; port 24; selector 2. -/
theorem test_met_ReadScheduleReturnsTheService :
    (∀ w, Accepted (asked bench 12 [w]) (request 12 [w]) 12 1) ∧
    ((23 : Link).val = (lo8 (blockWord (request 12 [0x0117]) 0)).toNat ∧ (hi8 (blockWord (request 12 [0x0117]) 0)).toNat = 1 ∧
      (hi8 (blockWord (request 12 [0x0017]) 0)).toNat = 0) ∧
    24 ≤ (lo8 (blockWord (request 12 [0x0018]) 0)).toNat ∧ 2 ≤ (hi8 (blockWord (request 12 [0x0200]) 0)).toNat := by
  refine ⟨fun w => accepted bench 12 _ 1 rfl (by simp) (by simp), ?_⟩
  decide +kernel

/-- R 255 for C0, which leaves S = 5,688; R 255 for C0 beside U = 5,689; class 4; R 256; M 0 and 12,289. -/
theorem test_met_SetAdmissionKeepsTheSharedPoolCovered :
    (∀ (s : State) (w0 w1 w2 : Word), s.resetAsserted = false →
      Accepted (asked s 13 [w0, w1, w2, 7]) (request 13 [w0, w1, w2, 7]) 13 4) ∧
    ((0 : Sys2Proof.Class).val = (lo8 (blockWord (request 13 [0, 255, 12288, 7]) 0)).toNat ∧
      (blockWord (request 13 [0, 255, 12288, 7]) 1).toNat ≤ 255 ∧ (blockWord (request 13 [0, 255, 12288, 7]) 2).toNat ≤ 12288 ∧
      totalReservation (upd bench.bm.params 0 ⟨255, 12288, 7⟩) = 6600 ∧ sharedUse bench (upd bench.bm.params 0 ⟨255, 12288, 7⟩) = 0 ∧
      (12288 : Int) - 6600 < sharedUse (bench.setQueue 3 1 (List.range 5697)) (upd bench.bm.params 0 ⟨255, 12288, 7⟩)) ∧
    4 ≤ (lo8 (blockWord (request 13 [4, 0, 1, 7]) 0)).toNat ∧ 255 < (blockWord (request 13 [0, 256, 1, 7]) 1).toNat ∧
    (blockWord (request 13 [0, 0, 0, 7]) 2).toNat = 0 ∧ 12288 < (blockWord (request 13 [0, 0, 12289, 7]) 2).toNat := by
  refine ⟨fun s w0 w1 w2 h => accepted s 13 _ 4 h (by simp) (by simp), ?_⟩
  decide +kernel

/-- X 2 with N 1, and X 12,288; class 4; X 1 and 12,289; N equal to X. -/
theorem test_met_SetFlowTestsTheEntriesAgain :
    (∀ w0 w1 w2, Accepted (asked bench 14 [w0, w1, w2]) (request 14 [w0, w1, w2]) 14 3) ∧
    ((3 : Sys2Proof.Class).val = (lo8 (blockWord (request 14 [3, 2, 1]) 0)).toNat ∧ (blockWord (request 14 [3, 2, 1]) 1).toNat = 2 ∧
      (blockWord (request 14 [3, 2, 1]) 2).toNat < 2 ∧ (blockWord (request 14 [3, 12288, 1]) 1).toNat = 12288) ∧
    4 ≤ (lo8 (blockWord (request 14 [4, 2, 1]) 0)).toNat ∧ (blockWord (request 14 [3, 1, 0]) 1).toNat < 2 ∧
    12288 < (blockWord (request 14 [3, 12289, 0]) 1).toNat ∧
    (blockWord (request 14 [3, 2, 2]) 1).toNat ≤ (blockWord (request 14 [3, 2, 2]) 2).toNat := by
  refine ⟨fun w0 w1 w2 => accepted bench 14 _ 3 rfl (by simp) (by simp), ?_⟩
  decide +kernel

theorem test_met_StatusTimingAndBufferState :
    Accepted (asked bench 15 [1, 65535]) (request 15 [1, 65535]) 15 2 ∧ (∀ w, Accepted (asked bench 16 [w]) (request 16 [w]) 16 1) ∧
    (23 : Link).val = (lo8 (blockWord (request 16 [23]) 0)).toNat ∧ 24 ≤ (lo8 (blockWord (request 16 [24]) 0)).toNat :=
  ⟨accepted bench 15 _ 2 rfl (by simp) (by simp), fun _ => accepted bench 16 _ 1 rfl (by simp) (by simp), by decide +kernel, by decide +kernel⟩

/-- The actions 0 to 3, and 4. -/
theorem test_met_LinkControlByLinkState :
    (∀ w, Accepted (asked bench 17 [w, 8, 0, 0]) (request 17 [w, 8, 0, 0]) 17 4) ∧
    (linkActionOf ((blockWord (request 17 [0x0C00, 8, 0, 0]) 0).extractLsb' 12 4) = some .none ∧
      linkActionOf ((blockWord (request 17 [0x1000, 8, 0, 0]) 0).extractLsb' 12 4) = some .enable ∧
      linkActionOf ((blockWord (request 17 [0x2000, 8, 0, 0]) 0).extractLsb' 12 4) = some .disable ∧
      linkActionOf ((blockWord (request 17 [0x3000, 8, 0, 0]) 0).extractLsb' 12 4) = some .retrain) ∧
    4 ≤ ((blockWord (request 17 [0x4000, 8, 0, 0]) 0).extractLsb' 12 4).toNat := by
  refine ⟨fun w => accepted bench 17 _ 4 rfl (by simp) (by simp), ?_⟩
  decide +kernel

theorem test_met_LinkStatusRequests :
    (∀ w, Accepted (asked bench 18 [w]) (request 18 [w]) 18 1) ∧ Accepted (asked bench 19 [15, 8, 0]) (request 19 [15, 8, 0]) 19 3 ∧
    (23 : Link).val = (lo8 (blockWord (request 18 [23]) 0)).toNat ∧ 24 ≤ (lo8 (blockWord (request 18 [24]) 0)).toNat :=
  ⟨fun _ => accepted bench 18 _ 1 rfl (by simp) (by simp), accepted bench 19 _ 3 rfl (by simp) (by simp), by decide +kernel, by decide +kernel⟩

/-- NO_ROUTE of port 0 at its top: masked, and unmasked with COUNTER_CARRY notices off and on, the notice due or not, and with ports. -/
theorem test_met_CountAtTheTopWraps :
    let base (mask : BitVec 18) (on : Bool) (n : Nat) (ports : BitVec 24) : State :=
      { routed with counters := upd routed.counters 0 ⟨upd (Vector.replicate 18 0) 6 0xFFFFFFFF, 0⟩, carryMask := mask,
                    notices := ⟨upd routed.notices.kinds 3 { powerOnNotice on with interval := n }, ports⟩ }
    let s (mask : BitVec 18) (on : Bool) (n : Nat) (ports : BitVec 24) := waiting (base mask on n ports) 0 [dataCell 8 0]
    (∀ mask on n ports, Forwards (s mask on n ports) 0 ⟨dataCell 8 0, false, false⟩ []) ∧ cellType (dataCell 8 0) = .data ∧
    (lookup (s 0 true 1 0) (dataCell 8 0)).kind = .unused ∧ (s 0 true 1 0).counter 0 Counter.noRoute.index = BitVec.allOnes 32 ∧
    (s 0 true 1 9).counter 0 Counter.noRoute.index = BitVec.allOnes 32 ∧ (s 0 true 1 0).notices.ports = 0 ∧
    ((s 0 true 1 0).carryMask.getLsbD Counter.noRoute.index = false ∧ ((s 0 true 1 0).kind .counterCarry).enabled = true) ∧
    (s 0x40 true 1 0).carryMask.getLsbD Counter.noRoute.index = true ∧ ((s 0 false 1 0).kind .counterCarry).enabled = false ∧
    (carryEmitted ((s 0 true 1 0).kind .counterCarry) (carryDetail 0 6)).pendingCount = 0 ∧
    (carryEmitted ((s 0 true 2 0).kind .counterCarry) (carryDetail 0 6)).pendingCount = 1 := by
  refine ⟨fun mask on n ports => forwards _ _ [] rfl rfl, ?_⟩
  decide +kernel

/-- Port 23 with counters 17 and 7 to 17; port 24; first 18; counts 0 and 12; a run past 17. Port 23 and 24 and mask action 3. -/
theorem test_met_CounterRequests :
    (∀ w0 w1, Accepted (asked bench 20 [w0, w1]) (request 20 [w0, w1]) 20 2) ∧
    (∀ w0, Accepted (asked bench 21 [w0, 1, 0]) (request 21 [w0, 1, 0]) 21 3) ∧
    (((blockWord (request 20 [23, 0x1101]) 0).extractLsb' 0 5).toNat = 23 ∧ (hi8 (blockWord (request 20 [23, 0x1101]) 1)).toNat = 17 ∧
      (lo8 (blockWord (request 20 [23, 0x1101]) 1)).toNat = 1 ∧ (hi8 (blockWord (request 20 [23, 0x070B]) 1)).toNat + 11 = 18 ∧
      (lo8 (blockWord (request 20 [23, 0x070B]) 1)).toNat = 11) ∧
    (24 ≤ ((blockWord (request 20 [24, 1]) 0).extractLsb' 0 5).toNat ∧ 18 ≤ (hi8 (blockWord (request 20 [0, 0x1201]) 1)).toNat ∧
      (lo8 (blockWord (request 20 [0, 0]) 1)).toNat = 0 ∧ 12 ≤ (lo8 (blockWord (request 20 [0, 12]) 1)).toNat ∧
      18 < (hi8 (blockWord (request 20 [0, 0x1102]) 1)).toNat + (lo8 (blockWord (request 20 [0, 0x1102]) 1)).toNat) ∧
    ((23 : Link).val = (lo8 (blockWord (request 21 [0x8017, 1, 0]) 0)).toNat ∧ (blockWord (request 21 [0x8017, 1, 0]) 0).extractLsb' 14 2 ≠ 3) ∧
    24 ≤ (lo8 (blockWord (request 21 [24, 1, 0]) 0)).toNat ∧ (blockWord (request 21 [0xC017, 1, 0]) 0).extractLsb' 14 2 = 3 := by
  refine ⟨fun w0 w1 => accepted bench 20 _ 2 rfl (by simp) (by simp), fun w0 => accepted bench 21 _ 3 rfl (by simp) (by simp), ?_⟩
  decide +kernel

/-- Kinds 1 and 5; kinds 0 and 6. -/
theorem test_met_SetNoticeActsInOrder :
    (∀ w0, Accepted (asked bench 22 [w0, 1, 1, 0]) (request 22 [w0, 1, 1, 0]) 22 4) ∧
    (hi8 (blockWord (request 22 [0x01F8, 1, 1, 0]) 0) = NoticeKind.linkState.code ∧
      hi8 (blockWord (request 22 [0x05F8, 1, 1, 0]) 0) = NoticeKind.srqOverflow.code) ∧
    (hi8 (blockWord (request 22 [0x00F8, 1, 1, 0]) 0)).toNat = 0 ∧ 6 ≤ (hi8 (blockWord (request 22 [0x06F8, 1, 1, 0]) 0)).toNat := by
  refine ⟨fun w0 => accepted bench 22 _ 4 rfl (by simp) (by simp), ?_⟩
  decide +kernel

/-- Port 3 has two entries in its FIFO and LINK_FLUSH one count short of its top, so that the second count wraps; the COUNTER_CARRY kind is
on, with interval 1. -/
def wrapping : State :=
  waiting { fresh with counters := upd fresh.counters 3 ⟨upd (Vector.replicate 18 0) 13 0xFFFFFFFE, 0⟩,
                       notices := ⟨upd fresh.notices.kinds 3 (powerOnNotice true), 1⟩ } 3 [dataCell 100 2, dataCell 7 0]

/-- A LINK_FLUSH counter that wraps and none that does; a state of which a notice waits and one of which none does; a request from port 0,
UP with R_0 = 16, from port 1, not UP, and with QUIET. -/
theorem test_met_DatapathResetEmptiesTheTraffic :
    let s := asked wrapping 24 []
    let u : State := { s with counters := fresh.counters, notices := ⟨upd s.notices.kinds 3 { powerOnNotice true with pendingCount := 1 }, 1⟩ }
    let asks (r : Request) : State := { wrapping with sru := { wrapping.sru with srq := [r] } }
    (∀ p q, Accepted (asks { request 24 [] with port := p, quiet := q }) { request 24 [] with port := p, quiet := q } 24 0) ∧
    Accepted s (request 24 []) 24 0 ∧ BuffersWf s ∧ MapWf s ∧ flushedAt s 3 = 2 ∧ (∀ p : Link, s.fifos[p].entries.length ≤ 4) ∧
    (flushWraps s = [3] ∧ s.carryMask.getLsbD Counter.linkFlush.index = false ∧ (s.kind .counterCarry).enabled = true) ∧
    flushWraps (asked fresh 24 []) = [] ∧ CarryWaits s u ∧ ¬ CarryWaits s s ∧
    (s.links[(0 : Link)].state = .up ∧ 1 ≤ s.bm.params[(0 : Sys2Proof.Class)].reservation ∧ s.links[(1 : Link)].state ≠ .up) := by
  refine ⟨fun p q => ⟨rfl, rfl, rfl, Nat.le_refl 0, Nat.zero_le 24, Nat.le_refl 4⟩, accepted _ 24 _ 0 rfl (by simp) (by simp), BuffersWf.powerOn _ rfl,
    MapWf.powerOn _ rfl rfl, by decide +kernel, by decide +kernel, by decide +kernel, by decide +kernel,
    ⟨⟨3, 13, by decide +kernel⟩, by decide +kernel⟩, fun ⟨⟨q, i, _, h⟩, _⟩ => Nat.lt_irrefl _ h, by decide +kernel⟩

/-- R162 step 6: the wrap's notice follows the answer in (0, C0), with LINK_FLUSH, index 13, of port 3. -/
theorem test_datapath_reset_holds_the_carry_notice :
    let t := after .datapathReset (asked wrapping 24 [])
    t.queue 0 0 = [0, 1] ∧ t.counter 3 Counter.linkFlush.index = 0 ∧
    (t.buffer 1).cell.payload.toList.take 10 = [4, 16, 0, 1, 3, 13, 0, 0, 0, 0] := by decide +kernel

/-- The header of the TRAIN cell, whose check is 0xCF. -/
theorem test_met_HeaderRoundTrip :
    let b : Vector Byte 8 := #v[0xC0, 0, 0, 0, 0, 0, 0, 0xCF]
    headerCheck b = b[7] ∧ b[2].extractLsb' 0 4 = 0 ∧ b[5].extractLsb' 6 2 = 0 := by decide +kernel

theorem test_met_EntryWordsRoundTrip : (⟨3, .limited, 255⟩ : Window).budget ≤ 255 := by decide

/-- One link in UP, the rest in TRAINING, about to receive a cell. -/
def running : State := { State.powerOn 16 false [.receiveSlot 3 (some (dataCell 100 2))] 0 with links := upd (Vector.replicate 24 powerOnLink) 3 upPort }

theorem running_link (p : Link) : running.links[p] = if p = 3 then upPort else powerOnLink := by
  show (upd (Vector.replicate 24 powerOnLink) 3 upPort)[p] = _
  rw [upd_get]
  simp

theorem test_met_StepKeepsThePorts : PortsWf running ∧ ∃ t, step running = .next t := by
  refine ⟨⟨fun p => ?_, fun p => ?_, fun p => ?_⟩, _, rfl⟩
  · rw [running_link]
    split <;> constructor <;> decide
  · rw [show running.fifos[p] = powerOnFifo by simp [running, State.powerOn]]
    refine ⟨by decide, fun _ => rfl, fun e he => by simp [powerOnFifo] at he, fun _ => ?_, fun h => by simp [powerOnFifo] at h⟩
    rw [running_link]
    split <;> rfl
  · rw [show running.scheds[p] = powerOnScheduler by simp [running, State.powerOn]]
    exact wf_default _

theorem test_met_StepKeepsTheBuffers : BuffersWf running ∧ ∃ t, step running = .next t := ⟨BuffersWf.powerOn _ rfl, _, rfl⟩

theorem test_met_StepKeepsTheMap : MapWf running ∧ ∃ t, step running = .next t := ⟨MapWf.powerOn _ rfl rfl, _, rfl⟩

/-- A commit PENDING 32,767 ahead, with a route in one bank. -/
theorem test_met_StepKeepsTheTables :
    let s : State := { running with tables := ⟨⟨[(100, ⟨.unicast, true, true, 7, 9, 1, 0⟩)], []⟩, ⟨[], []⟩, .a, .pending 32767, 0⟩ }
    TablesWf s.tables ∧ ∃ t, step s = .next t := by
  refine ⟨⟨by unfold bankWf; decide +kernel, by unfold bankWf; decide +kernel, fun x h => ?_, fun p h => by cases h⟩, _, rfl⟩
  cases h
  decide

theorem test_met_StepKeepsTheServices : ServiceWf running ∧ ∃ t, step running = .next t := by
  refine ⟨⟨by decide, by decide, by decide, by decide +kernel, fun k => ?_⟩, _, rfl⟩
  cases k <;> decide +kernel

theorem test_met_ActiveBankIsNeverWritten :
    Instr.writeRoute ≠ .resetAssert ∧ (∀ x, Instr.writeRoute ≠ .resetRelease x) ∧ ∃ t, exec .writeRoute bench = .next t :=
  ⟨by decide, fun x h => (by cases h), _, rfl⟩

theorem test_met_SettingsChangeOnlyByTheirCommands :
    Instr.forwardingEvent ≠ .resetAssert ∧ (∀ x, Instr.forwardingEvent ≠ .resetRelease x) ∧ (∃ t, exec .forwardingEvent bench = .next t) ∧
      (Instr.forwardingEvent ≠ .setAdmission ∧ Instr.identify ≠ .forwardingEvent) :=
  ⟨by decide, fun x h => (by cases h), ⟨_, rfl⟩, by decide, by decide⟩

end Sys2Proof.Tests
end

section
/-! The bits of words and bytes: a value cut in two fields and put together again, and the header of a cell. -/

namespace Sys2Proof.Machine

/-! ### Two fields side by side -/

/-- A value is its upper bits beside its lower bits. -/
theorem extract_append_extract {m n : Nat} (x : BitVec (n + m)) : x.extractLsb' m n ++ x.extractLsb' 0 m = x := by
  have h := BitVec.extractLsb'_append_extractLsb'_eq_extractLsb' (x := x) (len₂ := n) (Nat.zero_add m).symm
  rwa [BitVec.extractLsb'_eq_self] at h

theorem hi8_append_lo8 (w : Word) : hi8 w ++ lo8 w = w := extract_append_extract (m := 8) (n := 8) w

@[simp] theorem hi8_mkWord (hi lo : Byte) : hi8 (mkWord hi lo) = hi := BitVec.extractLsb'_append_eq_left

@[simp] theorem lo8_mkWord (hi lo : Byte) : lo8 (mkWord hi lo) = lo := BitVec.extractLsb'_append_eq_right

/-! ### The header (R1) -/

/-- Byte 0 of a header holds type, class and the three flags, high bits first. -/
theorem headerByte0_fields : ∀ (type : BitVec 3) (cls : BitVec 2) (hold first last : Bool),
    let b : Byte := type ++ cls ++ BitVec.ofBool hold ++ BitVec.ofBool first ++ BitVec.ofBool last
    b.extractLsb' 5 3 = type ∧ b.extractLsb' 3 2 = cls ∧ b.getLsbD 2 = hold ∧ b.getLsbD 1 = first ∧ b.getLsbD 0 = last := by
  decide

theorem headerByte0_of_fields : ∀ b : Byte, (b.extractLsb' 5 3 ++ b.extractLsb' 3 2 ++ BitVec.ofBool (b.getLsbD 2) ++
    BitVec.ofBool (b.getLsbD 1) ++ BitVec.ofBool (b.getLsbD 0) : Byte) = b := by
  decide

/-- FDI lies in byte 1 and the upper half of byte 2. -/
theorem fdi_of_bytes (fdi : BitVec 12) :
    fdi.extractLsb' 4 8 ++ (fdi.extractLsb' 0 4 ++ (0 : BitVec 4) : Byte).extractLsb' 4 4 = fdi := by
  rw [BitVec.extractLsb'_append_eq_left]
  exact extract_append_extract (m := 4) (n := 8) fdi

/-- The fields that header bytes carry are read back as written (R1). -/
theorem parseHeader_encodeHeader (h : Header) : parseHeader (encodeHeader h) = h := by
  obtain ⟨type, cls, hold, first, last, fdi, source, seq, length, user⟩ := h
  obtain ⟨htype, hcls, hhold, hfirst, hlast⟩ := headerByte0_fields type cls hold first last
  have hlength : ((0 : BitVec 2) ++ length : Byte).extractLsb' 0 6 = length := BitVec.extractLsb'_append_eq_right
  exact Header.mk.injEq .. |>.mpr ⟨htype, hcls, hhold, hfirst, hlast, fdi_of_bytes fdi, rfl, rfl, hlength, rfl⟩

/-- The bytes written carry their own check (R3). -/
theorem headerCheck_encodeHeader (h : Header) : headerCheck (encodeHeader h) = (encodeHeader h)[7] := rfl

/-- The bytes written have zeros in the reserved bits (R1). -/
theorem encodeHeader_reserved (h : Header) :
    (encodeHeader h)[2].extractLsb' 0 4 = 0 ∧ (encodeHeader h)[5].extractLsb' 6 2 = 0 :=
  ⟨BitVec.extractLsb'_append_eq_right, BitVec.extractLsb'_append_eq_left⟩

/-- A byte with zeros in its lower half, from its upper half. -/
theorem byte_of_upper_half {b : Byte} (h : b.extractLsb' 0 4 = 0) : (b.extractLsb' 4 4 ++ (0 : BitVec 4) : Byte) = b := by
  rw [← h]
  exact extract_append_extract (m := 4) (n := 4) b

/-- A byte with zeros in bits 7 and 6, from the six below. -/
theorem byte_of_lower_six {b : Byte} (h : b.extractLsb' 6 2 = 0) : ((0 : BitVec 2) ++ b.extractLsb' 0 6 : Byte) = b := by
  rw [← h]
  exact extract_append_extract (m := 6) (n := 2) b

theorem vector8_eta {α : Type} (v : Vector α 8) : #v[v[0], v[1], v[2], v[3], v[4], v[5], v[6], v[7]] = v := by
  apply Vector.ext
  intro i hi
  interval_cases i <;> rfl

/-- Bytes with a right check and zero reserved bits are written again as they were read (R1, R3). -/
theorem encodeHeader_parseHeader (b : Vector Byte 8) (hcheck : headerCheck b = b[7]) (h2 : b[2].extractLsb' 0 4 = 0)
    (h5 : b[5].extractLsb' 6 2 = 0) : encodeHeader (parseHeader b) = b := by
  have hfdi1 : (parseHeader b).fdi.extractLsb' 4 8 = b[1] := BitVec.extractLsb'_append_eq_left
  have hfdi2 : ((parseHeader b).fdi.extractLsb' 0 4 ++ (0 : BitVec 4) : Byte) = b[2] := by
    rw [show (parseHeader b).fdi.extractLsb' 0 4 = b[2].extractLsb' 4 4 from BitVec.extractLsb'_append_eq_right]
    exact byte_of_upper_half h2
  have hlength : ((0 : BitVec 2) ++ (parseHeader b).length : Byte) = b[5] := byte_of_lower_six h5
  have hbyte0 := headerByte0_of_fields b[0]
  calc encodeHeader (parseHeader b)
      = #v[b[0], b[1], b[2], b[3], b[4], b[5], b[6], headerCheck b] := by
        unfold encodeHeader
        simp only [hfdi1, hfdi2, hlength]
        simp only [parseHeader, hbyte0, headerCheck]
    _ = b := by rw [hcheck]; exact vector8_eta b

end Sys2Proof.Machine

namespace Sys2Proof.Claims

open Sys2Proof.Machine

/-- Settles O50: the two directions of the header's layout, each field by its place in the bytes. -/
theorem headerRoundTrip : Obligations.HeaderRoundTrip :=
  ⟨fun h => ⟨parseHeader_encodeHeader h, headerCheck_encodeHeader h⟩, encodeHeader_parseHeader⟩

end Sys2Proof.Claims
end

section
/-! The words of table entries, windows and port sets, written and read back (R11, R12). -/

namespace Sys2Proof.Machine

/-! ### Route entries (R11) -/

theorem linkOf_portByte (p : Link) : linkOf (portByte p) = some p :=
  linkOf_val (by have := p.isLt; simp only [portByte, natByte, BitVec.toNat_ofNat]; omega)

theorem routeKindOf_routeKindBits (k : RouteKind) : routeKindOf (routeKindBits k) = k := by cases k <;> rfl

theorem classOf_classBits (c : Class) : classOf (classBits c) = c := by
  apply Fin.ext
  have := c.isLt
  simp only [classOf, classBits, BitVec.toNat_ofNat]
  omega

/-- The first word of a route entry holds the kind and the two flags above 12 reserved bits. -/
theorem routeFlagsWord_fields : ∀ (kind : BitVec 2) (alt override : Bool),
    let w : Word := kind ++ BitVec.ofBool alt ++ BitVec.ofBool override ++ (0 : BitVec 12)
    w.extractLsb' 14 2 = kind ∧ w.getLsbD 13 = alt ∧ w.getLsbD 12 = override := by
  decide

/-- The third word of a route entry holds the override class above 4 reserved bits and the group. -/
theorem routeGroupWord_fields (cls : BitVec 2) (group : BitVec 10) :
    (cls ++ (0 : BitVec 4) ++ group : Word).extractLsb' 14 2 = cls ∧
      (cls ++ (0 : BitVec 4) ++ group : Word).extractLsb' 0 10 = group := by
  constructor
  · rw [BitVec.extractLsb'_append_eq_of_le (by decide)]
    exact BitVec.extractLsb'_append_eq_left
  · exact BitVec.extractLsb'_append_eq_right

/-- A route entry whose port fields name links is read field by field. -/
theorem routeOfWords_of_ports {w0 w1 w2 : Word} {primary alternate : Link} (hp : linkOf (hi8 w1) = some primary)
    (ha : linkOf (lo8 w1) = some alternate) : routeOfWords w0 w1 w2 =
      some ⟨routeKindOf (w0.extractLsb' 14 2), w0.getLsbD 13, w0.getLsbD 12, primary, alternate, classOf (w2.extractLsb' 14 2),
        w2.extractLsb' 0 10⟩ := by
  unfold routeOfWords
  rw [hp, ha]

theorem routeOfWords_routeWords (e : RouteEntry) :
    ∃ w0 w1 w2, routeWords e = [w0, w1, w2] ∧ routeOfWords w0 w1 w2 = some e := by
  refine ⟨_, _, _, rfl, ?_⟩
  obtain ⟨hkind, halt, hoverride⟩ := routeFlagsWord_fields (routeKindBits e.kind) e.altPresent e.overridePresent
  obtain ⟨hcls, hgroup⟩ := routeGroupWord_fields (classBits e.overrideClass) e.group
  rw [routeOfWords_of_ports (by rw [hi8_mkWord, linkOf_portByte]) (by rw [lo8_mkWord, linkOf_portByte]),
    hkind, halt, hoverride, hcls, hgroup, routeKindOf_routeKindBits, classOf_classBits]

/-! ### Port sets and group entries (R12, R28) -/

theorem portSet_low_high (m : BitVec 24) : portSet (portsLow m) (portsHigh m) = m := by
  have hhigh : lo8 (portsHigh m) = m.extractLsb' 16 8 := by
    unfold lo8 portsHigh
    rw [BitVec.extractLsb'_setWidth_of_le (by decide), BitVec.extractLsb'_eq_self]
  unfold portSet
  rw [hhigh]
  exact extract_append_extract (m := 16) (n := 8) m

theorem flagWord_bit0 (b : Bool) : (flagWord b).getLsbD 0 = b := by cases b <;> rfl

theorem groupOfWords_groupWords (g : GroupEntry) :
    ∃ w0 w1 w2, groupWords g = [w0, w1, w2] ∧ groupOfWords w0 w1 w2 = g :=
  ⟨_, _, _, rfl, by unfold groupOfWords; rw [portSet_low_high, flagWord_bit0]⟩

/-- A port set built by adding the ports of a list for which `f` holds. -/
theorem foldl_ports_getLsbD (f : Link → Bool) (p : Link) (ps : List Link) : ∀ m : BitVec 24,
    (ps.foldl (fun m q => if f q then m ||| BitVec.twoPow 24 q else m) m).getLsbD p =
      (m.getLsbD p || (decide (p ∈ ps) && f p)) := by
  induction ps with
  | nil => simp
  | cons q ps ih =>
    intro m
    rw [List.foldl_cons, ih]
    by_cases hq : p = q
    · subst hq
      cases f p <;> simp
    · have hv : p.val ≠ q.val := fun e => hq (Fin.ext e)
      cases f q <;> simp [hq, hv]

theorem portsWhere_getLsbD (f : Link → Bool) (p : Link) : (portsWhere f).getLsbD p = f p := by
  unfold portsWhere
  rw [foldl_ports_getLsbD]
  simp [List.mem_finRange]

/-! ### Windows (R12) -/

/-- The word of a window holds class and mode above 4 reserved bits and the budget. -/
theorem windowWord_fields (x : Window) (h : x.budget ≤ 255) :
    classOf ((windowWord x).extractLsb' 14 2) = x.cls ∧ (windowWord x).extractLsb' 12 2 = windowModeBits x.mode ∧
      (lo8 (windowWord x)).toNat = x.budget := by
  refine ⟨?_, ?_, ?_⟩
  · unfold windowWord
    rw [BitVec.extractLsb'_append_eq_of_le (by decide), BitVec.extractLsb'_append_eq_of_le (by decide)]
    exact (congrArg classOf BitVec.extractLsb'_append_eq_left).trans (classOf_classBits x.cls)
  · unfold windowWord
    rw [BitVec.extractLsb'_append_eq_of_le (by decide), BitVec.extractLsb'_append_eq_of_le (by decide)]
    exact BitVec.extractLsb'_append_eq_right
  · have hlow : lo8 (windowWord x) = natByte x.budget := BitVec.extractLsb'_append_eq_right
    rw [hlow, natByte, BitVec.toNat_ofNat]
    omega

theorem windowOfWord_windowWord (x : Window) (h : x.budget ≤ 255) : windowOfWord (windowWord x) = some x := by
  obtain ⟨hcls, hmode, hbudget⟩ := windowWord_fields x h
  unfold windowOfWord
  rw [hcls, hmode, hbudget]
  obtain ⟨cls, mode, budget⟩ := x
  cases mode <;> rfl

end Sys2Proof.Machine

namespace Sys2Proof.Claims

open Sys2Proof.Machine

/-- Settles O51: route entries, group entries, windows and port sets, each by the places of its fields in the words. -/
theorem entryWordsRoundTrip : Obligations.EntryWordsRoundTrip :=
  ⟨routeOfWords_routeWords, groupOfWords_groupWords, windowOfWord_windowWord,
    fun f p => ⟨portsWhere_getLsbD f p, portSet_low_high _⟩⟩

end Sys2Proof.Claims
end

section
/-! The execution of a request at the head of the SRQ, as the statements about requests speak of it, and the generic checks. -/

namespace Sys2Proof.Machine

variable {c : Instr} {s : State} {r : Request} {n need : Nat} {body : Request → State → Reply}

/-- A code other than OK whose answer returns the block as received (R8, R155). -/
def Code.returnsBlock (code : Code) : Bool :=
  code != .ok && code != .badRequest && code != .badLength && code != .srqFull

theorem replyWords_received {code : Code} (h : code.returnsBlock = true) : replyWords r code [] = receivedWords r := by
  cases code <;> first | rfl | cases h

/-- A command of the directory whose own chapter refuses the request. -/
theorem Accepted.refusedWith (h : Accepted s r n need) (hn : requestNeed n = some need)
    (he : exec c s = .next (s.serve (· == n) body)) {code : Code} (hc : code.returnsBlock = true)
    (hb : body r (taken s) = .refuse code) : RefusedWith c s r code := by
  have ha := h.serve_refused hn (· == n) (beq_self_eq_true n) body code hb
  rw [replyWords_received hc] at ha
  exact ⟨_, he, ha⟩

/-- A command of the directory whose own chapter completes the request. -/
theorem Accepted.completesWith (h : Accepted s r n need) (hn : requestNeed n = some need)
    (he : exec c s = .next (s.serve (· == n) body)) {effect : State → Prop} {outputs : State → List (Nat × Word)} {s1 : State}
    (hb : body r (taken s) = .done s1 (outputs s1)) (heffect : effect s1) : CompletesWith c s r effect outputs :=
  ⟨s1, _, he, heffect, h.serve_done hn (· == n) (beq_self_eq_true n) body s1 (outputs s1) hb⟩

/-! ### The generic checks (R153) -/

theorem requestNeed_unknown {n : Nat} (h : n = 0 ∨ 25 ≤ n) : requestNeed n = none := by
  unfold requestNeed
  split <;> first | rfl | omega

theorem genericFailure_unknown (h : r.number.toNat = 0 ∨ 25 ≤ r.number.toNat) : genericFailure r = some .badRequest := by
  unfold genericFailure
  rw [requestNeed_unknown h]

theorem genericFailure_badLength (hn : requestNeed r.number.toNat = some need)
    (h : 24 < r.wordCount ∨ r.wordCount < need ∨ r.payloadLength < 4 + 2 * r.wordCount) :
    genericFailure r = some .badLength := by
  unfold genericFailure
  rw [hn]
  simp only
  split_ifs <;> first | rfl | omega

/-- The head of the SRQ is the request that a command executes when its number is the command's. -/
theorem State.headFor_head (hr : s.resetAsserted = false) (hh : s.sru.srq.head? = some r) (mine : Nat → Bool)
    (hm : mine r.number.toNat = true) : s.headFor mine = some r := by
  obtain ⟨tail, hq⟩ : ∃ tail, s.sru.srq = r :: tail := by
    cases hq : s.sru.srq with
    | nil => simp [hq] at hh
    | cons a tail => simp [hq] at hh; exact ⟨tail, by rw [hh]⟩
  unfold State.headFor
  rw [hr, hq]
  simp [hm]

/-- DATAPATH_RESET is executed as every other request as far as the generic checks go. -/
theorem exec_datapathReset_failed {code : Code} (hr : s.resetAsserted = false) (hh : s.sru.srq.head? = some r)
    (hn : r.number.toNat = 24) (hg : genericFailure r = some code) :
    exec .datapathReset s = .next (Ev.answer ⟨taken s, false, false⟩ r code []).s := by
  show execDatapathReset s = _
  unfold execDatapathReset
  rw [State.headFor_head hr hh _ (by rw [hn]; rfl)]
  simp only [State.executeReset, hg]
  rfl

end Sys2Proof.Machine

namespace Sys2Proof.Claims

open Sys2Proof.Machine

/-- The needs that the generic checks know are those of the directory of 9.8. -/
theorem requestNeed_directory : ∀ e ∈ requestDirectory, requestNeed e.2.1 = some e.2.2 := by decide

/-- Every command of the directory but DATAPATH_RESET serves its number with the body of its own chapter. -/
theorem exec_directory : ∀ e ∈ requestDirectory, e = (.datapathReset, 24, 0) ∨
    ∃ body, ∀ s, exec e.1 s = .next (s.serve (· == e.2.1) body) := by
  intro e he
  by_cases hreset : e = (.datapathReset, 24, 0)
  · exact .inl hreset
  · right
    fin_cases he
    pick_goal 24
    · exact absurd rfl hreset
    all_goals exact ⟨_, fun _ => rfl⟩

/-- Settles O26: the number decides check 1 and the directory's need check 2; either answers without words. -/
theorem genericChecksRefuse : Obligations.GenericChecksRefuse := by
  constructor
  · intro s r hr hh hn
    have hu : unknownNumber r.number.toNat = true := by unfold unknownNumber; rw [requestNeed_unknown hn]; rfl
    exact ⟨_, rfl, serve_failed hr hh unknownNumber hu unknownRequestBody .badRequest (genericFailure_unknown hn)⟩
  · intro c n need s r hmem hr hh hn hbad
    have hneed : requestNeed n = some need := requestNeed_directory _ hmem
    have hg : genericFailure r = some .badLength := genericFailure_badLength (hn ▸ hneed) hbad
    rcases exec_directory _ hmem with hreset | ⟨body, hexec⟩
    · obtain ⟨rfl, rfl, rfl⟩ := hreset
      exact ⟨_, exec_datapathReset_failed hr hh hn hg, Ev.answer_spec (taken s) r .badLength []⟩
    · exact ⟨_, hexec s, serve_failed hr hh (· == n) (by rw [hn]; exact beq_self_eq_true n) body .badLength hg⟩

end Sys2Proof.Claims
end

section
/-! The requests of chapter 6 that write and read schedules (R110, R111, R114). -/

namespace Sys2Proof.Machine

theorem exec_writeSchedule (s : State) : exec .writeSchedule s = .next (s.serve (· == 10) writeScheduleBody) := rfl

theorem exec_readSchedule (s : State) : exec .readSchedule s = .next (s.serve (· == 12) readScheduleBody) := rfl

/-! ### Optional values over the places of a block -/

/-- A list is mapped by an option-valued function to `ys` when each of its elements is mapped to the one in its place. -/
theorem mapM_eq_some {α β : Type} (f : α → Option β) (xs : List α) :
    ∀ ys : List β, xs.mapM f = some ys ↔ xs.map f = ys.map some := by
  induction xs with
  | nil => intro ys; cases ys <;> simp
  | cons x xs ih =>
    intro ys
    cases ys with
    | nil => simp [List.mapM_cons, Option.bind_eq_some_iff]
    | cons y ys => simp [List.mapM_cons, Option.bind_eq_some_iff, ih]

theorem mapM_eq_none {α β : Type} (f : α → Option β) (xs : List α) : xs.mapM f = none ↔ ∃ x ∈ xs, f x = none := by
  induction xs with
  | nil => simp
  | cons x xs ih =>
    cases hx : f x with
    | none => simp [List.mapM_cons, hx]
    | some y =>
      cases hxs : xs.mapM f <;> simp [List.mapM_cons, hx, hxs, ← ih]

theorem mapM_range_eq_some {β : Type} (f : Nat → Option β) (n : Nat) (ys : List β) :
    (List.range n).mapM f = some ys ↔ ys.length = n ∧ ∀ i < n, f i = ys[i]? := by
  rw [mapM_eq_some]
  constructor
  · intro h
    have hlen : ys.length = n := by simpa using (congrArg List.length h).symm
    refine ⟨hlen, fun i hi => ?_⟩
    have := congrArg (·[i]?) h
    simpa [List.getElem?_range hi, List.getElem?_eq_getElem (hlen ▸ hi : i < ys.length)] using this
  · rintro ⟨rfl, h⟩
    refine List.ext_getElem (by simp) fun i hi hi' => ?_
    have hi : i < ys.length := by simpa using hi
    simp [h i hi, List.getElem?_eq_getElem hi]

theorem mapM_range_eq_none {β : Type} (f : Nat → Option β) (n : Nat) :
    (List.range n).mapM f = none ↔ ∃ i < n, f i = none := by
  simp [mapM_eq_none]

/-! ### READ_SCHEDULE (R114) -/

/-- A byte as the lower half of a word. -/
theorem mkWord_zero (b : Byte) : mkWord 0 b = b.setWidth 16 := by revert b; decide

/-- The service byte of word 1: pending and open flags above three zero bits and the window pointer. -/
theorem mkWord_service (n : Byte) (pending isOpen : Bool) (w : BitVec 3) :
    mkWord n (BitVec.ofBool pending ++ BitVec.ofBool isOpen ++ (0 : BitVec 3) ++ w) =
      n ++ BitVec.ofBool pending ++ BitVec.ofBool isOpen ++ (0 : BitVec 3) ++ w := by
  apply BitVec.eq_of_toNat_eq
  unfold mkWord
  simp only [BitVec.toNat_append, Nat.shiftLeft_or_distrib, Nat.or_assoc, ← Nat.shiftLeft_add]

theorem scheduleWords_getD (ws : List Window) {i : Nat} (h : i < 8) :
    (scheduleWords ws).getD i 0 = match ws[i]? with | some x => windowWord x | none => 0 := by
  unfold scheduleWords
  rw [List.getD_eq_getElem?_getD, List.getElem?_map, List.getElem?_range h]
  rfl

variable {r : Request} {s : State}

theorem readScheduleBody_refused (h : 24 ≤ (lo8 (blockWord r 0)).toNat ∨ 2 ≤ (hi8 (blockWord r 0)).toNat) :
    readScheduleBody r s = .refuse .range := by
  unfold readScheduleBody
  rcases Nat.lt_or_ge (lo8 (blockWord r 0)).toNat 24 with hp | hp
  · rw [linkOf_val (p := ⟨_, hp⟩) rfl]
    simp only
    rw [if_pos (by omega)]
  · rw [linkOf_none hp]

theorem readScheduleBody_done {p : Link} (hp : p.val = (lo8 (blockWord r 0)).toNat) (hsel : (hi8 (blockWord r 0)).toNat ≤ 1) :
    readScheduleBody r s =
      let x := s.scheds[p]
      let ws := if hi8 (blockWord r 0) = 0 then x.active else x.staging
      .done s ([(1, BitVec.ofNat 8 ws.length ++ BitVec.ofBool x.pending ++ BitVec.ofBool x.isOpen ++ (0 : BitVec 3) ++
          BitVec.ofNat 3 x.w), (2, BitVec.ofNat 8 x.budget |>.setWidth 16)] ++
        (List.range 8).map fun i => (3 + i, match ws[i]? with | some win => windowWord win | none => 0)) := by
  unfold readScheduleBody
  rw [linkOf_val hp]
  simp only [natByte]
  rw [if_neg (by omega), mkWord_service, mkWord_zero,
    List.map_congr_left fun i hi => congrArg (Prod.mk (3 + i)) (scheduleWords_getD _ (List.mem_range.mp hi))]

/-! ### WRITE_SCHEDULE (R110, R111) -/

theorem windowOfWord_eq_none (w : Word) : windowOfWord w = none ↔ w.extractLsb' 12 2 = 3 := by
  have hmode : ∀ m : BitVec 2, m = 0 ∨ m = 1 ∨ m = 2 ∨ m = 3 := by decide
  unfold windowOfWord
  rcases hmode (w.extractLsb' 12 2) with h | h | h | h <;> simp [h]

theorem any_emptyBudget (ws : List Window) : ws.any emptyBudget = true ↔ ∃ x ∈ ws, x.mode ≠ .drain ∧ x.budget = 0 := by
  simp [emptyBudget]

theorem mixesFixedAndDrain_iff (ws : List Window) :
    mixesFixedAndDrain ws = true ↔ (∃ x ∈ ws, x.mode = .fixed) ∧ ∃ x ∈ ws, x.mode = .drain := by
  simp [mixesFixedAndDrain]

/-- A schedule that a port may hold passes checks 4 and 5 (R97, R111). -/
theorem scheduleWf_passes {ws : List Window} (h : scheduleWf ws = true) :
    ws.any emptyBudget = false ∧ mixesFixedAndDrain ws = false := by
  unfold scheduleWf at h
  simp only [Bool.and_eq_true, Bool.not_eq_true'] at h
  obtain ⟨⟨_, hall⟩, hmixed⟩ := h
  refine ⟨?_, hmixed⟩
  rw [← Bool.not_eq_true, any_emptyBudget]
  rintro ⟨x, hx, hmode, hbudget⟩
  have hwf := List.all_eq_true.mp hall x hx
  simp [windowWf, hmode, hbudget] at hwf

theorem writeScheduleBody_outOfRange (h : 24 ≤ (lo8 (blockWord r 0)).toNat ∨ (hi8 (blockWord r 0)).toNat = 0 ∨
    8 < (hi8 (blockWord r 0)).toNat) : writeScheduleBody r s = .refuse .range := by
  unfold writeScheduleBody
  rcases Nat.lt_or_ge (lo8 (blockWord r 0)).toNat 24 with hp | hp
  · rw [linkOf_val (p := ⟨_, hp⟩) rfl]
    simp only
    rw [if_pos (by omega)]
  · rw [linkOf_none hp]

section inRange

variable {p : Link} (hp : p.val = (lo8 (blockWord r 0)).toNat) (h1 : 1 ≤ (hi8 (blockWord r 0)).toNat)
  (h8 : (hi8 (blockWord r 0)).toNat ≤ 8)
include hp h1 h8

/-- A window of mode 3 fails check 3 (R111). -/
theorem writeScheduleBody_modeThree (h : givenWindows r (hi8 (blockWord r 0)).toNat = none) :
    writeScheduleBody r s = .refuse .badParam := by
  unfold writeScheduleBody
  rw [linkOf_val hp]
  simp only [h]
  exact if_neg (by omega)

/-- WRITE_SCHEDULE with windows that can be read: checks 4 to 6, then the staging schedule (R111). -/
theorem writeScheduleBody_given {ws : List Window} (h : givenWindows r (hi8 (blockWord r 0)).toNat = some ws) :
    writeScheduleBody r s =
      if ws.any emptyBudget then .refuse .badParam
      else if mixesFixedAndDrain ws then .refuse .badParam
      else if s.scheds[p].pending then .refuse .schedulePending
      else .done (s.modSched p fun x => { x with staging := ws }) [] := by
  unfold writeScheduleBody
  rw [linkOf_val hp]
  simp only [h]
  exact if_neg (by omega)

end inRange

end Sys2Proof.Machine

namespace Sys2Proof.Claims

open Sys2Proof.Machine

/-- Settles O40: a port or selector out of range, and otherwise the selected schedule with the service state. -/
theorem readScheduleReturnsTheService : Obligations.ReadScheduleReturnsTheService := fun _ _ h =>
  ⟨fun hbad => h.refusedWith rfl (exec_readSchedule _) rfl (readScheduleBody_refused hbad),
    fun _ hp hsel => h.completesWith rfl (exec_readSchedule _) (readScheduleBody_done hp hsel) rfl⟩

/-- Settles O38: the checks of R111 in their order, then the staging schedule of the port. -/
theorem writeScheduleStagesASchedule : Obligations.WriteScheduleStagesASchedule := by
  intro s r h n port
  have refused {code : Code} (hc : code.returnsBlock = true) (hb : writeScheduleBody r (taken s) = .refuse code) :
      RefusedWith .writeSchedule s r code := h.refusedWith rfl (exec_writeSchedule s) hc hb
  refine ⟨fun hbad => refused rfl (writeScheduleBody_outOfRange hbad), fun hport h1 h8 hmode => ?_,
    fun p ws hp h1 h8 hlen hws => ?_⟩
  · have hgiven : givenWindows r n = none :=
      (mapM_range_eq_none _ n).mpr (hmode.imp fun i hi => ⟨hi.1, (windowOfWord_eq_none _).mpr hi.2⟩)
    exact refused rfl (writeScheduleBody_modeThree (p := ⟨port, hport⟩) rfl h1 h8 hgiven)
  · have hgiven : givenWindows r n = some ws := (mapM_range_eq_some _ n ws).mpr ⟨hlen, hws⟩
    have hbody := writeScheduleBody_given (s := taken s) hp h1 h8 hgiven
    refine ⟨fun hbad => ?_, fun hwf hpending => ?_, fun hwf hpending => ?_⟩
    · refine refused rfl ?_
      rw [hbody]
      by_cases hbudget : ws.any emptyBudget = true
      · rw [if_pos hbudget]
      · have hmixed : mixesFixedAndDrain ws = true :=
          (mixesFixedAndDrain_iff ws).mpr (hbad.resolve_left fun e => hbudget ((any_emptyBudget ws).mpr e))
        rw [if_neg hbudget, if_pos hmixed]
    · obtain ⟨hbudget, hmixed⟩ := scheduleWf_passes hwf
      refine refused rfl ?_
      rw [hbody, hbudget, hmixed]
      exact if_pos hpending
    · obtain ⟨hbudget, hmixed⟩ := scheduleWf_passes hwf
      refine h.completesWith rfl (exec_writeSchedule s) ?_ (SchedulerBecomes.of_mod (taken s) p fun x => { x with staging := ws })
      rw [hbody, hbudget, hmixed]
      exact if_neg (Bool.eq_false_iff.mp hpending)

end Sys2Proof.Claims
end

section
/-! WRITE_ROUTE and WRITE_GROUP: the run of entries that a request gives, and its place in the staging bank (R131, R133). -/

namespace Sys2Proof.Machine

/-! ### Banks by their roles (R130) -/

theorem TableControl.bank_setBank (t : TableControl) (i j : BankId) (b : Bank) :
    (t.setBank i b).bank j = if j = i then b else t.bank j := by
  cases i <;> cases j <;> rfl

theorem TableControl.setBank_keeps (t : TableControl) (i : BankId) (b : Bank) :
    (t.setBank i b).active = t.active ∧ (t.setBank i b).commit = t.commit ∧ (t.setBank i b).epoch = t.epoch := by
  cases i <;> exact ⟨rfl, rfl, rfl⟩

theorem BankId.ne_other (i : BankId) : i ≠ i.other := by cases i <;> decide

/-- The state with its staging bank replaced. -/
def State.withStaging (s : State) (b : Bank) : State := { s with tables := s.tables.setBank s.tables.staging b }

theorem stagingBank_withStaging (s : State) (b : Bank) : stagingBank (s.withStaging b).tables = b := by
  have hactive : (s.withStaging b).tables.active = s.tables.active := (TableControl.setBank_keeps ..).1
  unfold stagingBank TableControl.staging
  rw [hactive]
  exact (TableControl.bank_setBank ..).trans (if_pos rfl)

theorem activeBank_withStaging (s : State) (b : Bank) : activeBank (s.withStaging b).tables = activeBank s.tables := by
  have hactive : (s.withStaging b).tables.active = s.tables.active := (TableControl.setBank_keeps ..).1
  unfold activeBank
  rw [hactive]
  exact (TableControl.bank_setBank ..).trans (if_neg (BankId.ne_other _))

/-! ### A route entry read from its words (R11) -/

theorem linkOf_eq_none (b : Byte) : linkOf b = none ↔ 24 ≤ b.toNat := by simp [linkOf]

theorem routeKindOf_eq_unicast (b : BitVec 2) : routeKindOf b = .unicast ↔ b = 1 := by revert b; decide

theorem routeOfWords_eq_none (w0 w1 w2 : Word) :
    routeOfWords w0 w1 w2 = none ↔ 24 ≤ (hi8 w1).toNat ∨ 24 ≤ (lo8 w1).toNat := by
  rw [← linkOf_eq_none, ← linkOf_eq_none]
  cases hp : linkOf (hi8 w1) with
  | none => simp [routeOfWords, hp]
  | some primary =>
    cases ha : linkOf (lo8 w1) with
    | none => simp [routeOfWords, hp, ha]
    | some alternate => simp [routeOfWords_of_ports hp ha]

/-- Check 5 of R131, on the words of the entry. -/
theorem sameAlternate_of_words {w0 w1 w2 : Word} {e : RouteEntry} (h : routeOfWords w0 w1 w2 = some e) :
    sameAlternate e = true ↔ w0.extractLsb' 14 2 = 1 ∧ w0.getLsbD 13 = true ∧ hi8 w1 = lo8 w1 := by
  have hports : ¬ (24 ≤ (hi8 w1).toNat ∨ 24 ≤ (lo8 w1).toNat) := by rw [← routeOfWords_eq_none, h]; exact Option.some_ne_none e
  have hp : linkOf (hi8 w1) = some ⟨(hi8 w1).toNat, by omega⟩ := linkOf_val rfl
  have ha : linkOf (lo8 w1) = some ⟨(lo8 w1).toNat, by omega⟩ := linkOf_val rfl
  rw [routeOfWords_of_ports hp ha] at h
  cases h
  have hbytes : (lo8 w1).toNat = (hi8 w1).toNat ↔ hi8 w1 = lo8 w1 := BitVec.toNat_inj.trans eq_comm
  simp only [sameAlternate, Bool.and_eq_true, beq_iff_eq, decide_eq_true_eq, Fin.mk.injEq, routeKindOf_eq_unicast, hbytes,
    and_assoc]

end Sys2Proof.Machine

namespace Sys2Proof.Claims

open Sys2Proof.Machine

section bodies
variable {r : Request} {s : State}

theorem exec_writeRoute (s : State) : exec .writeRoute s = .next (s.serve (· == 2) writeRouteBody) := rfl

theorem exec_writeGroup (s : State) : exec .writeGroup s = .next (s.serve (· == 4) writeGroupBody) := rfl

/-- Only the staging bank is replaced (R130). -/
theorem StagingWritten.withStaging (s : State) (b : Bank) : StagingWritten s (s.withStaging b) := by
  obtain ⟨hactive, hcommit, hepoch⟩ := TableControl.setBank_keeps s.tables s.tables.staging b
  exact ⟨rfl, hactive, hcommit, hepoch, activeBank_withStaging s b⟩

/-! ### The run of entries that a request gives -/

theorem runOutOfRange_iff (r : Request) (size : Nat) :
    runOutOfRange (firstIndex r) (entryCount r) size = true ↔ ¬ RunFits r size := by
  simp only [runOutOfRange, RunFits, Bool.or_eq_true, decide_eq_true_eq]
  omega

theorem RunFits.inRange {size : Nat} (h : RunFits r size) : runOutOfRange (firstIndex r) (entryCount r) size = false :=
  Bool.eq_false_iff.mpr fun e => (runOutOfRange_iff r size).mp e h

theorem entryWords_eq (r : Request) (j : Nat) : entryWords r j = (entryWord r j 0, entryWord r j 1, entryWord r j 2) := by
  have h1 : 3 + 3 * j = 2 + 3 * j + 1 := by omega
  have h2 : 4 + 3 * j = 2 + 3 * j + 2 := by omega
  unfold entryWords
  rw [h1, h2]
  rfl

theorem givenRoutes_eq_some (r : Request) (es : List RouteEntry) : givenRoutes r (entryCount r) = some es ↔
    es.length = entryCount r ∧
      ∀ j < entryCount r, routeOfWords (entryWord r j 0) (entryWord r j 1) (entryWord r j 2) = es[j]? := by
  unfold givenRoutes
  simp only [entryWords_eq]
  exact mapM_range_eq_some _ _ _

theorem givenRoutes_eq_none (r : Request) : givenRoutes r (entryCount r) = none ↔ ∃ j < entryCount r, BadPort r j := by
  unfold givenRoutes
  simp only [entryWords_eq, mapM_range_eq_none, routeOfWords_eq_none]
  rfl

/-- Check 5 of R131 over the given entries. -/
theorem any_sameAlternate {es : List RouteEntry} (h : givenRoutes r (entryCount r) = some es) :
    es.any sameAlternate = true ↔ ∃ j < entryCount r, BadAlternate r j := by
  obtain ⟨hlen, hes⟩ := (givenRoutes_eq_some r es).mp h
  have hentry : ∀ (j : Nat) (hj : j < es.length), sameAlternate es[j] = true ↔ BadAlternate r j := fun j hj =>
    sameAlternate_of_words ((hes j (hlen ▸ hj)).trans (List.getElem?_eq_getElem hj))
  rw [List.any_eq_true, ← hlen]
  constructor
  · rintro ⟨e, he, hsame⟩
    obtain ⟨j, hj, rfl⟩ := List.getElem_of_mem he
    exact ⟨j, hj, (hentry j hj).mp hsame⟩
  · rintro ⟨j, hj, hbad⟩
    exact ⟨es[j], List.getElem_mem hj, (hentry j hj).mpr hbad⟩

theorem givenGroups_getElem? (r : Request) {j : Nat} (h : j < entryCount r) : (givenGroups r (entryCount r))[j]? =
    some (groupOfWords (entryWord r j 0) (entryWord r j 1) (entryWord r j 2)) := by
  unfold givenGroups
  rw [List.getElem?_map, List.getElem?_range h, Option.map_some, entryWords_eq]

theorem givenGroups_length (r : Request) : (givenGroups r (entryCount r)).length = entryCount r := by simp [givenGroups]

/-- A run of entries stored in a table in canonical form, read entry by entry. -/
theorem tableGet_fill_run {α : Type} [DecidableEq α] (d : α) {t : List (Nat × α)} (ht : tableWf d t = true) (vs : List α)
    (first k : Nat) : tableGet d (tableFill d t first vs) k =
      if first ≤ k ∧ k < first + vs.length then vs.getD (k - first) d else tableGet d t k := by
  rw [tableGet_fill d vs t first k ht]
  by_cases hlow : first ≤ k
  · by_cases hhigh : k < first + vs.length
    · have hk : k - first < vs.length := by omega
      rw [if_pos hlow, if_pos ⟨hlow, hhigh⟩, List.getD_eq_getElem _ _ hk, List.getD_eq_getElem _ _ hk]
    · rw [if_pos hlow, if_neg fun e => hhigh e.2, List.getD_eq_default _ _ (by omega)]
  · rw [if_neg hlow, if_neg fun e => hlow e.1]

/-! ### WRITE_ROUTE (R131) -/

/-- Checks 1 to 3: a run out of range. -/
theorem writeRouteBody_outOfRange (h : ¬ RunFits r 4096) : writeRouteBody r s = .refuse .range :=
  if_pos ((runOutOfRange_iff r 4096).mpr h)

/-- Check 4: a port field out of range. -/
theorem writeRouteBody_badPort (hfits : RunFits r 4096) (h : ∃ j < entryCount r, BadPort r j) :
    writeRouteBody r s = .refuse .range := by
  have hgiven := (givenRoutes_eq_none r).mpr h
  unfold entryCount at hgiven
  unfold writeRouteBody
  simp only [hgiven]
  exact if_neg (Bool.eq_false_iff.mp hfits.inRange)

/-- Check 5: an alternate equal to its primary. -/
theorem writeRouteBody_badAlternate (hfits : RunFits r 4096) {es : List RouteEntry}
    (hgiven : givenRoutes r (entryCount r) = some es) (h : es.any sameAlternate = true) :
    writeRouteBody r s = .refuse .badParam := by
  unfold entryCount at hgiven
  unfold writeRouteBody
  simp only [hgiven, h, if_true]
  exact if_neg (Bool.eq_false_iff.mp hfits.inRange)

/-- Checks 6 and 7: a commit in progress. -/
theorem writeRouteBody_commit (hfits : RunFits r 4096) {es : List RouteEntry} (hgiven : givenRoutes r (entryCount r) = some es)
    (h : es.any sameAlternate = false) {code : Code} (hcommit : stagingWriteRefusal s.tables.commit = some code) :
    writeRouteBody r s = .refuse code := by
  unfold entryCount at hgiven
  unfold writeRouteBody
  simp only [hgiven, h, hcommit, Bool.false_eq_true, if_false]
  exact if_neg (Bool.eq_false_iff.mp hfits.inRange)

/-- The given entries stored from the first index on. -/
theorem writeRouteBody_stores (hfits : RunFits r 4096) {es : List RouteEntry} (hgiven : givenRoutes r (entryCount r) = some es)
    (h : es.any sameAlternate = false) (hcommit : s.tables.commit = .idle) :
    writeRouteBody r s = .done (s.withStaging { stagingBank s.tables with
      routes := tableFill unusedRoute (stagingBank s.tables).routes (firstIndex r) es }) [] := by
  unfold entryCount at hgiven
  unfold writeRouteBody
  simp only [hgiven, h, hcommit, stagingWriteRefusal, Bool.false_eq_true, if_false]
  exact if_neg (Bool.eq_false_iff.mp hfits.inRange)

/-! ### WRITE_GROUP (R133) -/

theorem writeGroupBody_outOfRange (h : ¬ RunFits r 1024) : writeGroupBody r s = .refuse .range :=
  if_pos ((runOutOfRange_iff r 1024).mpr h)

theorem writeGroupBody_commit (hfits : RunFits r 1024) {code : Code} (hcommit : stagingWriteRefusal s.tables.commit = some code) :
    writeGroupBody r s = .refuse code := by
  unfold writeGroupBody
  simp only [hcommit]
  exact if_neg (Bool.eq_false_iff.mp hfits.inRange)

theorem writeGroupBody_stores (hfits : RunFits r 1024) (hcommit : s.tables.commit = .idle) :
    writeGroupBody r s = .done (s.withStaging { stagingBank s.tables with
      groups := tableFill emptyGroup (stagingBank s.tables).groups (firstIndex r) (givenGroups r (entryCount r)) }) [] := by
  unfold writeGroupBody
  simp only [hcommit, stagingWriteRefusal]
  exact if_neg (Bool.eq_false_iff.mp hfits.inRange)

end bodies

/-! ### The two statements -/

/-- Settles O31: the checks of R131 in their order, then the entries by their places in the staging bank. -/
theorem writeRouteStoresInTheStagingBank : Obligations.WriteRouteStoresInTheStagingBank := by
  intro s r h
  have refused {code : Code} (hc : code.returnsBlock = true) (hb : writeRouteBody r (taken s) = .refuse code) :
      RefusedWith .writeRoute s r code := h.refusedWith rfl (exec_writeRoute s) hc hb
  have given (hports : ∀ j < entryCount r, ¬ BadPort r j) : ∃ es, givenRoutes r (entryCount r) = some es := by
    refine Option.ne_none_iff_exists'.mp fun hnone => ?_
    obtain ⟨j, hj, hbad⟩ := (givenRoutes_eq_none r).mp hnone
    exact hports j hj hbad
  have noneSame {es : List RouteEntry} (hgiven : givenRoutes r (entryCount r) = some es)
      (halt : ∀ j < entryCount r, ¬ BadAlternate r j) : es.any sameAlternate = false := by
    refine Bool.eq_false_iff.mpr fun hany => ?_
    obtain ⟨j, hj, hbad⟩ := (any_sameAlternate hgiven).mp hany
    exact halt j hj hbad
  refine ⟨fun es hfits hlen hes halt hcommit hwf => ?_, fun hbad => ?_, fun hfits hbad => ?_, fun hfits hports hbad => ?_,
    fun hfits hgood => ?_⟩
  · have hgiven := (givenRoutes_eq_some r es).mpr ⟨hlen, hes⟩
    refine h.completesWith rfl (exec_writeRoute s)
      (writeRouteBody_stores (s := taken s) hfits hgiven (noneSame hgiven halt) hcommit)
      ⟨StagingWritten.withStaging _ _, ?_, fun k => ?_⟩
    · rw [stagingBank_withStaging]
      rfl
    · rw [stagingBank_withStaging, ← hlen]
      exact tableGet_fill_run unusedRoute hwf.1 es (firstIndex r) k
  · exact refused rfl (writeRouteBody_outOfRange hbad)
  · exact refused rfl (writeRouteBody_badPort hfits hbad)
  · obtain ⟨es, hgiven⟩ := given hports
    exact refused rfl (writeRouteBody_badAlternate hfits hgiven ((any_sameAlternate hgiven).mpr hbad))
  · obtain ⟨es, hgiven⟩ := given fun j hj => (hgood j hj).1
    have hsame := noneSame hgiven fun j hj => (hgood j hj).2
    exact ⟨fun x hx => refused rfl (writeRouteBody_commit (s := taken s) hfits hgiven hsame (congrArg stagingWriteRefusal hx)),
      fun x hx => refused rfl (writeRouteBody_commit (s := taken s) hfits hgiven hsame (congrArg stagingWriteRefusal hx))⟩

/-- Settles O32: the checks of R133 in their order, then the entries by their places in the staging bank. -/
theorem writeGroupStoresInTheStagingBank : Obligations.WriteGroupStoresInTheStagingBank := by
  intro s r h
  have refused {code : Code} (hc : code.returnsBlock = true) (hb : writeGroupBody r (taken s) = .refuse code) :
      RefusedWith .writeGroup s r code := h.refusedWith rfl (exec_writeGroup s) hc hb
  refine ⟨fun hfits hcommit hwf => ?_, fun hbad => ?_, fun hfits x hx => ?_, fun hfits x hx => ?_⟩
  · obtain ⟨_, _, hgroups, _⟩ := hwf
    refine h.completesWith rfl (exec_writeGroup s) (writeGroupBody_stores (s := taken s) hfits hcommit)
      ⟨StagingWritten.withStaging _ _, ?_, fun k => ?_⟩
    · rw [stagingBank_withStaging]
      rfl
    · rw [stagingBank_withStaging]
      refine (tableGet_fill_run emptyGroup hgroups _ (firstIndex r) k).trans ?_
      rw [givenGroups_length]
      refine ite_congr rfl (fun hk => ?_) fun _ => rfl
      rw [List.getD_eq_getElem?_getD, givenGroups_getElem? r (by omega), Option.getD_some]
  · exact refused rfl (writeGroupBody_outOfRange hbad)
  · exact refused rfl (writeGroupBody_commit (s := taken s) hfits (congrArg stagingWriteRefusal hx))
  · exact refused rfl (writeGroupBody_commit (s := taken s) hfits (congrArg stagingWriteRefusal hx))

end Sys2Proof.Claims
end

section
/-! What an egress slot leaves in `tx`: the cell it sends on its own link, and no other transmitter touched (R1, R3, R5). -/

namespace Sys2Proof.Machine

/-! ### What leaves `tx` alone -/

theorem NoticeEffects.tx {s t : State} (h : NoticeEffects s t) : t.tx = s.tx := by rw [h.frame]

@[simp] theorem State.count_tx (s : State) (p : Link) (c : Counter) : (s.count p c).tx = s.tx := (s.count_effects p c).tx

@[simp] theorem State.applyStaging_tx (s : State) (p : Link) : (s.applyStaging p).tx = s.tx :=
  (State.notify_effects ..).tx

@[simp] theorem State.removeHead_tx (s : State) (p : Link) (c : Class) : (s.removeHead p c).tx = s.tx := by
  cases h : s.queue p c with
  | nil => unfold State.removeHead; rw [h]
  | cons b rest => rw [(s.removeHead_spec p c b rest h).frame]

@[simp] theorem State.advanceWindow_tx (s : State) (p : Link) (w : Nat) : (s.advanceWindow p w).tx = s.tx := by
  unfold State.advanceWindow
  simp only
  split_ifs <;> simp

@[simp] theorem State.spendBudget_tx (s : State) (p : Link) (w b : Nat) : (s.spendBudget p w b).tx = s.tx := by
  unfold State.spendBudget
  split_ifs <;> simp

/-! ### One cell sent on one link -/

/-- A header with its right check and zeros in the reserved bits (R1, R3). -/
def CheckedHeader (h : Vector Byte 8) : Prop :=
  headerCheck h = h[7] ∧ h[2].extractLsb' 0 4 = 0 ∧ h[5].extractLsb' 6 2 = 0

theorem CheckedHeader.encode (h : Header) : CheckedHeader (encodeHeader h) := ⟨headerCheck_encodeHeader h, encodeHeader_reserved h⟩

/-- From `s` to `t` link p's transmitter has sent a cell with a right header or gone quiet, and no other has changed. -/
def SlotSent (p : Link) (s t : State) : Prop :=
  (∀ x, t.tx[p] = some x → CheckedHeader x.header) ∧ ∀ q : Link, q ≠ p → t.tx[q] = s.tx[q]

variable {s m t : State} {p : Link}

theorem SlotSent.congr (h : SlotSent p s m) (ht : t.tx = m.tx) : SlotSent p s t := by
  unfold SlotSent
  rw [ht]
  exact h

theorem SlotSent.after (h : SlotSent p m t) (hm : m.tx = s.tx) : SlotSent p s t := by
  unfold SlotSent
  rw [← hm]
  exact h

theorem SlotSent.of_sent {cell : Cell} {cls : Class} (h : Sent s t p cell cls) : SlotSent p s t := by
  refine ⟨fun x hx => ?_, h.others⟩
  rw [h.header] at hx
  cases hx
  exact CheckedHeader.encode _

theorem State.setTx_slotSent (s : State) (p : Link) : SlotSent p s (s.setTx p none) := by
  refine ⟨fun x hx => ?_, fun q hq => upd_other _ _ _ _ hq⟩
  rw [State.setTx_tx, upd_same] at hx
  cases hx

theorem State.sendIdle_slotSent (s : State) (p : Link) : SlotSent p s (s.sendIdle p) := .of_sent (State.transmit_spec ..)

theorem State.sendStatus_slotSent (s : State) (p : Link) : SlotSent p s (s.sendStatus p) :=
  (SlotSent.of_sent (State.transmit_spec s p (statusCell s.sru.elementId s.cmap s.sharedFree) 0)).congr (State.count_tx ..)

theorem State.sendHead_slotSent (s : State) (p : Link) (c : Class) (h : s.queue p c ≠ []) : SlotSent p s (s.sendHead p c) := by
  obtain ⟨b, rest, hq⟩ := List.exists_cons_of_ne_nil h
  obtain ⟨m, n, hm, hn, ht⟩ := s.sendHead_spec p c b rest hq
  exact ((SlotSent.of_sent hn).congr ht.effects.tx).after (by rw [hm.frame])

/-! ### The service of a schedule (R101 to R107) -/

theorem State.busyClasses_iff (s : State) (p : Link) (c : Class) : (s.busyClasses p)[c] = true ↔ s.queue p c ≠ [] := by
  simp [State.busyClasses]

/-- A pass finds no window whose queue is empty. -/
theorem windowPass_found_busy (ws : List Window) (busy : Vector Bool 4) (pending : Bool) {v d : Nat} (left : Nat) :
    ∀ (w : Nat) (isOpen : Bool) (b : Nat), windowPass ws busy pending left w isOpen b = .found v d →
      busy[(windowAt ws v).cls] = true := by
  induction left with
  | zero => intro w isOpen b h; cases h
  | succ left ih =>
    intro w isOpen b h
    rw [windowPass] at h
    by_cases hbusy : busy[(windowAt ws w).cls] = true
    · rw [if_pos hbusy] at h
      cases h
      exact hbusy
    · rw [if_neg hbusy] at h
      split_ifs at h
      · exact ih _ _ _ h
      · exact ih _ _ _ h

/-- A pass under a schedule without the pending flag never ends at a wrap (R107). -/
theorem windowPass_not_wrapped (ws : List Window) (busy : Vector Bool 4) (left : Nat) :
    ∀ (w : Nat) (isOpen : Bool) (b : Nat), windowPass ws busy false left w isOpen b ≠ .wrapped := by
  induction left with
  | zero => intro w isOpen b h; cases h
  | succ left ih =>
    intro w isOpen b h
    rw [windowPass] at h
    simp only [Bool.false_eq_true, if_false] at h
    split_ifs at h
    · exact ih _ _ _ h
    · exact ih _ _ _ h

theorem State.fixedSlot_slotSent (s : State) (p : Link) : SlotSent p s (s.fixedSlot p) := by
  unfold State.fixedSlot
  simp only
  refine SlotSent.congr ?_ (State.spendBudget_tx ..)
  split_ifs with hempty
  · exact s.sendIdle_slotSent p
  · exact s.sendHead_slotSent p _ fun e => hempty (by rw [e]; rfl)

theorem State.foundSlot_slotSent (s : State) (p : Link) (w b : Nat) (h : s.queue p (windowAt s.scheds[p].active w).cls ≠ []) :
    SlotSent p s (s.foundSlot p w b) := by
  have hsent := s.sendHead_slotSent p _ h
  unfold State.foundSlot
  simp only
  split
  · exact hsent.congr rfl
  · exact hsent.congr (State.spendBudget_tx ..)
  · exact hsent.congr (State.spendBudget_tx ..)

theorem State.idleSlot_slotSent (s : State) (p : Link) : SlotSent p s (s.idleSlot p) := by
  refine (s.sendIdle_slotSent p).congr ?_
  unfold State.idleSlot
  simp only
  split_ifs <;> simp

theorem State.applyStaging_pending (s : State) (p : Link) : (s.applyStaging p).scheds[p].pending = false := by
  obtain ⟨m, ⟨_, hm⟩, ht⟩ := s.applyStaging_spec p
  have hscheds : (s.applyStaging p).scheds = m.scheds := by rw [ht.effects.frame]
  rw [hscheds, hm, if_pos rfl]

/-- A served slot with rounds enough for a wrap in each, of which the pending flag allows one (R107). -/
theorem State.servedSlot_slotSent (p : Link) (rounds : Nat) :
    ∀ s : State, (if s.scheds[p].pending then 2 else 1) ≤ rounds → SlotSent p s (State.servedSlot p rounds s) := by
  induction rounds with
  | zero => intro s h; split_ifs at h <;> omega
  | succ rounds ih =>
    intro s h
    unfold State.servedSlot
    simp only
    split_ifs with hfixed
    · exact s.fixedSlot_slotSent p
    · split
      next w b hpass =>
        exact s.foundSlot_slotSent p w b ((s.busyClasses_iff p _).mp (windowPass_found_busy _ _ _ _ _ _ _ hpass))
      next hpass => exact s.idleSlot_slotSent p
      next hpass =>
        have hpending : s.scheds[p].pending = true := by
          by_contra hp
          rw [Bool.eq_false_iff.mpr hp] at hpass
          exact windowPass_not_wrapped _ _ _ _ _ _ hpass
        rw [if_pos hpending] at h
        refine (ih (s.applyStaging p) ?_).after (State.applyStaging_tx s p)
        rw [State.applyStaging_pending]
        exact Nat.le_of_succ_le_succ h

/-! ### The egress slot (R13, R98) -/

theorem State.slotUp_slotSent (s : State) (p : Link) : SlotSent p s (s.slotUp p) := by
  unfold State.slotUp
  simp only
  refine SlotSent.after (m := s.modSender p slotCountsRise) ?_ (State.modSender_tx ..)
  split_ifs
  · exact State.sendStatus_slotSent ..
  · exact State.sendIdle_slotSent ..
  · exact State.servedSlot_slotSent p 2 _ (by split_ifs <;> decide)

theorem State.egress_slotSent (s : State) (p : Link) : SlotSent p s (s.egress p) := by
  unfold State.egress
  by_cases hreset : s.resetAsserted = true
  · rw [if_pos hreset]
    exact s.setTx_slotSent p
  · rw [if_neg hreset]
    cases s.links[p].state with
    | up => exact s.slotUp_slotSent p
    | training =>
      show SlotSent p s (if s.links[p].acknowledged then s.sendIdle p else s.transmit p trainCell 0)
      split_ifs
      · exact s.sendIdle_slotSent p
      · exact .of_sent (State.transmit_spec ..)
    | disabled => exact s.setTx_slotSent p
    | holdoff => exact s.setTx_slotSent p
    | failed => exact s.setTx_slotSent p

end Sys2Proof.Machine

namespace Sys2Proof.Claims

open Sys2Proof.Machine

theorem exec_egressSlot (s : State) (p : Link) : exec (.egressSlot p) s = .next (s.egress p) := rfl

/-- Settles O16: every path of an egress slot ends in one transmission on its link, or in a quiet transmitter. -/
theorem sentCellsCarryARightCheck : Obligations.SentCellsCarryARightCheck := by
  intro s t p h
  rw [exec_egressSlot] at h
  cases h
  exact s.egress_slotSent p

end Sys2Proof.Claims
end

section
/-! A forwarding event up to the SRU: the arbiter's choice (R52), the entry taken (R42, R45, R51) and the target match (R145). -/

namespace Sys2Proof.Machine

/-! ### The arbiter and the entry taken -/

theorem arbiterOrder_getElem (l : Link) (i : Nat) (h : i < (arbiterOrder l).length) :
    ((arbiterOrder l)[i]).val = (l.val + 1 + i) % 24 := by
  simp [arbiterOrder, Fin.val_add]

theorem NextWaiting.chosenLink {s : State} {p : Link} (h : NextWaiting s p) : s.chosenLink = some p := by
  obtain ⟨i, hi, hp, hwaits, hbefore⟩ := h
  have hlen : (arbiterOrder s.arbiter).length = 24 := by simp [arbiterOrder]
  unfold State.chosenLink
  rw [List.find?_eq_some_iff_getElem]
  refine ⟨by simpa using hwaits, i, by omega, Fin.ext ((arbiterOrder_getElem ..).trans hp.symm), fun j hj => ?_⟩
  have hempty := hbefore j hj _ (arbiterOrder_getElem s.arbiter j (by omega))
  simpa using hempty

theorem ownHoldAfter_eq (occupancy : Nat) (held : Bool) : ownHoldAfter occupancy held = holdFlag occupancy held := by
  match occupancy with
  | 0 => rfl
  | 1 => rfl
  | 2 => rfl
  | n + 3 => rfl

theorem State.takeEntry_spec (s : State) (p : Link) (e : FifoEntry) (rest : List FifoEntry) :
    EntryTaken p e rest s (s.takeEntry p e rest) := by
  refine ⟨rfl, fun q => ?_, fun q => ?_⟩
  · refine (upd_get s.fifos p q _).trans ?_
    by_cases hq : q = p
    · subst hq; rfl
    · rw [if_neg hq, if_neg hq]
  · refine (upd_get s.links p q _).trans ?_
    by_cases hq : q = p
    · subst hq; rw [if_pos rfl, if_pos rfl, ← ownHoldAfter_eq]; rfl
    · rw [if_neg hq, if_neg hq]

/-- A forwarding event that takes an entry acts on its cell (R52, R53). -/
theorem Forwards.exec {s : State} {p : Link} {e : FifoEntry} {rest : List FifoEntry} (h : Forwards s p e rest) :
    exec .forwardingEvent s = .next ((s.takeEntry p e rest).forwardCell p e.cell) := by
  show Host.Outcome.next s.forward = _
  unfold State.forward
  rw [h.running, h.chosen.chosenLink]
  simp only [h.head]
  rfl

/-! ### The SRU's part (R145, R149) -/

theorem Sru.addressMatches_iff (x : Sru) (target : Byte) : x.addressMatches target = true ↔ TargetMatches x target := by
  unfold Sru.addressMatches TargetMatches
  by_cases h : target = 255
  · rw [if_pos h, if_pos h]
  · rw [if_neg h, if_neg h, decide_eq_true_eq]
    have hbit : ∀ t e m : Bool, ((t ^^ e) && !m) = false ↔ (m = false → t = e) := by decide
    rw [BitVec.eq_of_getLsbD_eq_iff]
    refine forall_congr' fun i => forall_congr' fun hi => ?_
    rw [← hbit, BitVec.getLsbD_and, BitVec.getLsbD_xor, BitVec.getLsbD_not]
    simp [hi]

theorem payloadByte_eq (c : Cell) (i : Nat) (h : i < 56) : payloadByte c i = c.payload[i] := by
  simp [payloadByte, h]

theorem Stored.sru {s t : State} {cell : Cell} {c : Class} {vs : List (Link × Verdict)} (h : Stored s t cell c vs) :
    t.sru = s.sru := by rw [h.frame]

theorem NoticeEffects.sru {s t : State} (h : NoticeEffects s t) : t.sru = s.sru := by rw [h.frame]

theorem Responded.sru {s t : State} {r : Request} {code : Code} {words : List Word} (h : Responded s t r code words) :
    t.sru = s.sru := by
  obtain ⟨m, hm, hadmitted, hrefused⟩ := h
  cases hv : (s.verdict s.bm.shared r.port 0).admits with
  | true => rw [hadmitted hv, hm.sru]
  | false => rw [(hrefused hv).1.sru, hm.sru]

/-- A matching request handed to the SRU is queued or refused by the room of the SRQ. -/
theorem State.handToSru_match {s : State} {p : Link} {c : Cell} (h : TargetMatches s.sru (targetOf c)) :
    s.handToSru p c = s.queueRequest (requestOf p c) := if_pos ((Sru.addressMatches_iff _ _).mpr h)

theorem State.queueRequest_full {s : State} (r : Request) (h : s.sru.srq.length = 4) :
    s.queueRequest r = (Ev.respond ⟨s, false, false⟩ r .srqFull []).s.notify .srqOverflow (overflowDetail r.port r.number r.tag) :=
  if_neg (by rw [h]; decide)

theorem State.forwardCell_mgmtReq (s : State) (p : Link) {c : Cell} (h : cellType c = .mgmtReq) :
    s.forwardCell p c = s.handToSru p c := by
  unfold cellType at h
  unfold State.forwardCell
  rw [h]

end Sys2Proof.Machine

namespace Sys2Proof.Claims

open Sys2Proof.Machine

/-- Settles O25: the entry is taken, the request answered from the state it leaves, and the event raised after the answer. -/
theorem fullQueueIsAnsweredSrqFull : Obligations.FullQueueIsAnsweredSrqFull := by
  intro s p e rest hf htype htarget hfull
  have hrespond := Ev.respond_spec (s.takeEntry p e rest) (requestOf p e.cell) .srqFull []
  have hnotify := State.notify_spec (Ev.respond ⟨s.takeEntry p e rest, false, false⟩ (requestOf p e.cell) .srqFull []).s
    .srqOverflow (overflowDetail p e.cell.payload[0] e.cell.payload[1])
  refine ⟨s.takeEntry p e rest, _, _, ?_, s.takeEntry_spec p e rest, hrespond, hnotify, ?_⟩
  · rw [hf.exec, State.forwardCell_mgmtReq _ p htype, State.handToSru_match (s := s.takeEntry p e rest) htarget,
      State.queueRequest_full (s := s.takeEntry p e rest) _ hfull,
      ← payloadByte_eq e.cell 0 (by decide), ← payloadByte_eq e.cell 1 (by decide)]
    rfl
  · exact hnotify.effects.sru.trans hrespond.sru

end Sys2Proof.Claims
end

section
/-! The cells the element builds, field by field (R6 to R10), and the block of an OK response (R8). -/

namespace Sys2Proof.Machine

/-! ### Header and payload of a built cell (R6) -/

theorem cellTypeOf_typeBits (t : CellType) : cellTypeOf (typeBits t) = t := by cases t <;> rfl

theorem setWidth_element (id : Byte) : id.setWidth 12 = (0 : BitVec 4) ++ id := by revert id; decide

theorem builtCell_payload (t : CellType) (id : Byte) (bytes : List Byte) (i : Nat) (h : i < 56) :
    (builtCell t id bytes).payload[i] = bytes.getD i 0 := by
  simp [builtCell, payloadOf]

theorem builtCell_payload_beyond (t : CellType) (id : Byte) {bytes : List Byte} {i : Nat} (h : i < 56) (hi : bytes.length ≤ i) :
    (builtCell t id bytes).payload[i] = 0 := by
  rw [builtCell_payload, List.getD_eq_default _ _ hi]

/-! ### Words in a payload (R8) -/

theorem wordBytes_getD (words : List Word) : ∀ i : Nat,
    (words.flatMap wordBytes).getD (2 * i) 0 = hi8 (words.getD i 0) ∧
      (words.flatMap wordBytes).getD (2 * i + 1) 0 = lo8 (words.getD i 0) := by
  induction words with
  | nil => intro i; simp [hi8, lo8]
  | cons w words ih =>
    intro i
    cases i with
    | zero => exact ⟨rfl, rfl⟩
    | succ i => exact ih i

theorem wordBytes_length (words : List Word) : (words.flatMap wordBytes).length = 2 * words.length := by
  induction words with
  | nil => rfl
  | cons w words ih => rw [List.flatMap_cons, List.length_append, ih, List.length_cons]; simp [wordBytes]; omega

theorem natWord_toNat {n : Nat} (h : n ≤ 65535) : (natWord n).toNat = n := by
  rw [natWord, BitVec.toNat_ofNat]
  omega

/-! ### The map bytes of a status cell (R9) -/

theorem mapNibble_getLsbD (v : Vector Bool 4) (c : Class) : (mapNibble v).getLsbD (3 - c.val) = v[c] := by
  have hbits : ∀ a b d e : Bool, ∀ c : Class,
      (BitVec.ofBool a ++ BitVec.ofBool b ++ BitVec.ofBool d ++ BitVec.ofBool e : BitVec 4).getLsbD (3 - c.val) =
        #v[a, b, d, e][c] := by decide
  have hv : #v[v[0], v[1], v[2], v[3]] = v := by
    apply Vector.ext
    intro i hi
    interval_cases i <;> rfl
  exact (hbits v[0] v[1] v[2] v[3] c).trans (by rw [hv])

theorem mapByte_getLsbD (held : Vector (Vector Bool 4) 24) (p : Link) (c : Class) :
    (mapByte held ⟨(4 * p.val + c.val) / 8, by omega⟩).getLsbD (7 - (4 * p.val + c.val) % 8) = held[p][c] := by
  have hc := c.isLt
  unfold mapByte
  rw [BitVec.getLsbD_append]
  rcases Nat.even_or_odd' p.val with ⟨j, hj | hj⟩
  · have hport : 2 * ((4 * p.val + c.val) / 8) = p.val := by omega
    have hbit : 7 - (4 * p.val + c.val) % 8 - 4 = 3 - c.val := by omega
    rw [if_neg (by omega), hbit]
    simp only [hport]
    exact mapNibble_getLsbD _ c
  · have hport : 2 * ((4 * p.val + c.val) / 8) + 1 = p.val := by omega
    have hbit : 7 - (4 * p.val + c.val) % 8 = 3 - c.val := by omega
    rw [if_pos (by omega), hbit]
    simp only [hport]
    exact mapNibble_getLsbD _ c

/-! ### The block of an OK response (R8) -/

/-- A count raised over each position written: not lowered, above every position, and no higher than it must be. -/
theorem foldl_position_spec (outputs : List (Nat × Word)) : ∀ n : Nat,
    let m := outputs.foldl (fun n o => max n (o.1 + 1)) n
    n ≤ m ∧ (∀ o ∈ outputs, o.1 + 1 ≤ m) ∧ (m = n ∨ ∃ o ∈ outputs, m = o.1 + 1) := by
  induction outputs with
  | nil => intro n; simp
  | cons a outputs ih =>
    intro n
    obtain ⟨hlow, hall, hreached⟩ := ih (max n (a.1 + 1))
    simp only [List.foldl_cons]
    refine ⟨by omega, ?_, ?_⟩
    · intro o ho
      rcases List.mem_cons.mp ho with rfl | ho
      · omega
      · exact hall o ho
    · rcases hreached with h | ⟨o, ho, h⟩
      · rcases Nat.le_total (a.1 + 1) n with hn | hn
        · exact .inl (by omega)
        · exact .inr ⟨a, List.mem_cons_self, by omega⟩
      · exact .inr ⟨o, List.mem_cons_of_mem a ho, h⟩

theorem okWords_length (r : Request) (outputs : List (Nat × Word)) : (okWords r outputs).length = okWordCount r outputs := by
  simp [okWords]

theorem okWords_getElem? (r : Request) (outputs : List (Nat × Word)) {i : Nat} (h : i < okWordCount r outputs) :
    (okWords r outputs)[i]? = some ((outputAt outputs i).getD (if i < r.wordCount then blockWord r i else 0)) := by
  unfold okWords
  rw [List.getElem?_map, List.getElem?_range h, Option.map_some]

/-! ### The meaningful bytes of each built cell -/

/-- The payload of a MGMT_RSP cell (R8). -/
def responseBytes (number tag : Byte) (code : Code) (words : List Word) : List Byte :=
  [number, tag, codeByte code, natByte words.length] ++ words.flatMap wordBytes

/-- The payload of a STATUS cell (R9). -/
def statusBytes (id : Byte) (m : CongestionMap) (sharedFree : Nat) : List Byte :=
  wordBytes m.version ++ [id] ++ (List.finRange 12).map (mapByte m.held) ++ wordBytes (natWord sharedFree)

/-- The payload of a NOTICE cell (R10). -/
def noticeBytes (id : Byte) (k : NoticeKind) (count : Nat) (detail : Vector Byte 6) : List Byte :=
  [k.code, id] ++ wordBytes (natWord count) ++ detail.toList

theorem responseCell_bytes (id number tag : Byte) (code : Code) (words : List Word) :
    responseCell id number tag code words = builtCell .mgmtRsp id (responseBytes number tag code words) := rfl

theorem statusCell_bytes (id : Byte) (m : CongestionMap) (sharedFree : Nat) :
    statusCell id m sharedFree = builtCell .status id (statusBytes id m sharedFree) := rfl

theorem noticeCell_bytes (id : Byte) (k : NoticeKind) (count : Nat) (detail : Vector Byte 6) :
    noticeCell id k count detail = builtCell .notice id (noticeBytes id k count detail) := rfl

end Sys2Proof.Machine

namespace Sys2Proof.Claims

open Sys2Proof.Machine

/-- The header of R6, for a payload that fits a cell. -/
theorem BuiltHeader.of_builtCell (t : CellType) (id : Byte) (bytes : List Byte) (h : bytes.length ≤ 56) :
    BuiltHeader (builtCell t id bytes) t id bytes.length := by
  have hparse : parseHeader (builtCell t id bytes).header = builtHeader t id bytes.length := parseHeader_encodeHeader _
  constructor
  case type => unfold cellType; rw [hparse]; exact cellTypeOf_typeBits t
  case cls => rw [hparse]; rfl
  case first => rw [hparse]; rfl
  case last => rw [hparse]; rfl
  case fdi => rw [hparse]; exact setWidth_element id
  case source => rw [hparse]; rfl
  case length =>
    unfold cellLength
    rw [hparse]
    exact (BitVec.toNat_ofNat ..).trans (Nat.mod_eq_of_lt (by omega))
  case user => rw [hparse]; rfl

/-- A MGMT_RSP cell (R8). -/
theorem responseCell_layout (id number tag : Byte) (code : Code) (words : List Word) (h : words.length ≤ 24) :
    let x := responseCell id number tag code words
    BuiltHeader x .mgmtRsp id (4 + 2 * words.length) ∧
    x.payload[0] = number ∧ x.payload[1] = tag ∧ x.payload[2] = codeByte code ∧ x.payload[3] = BitVec.ofNat 8 words.length ∧
    (∀ i : Fin 24, x.payload[4 + 2 * i.val] ++ x.payload[5 + 2 * i.val] = words.getD i.val 0) ∧
    ∀ i : Fin 56, 4 + 2 * words.length ≤ i.val → x.payload[i] = 0 := by
  intro x
  have hx : x = _ := responseCell_bytes id number tag code words
  have hlen : (responseBytes number tag code words).length = 4 + 2 * words.length := by
    unfold responseBytes
    rw [List.length_append, wordBytes_length]
    rfl
  have hbyte (i : Nat) (hi : i < 56) : x.payload[i] = (responseBytes number tag code words).getD i 0 := builtCell_payload ..
  have hblock (i : Nat) (hi : 4 + i < 56) : x.payload[4 + i] = (words.flatMap wordBytes).getD i 0 := by
    rw [hbyte, responseBytes, List.getD_append_right _ _ _ _ (by simp)]
    simp
  refine ⟨?_, hbyte 0 (by decide), hbyte 1 (by decide), hbyte 2 (by decide), hbyte 3 (by decide), fun i => ?_, fun i hi => ?_⟩
  · rw [hx, ← hlen]
    exact .of_builtCell _ _ _ (by omega)
  · obtain ⟨hhi, hlo⟩ := wordBytes_getD words i.val
    have h5 : 5 + 2 * i.val = 4 + (2 * i.val + 1) := by omega
    simp only [h5]
    rw [hblock (2 * i.val) (by omega), hblock (2 * i.val + 1) (by omega), hhi, hlo]
    exact hi8_append_lo8 _
  · exact builtCell_payload_beyond _ _ i.isLt (hlen ▸ hi)

/-- A STATUS cell (R9). -/
theorem statusCell_layout (id : Byte) (m : CongestionMap) (sharedFree : Nat) :
    let x := statusCell id m sharedFree
    BuiltHeader x .status id 17 ∧
    x.payload[0] ++ x.payload[1] = m.version ∧ x.payload[2] = id ∧ x.payload[15] ++ x.payload[16] = BitVec.ofNat 16 sharedFree ∧
    (∀ (p : Link) (c : Sys2Proof.Class),
      (x.payload[3 + (4 * p.val + c.val) / 8]'(by omega)).getLsbD (7 - (4 * p.val + c.val) % 8) = m.held[p][c]) ∧
    ∀ i : Fin 56, 17 ≤ i.val → x.payload[i] = 0 := by
  intro x
  have hx : x = _ := statusCell_bytes id m sharedFree
  have hlen : (statusBytes id m sharedFree).length = 17 := by simp [statusBytes, wordBytes]
  have hbyte (i : Nat) (hi : i < 56) : x.payload[i] = (statusBytes id m sharedFree).getD i 0 := builtCell_payload ..
  have hmap (j : Fin 12) : x.payload[3 + j.val] = mapByte m.held j := by
    rw [hbyte, statusBytes, List.getD_append _ _ _ _ (by simp [wordBytes]; omega),
      List.getD_append_right _ _ _ _ (by simp [wordBytes])]
    simp [wordBytes]
  refine ⟨?_, ?_, hbyte 2 (by decide), ?_, fun p c => ?_, fun i hi => ?_⟩
  · rw [hx, ← hlen]
    exact .of_builtCell _ _ _ (by omega)
  · rw [hbyte, hbyte]
    exact hi8_append_lo8 m.version
  · rw [hbyte, hbyte]
    exact hi8_append_lo8 (natWord sharedFree)
  · rw [hmap ⟨(4 * p.val + c.val) / 8, by omega⟩]
    exact mapByte_getLsbD m.held p c
  · exact builtCell_payload_beyond _ _ i.isLt (hlen ▸ hi)

/-- A NOTICE cell (R10). -/
theorem noticeCell_layout (id : Byte) (k : NoticeKind) (count : Nat) (detail : Vector Byte 6) (h : count ≤ 65535) :
    let x := noticeCell id k count detail
    BuiltHeader x .notice id 10 ∧
    x.payload[0] = k.code ∧ x.payload[1] = id ∧ (x.payload[2] ++ x.payload[3]).toNat = count ∧
    (∀ i : Fin 6, x.payload[4 + i.val] = detail[i]) ∧ ∀ i : Fin 56, 10 ≤ i.val → x.payload[i] = 0 := by
  intro x
  have hx : x = _ := noticeCell_bytes id k count detail
  have hlen : (noticeBytes id k count detail).length = 10 := by simp [noticeBytes, wordBytes]
  have hbyte (i : Nat) (hi : i < 56) : x.payload[i] = (noticeBytes id k count detail).getD i 0 := builtCell_payload ..
  refine ⟨?_, hbyte 0 (by decide), hbyte 1 (by decide), ?_, fun i => ?_, fun i hi => ?_⟩
  · rw [hx, ← hlen]
    exact .of_builtCell _ _ _ (by omega)
  · rw [hbyte, hbyte]
    exact (congrArg BitVec.toNat (hi8_append_lo8 (natWord count))).trans (natWord_toNat h)
  · rw [hbyte, noticeBytes, List.getD_append_right _ _ _ _ (by simp [wordBytes])]
    simp [wordBytes]
  · exact builtCell_payload_beyond _ _ i.isLt (hlen ▸ hi)

/-- The block of an OK response: its length, and the word at each position (R8). -/
theorem okWords_layout (r : Request) (outputs : List (Nat × Word)) :
    let block := okWords r outputs
    (r.wordCount ≤ block.length ∧ (∀ o ∈ outputs, o.1 + 1 ≤ block.length) ∧
      (block.length = r.wordCount ∨ ∃ o ∈ outputs, block.length = o.1 + 1)) ∧
    ∀ i < block.length,
      (∀ w, outputs.find? (fun o => o.1 == i) = some (i, w) → block[i]? = some w) ∧
      (outputs.find? (fun o => o.1 == i) = none → block[i]? = some (if i < r.wordCount then blockWord r i else 0)) := by
  simp only [okWords_length]
  refine ⟨foldl_position_spec outputs r.wordCount, fun i hi => ?_⟩
  rw [okWords_getElem? r outputs hi, outputAt]
  exact ⟨fun w hw => by rw [hw]; rfl, fun hnone => by rw [hnone]; rfl⟩

/-- Settles O28: each built cell by its layout, then the block of an OK response. -/
theorem builtCellLayouts : Obligations.BuiltCellLayouts :=
  ⟨responseCell_layout, statusCell_layout, noticeCell_layout,
    ⟨.of_builtCell .idle 0 [] (by decide), .of_builtCell .train 0 [] (by decide), fun i =>
      ⟨builtCell_payload_beyond .idle 0 i.isLt (Nat.zero_le _), builtCell_payload_beyond .train 0 i.isLt (Nat.zero_le _)⟩⟩,
    okWords_layout⟩

end Sys2Proof.Claims
end

section
/-! What the traffic that an event causes may change, whichever the event: no setting, no link, no FIFO, no scheduler. -/

namespace Sys2Proof.Machine

/-- What submissions, dequeues, flushes, counts and notices may change, and no more: buffers, map, counters and the running part of the
notice records (R78 to R90, R165, R173). -/
structure TrafficEffects (s t : State) : Prop where
  frame      : t = { s with bm := t.bm, cmap := t.cmap, counters := t.counters, notices := t.notices }
  params     : t.bm.params = s.bm.params
  thresholds : t.cmap.thresholds = s.cmap.thresholds
  ports      : t.notices.ports = s.notices.ports
  settings   : ∀ k, (t.kind k).enabled = (s.kind k).enabled ∧ (t.kind k).interval = (s.kind k).interval ∧
    (t.kind k).firstOnly = (s.kind k).firstOnly

variable {s t u : State}

theorem TrafficEffects.refl (s : State) : TrafficEffects s s := ⟨rfl, rfl, rfl, rfl, fun _ => ⟨rfl, rfl, rfl⟩⟩

theorem TrafficEffects.trans (h : TrafficEffects s t) (g : TrafficEffects t u) : TrafficEffects s u where
  frame := by rw [g.frame, h.frame]
  params := g.params.trans h.params
  thresholds := g.thresholds.trans h.thresholds
  ports := g.ports.trans h.ports
  settings k := by
    obtain ⟨he, hi, hf⟩ := h.settings k
    obtain ⟨ge, gi, gf⟩ := g.settings k
    exact ⟨ge.trans he, gi.trans hi, gf.trans hf⟩

theorem NoticeEffects.traffic (h : NoticeEffects s t) : TrafficEffects s t := ⟨h.frame, h.params, h.thresholds, h.ports, h.settings⟩

/-- A change of buffers and map that keeps their settings. -/
theorem TrafficEffects.of_buffers (h : t = { s with bm := t.bm, cmap := t.cmap }) (hp : t.bm.params = s.bm.params)
    (ht : t.cmap.thresholds = s.cmap.thresholds) : TrafficEffects s t :=
  ⟨by rw [h], hp, ht, by rw [h], fun k => by rw [h]; exact ⟨rfl, rfl, rfl⟩⟩

theorem Stored.traffic {cell : Cell} {c : Class} {vs : List (Link × Verdict)} (h : Stored s t cell c vs) : TrafficEffects s t := by
  by_cases h0 : admittedPorts vs = [] ∨ s.bm.free = []
  · rw [h.1 h0]; exact .refl s
  · obtain ⟨hadmitted, hfree⟩ := not_or.mp h0
    obtain ⟨b, rest, hb⟩ := List.exists_cons_of_ne_nil hfree
    have hp := h.2 b rest hadmitted hb
    exact .of_buffers hp.frame hp.params hp.thresholds

theorem Dequeued.traffic {p : Link} {c : Class} {b : Nat} {rest : List Nat} (h : Dequeued s t p c b rest) : TrafficEffects s t :=
  .of_buffers h.frame h.params h.thresholds

theorem State.removeHead_traffic (s : State) (p : Link) (c : Class) : TrafficEffects s (s.removeHead p c) := by
  cases h : s.queue p c with
  | nil => unfold State.removeHead; rw [h]; exact .refl s
  | cons b rest => exact (s.removeHead_spec p c b rest h).traffic

theorem DataSubmitted.traffic {cell : Cell} {ports : List Link} {c : Class} (h : DataSubmitted s t cell ports c) :
    TrafficEffects s t := by
  obtain ⟨m, hstored, heffects, -⟩ := h
  exact hstored.traffic.trans heffects.traffic

/-! ### The same within an event, notices held or not (R162, R174) -/

theorem Ev.count_effects (e : Ev) (p : Link) (c : Counter) : NoticeEffects e.s (e.count p c).s := by
  unfold Ev.count
  split_ifs
  · exact e.s.countHeld_effects p c
  · exact e.s.count_effects p c

theorem flushEntries_traffic (p : Link) (c : Class) (n : Nat) : ∀ e : Ev, TrafficEffects e.s (flushEntries p c n e).s := by
  induction n with
  | zero => intro e; exact .refl _
  | succ n ih =>
    intro e
    exact ((e.s.removeHead_traffic p c).trans (Ev.count_effects { e with s := e.s.removeHead p c } p .linkFlush).traffic).trans (ih _)

theorem Ev.flushPort_traffic (e : Ev) (p : Link) : TrafficEffects e.s (e.flushPort p).s := by
  have hqueue (c : Class) (e : Ev) : TrafficEffects e.s (e.flushQueue p c).s := flushEntries_traffic p c _ e
  exact (((hqueue 0 e).trans (hqueue 1 _)).trans (hqueue 2 _)).trans (hqueue 3 _)

theorem countFlushes_effects (p : Link) (n : Nat) : ∀ e : Ev, NoticeEffects e.s (countFlushes p n e).s := by
  induction n with
  | zero => intro e; exact .refl _
  | succ n ih => intro e; exact (e.count_effects p .linkFlush).trans (ih _)

/-- The Ingress FIFO of link p emptied, its entries not yet counted (R44, R45). -/
def State.fifoCleared (s : State) (p : Link) : State :=
  (s.modFifo p fun f => { f with entries := [] }).modLink p fun l => { l with ownHold := false }

theorem Ev.emptyFifo_eq (e : Ev) (p : Link) :
    e.emptyFifo p = countFlushes p e.s.fifos[p].entries.length { e with s := e.s.fifoCleared p } := rfl

theorem Ev.emptyFifo_effects (e : Ev) (p : Link) : NoticeEffects (e.s.fifoCleared p) (e.emptyFifo p).s := by
  rw [Ev.emptyFifo_eq]
  exact countFlushes_effects p _ { e with s := e.s.fifoCleared p }

/-- The submission of a cell to distinct ports, its refusals counted (R78 to R85). -/
theorem State.submit_traffic (s : State) (cell : Cell) {ports : List Link} (c : Class) (h : ports.Nodup) :
    TrafficEffects s (s.submit cell ports c).s :=
  (s.submit_stored cell ports c h).traffic.trans (s.submit_counts_effects cell ports c).traffic

theorem Ev.respond_traffic (e : Ev) (r : Request) (code : Code) (words : List Word) :
    TrafficEffects e.s (e.respond r code words).s := by
  unfold Ev.respond
  simp only
  have hsubmit := e.s.submit_traffic (responseCell e.s.sru.elementId r.number r.tag code words) 0 (List.nodup_singleton r.port)
  have hlost (ps : List Link) (called : Bool) := hsubmit.trans (countRspLost_effects ps _ called).traffic
  split_ifs
  · exact hlost _ _
  · exact (hlost _ _).trans (State.release_effects _ _).traffic

theorem Ev.answer_traffic (e : Ev) (r : Request) (code : Code) (outputs : List (Nat × Word)) :
    TrafficEffects e.s (e.answer r code outputs).s := by
  unfold Ev.answer
  split_ifs
  · exact .refl _
  · exact e.respond_traffic r code _

/-! ### The execution of a request (R151 to R153) -/

/-- What the execution of the request at the head of the SRQ comes to: nothing, or an answer after the effect of the request's chapter
or without one. -/
theorem State.serve_cases (s : State) (mine : Nat → Bool) (body : Request → State → Reply) :
    s.serve mine body = s ∨ ∃ s1, (s1 = s.popRequest ∨ ∃ r outputs, body r s.popRequest = .done s1 outputs) ∧
      TrafficEffects s1 (s.serve mine body) := by
  unfold State.serve
  cases hr : s.headFor mine with
  | none => exact .inl rfl
  | some r =>
    right
    have refused (c : Code) := Ev.answer_traffic ⟨s.popRequest, false, false⟩ r c []
    simp only [State.execute]
    cases hg : genericFailure r with
    | some c => exact ⟨_, .inl rfl, refused c⟩
    | none =>
      cases hb : body r s.popRequest with
      | refuse c => exact ⟨_, .inl rfl, refused c⟩
      | done s1 outputs => exact ⟨s1, .inr ⟨r, outputs, hb⟩, Ev.answer_traffic ⟨s1, false, false⟩ r .ok outputs⟩

end Sys2Proof.Machine
end

section
/-! The parts of the state that the whole-machine rules speak of, and which of them each command may change. -/

namespace Sys2Proof.Machine

/-- The settings and lasting values, the model's own fields, and the ports: links, Ingress FIFOs and schedulers. -/
inductive Part where
  | ports
  | arbiter
  | address
  | strap
  | params
  | thresholds
  | timing
  | carryMask
  | epoch
  | activeBank
  | commit
  | linkSettings
  | staging
  | noticeSettings
  | tx
  | draws
deriving DecidableEq

def Part.Value : Part → Type
  | .ports => Vector LinkPort 24 × Vector IngressFifo 24 × Vector Scheduler 24
  | .arbiter => Link
  | .address => Byte × Byte × Bool
  | .strap => Byte
  | .params => Vector ClassParams 4
  | .thresholds => Vector Thresholds 4
  | .timing => StatusTiming
  | .carryMask => BitVec 18
  | .epoch => BitVec 16
  | .activeBank => BankId
  | .commit => CommitState
  | .linkSettings => Link → Nat × Nat
  | .staging => Link → List Window
  | .noticeSettings => BitVec 24 × (NoticeKind → Bool × Nat × Bool)
  | .tx => Vector (Option Cell) 24
  | .draws => Nat

/-- A part of a state. -/
def Part.value (s : State) : (x : Part) → x.Value
  | .ports => (s.links, s.fifos, s.scheds)
  | .arbiter => s.arbiter
  | .address => (s.sru.elementId, s.sru.idMask, s.sru.broadcast)
  | .strap => s.sru.strap
  | .params => s.bm.params
  | .thresholds => s.cmap.thresholds
  | .timing => s.timing
  | .carryMask => s.carryMask
  | .epoch => s.tables.epoch
  | .activeBank => s.tables.active
  | .commit => s.tables.commit
  | .linkSettings => fun p => (s.links[p].retrainLimit, s.links[p].truncation)
  | .staging => fun p => s.scheds[p].staging
  | .noticeSettings => (s.notices.ports, fun k => ((s.kind k).enabled, (s.kind k).interval, (s.kind k).firstOnly))
  | .tx => s.tx
  | .draws => s.draws

/-- From s to t no part changes but those of a list. -/
structure Changes (parts : List Part) (s t : State) : Prop where
  kept : ∀ x, x ∉ parts → x.value t = x.value s

section rules
variable {parts : List Part} {s t u : State}

theorem Changes.refl (parts : List Part) (s : State) : Changes parts s s := ⟨fun _ _ => rfl⟩

/-- Two changes in turn, the parts of the second among those of the first. -/
theorem Changes.trans {fewer : List Part} (h : Changes parts s t) (g : Changes fewer t u) (hsub : fewer ⊆ parts := by decide) :
    Changes parts s u :=
  ⟨fun x hx => (g.kept x fun hmem => hx (hsub hmem)).trans (h.kept x hx)⟩

theorem Changes.mono {fewer : List Part} (h : Changes fewer s t) (hsub : fewer ⊆ parts := by decide) : Changes parts s t :=
  (Changes.refl parts s).trans h hsub

/-- One part may change: what is left to show is that every other part stands. -/
theorem Changes.of_one {y : Part} (h : ∀ x, x ≠ y → x.value t = x.value s) : Changes [y] s t :=
  ⟨fun x hx => h x fun e => hx (e ▸ List.mem_cons_self)⟩

theorem Changes.ports (h : Changes parts s t) (hx : .ports ∉ parts) : t.links = s.links ∧ t.fifos = s.fifos ∧ t.scheds = s.scheds := by
  have e : (t.links, t.fifos, t.scheds) = (s.links, s.fifos, s.scheds) := h.kept .ports hx
  simpa using e

theorem Changes.address (h : Changes parts s t) (hx : .address ∉ parts) :
    t.sru.elementId = s.sru.elementId ∧ t.sru.idMask = s.sru.idMask ∧ t.sru.broadcast = s.sru.broadcast := by
  have e : (t.sru.elementId, t.sru.idMask, t.sru.broadcast) = (s.sru.elementId, s.sru.idMask, s.sru.broadcast) := h.kept .address hx
  simpa using e

theorem Changes.linkSettings (h : Changes parts s t) (hx : .linkSettings ∉ parts) (p : Link) :
    t.links[p].retrainLimit = s.links[p].retrainLimit ∧ t.links[p].truncation = s.links[p].truncation := by
  have e : (t.links[p].retrainLimit, t.links[p].truncation) = (s.links[p].retrainLimit, s.links[p].truncation) :=
    congrFun (h.kept .linkSettings hx) p
  exact Prod.mk.inj e

theorem Changes.noticeSettings (h : Changes parts s t) (hx : .noticeSettings ∉ parts) :
    t.notices.ports = s.notices.ports ∧ ∀ k, (t.kind k).enabled = (s.kind k).enabled ∧
      (t.kind k).interval = (s.kind k).interval ∧ (t.kind k).firstOnly = (s.kind k).firstOnly := by
  have e : (t.notices.ports, fun k => ((t.kind k).enabled, (t.kind k).interval, (t.kind k).firstOnly)) =
      (s.notices.ports, fun k => ((s.kind k).enabled, (s.kind k).interval, (s.kind k).firstOnly)) := h.kept .noticeSettings hx
  simpa [funext_iff] using e

theorem TrafficEffects.changes (h : TrafficEffects s t) : Changes parts s t := by
  refine Changes.mono (fewer := []) ⟨fun x _ => ?_⟩ (List.nil_subset _)
  cases x with
  | params => exact h.params
  | thresholds => exact h.thresholds
  | noticeSettings =>
    refine Prod.ext h.ports (funext fun k => ?_)
    obtain ⟨he, hi, hf⟩ := h.settings k
    exact Prod.ext he (Prod.ext hi hf)
  | _ => rw [h.frame]; rfl

/-- The effects of traffic after changes of some parts. -/
theorem Changes.traffic (h : Changes parts s t) (g : TrafficEffects t u) : Changes parts s u :=
  h.trans (g.changes (parts := [])) (List.nil_subset _)

theorem Changes.notices (h : Changes parts s t) (g : NoticeEffects t u) : Changes parts s u := h.traffic g.traffic

end rules

/-! ### Updates of one block -/

section blocks
variable (s : State) (p : Link)

/-- A change of a link that keeps its settings. -/
theorem State.modLink_changes {f : LinkPort → LinkPort} (hlimit : ∀ l, (f l).retrainLimit = l.retrainLimit)
    (htruncation : ∀ l, (f l).truncation = l.truncation) : Changes [.ports] s (s.modLink p f) := by
  refine .of_one fun x hx => ?_
  cases x with
  | ports => exact absurd rfl hx
  | linkSettings =>
    funext q
    have hq : (s.modLink p f).links[q] = if q = p then f s.links[p] else s.links[q] := upd_get ..
    show (((s.modLink p f).links[q]).retrainLimit, ((s.modLink p f).links[q]).truncation) = (s.links[q].retrainLimit, s.links[q].truncation)
    rw [hq]
    split_ifs with e
    · rw [e, hlimit, htruncation]
    · rfl
  | _ => rfl

theorem State.modFifo_changes (f : IngressFifo → IngressFifo) : Changes [.ports] s (s.modFifo p f) := by
  refine .of_one fun x hx => ?_
  cases x with
  | ports => exact absurd rfl hx
  | _ => rfl

/-- A change of a scheduler that keeps its staging schedule. -/
theorem State.modSched_changes {f : Scheduler → Scheduler} (h : ∀ x, (f x).staging = x.staging) :
    Changes [.ports] s (s.modSched p f) := by
  refine .of_one fun x hx => ?_
  cases x with
  | ports => exact absurd rfl hx
  | staging =>
    funext q
    have hq : (s.modSched p f).scheds[q] = if q = p then f s.scheds[p] else s.scheds[q] := upd_get ..
    show ((s.modSched p f).scheds[q]).staging = s.scheds[q].staging
    rw [hq]
    split_ifs with e
    · rw [e, h]
    · rfl
  | _ => rfl

theorem State.modSender_changes (f : StatusSender → StatusSender) : Changes [] s (s.modSender p f) := by
  refine ⟨fun x _ => ?_⟩
  cases x <;> rfl

theorem State.setTx_changes (c : Option Cell) : Changes [.tx] s (s.setTx p c) := by
  refine .of_one fun x hx => ?_
  cases x with
  | tx => exact absurd rfl hx
  | _ => rfl

theorem State.transmit_changes (c : Cell) (cls : Class) : Changes [.ports, .tx] s (s.transmit p c cls) := by
  have h := s.transmit_spec p c cls
  refine ⟨fun x hx => ?_⟩
  cases x with
  | ports => exact absurd (by decide) hx
  | tx => exact absurd (by decide) hx
  | linkSettings =>
    funext q
    show (((s.transmit p c cls).links[q]).retrainLimit, ((s.transmit p c cls).links[q]).truncation) = _
    rw [h.sequence]
    split_ifs <;> rfl
  | _ => rw [h.frame]; rfl

theorem State.fifoCleared_changes : Changes [.ports] s (s.fifoCleared p) :=
  (s.modFifo_changes p _).trans (State.modLink_changes _ p (fun _ => rfl) fun _ => rfl)

theorem State.applyStaging_changes : Changes [.ports] s (s.applyStaging p) := by
  unfold State.applyStaging
  refine Changes.notices ?_ (State.notify_effects ..)
  exact s.modSched_changes p fun _ => rfl

theorem State.count_changes (c : Counter) : Changes [] s (s.count p c) := (s.count_effects p c).traffic.changes

end blocks

/-! ### Link events (R15 to R26) -/

section links
variable (s : State) (p : Link)

theorem portLeavesUp_settings (reason : DownReason) (disable : Bool) (l : LinkPort) :
    (portLeavesUp reason disable l).retrainLimit = l.retrainLimit ∧ (portLeavesUp reason disable l).truncation = l.truncation := by
  cases disable <;> exact ⟨rfl, rfl⟩

theorem State.leaveUp_changes (reason : DownReason) (disable : Bool) : Changes [.ports] s (s.leaveUp p reason disable) := by
  have hleft := s.modLink_changes p (fun l => (portLeavesUp_settings reason disable l).1)
    fun l => (portLeavesUp_settings reason disable l).2
  have hempty := (hleft.trans (State.fifoCleared_changes _ p)).notices
    (Ev.emptyFifo_effects ⟨s.modLink p (portLeavesUp reason disable), false, false⟩ p)
  have hflush := hempty.traffic (Ev.flushPort_traffic _ p)
  exact (hflush.trans (State.modSched_changes _ p (f := Scheduler.close) fun _ => rfl)).notices (State.notify_effects ..)

theorem State.enterUp_changes : Changes [.ports] s (s.enterUp p) := by
  unfold State.enterUp
  simp only
  refine Changes.notices ?_ (State.notify_effects ..)
  refine Changes.trans ?_ (State.modSender_changes ..)
  exact s.modLink_changes p (fun _ => rfl) fun _ => rfl

theorem State.receiveTraining_changes (slot : SlotClass) : Changes [.ports] s (s.receiveTraining p slot) := by
  have hlost (s : State) (c : Counter) : Changes [.ports] s (s.runLost p c) := by
    refine Changes.notices ?_ (State.count_effects ..)
    exact s.modLink_changes p (fun _ => rfl) fun _ => rfl
  cases slot with
  | noCell => exact .refl _ s
  | headerError => exact hlost s _
  | formatError => exact hlost s _
  | valid c h t =>
    have hheld : Changes [.ports] s (s.modLink p fun l => { l with partnerHold := h.hold }) :=
      s.modLink_changes p (fun _ => rfl) fun _ => rfl
    unfold State.receiveTraining State.trainOn
    simp only
    split_ifs
    · exact hheld.trans (State.enterUp_changes _ p)
    · exact hheld.trans (State.modLink_changes _ p (fun _ => rfl) fun _ => rfl)
    · exact hheld.trans (hlost _ _)

theorem State.writeFifo_changes (c : Cell) (gap : Bool) : Changes [.ports] s (s.writeFifo p c gap) := by
  unfold State.writeFifo
  simp only
  split_ifs
  · exact (s.modFifo_changes p _).trans (State.modLink_changes _ p (fun _ => rfl) fun _ => rfl)
  · exact (s.modFifo_changes p _).notices (State.count_effects _ _ _)

theorem State.receiveTraffic_changes (c : Cell) (seq : Byte) : Changes [.ports] s (s.receiveTraffic p c seq) := by
  have hcounted := (s.modLink_changes p (f := fun l => { l with rxExpect := some (seq + 1) }) (fun _ => rfl) fun _ => rfl).notices
    (State.count_effects _ p .rxCells)
  unfold State.receiveTraffic
  simp only
  refine Changes.trans ?_ (State.writeFifo_changes _ p c _)
  split_ifs
  · exact hcounted.notices (State.count_effects _ _ _)
  · exact hcounted

theorem State.receiveUp_changes (slot : SlotClass) : Changes [.ports] s (s.receiveUp p slot) := by
  have hraised : Changes [.ports] s (s.modLink p fun l => { l with liveness := l.liveness + 1 }) :=
    s.modLink_changes p (fun _ => rfl) fun _ => rfl
  unfold State.receiveUp
  cases slot with
  | noCell =>
    simp only
    split_ifs
    · exact hraised.trans (State.leaveUp_changes ..)
    · exact hraised
  | formatError =>
    have hcounted := (hraised.trans (State.modFifo_changes _ p fun f => { f with formatErrSeen := true })).notices
      (State.count_effects _ p .formatErr)
    simp only
    split_ifs
    · exact hcounted.trans (State.leaveUp_changes ..)
    · exact hcounted
  | headerError =>
    have hscored := hraised.trans (State.modLink_changes _ p (f := fun l => { l with score := l.score + Config.scoreRise })
      (fun _ => rfl) fun _ => rfl)
    have hcounted := (hscored.trans (State.modFifo_changes _ p fun f => { f with hdrErrSeen := true })).notices
      (State.count_effects _ p .hdrErr)
    simp only
    split_ifs
    · exact hcounted.trans (State.leaveUp_changes ..)
    · exact hcounted.trans (State.leaveUp_changes ..)
    · exact hcounted
  | valid c h t =>
    have hvalid : Changes [.ports] s (s.modLink p fun l => { l with partnerHold := h.hold, liveness := 0, score := l.score - 1 }) :=
      s.modLink_changes p (fun _ => rfl) fun _ => rfl
    simp only
    split_ifs
    · exact hvalid.trans (State.leaveUp_changes ..)
    · exact hvalid
    · exact hvalid.trans (State.receiveTraffic_changes ..)

theorem State.receive_changes (arrival : Option Cell) : Changes [.ports] s (s.receive p arrival) := by
  unfold State.receive
  split_ifs
  · exact .refl _ s
  · split
    · exact s.receiveTraining_changes p _
    · exact s.receiveUp_changes p _
    all_goals exact .refl _ s

theorem beginAttempt_changes (n : Nat) : Changes [.ports] s (s.modLink p (beginAttempt n)) :=
  s.modLink_changes p (fun _ => rfl) fun _ => rfl

theorem State.enterFailed_changes (n : Nat) : Changes [.ports] s (s.enterFailed p n) := by
  refine Changes.notices ?_ (State.notify_effects ..)
  exact s.modLink_changes p (fun _ => rfl) fun _ => rfl

theorem State.enterHoldoff_changes (n : Nat) : Changes [.ports, .draws] s (s.enterHoldoff p n) := by
  have hdrawn : Changes [.ports, .draws] s { s with draws := s.draws + 1 } := by
    refine Changes.mono (fewer := [.draws]) (.of_one fun x hx => ?_)
    cases x with
    | draws => exact absurd rfl hx
    | _ => rfl
  unfold State.enterHoldoff
  simp only
  split_ifs
  · exact hdrawn.trans (beginAttempt_changes _ p n)
  · exact hdrawn.trans (State.modLink_changes _ p (fun _ => rfl) fun _ => rfl)

theorem State.attemptExpires_changes : Changes [.ports, .draws] s (s.attemptExpires p) := by
  unfold State.attemptExpires
  simp only
  split_ifs
  · exact .refl _ s
  · exact (s.enterFailed_changes p _).mono
  · exact s.enterHoldoff_changes p _
  · exact .refl _ s

theorem State.holdoffExpires_changes : Changes [.ports] s (s.holdoffExpires p) := by
  unfold State.holdoffExpires
  split_ifs
  · exact .refl _ s
  · exact beginAttempt_changes s p _
  · exact .refl _ s

end links

/-! ### Forwarding (R42 to R67) -/

section forwarding
variable (s : State) (p : Link)

theorem State.submitData_changes (c : Cell) {ports : List Link} (cls : Class) (h : ports.Nodup) :
    Changes [] s (s.submitData c ports cls) := (s.submitData_spec c ports cls h).traffic.changes

theorem countEach_changes (c : Counter) (ps : List Link) : ∀ s : State, Changes [] s (countEach c ps s) := by
  induction ps with
  | nil => intro s; exact .refl _ s
  | cons p ps ih => intro s; exact (s.count_changes p c).trans (ih _)

theorem groupPorts_nodup (g : GroupEntry) : (groupPorts g p).Nodup := (portList_nodup _).filter _

theorem State.forwardData_changes (c : Cell) : Changes [] s (s.forwardData p c) := by
  unfold State.forwardData
  simp only
  split
  · exact s.count_changes p _
  · exact s.count_changes p _
  · unfold State.forwardUnicast
    split_ifs
    · exact s.submitData_changes c _ (List.nodup_singleton _)
    · exact (s.count_changes _ _).trans (State.submitData_changes _ c _ (List.nodup_singleton _))
    · exact s.count_changes p _
  · unfold State.forwardMulticast
    simp only
    have hpruned := countEach_changes .mcastPruned ((groupPorts ((s.tables.bank s.tables.active).group
      ((s.tables.bank s.tables.active).route (parseHeader c.header).fdi.toNat).group.toNat) p).filter fun q => !s.isUp q) s
    split_ifs
    · exact hpruned.trans (State.count_changes _ p _)
    · exact hpruned.trans (State.submitData_changes _ c _ ((groupPorts_nodup p _).filter _))

theorem State.handToSru_changes (c : Cell) : Changes [] s (s.handToSru p c) := by
  unfold State.handToSru State.queueRequest
  simp only
  split_ifs
  · refine ⟨fun x _ => ?_⟩
    cases x <;> rfl
  · exact (Ev.respond_traffic ⟨s, false, false⟩ _ _ _).changes.notices (State.notify_effects _ _ _)
  · exact s.count_changes p _

theorem State.forwardCell_changes (c : Cell) : Changes [] s (s.forwardCell p c) := by
  unfold State.forwardCell
  split
  · exact s.forwardData_changes p c
  · exact s.handToSru_changes p c
  · exact s.count_changes p _
  · exact s.count_changes p _
  · exact s.count_changes p _
  all_goals exact .refl _ s

theorem State.takeEntry_changes (e : FifoEntry) (rest : List FifoEntry) : Changes [.ports, .arbiter] s (s.takeEntry p e rest) := by
  have harbiter (m : State) : Changes [.arbiter] m { m with arbiter := p } := by
    refine .of_one fun x hx => ?_
    cases x with
    | arbiter => exact absurd rfl hx
    | _ => rfl
  unfold State.takeEntry
  refine Changes.trans (Changes.mono (fewer := [.ports]) ?_) (harbiter _)
  exact (s.modFifo_changes p _).trans (State.modLink_changes _ p (fun _ => rfl) fun _ => rfl)

theorem State.forward_changes : Changes [.ports, .arbiter] s s.forward := by
  unfold State.forward
  split_ifs
  · exact .refl _ s
  · split
    · exact .refl _ s
    · split
      · exact .refl _ s
      · exact (s.takeEntry_changes _ _ _).trans (State.forwardCell_changes ..)

end forwarding

/-! ### Egress slots (R98 to R107) -/

section egress
variable (s : State) (p : Link)

theorem State.sendHead_changes (c : Class) : Changes [.ports, .tx] s (s.sendHead p c) := by
  unfold State.sendHead
  split
  · exact .refl _ s
  · exact ((s.removeHead_traffic p c).changes.trans (State.transmit_changes ..)).notices (State.count_effects ..)

theorem State.advanceWindow_changes (w : Nat) : Changes [.ports] s (s.advanceWindow p w) := by
  unfold State.advanceWindow
  have hclosed : Changes [.ports] s (s.modSched p Scheduler.close) := s.modSched_changes p fun _ => rfl
  simp only
  split_ifs
  · exact s.modSched_changes p fun _ => rfl
  · exact hclosed.trans (State.applyStaging_changes ..)
  · exact hclosed

theorem State.spendBudget_changes (w b : Nat) : Changes [.ports] s (s.spendBudget p w b) := by
  unfold State.spendBudget
  split_ifs
  · exact s.advanceWindow_changes p w
  · exact s.modSched_changes p fun _ => rfl

theorem State.fixedSlot_changes : Changes [.ports, .tx] s (s.fixedSlot p) := by
  unfold State.fixedSlot
  refine Changes.trans ?_ (State.spendBudget_changes ..)
  split_ifs
  · exact s.transmit_changes p _ _
  · exact s.sendHead_changes p _

theorem State.foundSlot_changes (w b : Nat) : Changes [.ports, .tx] s (s.foundSlot p w b) := by
  unfold State.foundSlot
  have hsent := s.sendHead_changes p (windowAt s.scheds[p].active w).cls
  simp only
  split
  · exact hsent.trans (State.modSched_changes _ p fun _ => rfl)
  · exact hsent.trans (State.spendBudget_changes ..)
  · exact hsent.trans (State.spendBudget_changes ..)

theorem State.idleSlot_changes : Changes [.ports, .tx] s (s.idleSlot p) := by
  have hidle := (s.transmit_changes p idleCell 0).trans (State.modSched_changes _ p
    (f := fun x => { x with isOpen := false, budget := 0 }) fun _ => rfl)
  unfold State.idleSlot
  simp only
  split_ifs
  · exact hidle.trans (State.applyStaging_changes ..)
  · exact hidle

theorem State.servedSlot_changes (rounds : Nat) : ∀ s : State, Changes [.ports, .tx] s (State.servedSlot p rounds s) := by
  induction rounds with
  | zero => intro s; exact .refl _ s
  | succ rounds ih =>
    intro s
    unfold State.servedSlot
    simp only
    split_ifs
    · exact s.fixedSlot_changes p
    · split
      · exact s.foundSlot_changes p _ _
      · exact s.idleSlot_changes p
      · exact (s.applyStaging_changes p).mono.trans (ih _)

theorem State.slotUp_changes : Changes [.ports, .tx] s (s.slotUp p) := by
  have hbegun : Changes [.ports, .tx] s (s.modSender p slotCountsRise) := (s.modSender_changes p _).mono
  unfold State.slotUp State.sendStatus
  simp only
  split_ifs
  · exact ((hbegun.trans (State.transmit_changes ..)).trans (State.modSender_changes ..)).notices (State.count_effects ..)
  · exact hbegun.trans (State.transmit_changes ..)
  · exact hbegun.trans (State.servedSlot_changes p 2 _)

theorem State.egress_changes : Changes [.ports, .tx] s (s.egress p) := by
  have hquiet : Changes [.ports, .tx] s (s.setTx p none) := (s.setTx_changes p none).mono
  unfold State.egress
  by_cases hreset : s.resetAsserted = true
  · rw [if_pos hreset]
    exact hquiet
  · rw [if_neg hreset]
    cases s.links[p].state with
    | up => exact s.slotUp_changes p
    | training =>
      show Changes _ s (if s.links[p].acknowledged then s.sendIdle p else s.transmit p trainCell 0)
      split_ifs
      · exact s.transmit_changes p _ _
      · exact s.transmit_changes p _ _
    | disabled => exact hquiet
    | holdoff => exact hquiet
    | failed => exact hquiet

end egress

end Sys2Proof.Machine
end

section
/-! The parts that each command may change, and the rule of the whole machine that follows. -/

namespace Sys2Proof.Machine

/-! ### Effects of requests (chapters 2 to 10) -/

/-- A check that a request must pass to be done. -/
theorem Reply.done_of_check {check : Prop} [Decidable check] {code : Code} {x : Reply} {t : State} {outputs : List (Nat × Word)}
    (h : (if check then .refuse code else x) = .done t outputs) : ¬ check ∧ x = .done t outputs := by
  split_ifs at h with hc
  exact ⟨hc, h⟩

section requests
variable {r : Request} {s t : State} {outputs : List (Nat × Word)} {parts : List Part}

/-- The request directory's own part of a request keeps what is not in a list: so does its execution (R151 to R157). -/
theorem State.serve_changes (mine : Nat → Bool) (body : Request → State → Reply)
    (h : ∀ r s t outputs, body r s = .done t outputs → Changes parts s t) : Changes parts s (s.serve mine body) := by
  have hpop : Changes parts s s.popRequest := by
    refine ⟨fun x _ => ?_⟩
    cases x <;> rfl
  rcases s.serve_cases mine body with hidle | ⟨m, rfl | ⟨r, outputs, hm⟩, heffects⟩
  · rw [hidle]; exact .refl _ s
  · exact hpop.traffic heffects
  · exact (hpop.trans (h r _ m outputs hm) (List.Subset.refl _)).traffic heffects

theorem State.withTables_changes (s : State) (x : TableControl) (hepoch : .epoch ∉ parts → x.epoch = s.tables.epoch)
    (hactive : .activeBank ∉ parts → x.active = s.tables.active) (hcommit : .commit ∉ parts → x.commit = s.tables.commit) :
    Changes parts s { s with tables := x } := by
  refine ⟨fun y hy => ?_⟩
  cases y with
  | epoch => exact hepoch hy
  | activeBank => exact hactive hy
  | commit => exact hcommit hy
  | _ => rfl

theorem forPorts_changes {f : State → Link → State} (h : ∀ s p, Changes parts s (f s p)) (ps : List Link) :
    ∀ s, Changes parts s (forPorts f ps s) := by
  induction ps with
  | nil => intro s; exact .refl _ s
  | cons p ps ih => intro s; exact (h s p).trans (ih _) (List.Subset.refl _)

/-! Chapters 5 and 7 -/

theorem setAdmissionBody_changes (h : setAdmissionBody r s = .done t outputs) : Changes [.params] s t := by
  unfold setAdmissionBody at h
  simp only at h
  split at h
  · cases h
  · split_ifs at h
    cases h
    refine .of_one fun x hx => ?_
    cases x with
    | params => exact absurd rfl hx
    | _ => rfl

theorem readBufferStateBody_changes (h : readBufferStateBody r s = .done t outputs) : Changes [] s t := by
  unfold readBufferStateBody at h
  split at h
  · cases h
  · cases h; exact .refl _ s

theorem State.testEntry_changes (s : State) (p : Link) (c : Class) : Changes [] s (s.testEntry p c) := by
  refine ⟨fun x _ => ?_⟩
  cases x <;> rfl

theorem State.retestClass_changes (c : Class) (ps : List Link) : ∀ s : State, Changes [] s (s.retestClass c ps) := by
  induction ps with
  | nil => intro s; exact .refl _ s
  | cons p ps ih => intro s; exact (s.testEntry_changes p c).trans (ih _)

theorem setFlowBody_changes (h : setFlowBody r s = .done t outputs) : Changes [.thresholds] s t := by
  have hstored (x : Vector Thresholds 4) : Changes [.thresholds] s { s with cmap := { s.cmap with thresholds := x } } := by
    refine .of_one fun y hy => ?_
    cases y with
    | thresholds => exact absurd rfl hy
    | _ => rfl
  unfold setFlowBody at h
  simp only at h
  split at h
  · cases h
  · split_ifs at h
    cases h
    exact (hstored _).trans (State.retestClass_changes ..)

theorem setStatusTimingBody_changes (h : setStatusTimingBody r s = .done t outputs) : Changes [.timing] s t := by
  cases h
  refine .of_one fun x hx => ?_
  cases x with
  | timing => exact absurd rfl hx
  | _ => rfl

/-! Chapter 10 -/

theorem readCountersBody_changes (h : readCountersBody r s = .done t outputs) : Changes [] s t := by
  unfold readCountersBody at h
  simp only at h
  split at h
  · cases h
  · split_ifs at h
    cases h
    exact .refl _ s

theorem clearCarryBody_changes (h : clearCarryBody r s = .done t outputs) : Changes [.carryMask] s t := by
  unfold clearCarryBody at h
  simp only at h
  split at h
  · cases h
  · split_ifs at h
    cases h
    refine .of_one fun x hx => ?_
    cases x with
    | carryMask => exact absurd rfl hx
    | _ => rfl

theorem setNoticeBody_changes (h : setNoticeBody r s = .done t outputs) : Changes [.noticeSettings] s t := by
  unfold setNoticeBody at h
  simp only at h
  split at h
  · cases h
  · cases h
    refine .of_one fun x hx => ?_
    cases x with
    | noticeSettings => exact absurd rfl hx
    | _ => rfl

/-! Chapter 9 -/

theorem setElementAddressBody_changes (h : setElementAddressBody r s = .done t outputs) : Changes [.address] s t := by
  unfold setElementAddressBody at h
  simp only at h
  split_ifs at h
  cases h
  refine .of_one fun x hx => ?_
  cases x with
  | address => exact absurd rfl hx
  | _ => rfl

/-! Chapter 6 -/

/-- What a WRITE_SCHEDULE that is done has stored, and the checks that its windows have passed (R110, R111). -/
theorem writeScheduleBody_done_eq (h : writeScheduleBody r s = .done t outputs) : ∃ p ws,
    t = s.modSched p (fun x => { x with staging := ws }) ∧ givenWindows r (hi8 (blockWord r 0)).toNat = some ws ∧
      1 ≤ (hi8 (blockWord r 0)).toNat ∧ (hi8 (blockWord r 0)).toNat ≤ 8 ∧
      ws.any emptyBudget = false ∧ mixesFixedAndDrain ws = false := by
  unfold writeScheduleBody at h
  simp only at h
  split at h
  · cases h
  next p _ =>
    obtain ⟨hcount, h⟩ := Reply.done_of_check h
    split at h
    · cases h
    next ws hgiven =>
      obtain ⟨hbudget, h⟩ := Reply.done_of_check h
      obtain ⟨hmixed, h⟩ := Reply.done_of_check h
      obtain ⟨-, h⟩ := Reply.done_of_check h
      cases h
      exact ⟨p, ws, rfl, hgiven, by omega, by omega, Bool.eq_false_iff.mpr hbudget, Bool.eq_false_iff.mpr hmixed⟩

theorem writeScheduleBody_changes (h : writeScheduleBody r s = .done t outputs) : Changes [.ports, .staging] s t := by
  obtain ⟨p, ws, rfl, -⟩ := writeScheduleBody_done_eq h
  refine ⟨fun x hx => ?_⟩
  cases x with
  | ports => exact absurd (by decide) hx
  | staging => exact absurd (by decide) hx
  | _ => rfl

theorem State.applyPort_changes (s : State) (p : Link) : Changes [.ports] s (s.applyPort p) := by
  unfold State.applyPort
  split_ifs
  · exact s.modSched_changes p fun _ => rfl
  · exact s.applyStaging_changes p

theorem applyScheduleBody_changes (h : applyScheduleBody r s = .done t outputs) : Changes [.ports] s t := by
  cases h
  exact forPorts_changes State.applyPort_changes _ s

theorem readScheduleBody_changes (h : readScheduleBody r s = .done t outputs) : Changes [] s t := by
  unfold readScheduleBody at h
  split at h
  · cases h
  · obtain ⟨-, h⟩ := Reply.done_of_check h
    cases h
    exact .refl _ s

/-! Chapters 2 and 3 -/

theorem State.linkAction_changes (s : State) (a : LinkAction) (p : Link) : Changes [.ports] s (s.linkAction a p) := by
  have hdisabled : Changes [.ports] s (s.modLink p enterDisabled) := s.modLink_changes p (fun _ => rfl) fun _ => rfl
  unfold State.linkAction
  split
  · exact .refl _ s
  · exact s.leaveUp_changes p _ _
  · exact beginAttempt_changes s p 0
  · exact .refl _ s
  · exact s.leaveUp_changes p _ _
  · exact hdisabled
  · exact .refl _ s
  · exact s.leaveUp_changes p _ _
  · exact beginAttempt_changes s p 0

theorem linkControlBody_done_eq (h : linkControlBody r s = .done t outputs) : ∃ a,
    t = forPorts (fun s p => (s.modLink p (linkSettings (blockWord r 0) (blockWord r 3))).linkAction a p)
      (portList (portSet (blockWord r 1) (blockWord r 2))) s := by
  unfold linkControlBody at h
  simp only at h
  split at h
  · cases h
  next a _ => cases h; exact ⟨a, rfl⟩

theorem linkControlBody_changes (h : linkControlBody r s = .done t outputs) : Changes [.ports, .linkSettings] s t := by
  obtain ⟨a, rfl⟩ := linkControlBody_done_eq h
  have hsettings (s : State) (p : Link) (f : LinkPort → LinkPort) : Changes [.ports, .linkSettings] s (s.modLink p f) := by
    refine ⟨fun x hx => ?_⟩
    cases x with
    | ports => exact absurd (by decide) hx
    | linkSettings => exact absurd (by decide) hx
    | _ => rfl
  exact forPorts_changes (fun s p => (hsettings s p _).trans (State.linkAction_changes ..)) _ s

theorem readLinkStatusBody_changes (h : readLinkStatusBody r s = .done t outputs) : Changes [] s t := by
  unfold readLinkStatusBody at h
  split at h
  · cases h
  · cases h; exact .refl _ s

theorem clearLinkStatusBody_changes (h : clearLinkStatusBody r s = .done t outputs) : Changes [.ports] s t := by
  cases h
  exact forPorts_changes (fun s p => s.modFifo_changes p _) _ s

/-! Chapter 8 -/

theorem stagingWritten_changes (s : State) (b : Bank) :
    Changes [] s { s with tables := s.tables.setBank s.tables.staging b } := by
  obtain ⟨hactive, hcommit, hepoch⟩ := s.tables.setBank_keeps s.tables.staging b
  exact s.withTables_changes _ (fun _ => hepoch) (fun _ => hactive) fun _ => hcommit

theorem writeRouteBody_changes (h : writeRouteBody r s = .done t outputs) : Changes [] s t := by
  unfold writeRouteBody at h
  obtain ⟨-, h⟩ := Reply.done_of_check h
  split at h
  · cases h
  · obtain ⟨-, h⟩ := Reply.done_of_check h
    split at h
    · cases h
    · cases h; exact stagingWritten_changes s _

theorem writeGroupBody_changes (h : writeGroupBody r s = .done t outputs) : Changes [] s t := by
  unfold writeGroupBody at h
  obtain ⟨-, h⟩ := Reply.done_of_check h
  split at h
  · cases h
  · cases h; exact stagingWritten_changes s _

theorem readEntries_changes {size : Nat} {words : Bank → Nat → List Word} (h : readEntries r s size words = .done t outputs) :
    Changes [] s t := by
  unfold readEntries at h
  obtain ⟨-, h⟩ := Reply.done_of_check h
  split at h
  · cases h
  · obtain ⟨-, h⟩ := Reply.done_of_check h
    obtain ⟨-, h⟩ := Reply.done_of_check h
    cases h
    exact .refl _ s

theorem State.swap_changes (s : State) : Changes [.activeBank, .commit] s s.swap := by
  unfold State.swap
  exact (s.withTables_changes { s.tables with active := s.tables.active.other, commit := .mirroring 0 } (fun _ => rfl)
    (fun h => absurd (by decide) h) fun h => absurd (by decide) h).notices (State.notify_effects ..)

theorem commitRoutingBody_changes (h : commitRoutingBody r s = .done t outputs) : Changes [.activeBank, .commit] s t := by
  unfold commitRoutingBody at h
  simp only at h
  split at h
  · cases h
  · cases h
  · split_ifs at h
    · cases h; exact s.swap_changes
    · cases h
      exact s.withTables_changes _ (fun _ => rfl) (fun _ => rfl) fun h => absurd (by decide) h

theorem cancelCommitBody_changes (h : cancelCommitBody r s = .done t outputs) : Changes [.commit] s t := by
  unfold cancelCommitBody at h
  split at h
  · cases h
    exact s.withTables_changes _ (fun _ => rfl) (fun _ => rfl) fun h => absurd (by decide) h
  · cases h
  · cases h

theorem State.swapIfReached_changes (s : State) : Changes [.activeBank, .commit] s s.swapIfReached := by
  unfold State.swapIfReached
  split
  · split_ifs
    · exact .refl _ s
    · exact s.swap_changes
  · exact .refl _ s
  · exact .refl _ s

theorem epochMarkBody_changes (h : epochMarkBody r s = .done t outputs) : Changes [.epoch, .activeBank, .commit] s t := by
  unfold epochMarkBody at h
  simp only at h
  split_ifs at h
  cases h
  exact (s.withTables_changes { s.tables with epoch := blockWord r 0 } (fun h => absurd (by decide) h) (fun _ => rfl)
    fun _ => rfl).trans (State.swapIfReached_changes _)

end requests

/-! ### The other commands -/

theorem State.mirror_changes (s : State) : Changes [.commit] s s.mirror := by
  unfold State.mirror
  split_ifs
  · exact .refl _ s
  · split
    next p _ =>
      obtain ⟨hactive, -, hepoch⟩ := s.tables.setBank_keeps s.tables.staging
        (copyEntry (s.tables.bank s.tables.active) (s.tables.bank s.tables.staging) p)
      have hcommit (c : CommitState) : Changes [.commit] s { s with tables := { s.tables.setBank s.tables.staging
          (copyEntry (s.tables.bank s.tables.active) (s.tables.bank s.tables.staging) p) with commit := c } } :=
        s.withTables_changes _ (fun _ => hepoch) (fun _ => hactive) fun h => absurd (by decide) h
      unfold State.copyStep
      simp only
      split_ifs
      · exact (hcommit .idle).notices (State.notify_effects ..)
      · exact hcommit _
    · exact .refl _ s
    · exact .refl _ s

theorem emptyFifos_changes (ps : List Link) : ∀ e : Ev, Changes [.ports] e.s (emptyFifos ps e).s := by
  induction ps with
  | nil => intro e; exact .refl _ _
  | cons p ps ih => intro e; exact ((e.s.fifoCleared_changes p).notices (e.emptyFifo_effects p)).trans (ih _)

theorem flushPorts_traffic (ps : List Link) : ∀ e : Ev, TrafficEffects e.s (flushPorts ps e).s := by
  induction ps with
  | nil => intro e; exact .refl _
  | cons p ps ih => intro e; exact (e.flushPort_traffic p).trans (ih _)

/-- `State.rebuild` with the free list, the map's entries and its version given, so that the list of all buffers need not be unfolded. -/
def State.rebuiltWith (s : State) (free : List Nat) (held : Vector (Vector Bool 4) 24) (version : BitVec 16) : State :=
  { s with bm := { s.bm with free := free }, cmap := { s.cmap with held := held, version := version },
           scheds := s.scheds.map Scheduler.close }

theorem State.rebuild_eq (s : State) : s.rebuild =
    s.rebuiltWith (List.range Config.bufferCount) (Vector.replicate 24 (Vector.replicate 4 false)) (s.cmap.version + 1) := rfl

theorem State.rebuiltWith_sched (s : State) (free : List Nat) (held : Vector (Vector Bool 4) 24) (version : BitVec 16) (p : Link) :
    (s.rebuiltWith free held version).scheds[p] = s.scheds[p].close := Vector.getElem_map ..

theorem State.rebuiltWith_changes (s : State) (free : List Nat) (held : Vector (Vector Bool 4) 24) (version : BitVec 16) :
    Changes [.ports] s (s.rebuiltWith free held version) := by
  refine .of_one fun x hx => ?_
  cases x with
  | ports => exact absurd rfl hx
  | staging =>
    funext p
    show ((s.rebuiltWith free held version).scheds[p]).staging = s.scheds[p].staging
    rw [State.rebuiltWith_sched]
    rfl
  | _ => rfl

theorem State.rebuild_changes (s : State) : Changes [.ports] s s.rebuild := by
  rw [State.rebuild_eq]
  exact s.rebuiltWith_changes _ _ _

theorem State.resetDatapath_changes (s : State) : Changes [.ports] s s.resetDatapath.s :=
  ((emptyFifos_changes _ ⟨s, true, false⟩).traffic (flushPorts_traffic _ _)).trans (State.rebuild_changes _)

theorem State.executeReset_changes (s : State) (r : Request) : Changes [.ports] s (s.executeReset r) := by
  have hpop : Changes [.ports] s s.popRequest := by
    refine ⟨fun x _ => ?_⟩
    cases x <;> rfl
  unfold State.executeReset
  simp only
  split
  · exact hpop.traffic (Ev.answer_traffic ⟨s.popRequest, false, false⟩ r _ [])
  · exact ((hpop.trans (State.resetDatapath_changes _)).traffic (Ev.answer_traffic _ r .ok [])).notices (State.release_effects ..)

/-! ### Command by command -/

def Part.all : List Part :=
  [.ports, .arbiter, .address, .strap, .params, .thresholds, .timing, .carryMask, .epoch, .activeBank, .commit, .linkSettings,
   .staging, .noticeSettings, .tx, .draws]

theorem Part.mem_all (x : Part) : x ∈ Part.all := by cases x <;> decide

/-- The parts that a command may change. -/
def Part.changedBy : Instr → List Part
  | .resetAssert => Part.all
  | .resetRelease _ => Part.all
  | .receiveSlot _ _ => [.ports]
  | .attemptTimerExpiry _ => [.ports, .draws]
  | .holdoffTimerExpiry _ => [.ports]
  | .forwardingEvent => [.ports, .arbiter]
  | .egressSlot _ => [.ports, .tx]
  | .mirrorCopyStep => [.commit]
  | .unknownRequest => []
  | .identify => []
  | .writeRoute => []
  | .readRoute => []
  | .writeGroup => []
  | .readGroup => []
  | .commitRouting => [.activeBank, .commit]
  | .cancelCommit => [.commit]
  | .epochMark => [.epoch, .activeBank, .commit]
  | .readTableState => []
  | .writeSchedule => [.ports, .staging]
  | .applySchedule => [.ports]
  | .readSchedule => []
  | .setAdmission => [.params]
  | .setFlow => [.thresholds]
  | .setStatusTiming => [.timing]
  | .readBufferState => []
  | .linkControl => [.ports, .linkSettings]
  | .readLinkStatus => []
  | .clearLinkStatus => [.ports]
  | .readCounters => []
  | .clearCarry => [.carryMask]
  | .setNotice => [.noticeSettings]
  | .setElementAddress => [.address]
  | .datapathReset => [.ports]

theorem execDatapathReset_changes {s t : State} (h : execDatapathReset s = .next t) : Changes [.ports] s t := by
  unfold execDatapathReset at h
  cases h
  split
  · exact .refl _ s
  · exact s.executeReset_changes _

theorem exec_changes (c : Instr) {s t : State} (h : exec c s = .next t) : Changes (Part.changedBy c) s t := by
  cases c with
  | resetAssert => exact ⟨fun x hx => absurd x.mem_all hx⟩
  | resetRelease straps => exact ⟨fun x hx => absurd x.mem_all hx⟩
  | datapathReset => exact execDatapathReset_changes h
  | receiveSlot p arrival => cases h; exact s.receive_changes p arrival
  | attemptTimerExpiry p => cases h; exact s.attemptExpires_changes p
  | holdoffTimerExpiry p => cases h; exact s.holdoffExpires_changes p
  | forwardingEvent => cases h; exact s.forward_changes
  | egressSlot p => cases h; exact s.egress_changes p
  | mirrorCopyStep => cases h; exact s.mirror_changes
  | unknownRequest => cases h; exact s.serve_changes _ _ fun _ _ _ _ h => by cases h
  | identify => cases h; exact s.serve_changes _ _ fun _ _ _ _ h => by cases h; exact .refl _ _
  | writeRoute => cases h; exact s.serve_changes _ _ fun _ _ _ _ => writeRouteBody_changes
  | readRoute => cases h; exact s.serve_changes _ _ fun _ _ _ _ => readEntries_changes
  | writeGroup => cases h; exact s.serve_changes _ _ fun _ _ _ _ => writeGroupBody_changes
  | readGroup => cases h; exact s.serve_changes _ _ fun _ _ _ _ => readEntries_changes
  | commitRouting => cases h; exact s.serve_changes _ _ fun _ _ _ _ => commitRoutingBody_changes
  | cancelCommit => cases h; exact s.serve_changes _ _ fun _ _ _ _ => cancelCommitBody_changes
  | epochMark => cases h; exact s.serve_changes _ _ fun _ _ _ _ => epochMarkBody_changes
  | readTableState => cases h; exact s.serve_changes _ _ fun _ _ _ _ h => by cases h; exact .refl _ _
  | writeSchedule => cases h; exact s.serve_changes _ _ fun _ _ _ _ => writeScheduleBody_changes
  | applySchedule => cases h; exact s.serve_changes _ _ fun _ _ _ _ => applyScheduleBody_changes
  | readSchedule => cases h; exact s.serve_changes _ _ fun _ _ _ _ => readScheduleBody_changes
  | setAdmission => cases h; exact s.serve_changes _ _ fun _ _ _ _ => setAdmissionBody_changes
  | setFlow => cases h; exact s.serve_changes _ _ fun _ _ _ _ => setFlowBody_changes
  | setStatusTiming => cases h; exact s.serve_changes _ _ fun _ _ _ _ => setStatusTimingBody_changes
  | readBufferState => cases h; exact s.serve_changes _ _ fun _ _ _ _ => readBufferStateBody_changes
  | linkControl => cases h; exact s.serve_changes _ _ fun _ _ _ _ => linkControlBody_changes
  | readLinkStatus => cases h; exact s.serve_changes _ _ fun _ _ _ _ => readLinkStatusBody_changes
  | clearLinkStatus => cases h; exact s.serve_changes _ _ fun _ _ _ _ => clearLinkStatusBody_changes
  | readCounters => cases h; exact s.serve_changes _ _ fun _ _ _ _ => readCountersBody_changes
  | clearCarry => cases h; exact s.serve_changes _ _ fun _ _ _ _ => clearCarryBody_changes
  | setNotice => cases h; exact s.serve_changes _ _ fun _ _ _ _ => setNoticeBody_changes
  | setElementAddress => cases h; exact s.serve_changes _ _ fun _ _ _ _ => setElementAddressBody_changes

end Sys2Proof.Machine

namespace Sys2Proof.Claims

open Sys2Proof.Machine

/-- Settles O59: each clause speaks of one part, which the list of every other command leaves out. -/
theorem settingsChangeOnlyByTheirCommands : Obligations.SettingsChangeOnlyByTheirCommands := by
  intro c s t hassert hrelease h
  have hchanges := exec_changes c h
  refine ⟨fun hc => hchanges.kept .arbiter ?_, fun hc => hchanges.address ?_, hchanges.kept .strap ?_,
    fun hc => hchanges.kept .params ?_, fun hc => hchanges.kept .thresholds ?_, fun hc => hchanges.kept .timing ?_,
    fun hc => hchanges.kept .carryMask ?_, fun hc => hchanges.kept .epoch ?_, fun h1 h2 => hchanges.kept .activeBank ?_,
    fun h1 h2 h3 h4 => hchanges.kept .commit ?_, fun hc => hchanges.linkSettings ?_,
    fun hc p => congrFun (hchanges.kept .staging ?_) p, fun hc => hchanges.noticeSettings ?_, fun hc => hchanges.kept .tx ?_,
    fun hc => hchanges.kept .draws ?_⟩
  all_goals cases c <;> simp_all [Part.changedBy]

end Sys2Proof.Claims
end

section
/-! Receive slots and timers of a link: what each class of slot does in TRAINING and in UP (R13 to R26). -/

namespace Sys2Proof.Machine

/-! ### The classes of a receive slot (R14) -/

section classes
variable {c : Cell} {k : CellType}

theorem classify_headerError (h : HeaderError c) : classify (some c) = .headerError := if_pos h

theorem classify_checked (h : headerCheck c.header = c.header[7]) : classify (some c) =
    match cellType c with
    | .invalid => .formatError
    | .idle => .valid c (parseHeader c.header) .idle
    | .train => .valid c (parseHeader c.header) .train
    | t => if 57 ≤ cellLength c then .formatError else .valid c (parseHeader c.header) t := by
  refine (if_neg (not_not_intro h)).trans ?_
  unfold cellType
  cases cellTypeOf (parseHeader c.header).type <;> rfl

theorem classify_formatError (h : FormatError c) : classify (some c) = .formatError := by
  obtain ⟨hcheck, htype⟩ := h
  rw [classify_checked hcheck]
  cases hk : cellType c <;> simp [hk] at htype ⊢ <;> omega

theorem classify_valid (h : ValidCell c k) : classify (some c) = .valid c (parseHeader c.header) k := by
  obtain ⟨hcheck, rfl, hvalid, hlength⟩ := h
  rw [classify_checked hcheck]
  cases hk : cellType c <;> simp [hk] at hvalid hlength ⊢ <;> omega

/-- A slot of class valid has brought the cell that the class names, and an Ingress FIFO may hold it unless it is IDLE or TRAIN. -/
theorem classify_eq_valid {arrival : Option Cell} {h : Header} (hc : classify arrival = .valid c h k) :
    arrival = some c ∧ (k ≠ .idle → k ≠ .train → fifoCell c = true) := by
  have hcell : arrival = some c := by
    cases arrival with
    | none => cases hc
    | some d =>
      by_cases hcheck : headerCheck d.header = d.header[7]
      · rw [classify_checked hcheck] at hc
        split at hc
        · cases hc
        · cases hc; rfl
        · cases hc; rfl
        · split at hc
          · cases hc
          · cases hc; rfl
      · rw [classify_headerError hcheck] at hc
        cases hc
  refine ⟨hcell, fun hidle htrain => ?_⟩
  unfold fifoCell
  rw [← hcell, hc]
  simp [hidle, htrain]

theorem carriesTraffic_ne (h : carriesTraffic k = true) : k ≠ .idle ∧ k ≠ .train := by
  constructor <;> (rintro rfl; cases h)

end classes

/-! ### One link's record or FIFO replaced -/

theorem LinkBecomes.of_mod (s : State) (p : Link) (f : LinkPort → LinkPort) : LinkBecomes p (f s.links[p]) s (s.modLink p f) :=
  ⟨rfl, fun q => by rw [State.modLink_links, upd_get]⟩

theorem LinkBecomes.congr {p : Link} {l l' : LinkPort} {s t : State} (h : LinkBecomes p l s t) (e : l = l') : LinkBecomes p l' s t := e ▸ h

/-- The FIFO of link p as `f` makes it, no other touched. -/
theorem State.modFifo_get (s : State) (p : Link) (f : IngressFifo → IngressFifo) (q : Link) :
    (s.modFifo p f).fifos[q] = if q = p then f s.fifos[q] else s.fifos[q] := by
  rw [State.modFifo_fifos, upd_get]
  split_ifs with h
  · rw [h]
  · rfl

theorem State.modLink_get (s : State) (p : Link) (f : LinkPort → LinkPort) (q : Link) :
    (s.modLink p f).links[q] = if q = p then f s.links[q] else s.links[q] := by
  rw [State.modLink_links, upd_get]
  split_ifs with h
  · rw [h]
  · rfl

theorem State.modLink_modLink (s : State) (p : Link) (f g : LinkPort → LinkPort) :
    (s.modLink p f).modLink p g = s.modLink p fun l => g (f l) := by
  unfold State.modLink
  simp only [upd_same, upd_upd]

/-! ### Reception in TRAINING (R15 to R17) -/

section slots
variable {s : State} {p : Link}

theorem exec_receiveSlot_training (hr : s.resetAsserted = false) (hs : s.links[p].state = .training) (arrival : Option Cell) :
    exec (.receiveSlot p arrival) s = .next (s.receiveTraining p (classify arrival)) := by
  show Host.Outcome.next (s.receive p arrival) = _
  unfold State.receive
  rw [hr, hs]
  rfl

theorem exec_receiveSlot_up (hr : s.resetAsserted = false) (hs : s.links[p].state = .up) (arrival : Option Cell) :
    exec (.receiveSlot p arrival) s = .next (s.receiveUp p (classify arrival)) := by
  show Host.Outcome.next (s.receive p arrival) = _
  unfold State.receive
  rw [hr, hs]
  rfl

/-- A good training cell: what it does after the partner hold flag is stored (R15 to R17, R46). -/
theorem State.receiveTraining_good (s : State) (p : Link) (c : Cell) (h : Header) {t : CellType} (ht : t = .idle ∨ t = .train) :
    s.receiveTraining p (.valid c h t) = (s.modLink p fun l => { l with partnerHold := h.hold }).trainOn p := if_pos ht

theorem State.receiveTraining_foreign (s : State) (p : Link) (c : Cell) (h : Header) {t : CellType} (ht : carriesTraffic t = true) :
    s.receiveTraining p (.valid c h t) = (s.modLink p fun l => { l with partnerHold := h.hold }).runLost p .linkFlush := by
  obtain ⟨hidle, htrain⟩ := carriesTraffic_ne ht
  exact if_neg (not_or.mpr ⟨hidle, htrain⟩)

theorem State.runLost_spec (s : State) (p : Link) (c : Counter) :
    ∃ a, LinkBecomes p { s.links[p] with run := 0 } s a ∧ Counted a (s.runLost p c) p c :=
  ⟨_, .of_mod s p fun l => { l with run := 0 }, State.count_spec ..⟩

theorem ValidCell.trains {c : Cell} (h : ValidCell c .train ∨ ValidCell c .idle) :
    ∃ t, classify (some c) = .valid c (parseHeader c.header) t ∧ (t = .idle ∨ t = .train) := by
  rcases h with h | h
  · exact ⟨_, classify_valid h, .inr rfl⟩
  · exact ⟨_, classify_valid h, .inl rfl⟩

theorem State.trainOn_short (s : State) (p : Link) (h : s.links[p].run + 1 < 64) :
    s.trainOn p = s.modLink p fun l =>
      { l with run := s.links[p].run + 1, acknowledged := l.acknowledged || decide (32 ≤ s.links[p].run + 1) } :=
  if_neg (Nat.not_le.mpr h)

theorem State.trainOn_last (s : State) (p : Link) (h : s.links[p].run = 63) : s.trainOn p = s.enterUp p :=
  if_pos (by rw [h]; decide)

/-- The acknowledged flag of a run that keeps it set from 32 on is set by the cell that brings the run to 32. -/
theorem acknowledged_raised {run : Nat} {acknowledged : Bool} (h : 32 ≤ run → acknowledged = true) :
    (acknowledged || decide (32 ≤ run + 1)) = (acknowledged || decide (run + 1 = 32)) := by
  rcases Nat.lt_or_ge run 32 with hrun | hrun
  · congr 1
    exact decide_eq_decide.mpr (by omega)
  · rw [h hrun]; rfl

/-- The link record of UP entered (R17). -/
def upEntered (l : LinkPort) : LinkPort :=
  { l with state := .up, attemptTimer := ⟨l.attemptTimer.micros, false⟩, run := 0, acknowledged := false, score := 0, liveness := 0,
           rxExpect := none, txSeq := 0 }

theorem State.enterUp_eq (s : State) (p : Link) : s.enterUp p =
    ((s.modLink p upEntered).modSender p fun _ => ⟨none, 0, 0⟩).notify .linkState
      (linkStateDetail p .up .training s.links[p].lastDown s.links[p].attempts) := by
  have hp : ((s.modLink p upEntered).modSender p fun _ => ⟨none, 0, 0⟩).links[p] = upEntered s.links[p] := upd_same ..
  show State.notify _ _ (linkStateDetail p .up .training
    (((s.modLink p upEntered).modSender p fun _ => ⟨none, 0, 0⟩).links[p]).lastDown
    (((s.modLink p upEntered).modSender p fun _ => ⟨none, 0, 0⟩).links[p]).attempts) = _
  rw [hp]
  rfl

/-- Link p enters UP (R17, R26, R121). -/
theorem State.enterUp_spec (s : State) (p : Link) (hold : Bool) :
    EnteredUp p hold s ((s.modLink p fun l => { l with partnerHold := hold }).enterUp p) := by
  have hp : (s.modLink p fun l => { l with partnerHold := hold }).links[p] = { s.links[p] with partnerHold := hold } := upd_same ..
  rw [State.enterUp_eq, State.modLink_modLink, hp]
  exact ⟨(s.modLink p fun l => upEntered { l with partnerHold := hold }).modSender p fun _ => ⟨none, 0, 0⟩,
    ⟨rfl, State.modLink_get s p fun l => upEntered { l with partnerHold := hold }, fun q => upd_get ..⟩, State.notify_spec ..⟩

/-! ### Reception in UP (R21 to R23) -/

/-- Link p leaves UP the same way after a change of its record that leaving UP overwrites. -/
theorem LeftUp.of_modLink {reason : DownReason} {disable : Bool} {t : State} {f : LinkPort → LinkPort}
    (h : LeftUp p reason disable (s.modLink p f) t) (hf : ∀ l, upLeft reason disable (f l) = upLeft reason disable l) :
    LeftUp p reason disable s t := by
  obtain ⟨a, b, c, d, ⟨hframe, hlinks, hfifos⟩, hrest⟩ := h
  refine ⟨a, b, c, d, ⟨hframe, fun q => ?_, hfifos⟩, hrest⟩
  rw [hlinks, State.modLink_get]
  split_ifs
  · exact hf _
  · rfl

theorem upLeft_supervised (reason : DownReason) (disable : Bool) (l : LinkPort) (liveness score : Nat) (hold : Bool) :
    upLeft reason disable { l with liveness := liveness, score := score, partnerHold := hold } = upLeft reason disable l := by
  cases disable <;> rfl

/-- A slot without a valid cell: the liveness count raised (R21). -/
def livenessRaised (l : LinkPort) : LinkPort := { l with liveness := l.liveness + 1 }

/-- The silence of 4,096 slots ends UP, and otherwise nothing more happens (R21). -/
theorem silence_decided {n : Nat} : decide (Config.silenceSlots ≤ n + 1) = true ↔ 4095 ≤ n := by
  simp [Config.silenceSlots]

theorem State.receiveUp_noCell (s : State) (p : Link) : s.receiveUp p .noCell =
    if 4095 ≤ s.links[p].liveness then (s.modLink p livenessRaised).leaveUp p .silence false else s.modLink p livenessRaised := by
  unfold State.receiveUp
  simp only [silence_decided]
  rfl

/-- A format error in UP up to its count: the liveness count raised, the latched flag set (R21, R47). -/
def State.formatErrorSeen (s : State) (p : Link) : State :=
  (s.modLink p livenessRaised).modFifo p fun f => { f with formatErrSeen := true }

/-- A header error in UP up to its count: liveness count and error score raised, the latched flag set (R21, R22, R47). -/
def State.headerErrorSeen (s : State) (p : Link) : State :=
  (s.modLink p fun l => { l with liveness := l.liveness + 1, score := l.score + 16 }).modFifo p fun f => { f with hdrErrSeen := true }

theorem State.receiveUp_formatError (s : State) (p : Link) : s.receiveUp p .formatError =
    if 4095 ≤ s.links[p].liveness then ((s.formatErrorSeen p).count p .formatErr).leaveUp p .silence false
    else (s.formatErrorSeen p).count p .formatErr := by
  unfold State.receiveUp
  simp only [silence_decided]
  rfl

theorem State.receiveUp_headerError (s : State) (p : Link) : s.receiveUp p .headerError =
    if 240 ≤ s.links[p].score then ((s.headerErrorSeen p).count p .hdrErr).leaveUp p .errorScore false
    else if 4095 ≤ s.links[p].liveness then ((s.headerErrorSeen p).count p .hdrErr).leaveUp p .silence false
    else (s.headerErrorSeen p).count p .hdrErr := by
  have hlimit : Config.scoreLimit ≤ s.links[p].score + Config.scoreRise ↔ 240 ≤ s.links[p].score := by
    simp only [Config.scoreLimit, Config.scoreRise]; omega
  unfold State.receiveUp
  simp only [silence_decided, hlimit, State.modLink_modLink]
  rfl

/-- A valid cell in UP: the record of link p as the cell leaves it (R21, R22, R46). -/
def supervisionReset (hold : Bool) (l : LinkPort) : LinkPort := { l with partnerHold := hold, liveness := 0, score := l.score - 1 }

theorem State.receiveUp_valid (s : State) (p : Link) (c : Cell) (h : Header) (t : CellType) : s.receiveUp p (.valid c h t) =
    if t = .train then (s.modLink p (supervisionReset h.hold)).leaveUp p .partnerRetrain false
    else if t = .idle then s.modLink p (supervisionReset h.hold)
    else (s.modLink p (supervisionReset h.hold)).receiveTraffic p c h.seq := rfl

theorem State.headerErrorSeen_spec (s : State) (p : Link) :
    (s.headerErrorSeen p) = { s with links := (s.headerErrorSeen p).links, fifos := (s.headerErrorSeen p).fifos } ∧
      (∀ q : Link, (s.headerErrorSeen p).links[q] = if q = p then
        { s.links[q] with liveness := s.links[q].liveness + 1, score := s.links[q].score + 16 } else s.links[q]) ∧
      ∀ q : Link, (s.headerErrorSeen p).fifos[q] = if q = p then { s.fifos[q] with hdrErrSeen := true } else s.fifos[q] :=
  ⟨rfl, State.modLink_get s p fun l => { l with liveness := l.liveness + 1, score := l.score + 16 },
    State.modFifo_get _ p fun f => { f with hdrErrSeen := true }⟩

theorem State.formatErrorSeen_spec (s : State) (p : Link) :
    (s.formatErrorSeen p) = { s with links := (s.formatErrorSeen p).links, fifos := (s.formatErrorSeen p).fifos } ∧
      (∀ q : Link, (s.formatErrorSeen p).links[q] = if q = p then livenessRaised s.links[q] else s.links[q]) ∧
      ∀ q : Link, (s.formatErrorSeen p).fifos[q] = if q = p then { s.fifos[q] with formatErrSeen := true } else s.fifos[q] :=
  ⟨rfl, State.modLink_get s p livenessRaised, State.modFifo_get _ p fun f => { f with formatErrSeen := true }⟩

end slots

end Sys2Proof.Machine

namespace Sys2Proof.Claims

open Sys2Proof.Machine

/-- Settles O5: class by class; a good cell short of 64 only raises the run, every other cell loses it and is counted. -/
theorem trainingReception : Obligations.TrainingReception := by
  intro s p hr hs
  have hexec := exec_receiveSlot_training hr hs
  have lost {c : Cell} (k : Counter) (hc : s.receiveTraining p (classify (some c)) = s.runLost p k) :
      ∃ a t, exec (.receiveSlot p (some c)) s = .next t ∧ LinkBecomes p { s.links[p] with run := 0 } s a ∧ Counted a t p k := by
    obtain ⟨a, ha, ht⟩ := s.runLost_spec p k
    exact ⟨a, _, (hexec _).trans (congrArg _ hc), ha, ht⟩
  refine ⟨hexec none, fun c hvalid hrun hack => ?_, fun c h => lost .hdrErr (by rw [classify_headerError h]; rfl),
    fun c h => lost .formatErr (by rw [classify_formatError h]; rfl), fun c k hk hvalid => ?_⟩
  · obtain ⟨t, hclass, ht⟩ := ValidCell.trains hvalid
    refine ⟨_, hexec _, ?_⟩
    have hp : (s.modLink p fun l => { l with partnerHold := (parseHeader c.header).hold }).links[p].run = s.links[p].run := by
      rw [State.modLink_get, if_pos rfl]
    rw [hclass, State.receiveTraining_good _ _ _ _ ht, State.trainOn_short _ _ (by rw [hp]; exact hrun), hp, State.modLink_modLink]
    refine (LinkBecomes.of_mod s p _).congr ?_
    rw [runRaised, acknowledged_raised hack]
  · refine ⟨s.modLink p fun l => { l with run := 0, partnerHold := (parseHeader c.header).hold }, _, hexec _, .of_mod s p _, ?_⟩
    rw [classify_valid hvalid, State.receiveTraining_foreign _ _ _ _ hk]
    unfold State.runLost
    rw [State.modLink_modLink]
    exact State.count_spec ..

/-- Settles O6: the run of 64 enters UP with the hold bit of its last cell. -/
theorem sixtyFourthTrainingCellEntersUp : Obligations.SixtyFourthTrainingCellEntersUp := by
  intro s p c hr hs hvalid hrun
  obtain ⟨t, hclass, ht⟩ := ValidCell.trains hvalid
  have hp : (s.modLink p fun l => { l with partnerHold := (parseHeader c.header).hold }).links[p].run = 63 := by
    rw [State.modLink_get, if_pos rfl]; exact hrun
  refine ⟨_, exec_receiveSlot_training hr hs _, ?_⟩
  rw [hclass, State.receiveTraining_good _ _ _ _ ht, State.trainOn_last _ _ hp]
  exact s.enterUp_spec p _

/-- Settles O7: each class of slot that leaves the link in UP, the limits of R21 and R22 not reached. -/
theorem quietSlotsInUp : Obligations.QuietSlotsInUp := by
  intro s p hr hs
  have hexec := exec_receiveSlot_up hr hs
  refine ⟨fun hlive => ?_, fun c h hlive => ?_, fun c h hlive hscore => ?_, fun c h => ?_⟩
  · refine ⟨_, hexec none, ?_⟩
    rw [show classify none = .noCell from rfl, State.receiveUp_noCell, if_neg (by omega)]
    exact .of_mod s p livenessRaised
  · refine ⟨s.modLink p livenessRaised, s.formatErrorSeen p, _, hexec _, .of_mod s p livenessRaised,
      ⟨rfl, (s.formatErrorSeen_spec p).2.2⟩, ?_⟩
    rw [classify_formatError h, State.receiveUp_formatError, if_neg (by omega)]
    exact State.count_spec ..
  · refine ⟨_, s.headerErrorSeen p, _, hexec _, .of_mod s p fun l => { l with liveness := l.liveness + 1, score := l.score + 16 },
      ⟨rfl, (s.headerErrorSeen_spec p).2.2⟩, ?_⟩
    rw [classify_headerError h, State.receiveUp_headerError, if_neg (by omega), if_neg (by omega)]
    exact State.count_spec ..
  · refine ⟨_, hexec _, ?_⟩
    rw [classify_valid h, State.receiveUp_valid, if_neg (by decide), if_pos rfl]
    exact .of_mod s p (supervisionReset (parseHeader c.header).hold)

/-- Settles O8: the silence, the score and the partner's retraining, each with the leaving of UP that it causes. -/
theorem slotsThatTakeALinkDown : Obligations.SlotsThatTakeALinkDown := by
  intro s p hr hs
  have hexec := exec_receiveSlot_up hr hs
  refine ⟨fun hlive => ?_, fun c h hlive => ?_, fun c h hlimit => ?_, fun c h => ?_⟩
  · refine ⟨_, hexec none, ?_⟩
    rw [show classify none = .noCell from rfl, State.receiveUp_noCell, if_pos (by omega)]
    exact (State.leaveUp_spec ..).of_modLink fun l => upLeft_supervised _ _ l _ l.score l.partnerHold
  · obtain ⟨hframe, hlinks, hfifos⟩ := s.formatErrorSeen_spec p
    refine ⟨s.formatErrorSeen p, _, _, hexec _, ⟨hframe, fun q => ?_, hfifos⟩, State.count_spec _ p .formatErr, ?_⟩
    · rw [hlinks]
      split_ifs with hq
      · subst hq; rw [livenessRaised, hlive]
      · rfl
    · rw [classify_formatError h, State.receiveUp_formatError, if_pos (by omega)]
      exact State.leaveUp_spec ..
  · refine ⟨s.headerErrorSeen p, _, _, hexec _, s.headerErrorSeen_spec p, State.count_spec _ p .hdrErr, ?_⟩
    rw [classify_headerError h, State.receiveUp_headerError]
    by_cases hscore : 240 ≤ s.links[p].score
    · rw [if_pos hscore, if_pos hscore]
      exact State.leaveUp_spec ..
    · rw [if_neg hscore, if_neg hscore, if_pos (by omega)]
      exact State.leaveUp_spec ..
  · refine ⟨_, hexec _, ?_⟩
    rw [classify_valid h, State.receiveUp_valid, if_pos rfl]
    exact (State.leaveUp_spec ..).of_modLink fun l => upLeft_supervised _ _ l _ _ _

end Sys2Proof.Claims
end

section
/-! Timers, and the slots of links that are not UP (R13, R16, R18 to R20). -/

namespace Sys2Proof.Machine

section timers
variable {s : State} {p : Link}

/-- The attempt timer's expiry in TRAINING (R18). -/
theorem exec_attemptTimerExpiry (hr : s.resetAsserted = false) (hs : s.links[p].state = .training) :
    exec (.attemptTimerExpiry p) s = .next (if s.links[p].retrainLimit ≤ s.links[p].attempts + 1
      then s.enterFailed p (s.links[p].attempts + 1) else s.enterHoldoff p (s.links[p].attempts + 1)) := by
  show Host.Outcome.next (s.attemptExpires p) = _
  unfold State.attemptExpires
  rw [hr, if_neg Bool.false_ne_true, if_pos hs]

/-- FAILED entered (R19, R26). -/
theorem State.enterFailed_spec (s : State) (p : Link) (n : Nat) :
    ∃ a, LinkBecomes p { s.links[p] with state := .failed, attempts := n, run := 0, attemptTimer := ⟨2000, false⟩ } s a ∧
      Notified a (s.enterFailed p n) .linkState (linkStateDetail p .failed .training s.links[p].lastDown n) := by
  let f : LinkPort → LinkPort := fun l =>
    { l with state := .failed, attempts := n, run := 0, attemptTimer := ⟨Config.attemptMicros, false⟩ }
  have hlast : ((s.modLink p f).links[p]).lastDown = s.links[p].lastDown := by rw [State.modLink_get, if_pos rfl]
  refine ⟨s.modLink p f, .of_mod s p f, ?_⟩
  rw [← hlast]
  exact State.notify_spec ..

/-- HOLDOFF entered, or at a draw of 0 the new attempt begun (R20). -/
theorem State.enterHoldoff_spec (s : State) (p : Link) (n : Nat) :
    LinkBecomes p
      (if Config.holdoffDraw s.draws % 2 ^ min n s.links[p].truncation = 0 then attemptBegun n s.links[p]
       else { s.links[p] with state := .holdoff, attempts := n, attemptTimer := ⟨2000, false⟩,
                              holdoffTimer := ⟨Config.holdoffDraw s.draws % 2 ^ min n s.links[p].truncation * 10, true⟩ })
      { s with draws := s.draws + 1 } (s.enterHoldoff p n) := by
  unfold State.enterHoldoff holdoffUnits
  simp only
  split_ifs
  · exact .of_mod { s with draws := s.draws + 1 } p (beginAttempt n)
  · exact .of_mod { s with draws := s.draws + 1 } p _

end timers

end Sys2Proof.Machine

namespace Sys2Proof.Claims

open Sys2Proof.Machine

/-- Settles O11: the attempt timer by the limit and by the draw, the holdoff timer, and both in every other state. -/
theorem linkTimersExpire : Obligations.LinkTimersExpire := by
  intro s p hr
  refine ⟨fun hs hlimit => ?_, fun hs hlimit => ?_, fun hs => ?_, fun hs => ?_, fun hs => ?_⟩
  · obtain ⟨a, ha, ht⟩ := s.enterFailed_spec p (s.links[p].attempts + 1)
    exact ⟨a, _, (exec_attemptTimerExpiry hr hs).trans (congrArg _ (if_pos hlimit)), ha, ht⟩
  · exact ⟨Nat.mod_lt _ (Nat.two_pow_pos _), _, (exec_attemptTimerExpiry hr hs).trans (congrArg _ (if_neg (by omega))),
      s.enterHoldoff_spec p _⟩
  · refine ⟨_, ?_, .of_mod s p (beginAttempt s.links[p].attempts)⟩
    show Host.Outcome.next (s.holdoffExpires p) = _
    unfold State.holdoffExpires
    rw [hr, if_neg Bool.false_ne_true, if_pos hs]
  · show Host.Outcome.next (s.attemptExpires p) = _
    unfold State.attemptExpires
    rw [hr, if_neg Bool.false_ne_true, if_neg hs]
  · show Host.Outcome.next (s.holdoffExpires p) = _
    unfold State.holdoffExpires
    rw [hr, if_neg Bool.false_ne_true, if_neg hs]

/-- Settles O12: the three silent states by one argument, then TRAINING. -/
theorem slotsOfLinksThatAreNotUp : Obligations.SlotsOfLinksThatAreNotUp := by
  intro s p hr
  refine ⟨fun hs => ⟨fun arrival => ?_, s.setTx p none, ?_, rfl, upd_same .., fun q hq => upd_other _ _ _ _ hq⟩, fun hs => ?_⟩
  · show Host.Outcome.next (s.receive p arrival) = _
    unfold State.receive
    rcases hs with hs | hs | hs <;> rw [hr, hs] <;> rfl
  · rw [exec_egressSlot]
    unfold State.egress
    rcases hs with hs | hs | hs <;> rw [hr, hs] <;> rfl
  · have hsent : s.egress p = s.transmit p (if s.links[p].acknowledged = true then idleCell else trainCell) 0 := by
      unfold State.egress
      rw [hr, hs]
      show (if s.links[p].acknowledged = true then s.sendIdle p else s.transmit p trainCell 0) = _
      split_ifs <;> rfl
    refine ⟨_, exec_egressSlot s p, ?_⟩
    rw [hsent]
    exact State.transmit_spec ..

end Sys2Proof.Claims
end

section
/-! The release of RESET: its values (R177), and the invariants that they meet. -/

namespace Sys2Proof.Machine

section powerOn
variable (straps : Byte) (asserted : Bool) (pending : List Instr) (draws : Nat)

theorem powerOn_link (p : Link) : (State.powerOn straps asserted pending draws).links[p] = powerOnLink :=
  Vector.getElem_replicate ..

theorem powerOn_fifo (p : Link) : (State.powerOn straps asserted pending draws).fifos[p] = powerOnFifo :=
  Vector.getElem_replicate ..

theorem powerOn_sched (p : Link) : (State.powerOn straps asserted pending draws).scheds[p] = powerOnScheduler :=
  Vector.getElem_replicate ..

theorem powerOn_sender (p : Link) : (State.powerOn straps asserted pending draws).senders[p] = ⟨none, 0, 0⟩ :=
  Vector.getElem_replicate ..

theorem powerOn_counter (p : Link) (i : Fin 18) : (State.powerOn straps asserted pending draws).counter p i = 0 := by
  simp [State.counter, State.powerOn]

theorem powerOn_carryFlag (p : Link) (i : Fin 18) : (State.powerOn straps asserted pending draws).carryFlag p i = false := by
  simp [State.carryFlag, State.powerOn]

theorem powerOn_held (p : Link) (c : Class) : (State.powerOn straps asserted pending draws).cmap.held[p][c] = false := by
  simp [State.powerOn, powerOnMap]

theorem powerOn_kind (k : NoticeKind) :
    (State.powerOn straps asserted pending draws).kind k = powerOnNotice (decide (k = .linkState)) := by
  cases k <;> rfl

/-! ### The ports of the release (R32, R39, R109) -/

theorem LinkWf.powerOn : LinkWf powerOnLink where
  attempts := by decide
  counting _ := by decide
  limit := by decide
  truncation := by decide
  run := by decide
  acknowledged h := absurd h (by decide)
  liveness := by decide
  score := by decide
  supervised _ := ⟨rfl, rfl⟩
  up h := by cases h
  attemptTimer := ⟨by decide, rfl⟩
  holdoffTimer := ⟨by decide, rfl⟩

theorem FifoWf.of_empty {l : LinkPort} {f : IngressFifo} (he : f.entries = []) (hh : l.ownHold = false) : FifoWf l f where
  depth := by rw [he]; exact Nat.zero_le 4
  empty _ := he
  cells e h := by rw [he] at h; cases h
  low _ := hh
  high h := by rw [he] at h; exact absurd h (by decide)

theorem SchedulerWf.powerOn : SchedulerWf false powerOnScheduler where
  active := by decide
  staging := by decide
  pointer := by decide
  closed _ := rfl
  opened h := by cases h
  down _ := ⟨rfl, rfl⟩

theorem PortsWf.powerOn : PortsWf (State.powerOn straps asserted pending draws) where
  links p := by rw [powerOn_link]; exact .powerOn
  fifos p := by rw [powerOn_link, powerOn_fifo]; exact .of_empty rfl rfl
  scheds p := by unfold State.isUp; rw [powerOn_link, powerOn_sched]; exact .powerOn

/-! ### Table Control and the services (R121, R129, R144, R171) -/

theorem TablesWf.powerOn : TablesWf powerOnTables where
  bankA := ⟨rfl, rfl, rfl, rfl⟩
  bankB := ⟨rfl, rfl, rfl, rfl⟩
  pending _ h := by cases h
  mirroring _ h := by cases h

theorem idOfStrap_ne : idOfStrap straps ≠ 255 := by
  unfold idOfStrap
  split_ifs with h
  · decide
  · exact h

theorem ServiceWf.powerOn : ServiceWf (State.powerOn straps asserted pending draws) where
  srq := Nat.zero_le 4
  address := idOfStrap_ne straps
  timing := rfl
  slots p := by rw [powerOn_sender]; decide
  notices k := by rw [powerOn_kind]; exact ⟨Nat.le_refl 1, (by decide : 1 ≤ 256), Nat.zero_le _⟩

/-- Every invariant of the element. -/
def AllWf (t : State) : Prop := PortsWf t ∧ BuffersWf t ∧ MapWf t ∧ TablesWf t.tables ∧ ServiceWf t

theorem AllWf.powerOn : AllWf (State.powerOn straps asserted pending draws) :=
  ⟨.powerOn .., .powerOn _ rfl, .powerOn _ rfl rfl, .powerOn, .powerOn ..⟩

end powerOn

end Sys2Proof.Machine

namespace Sys2Proof.Claims

open Sys2Proof.Machine

/-- The values of the release, for every strap value (R177). -/
theorem ReleaseValues.powerOn (straps : Byte) (asserted : Bool) (pending : List Instr) (draws : Nat) :
    ReleaseValues straps (State.powerOn straps asserted pending draws) where
  links := powerOn_link _ _ _ _
  fifos := powerOn_fifo _ _ _ _
  arbiter := rfl
  buffers b := by rw [powerOn_buffer _ rfl]
  free := by simp only [State.powerOn, powerOnBuffers, Config.bufferCount]
  pool := rfl
  queues := powerOn_queue _ rfl
  params := rfl
  shared := rfl
  scheds := powerOn_sched _ _ _ _
  held := powerOn_held _ _ _ _
  cmap := ⟨rfl, rfl⟩
  senders := powerOn_sender _ _ _ _
  timing := rfl
  routes _ := ⟨rfl, rfl⟩
  groups _ := ⟨rfl, rfl⟩
  tables := ⟨rfl, rfl, rfl⟩
  address := ⟨rfl, rfl, rfl, rfl, rfl⟩
  counters p i := ⟨powerOn_counter .., powerOn_carryFlag ..⟩
  mask := rfl
  notices := ⟨powerOn_kind _ _ _ _, rfl⟩

/-- Settles O3: the release is `State.powerOn` with the straps sampled. -/
theorem releaseOfResetValues : Obligations.ReleaseOfResetValues := fun straps _ =>
  ⟨_, rfl, .powerOn straps false _ _, rfl, rfl⟩

/-- Settles O52: the three states are values of `State.powerOn`, which meets every invariant. -/
theorem invariantsHoldAtReset : Obligations.InvariantsHoldAtReset :=
  ⟨fun straps s => ⟨_, rfl, AllWf.powerOn straps false s.pending s.draws⟩,
    fun s => ⟨_, rfl, AllWf.powerOn s.sru.strap true s.pending s.draws⟩, AllWf.powerOn 0 false [] 0⟩

end Sys2Proof.Claims
end

section
/-! Every step keeps each port's link record, Ingress FIFO and scheduler in order (02, 03, 06). -/

namespace Sys2Proof.Machine

/-- What holds of one port: its link record, its Ingress FIFO and its scheduler. -/
structure PortWf (l : LinkPort) (f : IngressFifo) (x : Scheduler) : Prop where
  link  : LinkWf l
  fifo  : FifoWf l f
  sched : SchedulerWf (decide (l.state = .up)) x

theorem portsWf_iff {s : State} : PortsWf s ↔ ∀ p : Link, PortWf s.links[p] s.fifos[p] s.scheds[p] :=
  ⟨fun h p => ⟨h.links p, h.fifos p, h.scheds p⟩, fun h => ⟨fun p => (h p).link, fun p => (h p).fifo, fun p => (h p).sched⟩⟩

section blocks
variable {s t : State} {p : Link}

theorem PortsWf.port (h : PortsWf s) (p : Link) : PortWf s.links[p] s.fifos[p] s.scheds[p] := portsWf_iff.mp h p

theorem PortsWf.congr (h : PortsWf s) (hports : t.links = s.links ∧ t.fifos = s.fifos ∧ t.scheds = s.scheds) : PortsWf t := by
  obtain ⟨hlinks, hfifos, hscheds⟩ := hports
  rw [portsWf_iff, hlinks, hfifos, hscheds]
  exact h.port

/-- A change that leaves the ports alone. -/
theorem PortsWf.changes (h : PortsWf s) {parts : List Part} (hc : Changes parts s t) (hx : .ports ∉ parts := by decide) : PortsWf t :=
  h.congr (hc.ports hx)

theorem PortsWf.traffic (h : PortsWf s) (g : TrafficEffects s t) : PortsWf t := h.changes (g.changes (parts := []))

theorem PortsWf.notices (h : PortsWf s) (g : NoticeEffects s t) : PortsWf t := h.traffic g.traffic

/-- A change of one port. -/
theorem PortsWf.update (h : PortsWf s)
    (others : ∀ q, q ≠ p → t.links[q] = s.links[q] ∧ t.fifos[q] = s.fifos[q] ∧ t.scheds[q] = s.scheds[q])
    (hp : PortWf t.links[p] t.fifos[p] t.scheds[p]) : PortsWf t := by
  refine portsWf_iff.mpr fun q => ?_
  by_cases hq : q = p
  · rw [hq]; exact hp
  · obtain ⟨hlink, hfifo, hsched⟩ := others q hq
    rw [hlink, hfifo, hsched]
    exact h.port q

theorem PortsWf.modLink (h : PortsWf s) {f : LinkPort → LinkPort} (hp : PortWf (f s.links[p]) s.fifos[p] s.scheds[p]) :
    PortsWf (s.modLink p f) :=
  h.update (fun q hq => ⟨upd_other _ _ _ _ hq, rfl, rfl⟩) (by rw [State.modLink_links, upd_same]; exact hp)

theorem PortsWf.modFifo (h : PortsWf s) {f : IngressFifo → IngressFifo} (hp : FifoWf s.links[p] (f s.fifos[p])) :
    PortsWf (s.modFifo p f) :=
  h.update (fun q hq => ⟨rfl, upd_other _ _ _ _ hq, rfl⟩) (by rw [State.modFifo_fifos, upd_same]; exact ⟨h.links p, hp, h.scheds p⟩)

theorem PortsWf.modSched (h : PortsWf s) {f : Scheduler → Scheduler} (hp : SchedulerWf (s.isUp p) (f s.scheds[p])) :
    PortsWf (s.modSched p f) :=
  h.update (fun q hq => ⟨rfl, rfl, upd_other _ _ _ _ hq⟩) (by rw [State.modSched_scheds, upd_same]; exact ⟨h.links p, h.fifos p, hp⟩)

theorem PortsWf.forPorts {f : State → Link → State} (hf : ∀ s p, PortsWf s → PortsWf (f s p)) (ps : List Link) :
    ∀ s, PortsWf s → PortsWf (forPorts f ps s) := by
  induction ps with
  | nil => intro s h; exact h
  | cons p ps ih => intro s h; exact ih _ (hf s p h)

end blocks

/-! ### Link records (02 2.1) -/

section links
variable {l : LinkPort} {f : IngressFifo} {x : Scheduler}

/-- A scheduler in order for a port that is not UP is in order whatever the link becomes. -/
theorem SchedulerWf.of_down (h : SchedulerWf false x) (up : Bool) : SchedulerWf up x := { h with down := fun _ => h.down rfl }

/-- A link that is not UP takes up a state other than UP. -/
theorem PortWf.of_down (h : PortWf l f x) (hd : l.state ≠ .up) {l' : LinkPort} (hl : LinkWf l') (hh : l'.ownHold = l.ownHold) :
    PortWf l' f x := by
  have hx : SchedulerWf false x := by
    have := h.sched
    rwa [decide_eq_false hd] at this
  have he : f.entries = [] := h.fifo.empty hd
  exact ⟨hl, .of_empty he (hh.trans (h.fifo.low (by rw [he]; exact Nat.zero_le 1))), hx.of_down _⟩

theorem LinkWf.attemptBegun (h : LinkWf l) (hd : l.liveness = 0 ∧ l.score = 0) {n : Nat} (hn : n ≤ 14) :
    LinkWf (attemptBegun n l) where
  attempts := Nat.le_succ_of_le hn
  counting _ := hn
  limit := h.limit
  truncation := h.truncation
  run := Nat.zero_le 63
  acknowledged h := absurd h (by decide : ¬ 32 ≤ 0)
  liveness := h.liveness
  score := h.score
  supervised _ := hd
  up h := by cases h
  attemptTimer := ⟨Nat.zero_le 2000, rfl⟩
  holdoffTimer := ⟨Nat.zero_le 10230, rfl⟩

theorem LinkWf.disabledEntered (h : LinkWf l) (hd : l.liveness = 0 ∧ l.score = 0) : LinkWf (disabledEntered l) where
  attempts := h.attempts
  counting := by rintro (h | h | h) <;> cases h
  limit := h.limit
  truncation := h.truncation
  run := Nat.zero_le 63
  acknowledged h := absurd h (by decide : ¬ 32 ≤ 0)
  liveness := h.liveness
  score := h.score
  supervised _ := hd
  up h := by cases h
  attemptTimer := ⟨h.attemptTimer.1, rfl⟩
  holdoffTimer := ⟨h.holdoffTimer.1, rfl⟩

theorem LinkWf.upLeft (h : LinkWf l) (reason : DownReason) (disable : Bool) : LinkWf (upLeft reason disable l) := by
  have hleft : LinkWf { l with attempts := 0, lastDown := reason, score := 0, liveness := 0, partnerHold := false, ownHold := false } :=
    { h with attempts := Nat.zero_le 15, counting := fun _ => Nat.zero_le 14, liveness := Nat.zero_le 4095, score := Nat.zero_le 255,
             supervised := fun _ => ⟨rfl, rfl⟩ }
  cases disable
  · exact hleft.attemptBegun ⟨rfl, rfl⟩ (Nat.zero_le 14)
  · exact hleft.disabledEntered ⟨rfl, rfl⟩

theorem upLeft_ownHold (reason : DownReason) (disable : Bool) (l : LinkPort) : (Machine.upLeft reason disable l).ownHold = false := by
  cases disable <;> rfl

/-- UP entered from TRAINING (R17). -/
theorem LinkWf.upEntered (h : LinkWf l) (hs : l.state = .training) : LinkWf (upEntered l) where
  attempts := h.attempts
  counting _ := h.counting (.inl hs)
  limit := h.limit
  truncation := h.truncation
  run := Nat.zero_le 63
  acknowledged h := absurd h (by decide : ¬ 32 ≤ 0)
  liveness := Nat.zero_le 4095
  score := Nat.zero_le 255
  supervised h := absurd rfl h
  up _ := ⟨rfl, rfl⟩
  attemptTimer := ⟨h.attemptTimer.1, rfl⟩
  holdoffTimer := by
    obtain ⟨hmicros, hrunning⟩ := h.holdoffTimer
    exact ⟨hmicros, hrunning.trans (by rw [hs]; rfl)⟩

/-- The FIFO's order depends on its entries, and on the state and own hold flag of its link. -/
theorem FifoWf.congr (h : FifoWf l f) {l' : LinkPort} {f' : IngressFifo} (hs : l'.state = l.state) (hh : l'.ownHold = l.ownHold)
    (he : f'.entries = f.entries) : FifoWf l' f' where
  depth := by rw [he]; exact h.depth
  empty := by rw [hs, he]; exact h.empty
  cells := by rw [he]; exact h.cells
  low := by rw [he, hh]; exact h.low
  high := by rw [he, hh]; exact h.high

theorem ownHoldAfter_low {n : Nat} (h : n ≤ 1) (held : Bool) : ownHoldAfter n held = false := if_pos h

theorem ownHoldAfter_high {n : Nat} (h : 3 ≤ n) (held : Bool) : ownHoldAfter n held = true :=
  (if_neg (by omega)).trans (if_neg (by omega))

/-- The own hold flag set by the occupancy keeps a FIFO in order whose entries are (R39, R45). -/
theorem FifoWf.of_ownHoldAfter {held : Bool} (hdepth : f.entries.length ≤ 4) (hempty : l.state ≠ .up → f.entries = [])
    (hcells : ∀ e ∈ f.entries, fifoCell e.cell = true) : FifoWf { l with ownHold := ownHoldAfter f.entries.length held } f where
  depth := hdepth
  empty := hempty
  cells := hcells
  low h := ownHoldAfter_low h held
  high h := ownHoldAfter_high h held

theorem LinkWf.ownHold (h : LinkWf l) (held : Bool) : LinkWf { l with ownHold := held } := { h with }

end links

/-! ### Schedulers (R96, R97, R108) -/

section scheds
variable {x : Scheduler} {up : Bool}

theorem scheduleWf_pos {ws : List Window} (h : scheduleWf ws = true) : 0 < ws.length := by
  unfold scheduleWf at h
  simp only [Bool.and_eq_true, decide_eq_true_eq] at h
  omega

/-- Budget b is in force in window w: the window is there, has that much, and has some unless it is a DRAIN window (R97). -/
def BudgetFits (ws : List Window) (w b : Nat) : Prop :=
  ∃ win, ws[w]? = some win ∧ b ≤ win.budget ∧ (win.mode ≠ .drain → 1 ≤ b)

/-- The window pointer of a port in UP moved, its window closed. -/
theorem SchedulerWf.pointAt (h : SchedulerWf true x) {w : Nat} (hw : w < x.active.length) :
    SchedulerWf true { x with w := w, isOpen := false, budget := 0 } :=
  { h with pointer := hw, closed := fun _ => rfl, opened := fun h => absurd h Bool.false_ne_true, down := fun h => absurd h.symm Bool.false_ne_true }

/-- A window of a port in UP opened. -/
theorem SchedulerWf.openAt (h : SchedulerWf true x) {w b : Nat} (hb : BudgetFits x.active w b) :
    SchedulerWf true { x with w := w, isOpen := true, budget := b } :=
  { h with
    pointer := by
      obtain ⟨win, hwin, -⟩ := hb
      exact (List.getElem?_eq_some_iff.mp hwin).1
    closed := fun h => absurd h.symm Bool.false_ne_true
    opened := fun _ => hb
    down := fun h => absurd h.symm Bool.false_ne_true }

theorem SchedulerWf.close (h : SchedulerWf up x) (up' : Bool) : SchedulerWf up' x.close :=
  { h with pointer := scheduleWf_pos h.active, closed := fun _ => rfl, opened := fun h => absurd h Bool.false_ne_true, down := fun _ => ⟨rfl, rfl⟩ }

theorem SchedulerWf.applied (h : SchedulerWf up x) : SchedulerWf up { x.close with active := x.staging, pending := false } :=
  { h.close up with active := h.staging, pointer := scheduleWf_pos h.staging, opened := fun h => absurd h Bool.false_ne_true }

theorem SchedulerWf.setPending (h : SchedulerWf up x) : SchedulerWf up { x with pending := true } := { h with }

theorem SchedulerWf.setStaging (h : SchedulerWf up x) {ws : List Window} (hws : scheduleWf ws = true) :
    SchedulerWf up { x with staging := ws } := { h with staging := hws }

/-- The budget that a window of a scheduler in order is opened with. -/
theorem SchedulerWf.fresh (h : SchedulerWf up x) {w : Nat} (hw : w < x.active.length) :
    BudgetFits x.active w (windowAt x.active w).budget :=
  ⟨_, window_exists hw, Nat.le_refl _, fun hm => h.budget (window_exists hw) hm⟩

/-- The budget in force at the pointer of a scheduler in order (R103, R105). -/
theorem SchedulerWf.inForce (h : SchedulerWf up x) :
    BudgetFits x.active x.w (if x.isOpen then x.budget else (windowAt x.active x.w).budget) := by
  split_ifs with ho
  · exact h.opened ho
  · exact h.fresh h.pointer

/-- What a pass finds is a window of the schedule, with the budget it was entered with or its own. -/
theorem windowPass_found_spec (ws : List Window) (busy : Vector Bool 4) (pending : Bool) {v d : Nat} (left : Nat) :
    ∀ (w : Nat) (isOpen : Bool) (b : Nat), w < ws.length → windowPass ws busy pending left w isOpen b = .found v d →
      v < ws.length ∧ (v = w ∧ d = (if isOpen then b else (windowAt ws w).budget) ∨ d = (windowAt ws v).budget) := by
  induction left with
  | zero => intro w isOpen b _ h; cases h
  | succ left ih =>
    intro w isOpen b hw h
    rw [windowPass] at h
    split at h
    · cases h
      exact ⟨hw, .inl ⟨rfl, rfl⟩⟩
    · split at h
      · cases h
      · have closed {w : Nat} (hw : w < ws.length) (h : windowPass ws busy pending left w false 0 = .found v d) :
            v < ws.length ∧ d = (windowAt ws v).budget := by
          obtain ⟨hv, ⟨rfl, hd⟩ | hd⟩ := ih w false 0 hw h
          · exact ⟨hv, hd⟩
          · exact ⟨hv, hd⟩
        split at h
        next hnext =>
          obtain ⟨hv, hd⟩ := closed hnext h
          exact ⟨hv, .inr hd⟩
        · split at h
          · cases h
          · obtain ⟨hv, hd⟩ := closed (Nat.zero_lt_of_lt hw) h
            exact ⟨hv, .inr hd⟩

/-- The window that a pass of a scheduler in order finds has the budget that it is served with. -/
theorem SchedulerWf.found (h : SchedulerWf up x) {busy : Vector Bool 4} {left w b : Nat}
    (hpass : windowPass x.active busy x.pending left x.w x.isOpen x.budget = .found w b) : BudgetFits x.active w b := by
  obtain ⟨hw, ⟨rfl, rfl⟩ | rfl⟩ := windowPass_found_spec x.active busy x.pending left x.w x.isOpen x.budget h.pointer hpass
  · exact h.inForce
  · exact h.fresh hw

end scheds

end Sys2Proof.Machine
end

section
/-! Command by command, what keeps the ports in order. -/

namespace Sys2Proof.Machine

/-! ### Leaving UP (R24, R25) -/

section leaving
variable {s m t : State} {p : Link}

/-- What a link that leaves UP leaves of the ports. -/
theorem LeftUp.ports {reason : DownReason} {disable : Bool} (h : LeftUp p reason disable s t) (q : Link) :
    t.links[q] = (if q = p then upLeft reason disable s.links[q] else s.links[q]) ∧
    t.fifos[q] = (if q = p then { s.fifos[q] with entries := [] } else s.fifos[q]) ∧
    t.scheds[q] = (if q = p then s.scheds[q].close else s.scheds[q]) := by
  obtain ⟨a, b, c, d, ⟨hframe, hlinks, hfifos⟩, hcounted, hflushed, ⟨hdframe, hclosed⟩, hnotified⟩ := h
  have hb := hcounted.effects
  have hdown : b.isUp p = false := by
    rw [hb.isUp]
    unfold State.isUp
    rw [hlinks, if_pos rfl]
    exact decide_eq_false (upLeft_state reason disable s.links[p])
  have hc := (hflushed.effects hdown).1
  have hn := hnotified.effects.frame
  have hscheds : c.scheds = s.scheds := by rw [hc, hb.frame, hframe]
  refine ⟨?_, ?_, ?_⟩
  · rw [← hlinks, hn, hdframe, hc, hb.frame]
  · rw [← hfifos, hn, hdframe, hc, hb.frame]
  · rw [hn, hclosed, hscheds]
    rfl

/-- From s to m, in the ports, only link p's supervision and the latched flags of its FIFO have changed. -/
structure Supervised (p : Link) (liveness score : Nat) (s m : State) : Prop where
  others  : ∀ q, q ≠ p → m.links[q] = s.links[q] ∧ m.fifos[q] = s.fifos[q] ∧ m.scheds[q] = s.scheds[q]
  link    : ∃ hold, m.links[p] = { s.links[p] with liveness := liveness, score := score, partnerHold := hold }
  entries : m.fifos[p].entries = s.fifos[p].entries
  sched   : m.scheds[p] = s.scheds[p]

theorem Supervised.notices {liveness score : Nat} (h : Supervised p liveness score s m) (g : NoticeEffects m t) :
    Supervised p liveness score s t := by
  have hlinks : t.links = m.links := by rw [g.frame]
  have hfifos : t.fifos = m.fifos := by rw [g.frame]
  have hscheds : t.scheds = m.scheds := by rw [g.frame]
  refine ⟨?_, ?_, ?_, ?_⟩
  · rw [hlinks, hfifos, hscheds]; exact h.others
  · rw [hlinks]; exact h.link
  · rw [hfifos]; exact h.entries
  · rw [hscheds]; exact h.sched

/-- A link that leaves UP, its supervision past its limits or not, leaves the ports in order. -/
theorem PortsWf.leaveUp (h : PortsWf s) {liveness score : Nat} (hm : Supervised p liveness score s m)
    (reason : DownReason) (disable : Bool) : PortsWf (m.leaveUp p reason disable) := by
  have hports := (m.leaveUp_spec p reason disable).ports
  refine h.update (p := p) (fun q hq => ?_) ?_
  · obtain ⟨hlinks, hfifos, hscheds⟩ := hports q
    rw [hlinks, hfifos, hscheds, if_neg hq, if_neg hq, if_neg hq]
    exact hm.others q hq
  · obtain ⟨hlinks, hfifos, hscheds⟩ := hports p
    obtain ⟨hold, hlink⟩ := hm.link
    rw [hlinks, hfifos, hscheds, if_pos rfl, if_pos rfl, if_pos rfl, hlink, upLeft_supervised, hm.sched]
    exact ⟨(h.links p).upLeft reason disable, .of_empty rfl (upLeft_ownHold ..), (h.scheds p).close _⟩

/-- Supervision within its limits leaves the ports of a link in UP in order. -/
theorem PortsWf.supervised (h : PortsWf s) {liveness score : Nat} (hm : Supervised p liveness score s m)
    (hup : s.links[p].state = .up) (hlive : liveness ≤ 4095) (hscore : score ≤ 255) : PortsWf m := by
  obtain ⟨hold, hlink⟩ := hm.link
  refine h.update hm.others ?_
  rw [hlink, hm.sched]
  exact ⟨{ h.links p with liveness := hlive, score := hscore, supervised := fun hd => absurd hup hd },
    (h.fifos p).congr rfl rfl hm.entries, h.scheds p⟩

theorem Supervised.of_modLink {liveness score : Nat} {f : LinkPort → LinkPort}
    (hf : ∃ hold, f s.links[p] = { s.links[p] with liveness := liveness, score := score, partnerHold := hold }) :
    Supervised p liveness score s (s.modLink p f) where
  others q hq := ⟨upd_other _ _ _ _ hq, rfl, rfl⟩
  link := by rw [State.modLink_links, upd_same]; exact hf
  entries := rfl
  sched := rfl

theorem Supervised.modFifo {liveness score : Nat} (h : Supervised p liveness score s m) {f : IngressFifo → IngressFifo}
    (hf : ∀ x, (f x).entries = x.entries) : Supervised p liveness score s (m.modFifo p f) where
  others q hq := by
    rw [State.modFifo_get, if_neg hq]
    exact h.others q hq
  link := h.link
  entries := by
    rw [State.modFifo_get, if_pos rfl, hf]
    exact h.entries
  sched := h.sched

end leaving

/-! ### Reception (R14 to R17, R21 to R23, R34 to R41) -/

section reception
variable {s : State} {p : Link}

/-- A change of a link in TRAINING that leaves it there (R15, R16). -/
theorem PortsWf.modTraining (h : PortsWf s) (hs : s.links[p].state = .training) {f : LinkPort → LinkPort}
    (hf : LinkWf (f s.links[p])) (hh : (f s.links[p]).ownHold = s.links[p].ownHold) : PortsWf (s.modLink p f) :=
  h.modLink ((h.port p).of_down (by rw [hs]; decide) hf hh)

theorem PortsWf.runLost (h : PortsWf s) (hs : s.links[p].state = .training) (c : Counter) : PortsWf (s.runLost p c) := by
  refine PortsWf.notices ?_ (State.count_effects ..)
  exact h.modTraining hs { h.links p with
    run := Nat.zero_le 63, acknowledged := fun h => absurd h (by decide : ¬ 32 ≤ 0),
    up := fun h => absurd (hs.symm.trans h) (by decide) } rfl

theorem PortsWf.enterUp (h : PortsWf s) (hs : s.links[p].state = .training) : PortsWf (s.enterUp p) := by
  have hup : PortsWf (s.modLink p upEntered) := by
    obtain ⟨hlink, hfifo, hsched⟩ := h.port p
    have hd : s.links[p].state ≠ .up := by rw [hs]; decide
    rw [decide_eq_false hd] at hsched
    have he := hfifo.empty hd
    exact h.modLink ⟨hlink.upEntered hs, .of_empty he (hfifo.low (by rw [he]; exact Nat.zero_le 1)), hsched.of_down _⟩
  rw [State.enterUp_eq]
  refine PortsWf.notices ?_ (State.notify_effects ..)
  exact hup.congr ⟨rfl, rfl, rfl⟩

theorem PortsWf.trainOn (h : PortsWf s) (hs : s.links[p].state = .training) : PortsWf (s.trainOn p) := by
  unfold State.trainOn
  simp only
  split_ifs with hrun
  · exact h.enterUp hs
  · have hrun : s.links[p].run + 1 < 64 := Nat.not_le.mp hrun
    refine h.modTraining hs { h.links p with run := Nat.le_of_lt_succ hrun, acknowledged := fun h => ?_, up := fun h => ?_ } rfl
    · exact Bool.or_eq_true_iff.mpr (.inr (decide_eq_true h))
    · exact absurd (hs.symm.trans h) (by decide)

theorem PortsWf.receiveTraining (h : PortsWf s) (hs : s.links[p].state = .training) (slot : SlotClass) :
    PortsWf (s.receiveTraining p slot) := by
  cases slot with
  | noCell => exact h
  | headerError => exact h.runLost hs .hdrErr
  | formatError => exact h.runLost hs .formatErr
  | valid c header t =>
    have hheld : PortsWf (s.modLink p fun l => { l with partnerHold := header.hold }) := h.modTraining hs { h.links p with } rfl
    have hs' : (s.modLink p fun l => { l with partnerHold := header.hold }).links[p].state = .training := by
      rw [State.modLink_get, if_pos rfl]; exact hs
    unfold State.receiveTraining
    simp only
    split_ifs
    · exact hheld.trainOn hs'
    · exact hheld.runLost hs' .linkFlush

/-- A cell of a type that an Ingress FIFO may hold, written to the FIFO of a link in UP (R40, R41). -/
theorem PortsWf.writeFifo (h : PortsWf s) (hup : s.links[p].state = .up) {c : Cell} (hc : fifoCell c = true) (gap : Bool) :
    PortsWf (s.writeFifo p c gap) := by
  obtain ⟨hlink, hfifo, hsched⟩ := h.port p
  have hcells (old : List FifoEntry) (hold : ∀ e ∈ old, fifoCell e.cell = true) (overrun : Bool) :
      ∀ e ∈ old ++ [⟨c, gap, overrun⟩], fifoCell e.cell = true := by
    intro e he
    rcases List.mem_append.mp he with he | he
    · exact hold e he
    · rw [List.mem_singleton.mp he]; exact hc
  unfold State.writeFifo
  simp only
  split_ifs with hroom
  · refine h.update (p := p) (fun q hq => ⟨upd_other _ _ _ _ hq, upd_other _ _ _ _ hq, rfl⟩) ?_
    rw [State.modLink_get, State.modLink_fifos, State.modFifo_get, if_pos rfl, if_pos rfl]
    have hdepth : (s.fifos[p].entries ++ [(⟨c, gap, false⟩ : FifoEntry)]).length ≤ 4 := by
      rw [List.length_append]; exact hroom
    have hwritten := FifoWf.of_ownHoldAfter (l := s.links[p]) (held := s.links[p].ownHold)
      (f := { s.fifos[p] with entries := s.fifos[p].entries ++ [⟨c, gap, false⟩] }) hdepth (fun hd => absurd hup hd)
      (hcells _ hfifo.cells false)
    rw [List.length_append] at hwritten
    exact ⟨hlink.ownHold _, hwritten, hsched⟩
  · refine PortsWf.notices ?_ (State.count_effects ..)
    have hfull : s.fifos[p].entries.length = 4 := Nat.le_antisymm hfifo.depth (Nat.not_lt.mp hroom)
    have hlength : (s.fifos[p].entries.dropLast ++ [(⟨c, gap, true⟩ : FifoEntry)]).length = 4 := by
      rw [List.length_append, List.length_dropLast, hfull]; rfl
    refine h.modFifo ⟨hlength.le, fun hd => absurd hup hd, ?_, fun hlow => ?_, fun _ => ?_⟩
    · exact hcells _ (fun e he => hfifo.cells e (List.mem_of_mem_dropLast he)) true
    · rw [hlength] at hlow
      exact absurd hlow (by decide)
    · exact hfifo.high (by omega)

theorem PortsWf.receiveTraffic (h : PortsWf s) (hup : s.links[p].state = .up) {c : Cell} (hc : fifoCell c = true) (seq : Byte) :
    PortsWf (s.receiveTraffic p c seq) := by
  let s1 := s.modLink p fun l => { l with rxExpect := some (seq + 1) }
  have hexpected : PortsWf s1 := h.modLink ⟨{ h.links p with }, (h.fifos p).congr rfl rfl rfl, h.scheds p⟩
  have hup1 : s1.links[p].state = .up := by
    show (State.modLink s p _).links[p].state = .up
    rw [State.modLink_get, if_pos rfl]
    exact hup
  have written {m : State} (hm : NoticeEffects s1 m) : PortsWf (m.writeFifo p c (sequenceGap s.links[p].rxExpect seq)) := by
    refine (hexpected.notices hm).writeFifo ?_ hc _
    rw [show m.links = s1.links by rw [hm.frame]]
    exact hup1
  have hcounted := s1.count_effects p .rxCells
  unfold State.receiveTraffic
  simp only
  split_ifs
  · exact written (hcounted.trans (State.count_effects ..))
  · exact written hcounted

theorem PortsWf.receiveUp (h : PortsWf s) (hup : s.links[p].state = .up) {arrival : Option Cell} :
    PortsWf (s.receiveUp p (classify arrival)) := by
  have hscore := (h.links p).score
  cases hslot : classify arrival with
  | noCell =>
    have hm : Supervised p (s.links[p].liveness + 1) s.links[p].score s (s.modLink p livenessRaised) := .of_modLink ⟨_, rfl⟩
    rw [State.receiveUp_noCell]
    split_ifs with hsilent
    · exact h.leaveUp hm _ _
    · exact h.supervised hm hup (by omega) hscore
  | formatError =>
    have hm : Supervised p (s.links[p].liveness + 1) s.links[p].score s (s.modLink p livenessRaised) := .of_modLink ⟨_, rfl⟩
    have hcounted := (hm.modFifo (f := fun f => { f with formatErrSeen := true }) fun _ => rfl).notices
      (State.count_effects _ p .formatErr)
    rw [State.receiveUp_formatError]
    split_ifs with hsilent
    · exact h.leaveUp hcounted _ _
    · exact h.supervised hcounted hup (by omega) hscore
  | headerError =>
    have hm : Supervised p (s.links[p].liveness + 1) (s.links[p].score + 16) s
        (s.modLink p fun l => { l with liveness := l.liveness + 1, score := l.score + 16 }) := .of_modLink ⟨_, rfl⟩
    have hcounted := (hm.modFifo (f := fun f => { f with hdrErrSeen := true }) fun _ => rfl).notices
      (State.count_effects _ p .hdrErr)
    rw [State.receiveUp_headerError]
    split_ifs with hlimit hsilent
    · exact h.leaveUp hcounted _ _
    · exact h.leaveUp hcounted _ _
    · exact h.supervised hcounted hup (by omega) (by omega)
  | valid c header t =>
    have hm : Supervised p 0 (s.links[p].score - 1) s (s.modLink p (supervisionReset header.hold)) := .of_modLink ⟨_, rfl⟩
    have hkept : PortsWf (s.modLink p (supervisionReset header.hold)) := h.supervised hm hup (Nat.zero_le _) (by omega)
    rw [State.receiveUp_valid]
    split_ifs with htrain hidle
    · exact h.leaveUp hm _ _
    · exact hkept
    · refine hkept.receiveTraffic ?_ ((classify_eq_valid hslot).2 hidle htrain) _
      rw [State.modLink_get, if_pos rfl]
      exact hup

theorem PortsWf.receive (h : PortsWf s) (arrival : Option Cell) : PortsWf (s.receive p arrival) := by
  unfold State.receive
  split_ifs
  · exact h
  · split
    next hs => exact h.receiveTraining hs _
    next hs => exact h.receiveUp hs
    all_goals exact h

end reception

end Sys2Proof.Machine
end

section
/-! The other commands keep the ports in order, and so does every step. -/

namespace Sys2Proof.Machine

variable {s : State} {p : Link}

/-! ### Timers (R18 to R20) -/

theorem PortsWf.enterFailed (h : PortsWf s) (hs : s.links[p].state = .training) {n : Nat} (hn : n ≤ 15) :
    PortsWf (s.enterFailed p n) := by
  have hl := h.links p
  have hd : s.links[p].state ≠ .up := by rw [hs]; decide
  refine PortsWf.notices ?_ (State.notify_effects ..)
  refine h.modLink ((h.port p).of_down hd { hl with
    attempts := hn, counting := ?_, run := Nat.zero_le 63, acknowledged := fun h => absurd h (by decide : ¬ 32 ≤ 0),
    supervised := fun _ => hl.supervised hd, up := fun h => (by cases h), attemptTimer := ⟨Nat.le_refl 2000, rfl⟩,
    holdoffTimer := ⟨hl.holdoffTimer.1, hl.holdoffTimer.2.trans (by rw [hs]; rfl)⟩ } rfl)
  rintro (h | h | h) <;> cases h

theorem PortsWf.beginAttempt (h : PortsWf s) (hd : s.links[p].state ≠ .up) {n : Nat} (hn : n ≤ 14) :
    PortsWf (s.modLink p (beginAttempt n)) :=
  h.modLink ((h.port p).of_down hd ((h.links p).attemptBegun ((h.links p).supervised hd) hn) rfl)

/-- A holdoff of at most 1,023 units, its exponent at most 10 (R20). -/
theorem holdoffUnits_le {draws m : Nat} (hm : m ≤ 10) : holdoffUnits draws m * Config.holdoffUnit ≤ 10230 := by
  have hlt : holdoffUnits draws m < 2 ^ m := Nat.mod_lt _ (Nat.two_pow_pos m)
  have hpow : 2 ^ m ≤ 2 ^ 10 := Nat.pow_le_pow_right (by decide) hm
  unfold Config.holdoffUnit
  omega

theorem PortsWf.enterHoldoff (h : PortsWf s) (hs : s.links[p].state = .training) {n : Nat} (hn : n ≤ 14) :
    PortsWf (s.enterHoldoff p n) := by
  have hl := h.links p
  have hd : s.links[p].state ≠ .up := by rw [hs]; decide
  have hdrawn : PortsWf { s with draws := s.draws + 1 } := h.congr ⟨rfl, rfl, rfl⟩
  unfold State.enterHoldoff
  simp only
  split_ifs
  · exact hdrawn.beginAttempt hd hn
  · have hmicros := holdoffUnits_le (draws := s.draws) (Nat.le_trans (Nat.min_le_right n _) hl.truncation.2)
    exact hdrawn.modLink ((h.port p).of_down hd { hl with
      attempts := Nat.le_succ_of_le hn, counting := fun _ => hn, supervised := fun _ => hl.supervised hd,
      up := fun h => (by cases h), attemptTimer := ⟨Nat.le_refl 2000, rfl⟩, holdoffTimer := ⟨hmicros, rfl⟩ } rfl)

theorem PortsWf.attemptExpires (h : PortsWf s) : PortsWf (s.attemptExpires p) := by
  have hl := h.links p
  unfold State.attemptExpires
  simp only
  split_ifs with _ hs hlimit
  · exact h
  · have := hl.counting (.inl hs)
    exact h.enterFailed hs (by omega)
  · have := hl.limit.2
    exact h.enterHoldoff hs (by omega)
  · exact h

theorem PortsWf.holdoffExpires (h : PortsWf s) : PortsWf (s.holdoffExpires p) := by
  unfold State.holdoffExpires
  split_ifs with _ hs
  · exact h
  · exact h.beginAttempt (by rw [hs]; decide) ((h.links p).counting (.inr (.inl hs)))
  · exact h

/-! ### Forwarding (R42, R45) -/

theorem PortsWf.takeEntry (h : PortsWf s) {e : FifoEntry} {rest : List FifoEntry} (he : s.fifos[p].entries = e :: rest) :
    PortsWf (s.takeEntry p e rest) := by
  obtain ⟨hlink, hfifo, hsched⟩ := h.port p
  have hdepth : rest.length ≤ 4 := by
    have := hfifo.depth
    rw [he, List.length_cons] at this
    omega
  have hempty (hd : s.links[p].state ≠ .up) : rest = [] := by
    have := hfifo.empty hd
    rw [he] at this
    cases this
  have hcells : ∀ x ∈ rest, fifoCell x.cell = true := fun x hx => hfifo.cells x (by rw [he]; exact List.mem_cons_of_mem _ hx)
  refine h.update (p := p) (fun q hq => ⟨upd_other _ _ _ _ hq, upd_other _ _ _ _ hq, rfl⟩) ?_
  obtain ⟨-, hfifos, hlinks⟩ := s.takeEntry_spec p e rest
  rw [hfifos, hlinks, if_pos rfl, if_pos rfl, ← ownHoldAfter_eq]
  exact ⟨hlink.ownHold _, .of_ownHoldAfter (l := s.links[p]) (f := { s.fifos[p] with
    entries := rest, seqGapSeen := s.fifos[p].seqGapSeen || e.seqGap, overrunSeen := s.fifos[p].overrunSeen || e.overrun })
    hdepth hempty hcells, hsched⟩

theorem PortsWf.forward (h : PortsWf s) : PortsWf s.forward := by
  unfold State.forward
  split_ifs
  · exact h
  · split
    · exact h
    next p _ =>
      split
      · exact h
      next e rest he => exact (h.takeEntry he).changes (State.forwardCell_changes ..)

/-! ### Egress slots (R98 to R107) -/

theorem PortsWf.transmit (h : PortsWf s) (c : Cell) (cls : Class) : PortsWf (s.transmit p c cls) := by
  have htx (o : Option Cell) : PortsWf (s.setTx p o) := h.congr ⟨rfl, rfl, rfl⟩
  unfold State.transmit
  simp only
  split
  · exact htx _
  · exact (htx _).modLink ⟨{ h.links p with }, (h.fifos p).congr rfl rfl rfl, h.scheds p⟩

theorem PortsWf.sendHead (h : PortsWf s) (c : Class) : PortsWf (s.sendHead p c) := by
  unfold State.sendHead
  split
  · exact h
  · exact ((h.traffic (s.removeHead_traffic p c)).transmit _ _).notices (State.count_effects ..)

theorem PortsWf.applyStaging (h : PortsWf s) : PortsWf (s.applyStaging p) := by
  refine PortsWf.notices ?_ (State.notify_effects ..)
  exact h.modSched (h.scheds p).applied

theorem Sent.isUp {m : State} {cell : Cell} {cls : Class} (h : Sent s m p cell cls) (q : Link) : m.isUp q = s.isUp q := by
  unfold State.isUp
  rw [h.sequence]
  split_ifs <;> rfl

theorem HeadSent.isUp {m : State} {c : Class} {b : Nat} {rest : List Nat} (h : HeadSent s m p c b rest) (q : Link) :
    m.isUp q = s.isUp q := by
  obtain ⟨a, n, ha, hn, hm⟩ := h
  rw [hm.effects.isUp, hn.isUp, ha.isUp]

/-- What a slot sends before its schedule moves on leaves: the ports in order, port p's scheduler and the state of its link. -/
structure BeforeMove (p : Link) (s m : State) : Prop where
  wf    : PortsWf m
  sched : m.scheds[p] = s.scheds[p]
  isUp  : m.isUp p = s.isUp p

theorem PortsWf.idleSent (h : PortsWf s) : BeforeMove p s (s.sendIdle p) := by
  have hsent := s.transmit_spec p idleCell 0
  exact ⟨h.transmit _ _, by rw [State.sendIdle, hsent.frame], hsent.isUp p⟩

theorem PortsWf.headSent (h : PortsWf s) (c : Class) : BeforeMove p s (s.sendHead p c) := by
  cases hq : s.queue p c with
  | nil =>
    have hnone : s.sendHead p c = s := by unfold State.sendHead; rw [hq]
    rw [hnone]
    exact ⟨h, rfl, rfl⟩
  | cons b rest =>
    have hsent := s.sendHead_spec p c b rest hq
    exact ⟨h.sendHead c, by rw [hsent.scheds], hsent.isUp p⟩

section served
variable {w b : Nat}

theorem PortsWf.advanceWindow (h : PortsWf s) (hup : s.isUp p = true) : PortsWf (s.advanceWindow p w) := by
  have hclosed : PortsWf (s.modSched p Scheduler.close) := h.modSched ((h.scheds p).close _)
  have hsched := h.scheds p
  rw [hup] at hsched
  unfold State.advanceWindow
  simp only
  split_ifs with hnext
  · exact h.modSched (by rw [hup]; exact hsched.pointAt hnext)
  · exact hclosed.applyStaging
  · exact hclosed

theorem PortsWf.openWindow (h : PortsWf s) (hup : s.isUp p = true) (hb : BudgetFits s.scheds[p].active w b) :
    PortsWf (s.modSched p fun x => { x with w := w, isOpen := true, budget := b }) := by
  have hsched := h.scheds p
  rw [hup] at hsched
  exact h.modSched (by rw [hup]; exact hsched.openAt hb)

theorem PortsWf.spendBudget (h : PortsWf s) (hup : s.isUp p = true) (hb : BudgetFits s.scheds[p].active w b) :
    PortsWf (s.spendBudget p w b) := by
  unfold State.spendBudget
  split_ifs with hspent
  · exact h.advanceWindow hup
  · obtain ⟨win, hwin, hle, -⟩ := hb
    exact h.openWindow hup ⟨win, hwin, by omega, fun _ => by omega⟩

theorem PortsWf.fixedSlot (h : PortsWf s) (hup : s.isUp p = true) : PortsWf (s.fixedSlot p) := by
  have served {m : State} (hm : BeforeMove p s m) : PortsWf (m.spendBudget p s.scheds[p].w
      (if s.scheds[p].isOpen then s.scheds[p].budget else (windowAt s.scheds[p].active s.scheds[p].w).budget)) :=
    hm.wf.spendBudget (hm.isUp.trans hup) (by rw [hm.sched]; exact (h.scheds p).inForce)
  unfold State.fixedSlot
  simp only
  split
  · exact served h.idleSent
  · exact served (h.headSent _)

theorem PortsWf.foundSlot (h : PortsWf s) (hup : s.isUp p = true) (hb : BudgetFits s.scheds[p].active w b) :
    PortsWf (s.foundSlot p w b) := by
  have hm := h.headSent (p := p) (windowAt s.scheds[p].active w).cls
  have hup' := hm.isUp.trans hup
  rw [← hm.sched] at hb
  unfold State.foundSlot
  simp only
  split
  · exact hm.wf.openWindow hup' hb
  · exact hm.wf.spendBudget hup' hb
  · exact hm.wf.spendBudget hup' hb

theorem PortsWf.idleSlot (h : PortsWf s) (hup : s.isUp p = true) : PortsWf (s.idleSlot p) := by
  have hm := h.idleSent (p := p)
  have hup' := hm.isUp.trans hup
  have hsched := hm.wf.scheds p
  rw [hup'] at hsched
  have hclosed : PortsWf ((s.sendIdle p).modSched p fun x => { x with isOpen := false, budget := 0 }) :=
    hm.wf.modSched (by rw [hup']; exact hsched.pointAt hsched.pointer)
  unfold State.idleSlot
  simp only
  split_ifs
  · exact hclosed.applyStaging
  · exact hclosed

theorem State.applyStaging_isUp (s : State) (p q : Link) : (s.applyStaging p).isUp q = s.isUp q :=
  (State.notify_effects ..).isUp q

theorem PortsWf.servedSlot (rounds : Nat) : ∀ s : State, PortsWf s → s.isUp p = true → PortsWf (State.servedSlot p rounds s) := by
  induction rounds with
  | zero => intro s h _; exact h
  | succ rounds ih =>
    intro s h hup
    unfold State.servedSlot
    simp only
    split_ifs
    · exact h.fixedSlot hup
    · split
      next w b hpass => exact h.foundSlot hup ((h.scheds p).found hpass)
      next => exact h.idleSlot hup
      next => exact ih _ h.applyStaging ((s.applyStaging_isUp p p).trans hup)

theorem PortsWf.slotUp (h : PortsWf s) (hup : s.isUp p = true) : PortsWf (s.slotUp p) := by
  have hbegun : PortsWf (s.modSender p slotCountsRise) := h.congr ⟨rfl, rfl, rfl⟩
  unfold State.slotUp State.sendStatus
  simp only
  split_ifs
  · refine PortsWf.notices ?_ (State.count_effects ..)
    exact PortsWf.changes (hbegun.transmit _ _) (State.modSender_changes ..)
  · exact hbegun.transmit _ _
  · exact PortsWf.servedSlot 2 _ hbegun hup

end served

theorem PortsWf.egress (h : PortsWf s) : PortsWf (s.egress p) := by
  have hquiet : PortsWf (s.setTx p none) := h.congr ⟨rfl, rfl, rfl⟩
  unfold State.egress
  by_cases hreset : s.resetAsserted = true
  · rw [if_pos hreset]
    exact hquiet
  · rw [if_neg hreset]
    cases hs : s.links[p].state with
    | up => exact h.slotUp (decide_eq_true hs)
    | training =>
      show PortsWf (if s.links[p].acknowledged then s.sendIdle p else s.transmit p trainCell 0)
      split_ifs
      · exact h.transmit _ _
      · exact h.transmit _ _
    | disabled => exact hquiet
    | holdoff => exact hquiet
    | failed => exact hquiet

/-! ### Requests that act on ports (R27 to R29, R49, R110 to R112) -/

theorem PortsWf.serve {mine : Nat → Bool} {body : Request → State → Reply} (h : PortsWf s)
    (hbody : ∀ r s t outputs, PortsWf s → body r s = .done t outputs → PortsWf t) : PortsWf (s.serve mine body) := by
  have hpop : PortsWf s.popRequest := h.congr ⟨rfl, rfl, rfl⟩
  rcases s.serve_cases mine body with hidle | ⟨m, rfl | ⟨r, outputs, hm⟩, heffects⟩
  · rw [hidle]; exact h
  · exact hpop.traffic heffects
  · exact (hbody r _ m outputs hpop hm).traffic heffects

section requests
variable {r : Request} {t : State} {outputs : List (Nat × Word)}

theorem windowOfWord_budget {w : Word} {x : Window} (h : windowOfWord w = some x) : x.budget ≤ 255 := by
  have hbyte : (lo8 w).toNat ≤ 255 := Nat.le_of_lt_succ (lo8 w).isLt
  unfold windowOfWord at h
  simp only at h
  split_ifs at h <;> (cases h; exact hbyte)

/-- Windows read from words that pass checks 1, 4 and 5 of R111 are a schedule that a port may hold (R97). -/
theorem scheduleWf_of_given {count : Nat} {ws : List Window} (hgiven : givenWindows r count = some ws) (h1 : 1 ≤ count)
    (h8 : count ≤ 8) (hbudget : ws.any emptyBudget = false) (hmixed : mixesFixedAndDrain ws = false) : scheduleWf ws = true := by
  obtain ⟨hlength, hwords⟩ := (mapM_range_eq_some _ count ws).mp hgiven
  have hwindows : ∀ x ∈ ws, windowWf x = true := by
    intro x hx
    obtain ⟨i, hi, rfl⟩ := List.mem_iff_getElem.mp hx
    have hle := windowOfWord_budget ((hwords i (by omega)).trans (List.getElem?_eq_getElem hi))
    have hne : ¬ emptyBudget ws[i] = true := by
      intro he
      rw [← Bool.not_eq_true] at hbudget
      exact hbudget (List.any_eq_true.mpr ⟨_, hx, he⟩)
    simp only [emptyBudget, Bool.and_eq_true, decide_eq_true_eq, not_and, bne_iff_ne] at hne
    simp only [windowWf, Bool.and_eq_true, Bool.or_eq_true, decide_eq_true_eq, beq_iff_eq]
    exact ⟨hle, or_iff_not_imp_left.mpr hne⟩
  unfold scheduleWf
  unfold mixesFixedAndDrain at hmixed
  simp only [Bool.and_eq_true, decide_eq_true_eq, List.all_eq_true, hmixed]
  exact ⟨⟨⟨by omega, by omega⟩, hwindows⟩, rfl⟩

theorem PortsWf.writeSchedule (h : PortsWf s) (hdone : writeScheduleBody r s = .done t outputs) : PortsWf t := by
  obtain ⟨p, ws, rfl, hgiven, h1, h8, hbudget, hmixed⟩ := writeScheduleBody_done_eq hdone
  exact h.modSched ((h.scheds p).setStaging (scheduleWf_of_given hgiven h1 h8 hbudget hmixed))

theorem PortsWf.applyPort (h : PortsWf s) : PortsWf (s.applyPort p) := by
  unfold State.applyPort
  split_ifs
  · exact h.modSched (h.scheds p).setPending
  · exact h.applyStaging

theorem PortsWf.clearFlags (h : PortsWf s) (w : Word) : PortsWf (s.modFifo p (clearFlags w)) :=
  h.modFifo ((h.fifos p).congr rfl rfl rfl)

theorem clamp_le {low high : Nat} (h : low ≤ high) (n : Nat) : low ≤ clamp low high n ∧ clamp low high n ≤ high := by
  unfold clamp; omega

/-- A setting that is replaced by a clamped value, or not, stays in its range. -/
theorem clamped_le {low high old : Nat} (h : low ≤ high) (hold : low ≤ old ∧ old ≤ high) (flag : Bool) (n : Nat) :
    low ≤ (if flag then clamp low high n else old) ∧ (if flag then clamp low high n else old) ≤ high := by
  split_ifs
  · exact clamp_le h n
  · exact hold

theorem LinkWf.settings {l : LinkPort} (h : LinkWf l) (w0 w3 : Word) : LinkWf (linkSettings w0 w3 l) :=
  { h with limit := clamped_le (by decide) h.limit _ _, truncation := clamped_le (by decide) h.truncation _ _ }

theorem PortsWf.linkSettings (h : PortsWf s) (w0 w3 : Word) : PortsWf (s.modLink p (linkSettings w0 w3)) :=
  h.modLink ⟨(h.links p).settings w0 w3, (h.fifos p).congr rfl rfl rfl, h.scheds p⟩

/-- What an action of LINK_CONTROL comes to, by whether the link is UP (R29). -/
theorem State.linkAction_cases (s : State) (a : LinkAction) (p : Link) : s.linkAction a p = s ∨
    (∃ disable, s.linkAction a p = s.leaveUp p .command disable) ∨
    s.links[p].state ≠ .up ∧ (s.linkAction a p = s.modLink p (Machine.beginAttempt 0) ∨ s.linkAction a p = s.modLink p enterDisabled) := by
  unfold State.linkAction
  split
  · exact .inl rfl
  · exact .inr (.inl ⟨false, rfl⟩)
  next hs => exact .inr (.inr ⟨hs, .inl rfl⟩)
  · exact .inl rfl
  · exact .inr (.inl ⟨true, rfl⟩)
  next _ hs => exact .inr (.inr ⟨hs, .inr rfl⟩)
  · exact .inl rfl
  · exact .inr (.inl ⟨false, rfl⟩)
  next _ hs => exact .inr (.inr ⟨hs, .inl rfl⟩)

theorem PortsWf.linkAction (h : PortsWf s) (a : LinkAction) : PortsWf (s.linkAction a p) := by
  have hsame : Supervised p s.links[p].liveness s.links[p].score s s := ⟨fun _ _ => ⟨rfl, rfl, rfl⟩, ⟨_, rfl⟩, rfl, rfl⟩
  rcases s.linkAction_cases a p with hs | ⟨disable, hs⟩ | ⟨hd, hs | hs⟩
  · rw [hs]; exact h
  · rw [hs]; exact h.leaveUp hsame _ _
  · rw [hs]; exact h.beginAttempt hd (Nat.zero_le 14)
  · rw [hs]
    exact h.modLink ((h.port p).of_down hd ((h.links p).disabledEntered ((h.links p).supervised hd)) rfl)

end requests

/-! ### DATAPATH_RESET (R162) -/

theorem PortsWf.fifoCleared (h : PortsWf s) : PortsWf (s.fifoCleared p) := by
  refine h.update (p := p) (fun q hq => ⟨upd_other _ _ _ _ hq, upd_other _ _ _ _ hq, rfl⟩) ?_
  have hlink : (s.fifoCleared p).links[p] = { s.links[p] with ownHold := false } := upd_same ..
  have hfifo : (s.fifoCleared p).fifos[p] = { s.fifos[p] with entries := [] } := upd_same ..
  rw [hlink, hfifo]
  exact ⟨(h.links p).ownHold false, .of_empty rfl rfl, h.scheds p⟩

theorem PortsWf.emptyFifos (ps : List Link) : ∀ e : Ev, PortsWf e.s → PortsWf (emptyFifos ps e).s := by
  induction ps with
  | nil => intro e h; exact h
  | cons p ps ih => intro e h; exact ih _ (h.fifoCleared.notices (e.emptyFifo_effects p))

theorem PortsWf.rebuiltWith (h : PortsWf s) (free : List Nat) (held : Vector (Vector Bool 4) 24) (version : BitVec 16) :
    PortsWf (s.rebuiltWith free held version) := by
  refine portsWf_iff.mpr fun q => ?_
  rw [State.rebuiltWith_sched]
  exact ⟨h.links q, h.fifos q, (h.scheds q).close _⟩

theorem PortsWf.rebuild (h : PortsWf s) : PortsWf s.rebuild := by
  rw [State.rebuild_eq]
  exact h.rebuiltWith _ _ _

theorem PortsWf.executeReset (h : PortsWf s) (r : Request) : PortsWf (s.executeReset r) := by
  have hpop : PortsWf s.popRequest := h.congr ⟨rfl, rfl, rfl⟩
  have hreset : PortsWf s.popRequest.resetDatapath.s :=
    ((PortsWf.emptyFifos _ ⟨s.popRequest, true, false⟩ hpop).traffic (flushPorts_traffic _ _)).rebuild
  unfold State.executeReset
  simp only
  split
  · exact hpop.traffic (Ev.answer_traffic ⟨s.popRequest, false, false⟩ r _ [])
  · exact (hreset.traffic (Ev.answer_traffic _ r .ok [])).notices (State.release_effects ..)

theorem PortsWf.datapathReset {t : State} (h : PortsWf s) (ht : execDatapathReset s = .next t) : PortsWf t := by
  unfold execDatapathReset at ht
  cases ht
  split
  · exact h
  · exact h.executeReset _

/-! ### Command by command -/

theorem PortsWf.exec (c : Instr) {t : State} (h : PortsWf s) (ht : exec c s = .next t) : PortsWf t := by
  by_cases hports : Part.ports ∈ Part.changedBy c
  · cases c with
    | resetAssert => cases ht; exact .powerOn ..
    | resetRelease straps => cases ht; exact .powerOn ..
    | receiveSlot p arrival => cases ht; exact h.receive arrival
    | attemptTimerExpiry p => cases ht; exact h.attemptExpires
    | holdoffTimerExpiry p => cases ht; exact h.holdoffExpires
    | forwardingEvent => cases ht; exact h.forward
    | egressSlot p => cases ht; exact h.egress
    | writeSchedule => cases ht; exact h.serve fun _ _ _ _ h => h.writeSchedule
    | applySchedule =>
      cases ht
      exact h.serve fun _ s _ _ h hdone => (by cases hdone; exact PortsWf.forPorts (fun _ _ h => h.applyPort) _ s h)
    | linkControl =>
      cases ht
      refine h.serve fun r s t _ h hdone => ?_
      obtain ⟨a, rfl⟩ := linkControlBody_done_eq hdone
      exact PortsWf.forPorts (fun _ _ h => (h.linkSettings _ _).linkAction a) _ s h
    | clearLinkStatus =>
      cases ht
      exact h.serve fun _ s _ _ h hdone => (by cases hdone; exact PortsWf.forPorts (fun _ _ h => h.clearFlags _) _ s h)
    | datapathReset => exact h.datapathReset ht
    | _ => exact absurd hports (by decide)
  · exact h.changes (exec_changes c ht) hports

end Sys2Proof.Machine

namespace Sys2Proof.Claims

open Sys2Proof.Machine

/-- Settles O53: an empty queue idles, and a command keeps the ports in order whatever waits behind it. -/
theorem stepKeepsThePorts : Obligations.StepKeepsThePorts := by
  intro s t h ht
  unfold step at ht
  split at ht
  · cases ht
    exact h
  next c rest _ => exact PortsWf.exec (s := { s with pending := rest }) c (h.congr ⟨rfl, rfl, rfl⟩) ht

end Sys2Proof.Claims
end

section
/-! LINK_CONTROL: its settings and actions port by port (R27 to R30). -/

namespace Sys2Proof.Machine

theorem exec_linkControl (s : State) : exec .linkControl s = .next (s.serve (· == 17) linkControlBody) := rfl

theorem linkActionOf_eq_none {b : BitVec 4} (h : 4 ≤ b.toNat) : linkActionOf b = none := by
  revert b; decide

theorem clamp_eq {high : Nat} (h : 1 ≤ high) (n : Nat) : clamp 1 high n = if n = 0 then 1 else min n high := by
  unfold clamp
  split_ifs <;> omega

section body
variable {r : Request} {s : State}

theorem linkControlBody_refused (h : 4 ≤ ((blockWord r 0).extractLsb' 12 4).toNat) : linkControlBody r s = .refuse .badParam := by
  unfold linkControlBody
  simp only [linkActionOf_eq_none h]

/-- The outputs of LINK_CONTROL: the states of the 24 links, two to a word (R28). -/
def linkStateOutputs (s : State) : List (Nat × Word) :=
  (List.finRange 12).map fun i => (4 + i.val,
    linkStateCode (s.links[2 * i.val]'(by omega)).state ++ linkStateCode (s.links[2 * i.val + 1]'(by omega)).state)

theorem linkControlBody_done {a : LinkAction} (h : linkActionOf ((blockWord r 0).extractLsb' 12 4) = some a) :
    linkControlBody r s = .done
      (forPorts (fun s p => (s.modLink p (linkSettings (blockWord r 0) (blockWord r 3))).linkAction a p)
        (portList (portSet (blockWord r 1) (blockWord r 2))) s)
      (linkStateOutputs (forPorts (fun s p => (s.modLink p (linkSettings (blockWord r 0) (blockWord r 3))).linkAction a p)
        (portList (portSet (blockWord r 1) (blockWord r 2))) s)) := by
  unfold linkControlBody
  simp only [h]
  rfl

end body

end Sys2Proof.Machine

namespace Sys2Proof.Claims

open Sys2Proof.Machine

/-- Settings, then the action, of one link (R28 to R30). -/
theorem linkControlled_spec (a : LinkAction) (w0 w3 : Word) (p : Link) (s : State) :
    LinkControlled a (w0.getLsbD 11) (w0.getLsbD 10) (hi8 w3).toNat (lo8 w3).toNat p s
      ((s.modLink p (linkSettings w0 w3)).linkAction a p) := by
  refine ⟨s.modLink p (linkSettings w0 w3), (LinkBecomes.of_mod s p (linkSettings w0 w3)).congr ?_, ?_⟩
  · unfold linkSettings
    simp only [clamp_eq (show 1 ≤ 15 by decide), clamp_eq (show 1 ≤ 10 by decide)]
  · have hstate : (s.modLink p (linkSettings w0 w3)).links[p].state = s.links[p].state := by
      rw [State.modLink_get, if_pos rfl]
      rfl
    generalize s.modLink p (linkSettings w0 w3) = m at hstate
    have hleave (disable : Bool) := m.leaveUp_spec p .command disable
    have hbegin : LinkBecomes p (attemptBegun 0 m.links[p]) m (m.modLink p (beginAttempt 0)) := .of_mod m p (beginAttempt 0)
    have hdisable : LinkBecomes p (disabledEntered m.links[p]) m (m.modLink p enterDisabled) := .of_mod m p enterDisabled
    cases a with
    | none => rfl
    | enable =>
      cases hs : s.links[p].state with
      | up => simpa only [State.linkAction, hstate, hs] using hleave false
      | _ => simpa only [State.linkAction, hstate, hs] using hbegin
    | disable =>
      cases hs : s.links[p].state with
      | up => simpa only [State.linkAction, hstate, hs] using hleave true
      | disabled => simp only [State.linkAction, hstate, hs]
      | _ => simpa only [State.linkAction, hstate, hs] using hdisable
    | retrain =>
      cases hs : s.links[p].state with
      | up => simpa only [State.linkAction, hstate, hs] using hleave false
      | disabled => simp only [State.linkAction, hstate, hs]
      | _ => simpa only [State.linkAction, hstate, hs] using hbegin

/-- Settles O44: an action that is none of the four, and otherwise the links of the set one after another. -/
theorem linkControlByLinkState : Obligations.LinkControlByLinkState := fun s r h =>
  ⟨fun hbad => h.refusedWith rfl (exec_linkControl s) rfl (linkControlBody_refused hbad), fun a ha =>
    h.completesWith rfl (exec_linkControl s) (outputs := linkStateOutputs) (linkControlBody_done ha)
      (forPorts_spec _ _ (linkControlled_spec a (blockWord r 0) (blockWord r 3)) _ _)⟩

end Sys2Proof.Claims
end

section
/-! Counts raised while notices wait, as within a DATAPATH_RESET: what they leave of the counters and of the COUNTER_CARRY record
(R162, R165, R166, R174). -/

namespace Sys2Proof.Machine

open Sys2Proof.Claims (CarryBecomes carryTaken)

theorem CountedHeld.frame {s t : State} {p : Link} {c : Counter} (h : CountedHeld s t p c) :
    t = { s with counters := t.counters, notices := t.notices } := by
  obtain ⟨m, hbumped, h⟩ := h
  split_ifs at h
  · rw [h.frame, hbumped.frame]
  · rw [h, hbumped.frame]

/-- A counter raised by fewer than 2^32 counts stands at its top when its wrap is the next count. -/
theorem counter_top_iff {v : BitVec 32} {n : Nat} (hn : n < 2 ^ 32) :
    v + BitVec.ofNat 32 n = BitVec.allOnes 32 ↔ v.toNat + n + 1 = 2 ^ 32 := by
  have hv := v.isLt
  rw [← BitVec.toNat_inj, BitVec.toNat_add, BitVec.toNat_ofNat, BitVec.toNat_allOnes]
  omega

/-- A counter raised by fewer than 2^32 counts has fallen when it has wrapped. -/
theorem counter_fell_iff {v : BitVec 32} {n : Nat} (hn : n < 2 ^ 32) :
    (v + BitVec.ofNat 32 n).toNat < v.toNat ↔ 2 ^ 32 ≤ v.toNat + n := by
  have hv := v.isLt
  rw [BitVec.toNat_add, BitVec.toNat_ofNat]
  omega

/-- The COUNTER_CARRY record after the events of a list of wraps, no notice sent (R172). -/
def afterWraps (n : NoticeState) (wraps : List (Link × Fin 18)) : NoticeState :=
  match wraps.getLast? with
  | none => n
  | some (p, i) => { n with pendingCount := min (n.pendingCount + wraps.length) 65535, detail := carryDetail p i }

theorem afterWraps_last {n : NoticeState} {wraps : List (Link × Fin 18)} {p : Link} {i : Fin 18}
    (h : wraps.getLast? = some (p, i)) : afterWraps n wraps =
      { n with pendingCount := min (n.pendingCount + wraps.length) 65535, detail := carryDetail p i } := by
  unfold afterWraps
  rw [h]

theorem afterWraps_settings (n : NoticeState) (wraps : List (Link × Fin 18)) : (afterWraps n wraps).enabled = n.enabled ∧
    (afterWraps n wraps).interval = n.interval ∧ (afterWraps n wraps).spent = n.spent := by
  unfold afterWraps
  split <;> exact ⟨rfl, rfl, rfl⟩

theorem afterWraps_pending {n : NoticeState} {wraps : List (Link × Fin 18)} (h : wraps ≠ []) :
    (afterWraps n wraps).pendingCount = min (n.pendingCount + wraps.length) 65535 := by
  rw [afterWraps_last (List.getLast?_eq_some_getLast h)]

/-- One more wrap is one more event. -/
theorem afterWraps_append (n : NoticeState) (wraps : List (Link × Fin 18)) (p : Link) (i : Fin 18) :
    afterWraps n (wraps ++ [(p, i)]) = carryTaken (afterWraps n wraps) (carryDetail p i) := by
  rw [afterWraps_last List.getLast?_concat]
  unfold afterWraps carryTaken
  cases hlast : wraps.getLast? with
  | none =>
    rw [List.getLast?_eq_none_iff.mp hlast]
    rfl
  | some x =>
    simp only [List.length_append, List.length_singleton, NoticeState.mk.injEq, true_and, and_true]
    omega

/-- An event e, its notices held, has raised each counter by `n` since state s, and the unmasked indexes that wrapped are those of the list,
in order: each has been taken as a COUNTER_CARRY event, and the event remembers whether a notice is called for. -/
structure HeldCounts (s : State) (n : Link → Fin 18 → Nat) (wraps : List (Link × Fin 18)) (e : Ev) : Prop where
  hold    : e.hold = true
  mask    : e.s.carryMask = s.carryMask
  values  : ∀ q i, e.s.counter q i = s.counter q i + BitVec.ofNat 32 (n q i)
  flags   : ∀ q i, e.s.carryFlag q i = (s.carryFlag q i || decide (2 ^ 32 ≤ (s.counter q i).toNat + n q i))
  wrapped : ∀ q i, (q, i) ∈ wraps ↔ s.carryMask.getLsbD i = false ∧ 2 ^ 32 ≤ (s.counter q i).toNat + n q i
  quiet   : wraps = [] ∨ (s.kind .counterCarry).enabled = false → e.s.notices = s.notices
  record  : (s.kind .counterCarry).enabled = true → CarryBecomes (afterWraps (s.kind .counterCarry) wraps) s e.s
  called  : e.called = true ↔ wraps ≠ [] ∧ (e.s.kind .counterCarry).enabled = true ∧ (e.s.kind .counterCarry).spent = false ∧
    (e.s.kind .counterCarry).interval ≤ (e.s.kind .counterCarry).pendingCount

section counts
variable {s : State} {n : Link → Fin 18 → Nat} {wraps : List (Link × Fin 18)} {e : Ev}

/-- At the start of the event nothing has been counted. -/
theorem HeldCounts.start (s : State) : HeldCounts s (fun _ _ => 0) [] ⟨s, true, false⟩ where
  hold := rfl
  mask := rfl
  values q i := (BitVec.add_zero _).symm
  flags q i := by
    have hlt := (s.counter q i).isLt
    rw [decide_eq_false (by omega), Bool.or_false]
  wrapped q i := by
    have hlt := (s.counter q i).isLt
    simp only [List.not_mem_nil, false_iff]
    omega
  quiet _ := rfl
  record _ := by
    refine ⟨rfl, fun k => ?_⟩
    split_ifs with hk
    · rw [hk]; rfl
    · rfl
  called := by simp

/-- A change of the state that leaves counters, mask and notices as they are. -/
theorem HeldCounts.congr (h : HeldCounts s n wraps e) {t : State} (hcounters : t.counters = e.s.counters)
    (hmask : t.carryMask = e.s.carryMask) (hnotices : t.notices = e.s.notices) : HeldCounts s n wraps { e with s := t } := by
  have hkind (k : NoticeKind) : t.kind k = e.s.kind k := by unfold State.kind; rw [hnotices]
  exact {
    hold := h.hold
    mask := hmask.trans h.mask
    values := fun q i => by rw [← h.values q i]; unfold State.counter; rw [hcounters]
    flags := fun q i => by rw [← h.flags q i]; unfold State.carryFlag; rw [hcounters]
    wrapped := h.wrapped
    quiet := fun hq => hnotices.trans (h.quiet hq)
    record := fun hon => ⟨by rw [hnotices]; exact (h.record hon).1, fun k => (hkind k).trans ((h.record hon).2 k)⟩
    called := by simp only [hkind]; exact h.called }

theorem HeldCounts.carry (h : HeldCounts s n wraps e) :
    e.s.kind .counterCarry = if (s.kind .counterCarry).enabled = true then afterWraps (s.kind .counterCarry) wraps
      else s.kind .counterCarry := by
  split_ifs with hon
  · exact ((h.record hon).2 _).trans (if_pos rfl)
  · unfold State.kind
    rw [h.quiet (.inr (Bool.eq_false_iff.mpr hon))]

theorem HeldCounts.carry_enabled (h : HeldCounts s n wraps e) :
    (e.s.kind .counterCarry).enabled = (s.kind .counterCarry).enabled := by
  rw [h.carry]
  split_ifs
  · exact (afterWraps_settings _ _).1
  · rfl

/-- Some counter of an unmasked index has wrapped. -/
theorem HeldCounts.wraps_iff (h : HeldCounts s n wraps e) : wraps ≠ [] ↔
    ∃ (q : Link) (i : Fin 18), s.carryMask.getLsbD i = false ∧ 2 ^ 32 ≤ (s.counter q i).toNat + n q i := by
  rw [Ne, List.eq_nil_iff_forall_not_mem, not_forall_not, Prod.exists]
  simp only [h.wrapped]

/-- The event calls for a notice when one waits (R174, log 11). -/
theorem HeldCounts.waits (h : HeldCounts s n wraps e) (hn : ∀ q i, n q i < 2 ^ 32) : CarryWaits s e.s ↔ e.called = true := by
  have hfell : (∃ (q : Link) (i : Fin 18), s.carryMask.getLsbD i = false ∧ (e.s.counter q i).toNat < (s.counter q i).toNat) ↔
      wraps ≠ [] := by
    rw [h.wraps_iff]
    simp only [h.values, counter_fell_iff (hn _ _)]
  rw [h.called, ← hfell]
  rfl

/-! ### One count -/

/-- The wrap that the next count of counter i at port p makes, when the index is unmasked. -/
def nextWrap (s : State) (n : Link → Fin 18 → Nat) (p : Link) (i : Fin 18) : List (Link × Fin 18) :=
  if s.carryMask.getLsbD i = false ∧ (s.counter p i).toNat + n p i + 1 = 2 ^ 32 then [(p, i)] else []

/-- The counts with one more at counter i of port p. -/
def oneMore (n : Link → Fin 18 → Nat) (p : Link) (i : Fin 18) : Link → Fin 18 → Nat :=
  fun q j => n q j + if q = p ∧ j = i then 1 else 0

theorem oneMore_here (n : Link → Fin 18 → Nat) (p : Link) (i : Fin 18) : oneMore n p i p i = n p i + 1 := by
  unfold oneMore
  rw [if_pos ⟨rfl, rfl⟩]

theorem oneMore_other (n : Link → Fin 18 → Nat) {p q : Link} {i j : Fin 18} (h : ¬ (q = p ∧ j = i)) : oneMore n p i q j = n q j := by
  unfold oneMore
  rw [if_neg h, Nat.add_zero]

theorem mem_nextWrap {p q : Link} {i j : Fin 18} : (q, j) ∈ nextWrap s n p i ↔
    (q = p ∧ j = i) ∧ s.carryMask.getLsbD i = false ∧ (s.counter p i).toNat + n p i + 1 = 2 ^ 32 := by
  unfold nextWrap
  split_ifs with h
  · rw [List.mem_singleton, Prod.mk.injEq, and_iff_left h]
  · exact iff_of_false (List.not_mem_nil) fun hx => h hx.2

/-- The wraps of the counts with one more are those before and the next. -/
theorem wrapped_oneMore (p : Link) (i : Fin 18)
    (h : ∀ q j, (q, j) ∈ wraps ↔ s.carryMask.getLsbD j = false ∧ 2 ^ 32 ≤ (s.counter q j).toNat + n q j) (q : Link) (j : Fin 18) :
    (q, j) ∈ wraps ++ nextWrap s n p i ↔ s.carryMask.getLsbD j = false ∧ 2 ^ 32 ≤ (s.counter q j).toNat + oneMore n p i q j := by
  rw [List.mem_append, h, mem_nextWrap]
  by_cases hq : q = p ∧ j = i
  · obtain ⟨rfl, rfl⟩ := hq
    rw [oneMore_here]
    constructor
    · rintro (⟨hmask, hle⟩ | ⟨-, hmask, htop⟩)
      · exact ⟨hmask, by omega⟩
      · exact ⟨hmask, by omega⟩
    · rintro ⟨hmask, hle⟩
      by_cases htop : (s.counter q j).toNat + n q j + 1 = 2 ^ 32
      · exact .inr ⟨⟨rfl, rfl⟩, hmask, htop⟩
      · exact .inl ⟨hmask, by omega⟩
  · rw [oneMore_other n hq]
    simp [hq]

/-- The next count calls for an event when it makes the next wrap. -/
theorem HeldCounts.bump_event (h : HeldCounts s n wraps e) (p : Link) (c : Counter) (hn : n p c.index < 2 ^ 32) :
    (e.s.bump p c).2 = true ↔ s.carryMask.getLsbD c.index = false ∧ (s.counter p c.index).toNat + n p c.index + 1 = 2 ^ 32 := by
  rw [State.bump_event, h.values, counter_top_iff hn, h.mask]
  exact and_comm

theorem HeldCounts.bump_values (h : HeldCounts s n wraps e) (p : Link) (c : Counter) (q : Link) (i : Fin 18) :
    (e.s.bump p c).1.counter q i = s.counter q i + BitVec.ofNat 32 (oneMore n p c.index q i) := by
  rw [(e.s.bump_spec p c).values, h.values]
  unfold oneMore
  split_ifs
  · rw [BitVec.ofNat_add, BitVec.add_assoc]; rfl
  · rfl

theorem HeldCounts.bump_flags (h : HeldCounts s n wraps e) (p : Link) (c : Counter) (hn : n p c.index < 2 ^ 32) (q : Link) (i : Fin 18) :
    (e.s.bump p c).1.carryFlag q i =
      (s.carryFlag q i || decide (2 ^ 32 ≤ (s.counter q i).toNat + oneMore n p c.index q i)) := by
  rw [(e.s.bump_spec p c).flags, h.flags, Bool.or_assoc, ← Bool.decide_or]
  congr 1
  refine decide_eq_decide.mpr ?_
  by_cases hq : q = p ∧ i = c.index
  · obtain ⟨rfl, rfl⟩ := hq
    rw [oneMore_here, h.values, counter_top_iff hn]
    simp only [true_and]
    omega
  · rw [oneMore_other n hq]
    constructor
    · rintro (hle | ⟨hp, hi, -⟩)
      · exact hle
      · exact absurd ⟨hp, hi⟩ hq
    · exact .inl

/-- A count that makes no unmasked wrap. -/
theorem HeldCounts.bumped (h : HeldCounts s n wraps e) (p : Link) (c : Counter) (hn : n p c.index < 2 ^ 32)
    (hnext : nextWrap s n p c.index = []) :
    HeldCounts s (oneMore n p c.index) wraps { e with s := (e.s.bump p c).1 } where
  hold := h.hold
  mask := h.mask
  values := h.bump_values p c
  flags := h.bump_flags p c hn
  wrapped q i := by
    have hw := wrapped_oneMore p c.index h.wrapped q i
    rwa [hnext, List.append_nil] at hw
  quiet := h.quiet
  record := h.record
  called := h.called

/-- A count that makes an unmasked wrap, its event taken (R166, R172). -/
theorem HeldCounts.taken (h : HeldCounts s n wraps e) (p : Link) (c : Counter) (hn : n p c.index < 2 ^ 32)
    (hnext : nextWrap s n p c.index = [(p, c.index)]) (hon : (s.kind .counterCarry).enabled = true) {t : State} {called : Bool}
    (htaken : Taken (e.s.bump p c).1 t .counterCarry (carryDetail p c.index))
    (hcalled : called = true ↔
      ¬ ((t.kind .counterCarry).spent = true ∨ (t.kind .counterCarry).pendingCount < (t.kind .counterCarry).interval)) :
    HeldCounts s (oneMore n p c.index) (wraps ++ [(p, c.index)]) ⟨t, e.hold, e.called || called⟩ := by
  have hcarry : t.kind .counterCarry = afterWraps (s.kind .counterCarry) (wraps ++ [(p, c.index)]) := by
    rw [htaken.kinds, if_pos rfl, State.bump_kind, h.carry, if_pos hon, afterWraps_append]
    rfl
  have hcounter (q : Link) (i : Fin 18) : t.counter q i = (e.s.bump p c).1.counter q i := by rw [htaken.frame]; rfl
  have hflag (q : Link) (i : Fin 18) : t.carryFlag q i = (e.s.bump p c).1.carryFlag q i := by rw [htaken.frame]; rfl
  obtain ⟨henabled, hinterval, hspent⟩ := afterWraps_settings (s.kind .counterCarry) (wraps ++ [(p, c.index)])
  exact {
    hold := h.hold
    mask := by rw [htaken.frame]; exact h.mask
    values := fun q i => (hcounter q i).trans (h.bump_values p c q i)
    flags := fun q i => (hflag q i).trans (h.bump_flags p c hn q i)
    wrapped := hnext ▸ wrapped_oneMore p c.index h.wrapped
    quiet := fun hq => absurd hq (by simp [hon])
    record := fun _ => by
      refine ⟨htaken.ports.trans (h.record hon).1, fun k => ?_⟩
      split_ifs with hk
      · rw [hk]; exact hcarry
      · rw [htaken.kinds, if_neg hk, State.bump_kind, (h.record hon).2, if_neg hk]
    called := by
      have hearlier : e.called = true → called = true := fun hc => by
        obtain ⟨hsome, -, hfresh, hreached⟩ := h.called.mp hc
        rw [h.carry, if_pos hon] at hfresh hreached
        obtain ⟨-, hinterval', hspent'⟩ := afterWraps_settings (s.kind .counterCarry) wraps
        rw [hcalled, hcarry, hspent, hinterval, afterWraps_pending (by simp), List.length_append]
        rw [hspent'] at hfresh
        rw [hinterval', afterWraps_pending hsome] at hreached
        exact not_or.mpr ⟨by simp [hfresh], by rw [List.length_singleton]; omega⟩
      rw [Bool.or_eq_true, or_iff_right_of_imp hearlier, hcalled]
      simp [hcarry, henabled, hon] }

/-- One count, whether it wraps or not. -/
theorem HeldCounts.count (h : HeldCounts s n wraps e) (p : Link) (c : Counter) (hn : n p c.index < 2 ^ 32) :
    HeldCounts s (oneMore n p c.index) (wraps ++ nextWrap s n p c.index) (e.count p c) := by
  have hcount : e.count p c = ⟨(e.s.countHeld p c).1, e.hold, e.called || (e.s.countHeld p c).2⟩ := if_pos h.hold
  rw [hcount, State.countHeld_cases]
  by_cases hb : (e.s.bump p c).2 = true
  · have hnext : nextWrap s n p c.index = [(p, c.index)] := if_pos ((h.bump_event p c hn).mp hb)
    rw [if_pos hb, hnext]
    cases hon : (s.kind .counterCarry).enabled with
    | true =>
      have hon' : ((e.s.bump p c).1.kind .counterCarry).enabled = true := h.carry_enabled.trans hon
      exact h.taken p c hn hnext hon (State.takeEvent_on _ _ _ hon') (State.takeEvent_calls _ _ _ hon')
    | false =>
      have hoff : ((e.s.bump p c).1.kind .counterCarry).enabled = false := h.carry_enabled.trans hon
      rw [State.takeEvent_off _ _ _ hoff, Bool.or_false]
      exact {
        hold := h.hold
        mask := h.mask
        values := h.bump_values p c
        flags := h.bump_flags p c hn
        wrapped := hnext ▸ wrapped_oneMore p c.index h.wrapped
        quiet := fun _ => h.quiet (.inr hon)
        record := fun hon' => absurd hon' (by simp [hon])
        called := by
          have hquiet : ((e.s.bump p c).1.kind .counterCarry).enabled ≠ true := by simp [hoff]
          rw [h.called]
          exact iff_of_false (fun hc => hquiet hc.2.1) fun hc => hquiet hc.2.1 }
  · have hnext : nextWrap s n p c.index = [] := if_neg (mt (h.bump_event p c hn).mpr hb)
    rw [if_neg hb, hnext, List.append_nil, Bool.or_false]
    exact h.bumped p c hn hnext

end counts

end Sys2Proof.Machine
end

section
/-! LINK_FLUSH counts of a DATAPATH_RESET port by port, its FIFOs emptied, and the counts of its answer (R162, R163). -/

namespace Sys2Proof.Machine

/-! ### Blocks of LINK_FLUSH counts -/

/-- LINK_FLUSH raised by `m` at each port, and no other counter. -/
def flushCounts (m : Link → Nat) : Link → Fin 18 → Nat := fun q i => if i = Counter.linkFlush.index then m q else 0

/-- k more at port p. -/
def raised (m : Link → Nat) (p : Link) (k : Nat) : Link → Nat := fun q => m q + if q = p then k else 0

/-- `k` more at each port of a list. -/
def raisedAll (m : Link → Nat) (ps : List Link) (k : Link → Nat) : Link → Nat := fun q => m q + if q ∈ ps then k q else 0

/-- The wrap that k more LINK_FLUSH counts make at port p, when the index is unmasked. -/
def flushWrap (s : State) (m : Link → Nat) (p : Link) (k : Nat) : List (Link × Fin 18) :=
  if s.carryMask.getLsbD Counter.linkFlush.index = false ∧ (s.counter p Counter.linkFlush.index).toNat + m p < 2 ^ 32 ∧
      2 ^ 32 ≤ (s.counter p Counter.linkFlush.index).toNat + m p + k then [(p, Counter.linkFlush.index)] else []

section blocks
variable {s : State} {m : Link → Nat} {p : Link} {k : Nat}

theorem flushCounts_raised_one (m : Link → Nat) (p : Link) :
    oneMore (flushCounts m) p Counter.linkFlush.index = flushCounts (raised m p 1) := by
  funext q i
  unfold oneMore flushCounts raised
  by_cases hi : i = Counter.linkFlush.index
  · simp [hi]
  · simp [hi]

theorem nextWrap_flush (s : State) (m : Link → Nat) (p : Link) :
    nextWrap s (flushCounts m) p Counter.linkFlush.index = flushWrap s m p 1 := by
  unfold nextWrap flushWrap flushCounts
  rw [if_pos rfl]
  refine if_congr (and_congr_right fun _ => ?_) rfl rfl
  omega

theorem raised_here (m : Link → Nat) (p : Link) (k : Nat) : raised m p k p = m p + k := by
  unfold raised
  rw [if_pos rfl]

theorem raised_other {q : Link} (h : q ≠ p) : raised m p k q = m q := by
  unfold raised
  rw [if_neg h, Nat.add_zero]

theorem raised_zero (m : Link → Nat) (p : Link) : raised m p 0 = m := by
  funext q
  simp [raised]

theorem raised_raised (m : Link → Nat) (p : Link) (j k : Nat) : raised (raised m p j) p k = raised m p (j + k) := by
  funext q
  unfold raised
  split_ifs <;> omega

theorem flushWrap_zero (s : State) (m : Link → Nat) (p : Link) : flushWrap s m p 0 = [] :=
  if_neg fun h => by omega

theorem flushWrap_congr {m' : Link → Nat} (h : m' p = m p) : flushWrap s m' p k = flushWrap s m p k := by
  unfold flushWrap
  rw [h]

/-- Two blocks of counts at one port wrap as one block does. -/
theorem flushWrap_append (s : State) (m : Link → Nat) (p : Link) (j k : Nat) :
    flushWrap s m p j ++ flushWrap s (raised m p j) p k = flushWrap s m p (j + k) := by
  unfold flushWrap
  rw [raised_here]
  have hlt := (s.counter p Counter.linkFlush.index).isLt
  generalize (s.counter p Counter.linkFlush.index).toNat = v at hlt ⊢
  by_cases hmask : s.carryMask.getLsbD Counter.linkFlush.index = false
  · simp only [hmask, true_and]
    by_cases hfirst : v + m p < 2 ^ 32 ∧ 2 ^ 32 ≤ v + m p + j
    · rw [if_pos hfirst, if_neg (by omega), if_pos (by omega), List.append_nil]
    · rw [if_neg hfirst, List.nil_append]
      refine if_congr ?_ rfl rfl
      omega
  · rw [if_neg fun h => hmask h.1, if_neg fun h => hmask h.1, if_neg fun h => hmask h.1, List.append_nil]

theorem raisedAll_cons {ps : List Link} (hp : p ∉ ps) (m k : Link → Nat) :
    raisedAll (raised m p (k p)) ps k = raisedAll m (p :: ps) k := by
  funext q
  unfold raisedAll
  by_cases hq : q = p
  · subst hq
    rw [raised_here, if_neg hp, if_pos List.mem_cons_self, Nat.add_zero]
  · rw [raised_other hq]
    refine congrArg _ (if_congr ?_ rfl rfl)
    rw [List.mem_cons, or_iff_right hq]

/-- The wraps at the ports of a list. -/
theorem flushWraps_cons {ps : List Link} (hp : p ∉ ps) (s : State) (m k : Link → Nat) :
    flushWrap s m p (k p) ++ (ps.flatMap fun q => flushWrap s (raised m p (k p)) q (k q)) =
      (p :: ps).flatMap fun q => flushWrap s m q (k q) := by
  rw [List.flatMap_cons]
  congr 1
  refine List.flatMap_congr fun q hq => flushWrap_congr (raised_other ?_)
  rintro rfl
  exact hp hq

/-- The wraps at the ports of a list, unmasked, are those of the ports whose counters pass 2^32. -/
theorem flushWraps_unmasked (h : s.carryMask.getLsbD Counter.linkFlush.index = false) (ps : List Link) (m k : Link → Nat) :
    (ps.flatMap fun q => flushWrap s m q (k q)) =
      (ps.filter fun q => decide ((s.counter q Counter.linkFlush.index).toNat + m q < 2 ^ 32 ∧
        2 ^ 32 ≤ (s.counter q Counter.linkFlush.index).toNat + m q + k q)).map fun q => (q, Counter.linkFlush.index) := by
  induction ps with
  | nil => rfl
  | cons p ps ih =>
    rw [List.flatMap_cons, ih, List.filter_cons]
    unfold flushWrap
    simp only [h, true_and, decide_eq_true_eq]
    split_ifs <;> rfl

theorem flushWraps_masked (h : s.carryMask.getLsbD Counter.linkFlush.index = true) (ps : List Link) (m k : Link → Nat) :
    (ps.flatMap fun q => flushWrap s m q (k q)) = [] :=
  List.flatMap_eq_nil_iff.mpr fun q _ => if_neg (by simp [h])

end blocks

section events
variable {s : State} {m : Link → Nat} {wraps : List (Link × Fin 18)} {e : Ev} {p : Link} {k : Nat}

/-- One LINK_FLUSH count. -/
theorem HeldCounts.flush (h : HeldCounts s (flushCounts m) wraps e) (hm : m p < 2 ^ 32) :
    HeldCounts s (flushCounts (raised m p 1)) (wraps ++ flushWrap s m p 1) (e.count p .linkFlush) := by
  rw [← flushCounts_raised_one, ← nextWrap_flush]
  exact h.count p .linkFlush (by rwa [flushCounts, if_pos rfl])

theorem HeldCounts.flushes (k : Nat) : ∀ {m : Link → Nat} {wraps : List (Link × Fin 18)} {e : Ev},
    HeldCounts s (flushCounts m) wraps e → m p + k < 2 ^ 32 →
      HeldCounts s (flushCounts (raised m p k)) (wraps ++ flushWrap s m p k) (countFlushes p k e) := by
  induction k with
  | zero =>
    intro m wraps e h _
    rw [raised_zero, flushWrap_zero, List.append_nil]
    exact h
  | succ k ih =>
    intro m wraps e h hm
    have hrest := ih (h.flush (p := p) (by omega)) (by rw [raised_here]; omega)
    rwa [raised_raised, List.append_assoc, flushWrap_append, Nat.add_comm 1 k] at hrest

theorem Ev.count_held (h : e.hold = true) (p : Link) (c : Counter) : (e.count p c).hold = true ∧
    (e.count p c).s = { e.s with counters := (e.count p c).s.counters, notices := (e.count p c).s.notices } := by
  have hcount : e.count p c = { e with s := (e.s.countHeld p c).1, called := e.called || (e.s.countHeld p c).2 } := if_pos h
  rw [hcount]
  exact ⟨h, (e.s.countHeld_spec p c).frame⟩

theorem countFlushes_held (k : Nat) : ∀ {e : Ev}, e.hold = true → (countFlushes p k e).hold = true ∧
    (countFlushes p k e).s = { e.s with counters := (countFlushes p k e).s.counters, notices := (countFlushes p k e).s.notices } := by
  induction k with
  | zero => intro e h; exact ⟨h, rfl⟩
  | succ k ih =>
    intro e h
    obtain ⟨hhold, hframe⟩ := Ev.count_held h p .linkFlush
    obtain ⟨hhold', hframe'⟩ := ih hhold
    refine ⟨hhold', ?_⟩
    rw [countFlushes, hframe', hframe]

/-! ### Step 1: the FIFOs emptied (R162, R45) -/

/-- The FIFOs of the links of a list emptied, their own hold flags clear, the rest kept but for counts and notices. -/
structure FifosEmptied (ps : List Link) (s t : State) : Prop where
  frame : t = { s with links := t.links, fifos := t.fifos, counters := t.counters, notices := t.notices }
  links : ∀ q : Link, t.links[q] = if q ∈ ps then { s.links[q] with ownHold := false } else s.links[q]
  fifos : ∀ q : Link, t.fifos[q] = if q ∈ ps then { s.fifos[q] with entries := [] } else s.fifos[q]

/-- One FIFO more emptied. -/
theorem FifosEmptied.cons {ps : List Link} {t u : State}
    (hframe : t = { s with links := t.links, fifos := t.fifos, counters := t.counters, notices := t.notices })
    (hlinks : ∀ q : Link, t.links[q] = if q = p then { s.links[q] with ownHold := false } else s.links[q])
    (hfifos : ∀ q : Link, t.fifos[q] = if q = p then { s.fifos[q] with entries := [] } else s.fifos[q])
    (h : FifosEmptied ps t u) : FifosEmptied (p :: ps) s u where
  frame := by rw [h.frame, hframe]
  links q := by
    rw [h.links, hlinks]
    by_cases hq : q = p
    · have hmem : q ∈ p :: ps := by rw [hq]; exact List.mem_cons_self
      rw [if_pos hq, if_pos hmem]
      split_ifs <;> rfl
    · simp only [if_neg hq, List.mem_cons, or_iff_right hq]
  fifos q := by
    rw [h.fifos, hfifos]
    by_cases hq : q = p
    · have hmem : q ∈ p :: ps := by rw [hq]; exact List.mem_cons_self
      rw [if_pos hq, if_pos hmem]
      split_ifs <;> rfl
    · simp only [if_neg hq, List.mem_cons, or_iff_right hq]

theorem Ev.emptyFifo_held (h : e.hold = true) (p : Link) : (e.emptyFifo p).hold = true ∧ (e.emptyFifo p).s =
    { e.s.fifoCleared p with counters := (e.emptyFifo p).s.counters, notices := (e.emptyFifo p).s.notices } := by
  rw [Ev.emptyFifo_eq]
  exact countFlushes_held (p := p) (e := { e with s := e.s.fifoCleared p }) _ h

theorem Ev.emptyFifo_links (h : e.hold = true) (p q : Link) :
    (e.emptyFifo p).s.links[q] = if q = p then { e.s.links[q] with ownHold := false } else e.s.links[q] := by
  rw [(Ev.emptyFifo_held h p).2]
  exact State.modLink_get (e.s.modFifo p fun f => { f with entries := [] }) p (fun l => { l with ownHold := false }) q

theorem Ev.emptyFifo_fifos (h : e.hold = true) (p q : Link) :
    (e.emptyFifo p).s.fifos[q] = if q = p then { e.s.fifos[q] with entries := [] } else e.s.fifos[q] := by
  rw [(Ev.emptyFifo_held h p).2]
  exact State.modFifo_get e.s p (fun f => { f with entries := [] }) q

theorem emptyFifos_emptied (ps : List Link) : ∀ {e : Ev}, e.hold = true → FifosEmptied ps e.s (emptyFifos ps e).s := by
  induction ps with
  | nil => intro e _; exact ⟨rfl, fun q => rfl, fun q => rfl⟩
  | cons p ps ih =>
    intro e h
    obtain ⟨hhold, hframe⟩ := Ev.emptyFifo_held h p
    exact .cons (by rw [hframe]; rfl) (Ev.emptyFifo_links h p) (Ev.emptyFifo_fifos h p) (ih hhold)

theorem HeldCounts.emptyFifo (h : HeldCounts s (flushCounts m) wraps e) (hm : m p + e.s.fifos[p].entries.length < 2 ^ 32) :
    HeldCounts s (flushCounts (raised m p e.s.fifos[p].entries.length))
      (wraps ++ flushWrap s m p e.s.fifos[p].entries.length) (e.emptyFifo p) := by
  rw [Ev.emptyFifo_eq]
  exact (h.congr (t := e.s.fifoCleared p) rfl rfl rfl).flushes _ hm

theorem HeldCounts.emptyFifos {k : Link → Nat} (ps : List Link) : ∀ {m : Link → Nat} {wraps : List (Link × Fin 18)} {e : Ev},
    HeldCounts s (flushCounts m) wraps e → ps.Nodup → (∀ q ∈ ps, e.s.fifos[q].entries.length = k q) →
      (∀ q ∈ ps, m q + k q < 2 ^ 32) →
      HeldCounts s (flushCounts (raisedAll m ps k)) (wraps ++ ps.flatMap fun q => flushWrap s m q (k q)) (emptyFifos ps e) := by
  induction ps with
  | nil =>
    intro m wraps e h _ _ _
    rw [List.flatMap_nil, List.append_nil]
    exact h
  | cons p ps ih =>
    intro m wraps e h hnodup hk hm
    obtain ⟨hp, hnodup⟩ := List.nodup_cons.mp hnodup
    have hother : ∀ q ∈ ps, q ≠ p := fun q hq hqp => hp (hqp ▸ hq)
    have hkp := hk p List.mem_cons_self
    have hmp := hm p List.mem_cons_self
    have hfirst := h.emptyFifo (p := p) (by rw [hkp]; exact hmp)
    rw [hkp] at hfirst
    rw [← raisedAll_cons hp, ← flushWraps_cons hp, ← List.append_assoc]
    refine ih hfirst hnodup (fun q hq => ?_) fun q hq => ?_
    · rw [Ev.emptyFifo_fifos h.hold, if_neg (hother q hq)]
      exact hk q (List.mem_cons_of_mem _ hq)
    · rw [raised_other (hother q hq)]
      exact hm q (List.mem_cons_of_mem _ hq)

/-! ### The counts of the answer (R157, R163) -/

/-- A response built while notices wait: submitted, and when refused counted by the Buffer Manager, if at all, and then RSP_LOST. -/
theorem Ev.respond_cases {t : State} (called : Bool) (r : Request) (code : Code) (words : List Word) :
    ∃ u : State, (u.counters = t.counters ∧ u.carryMask = t.carryMask ∧ u.notices = t.notices) ∧
      (Ev.respond ⟨t, true, called⟩ r code words = ⟨u, true, called⟩ ∨
        Ev.respond ⟨t, true, called⟩ r code words = Ev.count ⟨u, true, called⟩ r.port .rspLost ∨
        ∃ c, Ev.respond ⟨t, true, called⟩ r code words = (Ev.count ⟨u, true, called⟩ r.port c).count r.port .rspLost) := by
  have hstored := t.submit_stored (responseCell t.sru.elementId r.number r.tag code words) [r.port] 0 (List.nodup_singleton _)
  rw [State.verdicts_one] at hstored
  unfold Ev.respond State.submit
  simp only [State.verdicts_one, if_true]
  generalize t.store (responseCell t.sru.elementId r.number r.tag code words) 0 [(r.port, t.verdict t.bm.shared r.port 0)] = u
    at hstored ⊢
  refine ⟨u, ⟨by rw [hstored.frame], by rw [hstored.frame], by rw [hstored.frame]⟩, ?_⟩
  cases ha : (t.verdict t.bm.shared r.port 0).admits with
  | true =>
    left
    have hc : (t.verdict t.bm.shared r.port 0).counter = none := by
      cases hv : t.verdict t.bm.shared r.port 0 <;> simp_all [Verdict.admits, Verdict.counter]
    simp [countRefusals, hc, refusedPorts, ha, countRspLost]
  | false =>
    right
    have hp : refusedPorts [(r.port, t.verdict t.bm.shared r.port 0)] = [r.port] := by simp [refusedPorts, ha]
    rw [hp]
    cases hc : (t.verdict t.bm.shared r.port 0).counter with
    | none =>
      left
      simp [countRefusals, hc, countRspLost, Ev.count]
    | some c =>
      right
      refine ⟨c, ?_⟩
      simp [countRefusals, hc, countRspLost, Ev.count, Bool.or_assoc]

/-- A response raises a counter by at most two. -/
theorem HeldCounts.respond {n : Link → Fin 18 → Nat} (h : HeldCounts s n wraps e) (hn : ∀ q i, n q i + 2 < 2 ^ 32) (r : Request)
    (code : Code) (words : List Word) :
    ∃ n' wraps', HeldCounts s n' wraps' (e.respond r code words) ∧ ∀ q i, n' q i < 2 ^ 32 := by
  have hone {n : Link → Fin 18 → Nat} {b : Nat} (hb : ∀ q i, n q i < b) (p : Link) (i : Fin 18) (q : Link) (j : Fin 18) :
      oneMore n p i q j < b + 1 := by
    have := hb q j
    unfold oneMore
    split_ifs <;> omega
  obtain ⟨t, hold, called⟩ := e
  obtain rfl : hold = true := h.hold
  have hb : ∀ q i, n q i < 2 ^ 32 - 2 := fun q i => by have := hn q i; omega
  have hle : 2 ^ 32 - 2 + 1 + 1 ≤ 2 ^ 32 := by decide
  obtain ⟨u, ⟨hcounters, hmask, hnotices⟩, hcases⟩ := Ev.respond_cases (t := t) called r code words
  have hu : HeldCounts s n wraps ⟨u, true, called⟩ := h.congr hcounters hmask hnotices
  rcases hcases with heq | heq | ⟨c, heq⟩
  · rw [heq]
    exact ⟨_, _, hu, fun q i => (hb q i).trans_le (by omega)⟩
  · rw [heq]
    exact ⟨_, _, hu.count _ _ ((hb _ _).trans_le (by omega)), fun q i => (hone hb _ _ q i).trans_le (by omega)⟩
  · rw [heq]
    have hfirst := hu.count r.port c ((hb _ _).trans_le (by omega))
    have hb' := hone hb r.port c.index
    exact ⟨_, _, hfirst.count _ _ ((hb' _ _).trans_le (by omega)), fun q i => (hone hb' _ _ q i).trans_le (by omega)⟩

end events

end Sys2Proof.Machine
end

section
/-! The accounts of buffers and map while queues are flushed head to tail (R76, R87, R89, R116, R117). -/

namespace Sys2Proof.Machine

open Sys2Proof.Claims (heldCount)

/-! ### Sums over the 96 queues -/

theorem queueNames_nodup : queueNames.Nodup := (List.nodup_finRange 24).product (List.nodup_finRange 4)

theorem mem_queueNames (p : Link) (c : Class) : (p, c) ∈ queueNames :=
  List.mem_product.mpr ⟨List.mem_finRange p, List.mem_finRange c⟩

/-- Two sums over a list without repetition whose terms differ at one place alone differ by those terms. -/
theorem sum_map_change {α : Type} [DecidableEq α] {l : List α} (hl : l.Nodup) {f g : α → Nat} {x : α} (hx : x ∈ l)
    (h : ∀ y, y ≠ x → g y = f y) : (l.map f).sum + g x = (l.map g).sum + f x := by
  have hrest : (l.erase x).map g = (l.erase x).map f := List.map_congr_left fun y hy => h y (hl.mem_erase_iff.mp hy).1
  rw [← List.sum_map_erase f hx, ← List.sum_map_erase g hx, hrest]
  omega

theorem sum_queueNames_change {f g : Link × Class → Nat} (p : Link) (c : Class) (h : ∀ y, y ≠ (p, c) → g y = f y) :
    (queueNames.map f).sum + g (p, c) = (queueNames.map g).sum + f (p, c) :=
  sum_map_change queueNames_nodup (mem_queueNames p c) h

theorem length_filter_eq_sum {α : Type} (f : α → Bool) (l : List α) :
    (l.filter f).length = (l.map fun x => (f x).toNat).sum := by
  induction l with
  | nil => rfl
  | cons x l ih =>
    rw [List.filter_cons, List.map_cons, List.sum_cons, ← ih]
    cases f x with
    | true => exact Nat.add_comm _ 1
    | false => exact (Nat.zero_add _).symm

theorem filter_queueNames_change {f g : Link × Class → Bool} (p : Link) (c : Class) (h : ∀ y, y ≠ (p, c) → g y = f y) :
    (queueNames.filter f).length + (g (p, c)).toNat = (queueNames.filter g).length + (f (p, c)).toNat := by
  rw [length_filter_eq_sum, length_filter_eq_sum]
  exact sum_queueNames_change (f := fun y => (f y).toNat) (g := fun y => (g y).toNat) p c fun y hy => by rw [h y hy]

/-! ### One removal -/

/-- The accounts of state t, reached from s by removals alone: those of the invariants (R73, R76, R115), the settings of s, and the map
version, which has risen by the entries released. -/
structure Draining (s t : State) : Prop where
  form       : tableWf ⟨zeroCell, 0⟩ t.bm.buffers = true
  refs       : ∀ b, (t.buffer b).refs = (namingQueues t b).length
  distinct   : ∀ p c, (t.queue p c).Nodup
  pool       : t.bm.pool + t.queuedTotal = Config.bufferCount
  shared     : t.bm.shared = sharedUse t t.bm.params
  params     : t.bm.params = s.bm.params
  map        : MapWf t
  thresholds : t.cmap.thresholds = s.cmap.thresholds
  version    : t.cmap.version + BitVec.ofNat 16 (heldCount t) = s.cmap.version + BitVec.ofNat 16 (heldCount s)

theorem Draining.start {s : State} (hb : BuffersWf s) (hm : MapWf s) : Draining s s :=
  ⟨hb.form.1, hb.refs, hb.distinct, hb.pool, hb.shared, rfl, hm, rfl, rfl⟩

/-- A change of other parts of the state. -/
theorem Draining.congr {s t u : State} (h : Draining s t) (hbm : u.bm = t.bm) (hcmap : u.cmap = t.cmap) : Draining s u := by
  have hu : u = { u with bm := t.bm, cmap := t.cmap } := by rw [← hbm, ← hcmap]
  rw [hu]
  exact ⟨h.form, h.refs, h.distinct, h.pool, h.shared, h.params, ⟨h.map.thresholds, h.map.held, h.map.flowing⟩,
    h.thresholds, h.version⟩

theorem State.removeHead_form {s : State} {p : Link} {c : Class} {b : Nat} {rest : List Nat} (h : s.queue p c = b :: rest)
    (hw : tableWf ⟨zeroCell, 0⟩ s.bm.buffers = true) : tableWf ⟨zeroCell, 0⟩ (s.removeHead p c).bm.buffers = true := by
  have hdrop (m : State) (hm : tableWf ⟨zeroCell, 0⟩ m.bm.buffers = true) :
      tableWf ⟨zeroCell, 0⟩ (m.dropRef b).bm.buffers = true := by
    rcases Nat.lt_or_ge 1 (m.buffer b).refs with hr | hr
    · rw [m.dropRef_more b hr]; exact tableSet_wf _ _ _ _ hm
    · rw [m.dropRef_last b hr]; exact tableSet_wf _ _ _ _ hm
  unfold State.removeHead
  rw [h]
  exact hdrop _ hw

section removal
variable {s t : State} {p : Link} {c : Class} {b : Nat} {rest : List Nat}

theorem Dequeued.queue_here (h : Dequeued s t p c b rest) : t.queue p c = rest := (h.queues p c).trans (if_pos ⟨rfl, rfl⟩)

theorem Dequeued.queue_other (h : Dequeued s t p c b rest) {y : Link × Class} (hy : y ≠ (p, c)) : t.queue y.1 y.2 = s.queue y.1 y.2 :=
  (h.queues _ _).trans (if_neg fun e => hy (Prod.ext e.1 e.2))

theorem Dequeued.held_here (h : Dequeued s t p c b rest) :
    t.cmap.held[p][c] = entryAfter s.cmap.held[p][c] rest.length s.cmap.thresholds[c] := (h.held p c).trans (if_pos ⟨rfl, rfl⟩)

theorem Dequeued.held_other (h : Dequeued s t p c b rest) {y : Link × Class} (hy : y ≠ (p, c)) :
    t.cmap.held[y.1][y.2] = s.cmap.held[y.1][y.2] :=
  (h.held _ _).trans (if_neg fun e => hy (Prod.ext e.1 e.2))

theorem Dequeued.queuedTotal (h : Dequeued s t p c b rest) (hq : s.queue p c = b :: rest) : t.queuedTotal + 1 = s.queuedTotal := by
  have hsum := sum_queueNames_change (f := fun y => (s.queue y.1 y.2).length) (g := fun y => (t.queue y.1 y.2).length) p c
    fun y hy => by rw [h.queue_other hy]
  simp only [h.queue_here, hq, List.length_cons] at hsum
  unfold State.queuedTotal
  omega

theorem Dequeued.sharedUse (h : Dequeued s t p c b rest) (hq : s.queue p c = b :: rest) (hs : s.bm.shared = sharedUse s s.bm.params) :
    t.bm.shared = Machine.sharedUse t t.bm.params := by
  have hsum := sum_queueNames_change (f := fun y => (s.queue y.1 y.2).length - s.bm.params[y.2].reservation)
    (g := fun y => (t.queue y.1 y.2).length - s.bm.params[y.2].reservation) p c fun y hy => by rw [h.queue_other hy]
  simp only [h.queue_here, hq, List.length_cons] at hsum
  rw [h.params, h.shared, hs]
  unfold Machine.sharedUse
  split_ifs <;> omega

/-- The queue that loses its head is one fewer of those that name the buffer, and no other buffer's change. -/
theorem Dequeued.namingQueues (h : Dequeued s t p c b rest) (hq : s.queue p c = b :: rest) (hb : b ∉ rest) (n : Nat) :
    (namingQueues t n).length + (if n = b then 1 else 0) = (namingQueues s n).length := by
  have hcount := filter_queueNames_change (f := fun y => decide (n ∈ s.queue y.1 y.2)) (g := fun y => decide (n ∈ t.queue y.1 y.2)) p c
    fun y hy => by rw [h.queue_other hy]
  simp only [h.queue_here, hq, List.mem_cons] at hcount
  unfold Machine.namingQueues
  by_cases hn : n = b
  · subst hn
    simp only [hb, decide_false, true_or, decide_true, Bool.toNat_false, Bool.toNat_true] at hcount
    simp only [if_true]
    omega
  · simp only [hn, false_or] at hcount
    rw [if_neg hn]
    omega

theorem Dequeued.refs (h : Dequeued s t p c b rest) (hq : s.queue p c = b :: rest) (hb : b ∉ rest)
    (hform : tableWf ⟨zeroCell, 0⟩ s.bm.buffers = true) (hrefs : ∀ n, (s.buffer n).refs = (Machine.namingQueues s n).length)
    (n : Nat) :
    (t.buffer n).refs = (Machine.namingQueues t n).length := by
  have hnaming := h.namingQueues hq hb n
  rw [← hrefs n] at hnaming
  by_cases hn : n = b
  · subst hn
    rw [if_pos rfl] at hnaming
    rcases Nat.lt_or_ge 1 (s.buffer n).refs with hmore | hlast
    · rw [(h.lowered hmore).2]
      show (s.buffer n).refs - 1 = _
      omega
    · rw [(h.freed hlast).2 hform]
      show 0 = _
      omega
  · rw [h.others n hn]
    rw [if_neg hn] at hnaming
    omega

end removal

/-! ### The map -/

theorem thresholdsWf_lt {x : Thresholds} (h : thresholdsWf x = true) : x.xon < x.xoff := by
  unfold thresholdsWf at h
  simp only [Bool.and_eq_true, decide_eq_true_eq] at h
  omega

section map
variable {s t : State} {p : Link} {c : Class} {b : Nat} {rest : List Nat}

theorem Dequeued.mapWf (h : Dequeued s t p c b rest) (hm : MapWf s) : MapWf t where
  thresholds k := by rw [h.thresholds]; exact hm.thresholds k
  held q k hlong := by
    rw [h.thresholds, h.queues] at hlong
    rw [h.held]
    split_ifs at hlong ⊢ with hqk
    · have hlt := thresholdsWf_lt (hm.thresholds k)
      unfold entryAfter
      split_ifs
      · simp only [Bool.not_eq_true', decide_eq_false_iff_not]
        omega
      · exact decide_eq_true hlong
    · exact hm.held q k hlong
  flowing q k hshort := by
    rw [h.thresholds, h.queues] at hshort
    rw [h.held]
    split_ifs at hshort ⊢ with hqk
    · have hlt := thresholdsWf_lt (hm.thresholds k)
      unfold entryAfter
      split_ifs
      · rw [decide_eq_true hshort]; rfl
      · exact decide_eq_false (by omega)
    · exact hm.flowing q k hshort

/-- A removal holds no entry: it releases one or leaves it. -/
theorem Dequeued.released (h : Dequeued s t p c b rest) (hq : s.queue p c = b :: rest) (hm : MapWf s)
    (hnew : t.cmap.held[p][c] = true) : s.cmap.held[p][c] = true := by
  by_contra hflowing
  rw [h.held_here, Bool.eq_false_iff.mpr hflowing] at hnew
  have hlong : s.cmap.thresholds[c].xoff ≤ rest.length := of_decide_eq_true hnew
  exact hflowing (hm.held p c (by rw [hq, List.length_cons]; omega))

/-- The version rises when an entry is released (R117). -/
theorem Dequeued.mapVersion (h : Dequeued s t p c b rest) (hq : s.queue p c = b :: rest) (hm : MapWf s) :
    t.cmap.version + BitVec.ofNat 16 (heldCount t) = s.cmap.version + BitVec.ofNat 16 (heldCount s) := by
  have hcount : heldCount s + (t.cmap.held[p][c]).toNat = heldCount t + (s.cmap.held[p][c]).toNat :=
    filter_queueNames_change (f := fun y => s.cmap.held[y.1][y.2]) (g := fun y => t.cmap.held[y.1][y.2]) p c fun y hy => h.held_other hy
  have hreleased := h.released hq hm
  have hversion := h.version
  rw [← h.held_here, versionAfter_eq] at hversion
  generalize t.cmap.held[p][c] = new at *
  generalize s.cmap.held[p][c] = old at *
  rw [hversion, BitVec.add_assoc, ← BitVec.ofNat_add]
  congr 2
  cases old with
  | false =>
    cases new with
    | false => simpa using hcount.symm
    | true => exact absurd (hreleased rfl) (by decide)
  | true =>
    cases new with
    | false => simp at hcount ⊢; omega
    | true => simpa using hcount.symm

end map

/-- One removal keeps the accounts. -/
theorem Draining.removeHead {s t : State} (h : Draining s t) {p : Link} {c : Class} {b : Nat} {rest : List Nat}
    (hq : t.queue p c = b :: rest) : Draining s (t.removeHead p c) := by
  have hd := t.removeHead_spec p c b rest hq
  have hform := State.removeHead_form hq h.form
  generalize t.removeHead p c = u at hd hform
  have hnodup := h.distinct p c
  rw [hq] at hnodup
  obtain ⟨hb, hrest⟩ := List.nodup_cons.mp hnodup
  exact {
    form := hform
    refs := hd.refs hq hb h.form h.refs
    distinct := fun q k => by
      rw [hd.queues]
      split_ifs
      · exact hrest
      · exact h.distinct q k
    pool := by
      have htotal := hd.queuedTotal hq
      have hpool := h.pool
      rw [hd.pool]
      omega
    shared := hd.sharedUse hq h.shared
    params := hd.params.trans h.params
    map := hd.mapWf h.map
    thresholds := hd.thresholds.trans h.thresholds
    version := (hd.mapVersion hq h.map).trans h.version }

/-- The accounts once every queue is empty. -/
theorem Draining.emptied {s t : State} (h : Draining s t) (hempty : ∀ p c, t.queue p c = []) :
    (∀ b, (t.buffer b).refs = 0) ∧ t.bm.pool = Config.bufferCount ∧ t.bm.shared = 0 ∧
      t.cmap.version = s.cmap.version + BitVec.ofNat 16 (heldCount s) := by
  have htotal : t.queuedTotal = 0 := by
    unfold State.queuedTotal
    simp [hempty]
  have huse : sharedUse t t.bm.params = 0 := by
    unfold sharedUse
    simp [hempty]
  have hheld : heldCount t = 0 := by
    unfold heldCount
    rw [List.length_eq_zero_iff, List.filter_eq_nil_iff]
    intro y _
    rw [h.map.flowing y.1 y.2 (by simp [hempty])]
    exact Bool.false_ne_true
  refine ⟨fun b => ?_, ?_, h.shared.trans huse, ?_⟩
  · rw [h.refs]
    unfold namingQueues
    simp [hempty]
  · have hpool := h.pool
    omega
  · rw [← h.version, hheld]
    exact (BitVec.add_zero _).symm

end Sys2Proof.Machine
end

section
/-! The queues flushed in a DATAPATH_RESET (R162 step 2, R90): accounts and counts side by side. -/

namespace Sys2Proof.Machine

/-- Queue (p, c) replaced. -/
def queueSet (queues : Link → Class → List Nat) (p : Link) (c : Class) (l : List Nat) : Link → Class → List Nat :=
  fun q k => if q = p ∧ k = c then l else queues q k

/-- The queues of the ports of a list emptied. -/
def portsEmptied (queues : Link → Class → List Nat) (ps : List Link) : Link → Class → List Nat :=
  fun q k => if q ∈ ps then [] else queues q k

/-- The entries of the four queues of port p. -/
def portLength (queues : Link → Class → List Nat) (p : Link) : Nat :=
  (queues p 0).length + (queues p 1).length + (queues p 2).length + (queues p 3).length

/-- An event e that has flushed down to the queues given since state s, with `m` LINK_FLUSH counts at each port. -/
structure Flushing (s : State) (m : Link → Nat) (wraps : List (Link × Fin 18)) (queues : Link → Class → List Nat) (e : Ev) :
    Prop where
  counts   : HeldCounts s (flushCounts m) wraps e
  accounts : Draining s e.s
  queues   : ∀ q k, e.s.queue q k = queues q k

section queues
variable {queues : Link → Class → List Nat} {p : Link} {c : Class}

theorem queueSet_here (l : List Nat) : queueSet queues p c l p c = l := if_pos ⟨rfl, rfl⟩

theorem queueSet_class (l : List Nat) {k : Class} (h : k ≠ c) : queueSet queues p c l p k = queues p k := if_neg fun e => h e.2

theorem queueSet_port (l : List Nat) {q : Link} (h : q ≠ p) (k : Class) : queueSet queues p c l q k = queues q k := if_neg fun e => h e.1

theorem queueSet_queueSet (l l' : List Nat) : queueSet (queueSet queues p c l) p c l' = queueSet queues p c l' := by
  funext q k
  unfold queueSet
  split_ifs <;> rfl

theorem queueSet_same {l : List Nat} (h : queues p c = l) : queueSet queues p c l = queues := by
  funext q k
  unfold queueSet
  split_ifs with hqk
  · obtain ⟨rfl, rfl⟩ := hqk
    exact h.symm
  · rfl

/-- The four queues of a port emptied one after another. -/
theorem queueSet_port_emptied : queueSet (queueSet (queueSet (queueSet queues p 0 []) p 1 []) p 2 []) p 3 [] =
    portsEmptied queues [p] := by
  funext q k
  unfold portsEmptied
  by_cases hq : q = p
  · rw [if_pos (List.mem_singleton.mpr hq), hq]
    fin_cases k <;> simp [queueSet]
  · rw [if_neg (by simpa using hq)]
    simp only [queueSet_port _ hq]

theorem portsEmptied_other {ps : List Link} {q : Link} (h : q ∉ ps) (k : Class) : portsEmptied queues ps q k = queues q k := if_neg h

theorem portsEmptied_cons (ps : List Link) : portsEmptied (portsEmptied queues [p]) ps = portsEmptied queues (p :: ps) := by
  funext q k
  unfold portsEmptied
  by_cases hq : q = p
  · simp [hq]
  · simp [hq]

theorem portLength_congr {queues' : Link → Class → List Nat} (h : ∀ k, queues' p k = queues p k) :
    portLength queues' p = portLength queues p := by
  unfold portLength
  simp only [h]

end queues

section flushing
variable {s : State} {m : Link → Nat} {wraps : List (Link × Fin 18)} {queues : Link → Class → List Nat} {e : Ev}
  {p : Link} {c : Class}

/-- One entry flushed (R89). -/
theorem Flushing.entry (h : Flushing s m wraps queues e) {b : Nat} {rest : List Nat} (hq : queues p c = b :: rest) (hm : m p < 2 ^ 32) :
    Flushing s (raised m p 1) (wraps ++ flushWrap s m p 1) (queueSet queues p c rest)
      (Ev.count { e with s := e.s.removeHead p c } p .linkFlush) := by
  have hhead := (h.queues p c).trans hq
  have hd := e.s.removeHead_spec p c b rest hhead
  have haccounts := h.accounts.removeHead hhead
  generalize e.s.removeHead p c = t at hd haccounts
  have hcounts : HeldCounts s (flushCounts m) wraps { e with s := t } :=
    h.counts.congr (by rw [hd.frame]) (by rw [hd.frame]) (by rw [hd.frame])
  obtain ⟨-, hframe⟩ := Ev.count_held hcounts.hold p .linkFlush
  exact {
    counts := hcounts.flush hm
    accounts := haccounts.congr (by rw [hframe]) (by rw [hframe])
    queues := fun q k => by
      rw [hframe]
      refine (hd.queues q k).trans ?_
      rw [h.queues]
      rfl }

theorem Flushing.entries (n : Nat) : ∀ {m : Link → Nat} {wraps : List (Link × Fin 18)} {queues : Link → Class → List Nat} {e : Ev},
    Flushing s m wraps queues e → (queues p c).length = n → m p + n < 2 ^ 32 →
      Flushing s (raised m p n) (wraps ++ flushWrap s m p n) (queueSet queues p c []) (flushEntries p c n e) := by
  induction n with
  | zero =>
    intro m wraps queues e h hn _
    rw [raised_zero, flushWrap_zero, List.append_nil, queueSet_same (List.length_eq_zero_iff.mp hn)]
    exact h
  | succ n ih =>
    intro m wraps queues e h hn hm
    obtain ⟨b, rest, hq⟩ : ∃ b rest, queues p c = b :: rest := List.exists_cons_of_length_eq_add_one hn
    have hrest := ih (h.entry hq (by omega)) (by rw [queueSet_here]; simpa [hq] using hn) (by rw [raised_here]; omega)
    rwa [raised_raised, List.append_assoc, flushWrap_append, queueSet_queueSet, Nat.add_comm 1 n] at hrest

theorem Flushing.flushQueue (h : Flushing s m wraps queues e) (c : Class) (hm : m p + (queues p c).length < 2 ^ 32) :
    Flushing s (raised m p (queues p c).length) (wraps ++ flushWrap s m p (queues p c).length) (queueSet queues p c [])
      (e.flushQueue p c) := by
  unfold Ev.flushQueue
  rw [h.queues p c]
  exact h.entries _ rfl hm

/-- The four queues of a port flushed, C0 to C3 (R89). -/
theorem Flushing.flushPort (h : Flushing s m wraps queues e) (hm : m p + portLength queues p < 2 ^ 32) :
    Flushing s (raised m p (portLength queues p)) (wraps ++ flushWrap s m p (portLength queues p)) (portsEmptied queues [p])
      (e.flushPort p) := by
  unfold portLength at hm ⊢
  have h0 := h.flushQueue (p := p) 0 (by omega)
  have h1 := h0.flushQueue (p := p) 1 (by rw [queueSet_class _ (by decide), raised_here]; omega)
  rw [queueSet_class _ (by decide), raised_raised, List.append_assoc, flushWrap_append] at h1
  have h2 := h1.flushQueue (p := p) 2 (by rw [queueSet_class _ (by decide), queueSet_class _ (by decide), raised_here]; omega)
  rw [queueSet_class _ (by decide), queueSet_class _ (by decide), raised_raised, List.append_assoc, flushWrap_append] at h2
  have h3 := h2.flushQueue (p := p) 3 (by
    rw [queueSet_class _ (by decide), queueSet_class _ (by decide), queueSet_class _ (by decide), raised_here]; omega)
  rw [queueSet_class _ (by decide), queueSet_class _ (by decide), queueSet_class _ (by decide), raised_raised, List.append_assoc,
    flushWrap_append, queueSet_port_emptied] at h3
  exact h3

theorem Flushing.flushPorts (ps : List Link) : ∀ {m : Link → Nat} {wraps : List (Link × Fin 18)}
    {queues : Link → Class → List Nat} {e : Ev}, Flushing s m wraps queues e → ps.Nodup →
      (∀ q ∈ ps, m q + portLength queues q < 2 ^ 32) →
      Flushing s (raisedAll m ps (portLength queues)) (wraps ++ ps.flatMap fun q => flushWrap s m q (portLength queues q))
        (portsEmptied queues ps) (flushPorts ps e) := by
  induction ps with
  | nil =>
    intro m wraps queues e h _ _
    rw [List.flatMap_nil, List.append_nil]
    exact h
  | cons p ps ih =>
    intro m wraps queues e h hnodup hm
    obtain ⟨hp, hnodup⟩ := List.nodup_cons.mp hnodup
    have hother : ∀ q ∈ ps, q ≠ p := fun q hq hqp => hp (hqp ▸ hq)
    have hlength : ∀ q ∈ ps, portLength (portsEmptied queues [p]) q = portLength queues q := fun q hq =>
      portLength_congr fun k => portsEmptied_other (by simpa using hother q hq) k
    have hrest := ih (h.flushPort (hm p List.mem_cons_self)) hnodup fun q hq => by
      rw [hlength q hq, raised_other (hother q hq)]
      exact hm q (List.mem_cons_of_mem _ hq)
    have hraised : raisedAll (raised m p (portLength queues p)) ps (portLength (portsEmptied queues [p])) =
        raisedAll m (p :: ps) (portLength queues) := by
      rw [← raisedAll_cons hp]
      funext q
      unfold raisedAll
      split_ifs with hq
      · rw [hlength q hq]
      · rfl
    have hwraps : (ps.flatMap fun q => flushWrap s (raised m p (portLength queues p)) q (portLength (portsEmptied queues [p]) q)) =
        ps.flatMap fun q => flushWrap s (raised m p (portLength queues p)) q (portLength queues q) :=
      List.flatMap_congr fun q hq => by rw [hlength q hq]
    rw [hraised, hwraps, List.append_assoc, flushWraps_cons hp, portsEmptied_cons] at hrest
    exact hrest

end flushing

end Sys2Proof.Machine
end

section
/-! DATAPATH_RESET: what its steps 1 to 4 leave, its answer, and the notice held meanwhile (R162, R163). -/

namespace Sys2Proof.Machine

open Sys2Proof.Claims (CarryBecomes DatapathCleared flushedAt flushWraps)

/-! ### Steps 1 to 4 (R162) -/

/-- The wraps of steps 1 and 2 of a DATAPATH_RESET, of an unmasked LINK_FLUSH index. -/
def resetWraps (s : State) : List (Link × Fin 18) :=
  ((List.finRange 24).flatMap fun q => flushWrap s (fun _ => 0) q s.fifos[q].entries.length) ++
    (List.finRange 24).flatMap fun q =>
      flushWrap s (raisedAll (fun _ => 0) (List.finRange 24) fun q => s.fifos[q].entries.length) q (portLength s.queue q)

/-- The state after steps 1 and 2 of a DATAPATH_RESET. -/
def State.flushedOut (s : State) : Ev := flushPorts (List.finRange 24) (emptyFifos (List.finRange 24) ⟨s, true, false⟩)

theorem State.resetDatapath_eq (s : State) : s.resetDatapath = { s.flushedOut with s := s.flushedOut.s.rebuild } := rfl

section steps
variable {s : State}

theorem resetWraps_masked (h : s.carryMask.getLsbD Counter.linkFlush.index = true) : resetWraps s = [] := by
  unfold resetWraps
  rw [flushWraps_masked h, flushWraps_masked h, List.append_nil]

theorem raisedAll_all (m k : Link → Nat) (q : Link) : raisedAll m (List.finRange 24) k q = m q + k q :=
  congrArg _ (if_pos (List.mem_finRange q))

theorem resetWraps_unmasked (h : s.carryMask.getLsbD Counter.linkFlush.index = false) :
    resetWraps s = (flushWraps s).map fun q => (q, Counter.linkFlush.index) := by
  unfold resetWraps flushWraps
  rw [flushWraps_unmasked h, flushWraps_unmasked h, List.map_append]
  congr 2
  · refine List.filter_congr fun q _ => decide_eq_decide.mpr ?_
    have hlt := (s.counter q Counter.linkFlush.index).isLt
    omega
  · refine List.filter_congr fun q _ => decide_eq_decide.mpr ?_
    rw [raisedAll_all]
    unfold flushedAt portLength
    omega

/-- The counts of steps 1 and 2 are those of all entries flushed. -/
theorem flushedAt_eq (s : State) :
    raisedAll (raisedAll (fun _ => 0) (List.finRange 24) fun q => s.fifos[q].entries.length) (List.finRange 24) (portLength s.queue) =
      flushedAt s := by
  funext q
  rw [raisedAll_all, raisedAll_all]
  unfold flushedAt portLength
  omega

theorem State.queue_le_total (s : State) (p : Link) (c : Class) : (s.queue p c).length ≤ s.queuedTotal :=
  List.le_sum_of_mem (List.mem_map.mpr ⟨(p, c), mem_queueNames p c, rfl⟩)

theorem portLength_le (h : BuffersWf s) (p : Link) : portLength s.queue p ≤ 4 * 12288 := by
  have hpool : s.bm.pool + s.queuedTotal = 12288 := h.pool
  have hle := s.queue_le_total p
  have h0 := hle 0
  have h1 := hle 1
  have h2 := hle 2
  have h3 := hle 3
  unfold portLength
  omega

/-- The start of step 2: the FIFOs are empty, buffers and map as they stood. -/
theorem Flushing.start {m : Link → Nat} {wraps : List (Link × Fin 18)} {e : Ev} {ps : List Link} (hb : BuffersWf s) (hm : MapWf s)
    (hempty : FifosEmptied ps s e.s) (hcounts : HeldCounts s (flushCounts m) wraps e) : Flushing s m wraps s.queue e where
  counts := hcounts
  accounts := (Draining.start hb hm).congr (by rw [hempty.frame]) (by rw [hempty.frame])
  queues q k := by rw [hempty.frame]; rfl

theorem flushCounts_zero : flushCounts (fun _ => 0) = fun _ _ => 0 := by
  funext q i
  exact ite_self 0

/-- Steps 1 and 2: the accounts and the counts once every FIFO and every queue is empty. -/
theorem State.flushedOut_spec (hb : BuffersWf s) (hm : MapWf s) (hf : ∀ p : Link, s.fifos[p].entries.length ≤ 4) :
    Flushing s (flushedAt s) (resetWraps s) (portsEmptied s.queue (List.finRange 24)) s.flushedOut := by
  have hempty := emptyFifos_emptied (List.finRange 24) (e := ⟨s, true, false⟩) rfl
  have hzero : HeldCounts s (flushCounts fun _ => 0) [] ⟨s, true, false⟩ := by
    rw [flushCounts_zero]
    exact .start s
  have hfifos := hzero.emptyFifos (k := fun q => s.fifos[q].entries.length) (List.finRange 24) (List.nodup_finRange 24)
    (fun q _ => rfl) fun q _ => (Nat.zero_add _).trans_lt ((hf q).trans_lt (by decide))
  have hflushed := (Flushing.start hb hm hempty hfifos).flushPorts (List.finRange 24) (List.nodup_finRange 24) fun q _ => by
    have hfifo := hf q
    have hport := portLength_le hb q
    rw [raisedAll_all, Nat.zero_add]
    omega
  rw [flushedAt_eq] at hflushed
  exact hflushed

section rebuilt
variable (s : State) (free : List Nat) (held : Vector (Vector Bool 4) 24) (version : BitVec 16)

theorem State.rebuiltWith_bm : (s.rebuiltWith free held version).bm = { s.bm with free := free } := rfl

theorem State.rebuiltWith_cmap : (s.rebuiltWith free held version).cmap = { s.cmap with held := held, version := version } := rfl

theorem State.rebuiltWith_links : (s.rebuiltWith free held version).links = s.links := rfl

theorem State.rebuiltWith_fifos : (s.rebuiltWith free held version).fifos = s.fifos := rfl

end rebuilt

theorem State.rebuild_frame (s : State) :
    s.rebuild = { s with bm := s.rebuild.bm, cmap := s.rebuild.cmap, scheds := s.rebuild.scheds } := by
  rw [State.rebuild_eq]
  rfl

/-- The rebuild counts nothing. -/
theorem HeldCounts.rebuild {n : Link → Fin 18 → Nat} {wraps : List (Link × Fin 18)} {e : Ev} (h : HeldCounts s n wraps e) :
    HeldCounts s n wraps { e with s := e.s.rebuild } := by
  rw [State.rebuild_frame]
  exact h.congr rfl rfl rfl

/-- The events of a DATAPATH_RESET: none, or those of the LINK_FLUSH counters that wrap, in order (R162, R166). -/
theorem HeldCounts.resetEvents {n : Link → Fin 18 → Nat} {e : Ev} (h : HeldCounts s n (resetWraps s) e) :
    (flushWraps s = [] ∨ s.carryMask.getLsbD Counter.linkFlush.index = true ∨ (s.kind .counterCarry).enabled = false →
      e.s.notices = s.notices) ∧
    ∀ q, (flushWraps s).getLast? = some q → s.carryMask.getLsbD Counter.linkFlush.index = false →
      (s.kind .counterCarry).enabled = true →
      CarryBecomes { s.kind .counterCarry with
        pendingCount := min ((s.kind .counterCarry).pendingCount + (flushWraps s).length) 65535,
        detail := carryDetail q Counter.linkFlush.index } s e.s := by
  refine ⟨fun hquiet => h.quiet ?_, fun q hlast hmask hon => ?_⟩
  · rcases hquiet with hnone | hmasked | hoff
    · left
      cases hmask : s.carryMask.getLsbD Counter.linkFlush.index with
      | false => rw [resetWraps_unmasked hmask, hnone]; rfl
      | true => exact resetWraps_masked hmask
    · exact .inl (resetWraps_masked hmasked)
    · exact .inr hoff
  · have hrecord := h.record hon
    rw [resetWraps_unmasked hmask,
      afterWraps_last (p := q) (i := Counter.linkFlush.index) (by rw [List.getLast?_map, hlast]; rfl), List.length_map] at hrecord
    exact hrecord

theorem portsEmptied_all (queues : Link → Class → List Nat) (p : Link) (c : Class) :
    portsEmptied queues (List.finRange 24) p c = [] := if_pos (List.mem_finRange p)

/-- What steps 1 to 4 leave, from what steps 1 and 2 do. -/
theorem DatapathCleared.of_flushed {e1 e : Ev} (hempty : FifosEmptied (List.finRange 24) s e1.s) (htraffic : TrafficEffects e1.s e.s)
    (hflushed : Flushing s (flushedAt s) (resetWraps s) (portsEmptied s.queue (List.finRange 24)) e) :
    DatapathCleared s e.s.rebuild := by
  have hqueue (p : Link) (c : Class) : e.s.queue p c = [] := (hflushed.queues p c).trans (portsEmptied_all _ p c)
  obtain ⟨hrefs, hpool, hshared, hversion⟩ := hflushed.accounts.emptied hqueue
  have hcounts := hflushed.counts.rebuild
  obtain ⟨hquiet, hevents⟩ := hcounts.resetEvents
  have hvalues := hcounts.values
  have hflags := hcounts.flags
  have hframe : e.s = { s with
      links := e1.s.links, fifos := e1.s.fifos, bm := e.s.bm, cmap := e.s.cmap, counters := e.s.counters, notices := e.s.notices } := by
    rw [htraffic.frame, hempty.frame]
  have hall (p : Link) : p ∈ List.finRange 24 := List.mem_finRange p
  have hscheds : e.s.scheds = s.scheds := by rw [hframe]
  have hlinks : e.s.links = e1.s.links := by rw [hframe]
  have hfifos : e.s.fifos = e1.s.fifos := by rw [hframe]
  simp only [State.rebuild_eq] at hvalues hflags hquiet hevents ⊢
  generalize hfree : List.range Config.bufferCount = free at hvalues hflags hquiet hevents ⊢
  exact {
    frame := by rw [hframe]; rfl
    links := fun p => by rw [State.rebuiltWith_links, hlinks, hempty.links, if_pos (hall p)]
    fifos := fun p => by rw [State.rebuiltWith_fifos, hfifos, hempty.fifos, if_pos (hall p)]
    scheds := fun p => by
      rw [State.rebuiltWith_sched, hscheds]
      rfl
    queues := fun p c => by
      unfold State.queue
      rw [State.rebuiltWith_bm]
      exact hqueue p c
    buffers := fun b => by
      unfold State.buffer
      rw [State.rebuiltWith_bm]
      exact hrefs b
    free := by rw [State.rebuiltWith_bm]; exact hfree.symm
    pool := by rw [State.rebuiltWith_bm]; exact hpool
    shared := by rw [State.rebuiltWith_bm]; exact hshared
    params := by rw [State.rebuiltWith_bm]; exact hflushed.accounts.params
    held := fun p c => by rw [State.rebuiltWith_cmap]; simp
    version := by rw [State.rebuiltWith_cmap]; exact congrArg (· + 1) hversion
    limits := by rw [State.rebuiltWith_cmap]; exact hflushed.accounts.thresholds
    values := fun p i => by
      rw [hvalues]
      unfold flushCounts
      split_ifs <;> rfl
    flags := fun p i => by
      rw [hflags]
      unfold flushCounts
      have hlt := (s.counter p i).isLt
      refine congrArg (s.carryFlag p i || ·) (decide_eq_decide.mpr ?_)
      split_ifs with hi
      · exact (and_iff_right hi).symm
      · exact iff_of_false (by omega) fun h => hi h.1
    quiet := hquiet
    events := hevents }

/-- Steps 1 to 4 of a DATAPATH_RESET. -/
theorem State.resetDatapath_spec (hb : BuffersWf s) (hm : MapWf s) (hf : ∀ p : Link, s.fifos[p].entries.length ≤ 4) :
    DatapathCleared s s.resetDatapath.s ∧ HeldCounts s (flushCounts (flushedAt s)) (resetWraps s) s.resetDatapath := by
  have hflushed := State.flushedOut_spec hb hm hf
  rw [State.resetDatapath_eq]
  exact ⟨DatapathCleared.of_flushed (emptyFifos_emptied (e := ⟨s, true, false⟩) _ rfl) (flushPorts_traffic _ _) hflushed,
    hflushed.counts.rebuild⟩

end steps

/-! ### The answer (R163) -/

/-- The free list of all buffers starts with buffer 0. -/
theorem range_eq_cons {n : Nat} (h : 0 < n) : List.range n = 0 :: (List.range n).tail := by
  cases n with
  | zero => cases h
  | succ n => rw [List.range_succ_eq_map]; rfl

section answer
variable {s t u : State} {r : Request} {code : Code} {words : List Word}

theorem verdict_reserved {c : Class} {p : Link} {use : Nat} (hup : s.links[p].state = .up) (hempty : s.queue p c = [])
    (hr : 1 ≤ s.bm.params[c].reservation) : s.verdict use p c = .reserved := by
  unfold State.verdict State.isUp
  rw [hempty]
  simp only [hup, decide_true, Bool.not_true, Bool.false_eq_true, if_false, List.length_nil]
  exact if_pos hr

theorem verdict_portDown {c : Class} {p : Link} {use : Nat} (hdown : s.links[p].state ≠ .up) : s.verdict use p c = .portDown := by
  unfold State.verdict State.isUp
  rw [decide_eq_false hdown]
  rfl

/-- A response within the reservation of its class takes the head of the free list. -/
theorem RespondedHeld.placed (h : RespondedHeld s u r code words) {b : Nat} {rest : List Nat} (hfree : s.bm.free = b :: rest)
    (hv : s.verdict s.bm.shared r.port 0 = .reserved) :
    Placed s u (responseCell s.sru.elementId r.number r.tag code words) 0 [r.port] 0 b rest := by
  unfold RespondedHeld at h
  rw [hv] at h
  obtain ⟨m, hstored, hadmitted, -⟩ := h
  rw [hadmitted rfl]
  exact hstored.2 b rest (List.cons_ne_nil _ _) hfree

/-- A response at a port that is not UP is only counted lost. -/
theorem RespondedHeld.lost (h : RespondedHeld s u r code words) (hv : s.verdict s.bm.shared r.port 0 = .portDown) :
    CountedHeld s u r.port .rspLost := by
  unfold RespondedHeld at h
  rw [hv] at h
  obtain ⟨m, hstored, -, hrefused⟩ := h
  obtain ⟨n, hnone, -, hcounted⟩ := hrefused rfl
  rw [hnone rfl, hstored.1 (.inl rfl)] at hcounted
  exact hcounted

/-- A DATAPATH_RESET that passes the generic checks. -/
theorem exec_datapathReset_accepted (h : Accepted s r 24 0) : exec .datapathReset s =
    .next (((Machine.taken s).resetDatapath.answer r .ok []).s.release ((Machine.taken s).resetDatapath.answer r .ok []).called) := by
  show execDatapathReset s = _
  unfold execDatapathReset
  rw [h.headFor _ (by decide)]
  simp only [State.executeReset, h.passes (by decide)]
  rfl

/-- The notice held during the event is released when it waits, and only then (R162 step 6). -/
theorem HeldCounts.released {n : Link → Fin 18 → Nat} {wraps : List (Link × Fin 18)} {e : Ev} (h : HeldCounts s n wraps e)
    (hn : ∀ q i, n q i < 2 ^ 32) : (CarryWaits s e.s → Emitted e.s (e.s.release e.called) .counterCarry) ∧
      (¬ CarryWaits s e.s → e.s.release e.called = e.s) := by
  obtain ⟨hemitted, hidle⟩ := e.s.release_spec e.called
  rw [h.waits hn]
  refine ⟨fun hcalled => hemitted hcalled ?_, fun hcalled => hidle (.inl (Bool.eq_false_iff.mpr hcalled))⟩
  obtain ⟨-, -, hfresh, hreached⟩ := h.called.mp hcalled
  unfold State.due
  rw [hfresh, decide_eq_true hreached]
  rfl

end answer

end Sys2Proof.Machine

namespace Sys2Proof.Claims

open Sys2Proof.Machine

theorem flushCounts_lt {s : State} (hb : BuffersWf s) (hf : ∀ p : Link, s.fifos[p].entries.length ≤ 4) (q : Link) (i : Fin 18) :
    flushCounts (flushedAt s) q i + 2 < 2 ^ 32 := by
  have hfifo := hf q
  have hport : flushedAt s q = s.fifos[q].entries.length + portLength s.queue q := by
    unfold flushedAt portLength
    omega
  have hle := portLength_le hb q
  unfold flushCounts
  split_ifs <;> omega

/-- Settles O49: the accounts of the flushed queues and the counts of the event, its notices held, give each clause. -/
theorem datapathResetEmptiesTheTraffic : Obligations.DatapathResetEmptiesTheTraffic := by
  intro s r h hb hm hf
  have hb' : BuffersWf (taken s) := ⟨hb.form, hb.free, hb.listed, hb.unused, hb.refs, hb.distinct, hb.oneClass, hb.pool, hb.shared,
    hb.fits, hb.params, hb.down⟩
  have hm' : MapWf (taken s) := ⟨hm.thresholds, hm.held, hm.flowing⟩
  obtain ⟨hcleared, hcounts⟩ := State.resetDatapath_spec hb' hm' hf
  have hbound := flushCounts_lt hb' hf
  have hnumber : r.number = 24 := BitVec.eq_of_toNat_eq h.number
  have hexec := exec_datapathReset_accepted h
  generalize (taken s).resetDatapath = e at hcleared hcounts hexec
  obtain ⟨s1, hold, called⟩ := e
  obtain rfl : hold = true := hcounts.hold
  simp only at hcleared
  cases hquiet : r.quiet with
  | true =>
    have hanswer : Ev.answer ⟨s1, true, called⟩ r .ok [] = ⟨s1, true, called⟩ := by
      unfold Ev.answer
      rw [hquiet]
      rfl
    rw [hanswer] at hexec
    exact ⟨s1, s1, _, hexec, hcleared, fun _ => rfl, fun hq => absurd hq (by decide),
      hcounts.released fun q i => by have := hbound q i; omega⟩
  | false =>
    have hanswer : Ev.answer ⟨s1, true, called⟩ r .ok [] = Ev.respond ⟨s1, true, called⟩ r .ok (okWords r []) := by
      unfold Ev.answer
      rw [hquiet]
      rfl
    rw [hanswer] at hexec
    obtain ⟨n, wraps, hfinal, hn⟩ := hcounts.respond hbound r .ok (okWords r [])
    have hresponded := Ev.respond_held s1 called r .ok (okWords r [])
    have hstate : s1.links[r.port].state = s.links[r.port].state := by rw [hcleared.links]; rfl
    have hsru : s1.sru.elementId = s.sru.elementId := by rw [hcleared.frame]; rfl
    have hfree : s1.bm.free = 0 :: (List.range 12288).tail := hcleared.free.trans (range_eq_cons (by decide))
    refine ⟨s1, _, _, hexec, hcleared, fun hq => absurd hq (by decide), fun _ =>
      ⟨hresponded, fun hup hreserved => ?_, fun hdown => ?_⟩,
      hfinal.released hn⟩
    · have hv : s1.verdict s1.bm.shared r.port 0 = .reserved :=
        verdict_reserved (hstate.trans hup) (hcleared.queues r.port 0) (by rw [hcleared.params]; exact hreserved)
      have hplaced := hresponded.placed hfree hv
      rw [hsru, hnumber] at hplaced
      exact hplaced
    · exact hresponded.lost (verdict_portDown (by rw [hstate]; exact hdown))

end Sys2Proof.Claims
end

section
/-! The requests of chapters 2 and 3 that read and clear the status of links (R48, R49). -/

namespace Sys2Proof.Machine

theorem exec_readLinkStatus (s : State) : exec .readLinkStatus s = .next (s.serve (· == 18) readLinkStatusBody) := rfl

theorem exec_clearLinkStatus (s : State) : exec .clearLinkStatus s = .next (s.serve (· == 19) clearLinkStatusBody) := rfl

section status
variable {r : Request} {s : State}

theorem readLinkStatusBody_refused (h : 24 ≤ (lo8 (blockWord r 0)).toNat) : readLinkStatusBody r s = .refuse .range := by
  unfold readLinkStatusBody
  rw [linkOf_none h]

theorem readLinkStatusBody_done {p : Link} (h : p.val = (lo8 (blockWord r 0)).toNat) :
    readLinkStatusBody r s = .done s
      [(1, mkWord (linkStateCode s.links[p].state) (natByte s.links[p].attempts)),
       (2, mkWord (downReasonCode s.links[p].lastDown) (natByte s.links[p].score)),
       (3, linkFlagsWord s.links[p] s.fifos[p]),
       (4, mkWord (natByte s.links[p].retrainLimit) (natByte s.links[p].truncation)),
       (5, match s.links[p].rxExpect with | some x => (0x80 : Byte) ++ x | none => 0)] := by
  unfold readLinkStatusBody
  rw [linkOf_val h]
  rfl

end status

/-- One FIFO record of each port of a list replaced: nothing but FIFOs differs. -/
theorem forPorts_modFifo_frame (f : IngressFifo → IngressFifo) (ps : List Link) : ∀ s : State,
    forPorts (fun s p => s.modFifo p f) ps s = { s with fifos := (forPorts (fun s p => s.modFifo p f) ps s).fifos } := by
  induction ps with
  | nil => intro s; rfl
  | cons p ps ih => intro s; exact ih (s.modFifo p f)

/-- The ports of a list without repetition each have their FIFO record replaced once. -/
theorem forPorts_modFifo_get (f : IngressFifo → IngressFifo) (q : Link) (ps : List Link) : ∀ s : State, ps.Nodup →
    (forPorts (fun s p => s.modFifo p f) ps s).fifos[q] = if q ∈ ps then f s.fifos[q] else s.fifos[q] := by
  induction ps with
  | nil => intro s _; rfl
  | cons p ps ih =>
    intro s hnodup
    obtain ⟨hp, hps⟩ := List.nodup_cons.mp hnodup
    refine (ih (s.modFifo p f) hps).trans ?_
    rw [State.modFifo_get]
    by_cases hq : q = p
    · subst hq; simp [hp]
    · simp [hq]

end Sys2Proof.Machine

namespace Sys2Proof.Claims

open Sys2Proof.Machine

/-- Settles O45: a read of one link leaves the state as taken; a clear runs through the selected ports, each once. -/
theorem linkStatusRequests : Obligations.LinkStatusRequests := by
  refine fun s r => ⟨fun h => ⟨fun hbad => ?_, fun p hp => ?_⟩, fun h => ?_⟩
  · exact h.refusedWith rfl (exec_readLinkStatus s) rfl (readLinkStatusBody_refused hbad)
  · exact h.completesWith rfl (exec_readLinkStatus s) (readLinkStatusBody_done hp) rfl
  · refine h.completesWith rfl (exec_clearLinkStatus s) rfl ⟨forPorts_modFifo_frame .., fun p => ?_⟩
    rw [forPorts_modFifo_get _ _ _ _ (portList_nodup _)]
    simp only [portList_mem]
    rfl

end Sys2Proof.Claims
end

section
/-! A cell received in UP for the Ingress FIFO: its counts, and its entry at the tail or in place of the newest (R37 to R41). -/

namespace Sys2Proof.Machine

/-! ### Up to the FIFO (R34, R37) -/

/-- The count of a counter that does not stand at its top calls for no notice (R165, R166). -/
theorem State.count_raised (s : State) (p : Link) (i : Counter) (hv : s.counter p i.index ≠ BitVec.allOnes 32) :
    CountsRaised s (s.count p i) fun q j => if q = p ∧ j = i.index then 1 else 0 := by
  rw [State.count_quiet s p i hv]
  exact (s.bump_spec p i).raised hv

theorem sequenceGap_eq_gapFound (l : LinkPort) (seq : Byte) : sequenceGap l.rxExpect seq = gapFound l seq := by
  unfold sequenceGap gapFound
  cases l.rxExpect <;> simp

/-- The link record after a cell for the FIFO, but for the own hold flag (R21, R22, R37, R46). -/
def trafficRecord (h : Header) (l : LinkPort) : LinkPort :=
  { l with partnerHold := h.hold, liveness := 0, score := l.score - 1, rxExpect := some (h.seq + 1) }

/-- A cell for the FIFO up to its writing there: the link record and the counts (R37). -/
def State.trafficCounted (s : State) (p : Link) (h : Header) (gap : Bool) : State :=
  let t := (s.modLink p (trafficRecord h)).count p .rxCells
  if gap then t.count p .seqGap else t

section reception
variable (s : State) (p : Link) (c : Cell) (h : Header) (gap : Bool)

theorem State.receiveUp_traffic {k : CellType} (hk : carriesTraffic k = true) : s.receiveUp p (.valid c h k) =
    (s.trafficCounted p h (gapFound s.links[p] h.seq)).writeFifo p c (gapFound s.links[p] h.seq) := by
  obtain ⟨hidle, htrain⟩ := carriesTraffic_ne hk
  have hexpect : (s.modLink p (supervisionReset h.hold)).links[p].rxExpect = s.links[p].rxExpect := by
    rw [State.modLink_get, if_pos rfl]; rfl
  rw [State.receiveUp_valid, if_neg htrain, if_neg hidle]
  unfold State.receiveTraffic
  rw [hexpect, sequenceGap_eq_gapFound, State.modLink_modLink]
  rfl

/-- A cell for the FIFO of a link in UP is counted, checked for a gap and written (R34, R37, R38). -/
theorem exec_receiveSlot_traffic {k : CellType} (hr : s.resetAsserted = false) (hs : s.links[p].state = .up)
    (hk : carriesTraffic k = true) (hc : ValidCell c k) : exec (.receiveSlot p (some c)) s =
      .next ((s.trafficCounted p (parseHeader c.header) (gapFound s.links[p] (parseHeader c.header).seq)).writeFifo p c
        (gapFound s.links[p] (parseHeader c.header).seq)) := by
  rw [exec_receiveSlot_up hr hs, classify_valid hc, State.receiveUp_traffic s p c _ hk]

theorem State.trafficCounted_spec : TrafficReceived p h gap s (s.trafficCounted p h gap) := by
  refine ⟨s.modLink p (trafficRecord h), _, .of_mod s p (trafficRecord h), State.count_spec .., ?_⟩
  cases gap with
  | false => rfl
  | true => exact State.count_spec ..

theorem State.trafficCounted_effects : NoticeEffects (s.modLink p (trafficRecord h)) (s.trafficCounted p h gap) := by
  have hcells := (s.modLink p (trafficRecord h)).count_effects p .rxCells
  cases gap with
  | false => exact hcells
  | true => exact hcells.trans (State.count_effects ..)

theorem State.trafficCounted_fifos : (s.trafficCounted p h gap).fifos = s.fifos := by
  rw [(s.trafficCounted_effects p h gap).frame]
  rfl

theorem State.trafficCounted_links : (s.trafficCounted p h gap).links = (s.modLink p (trafficRecord h)).links := by
  rw [(s.trafficCounted_effects p h gap).frame]

theorem State.trafficCounted_raised (hs : NoCounterAtTop s) : CountsRaised (s.modLink p (trafficRecord h)) (s.trafficCounted p h gap)
    fun q i => if q = p ∧ (i = Counter.rxCells.index ∨ (i = Counter.seqGap.index ∧ gap = true)) then 1 else 0 := by
  have hcells := (s.modLink p (trafficRecord h)).count_raised p .rxCells (hs p _)
  cases gap with
  | false => exact hcells.congr fun q i => by simp
  | true =>
    have hother : ((s.modLink p (trafficRecord h)).count p .rxCells).counter p Counter.seqGap.index ≠ BitVec.allOnes 32 := by
      rw [hcells.values, if_neg fun e => absurd e.2 (by decide), BitVec.add_zero]
      exact hs p _
    refine (hcells.trans (State.count_raised _ p .seqGap hother)).congr fun q i => ?_
    by_cases hcell : q = p ∧ i = Counter.rxCells.index
    · obtain ⟨rfl, rfl⟩ := hcell
      rw [if_pos ⟨rfl, rfl⟩, if_neg fun e => absurd e.2 (by decide), if_pos ⟨rfl, .inl rfl⟩]
    · rw [if_neg hcell, Nat.zero_add]
      exact if_congr ⟨fun ⟨hq, hgap⟩ => ⟨hq, .inr ⟨hgap, rfl⟩⟩,
        fun ⟨hq, hi⟩ => ⟨hq, hi.elim (fun e => absurd ⟨hq, e⟩ hcell) And.left⟩⟩ rfl rfl

end reception

/-! ### Entry into the FIFO (R40, R41) -/

section entry
variable {s : State} {p : Link}

theorem State.writeFifo_room (h : s.fifos[p].entries.length ≤ 3) (c : Cell) (gap : Bool) : s.writeFifo p c gap =
    (s.modFifo p fun f => { f with entries := f.entries ++ [⟨c, gap, false⟩] }).modLink p fun l =>
      { l with ownHold := holdFlag (s.fifos[p].entries.length + 1) l.ownHold } := by
  simp only [← ownHoldAfter_eq]
  exact if_pos (Nat.lt_succ_of_le h)

theorem State.writeFifo_full (h : s.fifos[p].entries.length = 4) (c : Cell) (gap : Bool) : s.writeFifo p c gap =
    (s.modFifo p fun f => { f with entries := f.entries.take 3 ++ [⟨c, gap, true⟩] }).count p .overrun := by
  have hnewest : s.fifos[p].entries.dropLast = s.fifos[p].entries.take 3 := by rw [List.dropLast_eq_take, h]
  refine (if_neg (by rw [h]; decide)).trans ?_
  simp only [hnewest]
  rfl

end entry

/-! ### Effects taken back to other link records -/

section links
variable {s t : State} {p : Link} {f : LinkPort → LinkPort}

/-- What notices change does not rest on a link's record but for its state. -/
theorem NoticeEffects.of_modLink (h : NoticeEffects (s.modLink p f) t) (hf : ∀ l, (f l).state = l.state) :
    NoticeEffects s { t with links := s.links } where
  frame := by rw [h.frame]; rfl
  params := h.params
  thresholds := h.thresholds
  ports := h.ports
  settings := h.settings
  queues q c := by
    have hup : (s.modLink p f).isUp q = s.isUp q := by
      unfold State.isUp
      rw [State.modLink_get]
      split_ifs
      · rw [hf]
      · rfl
    obtain ⟨l, hl, hjoined⟩ := h.queues q c
    rw [hup] at hjoined
    exact ⟨l, hl, hjoined⟩

theorem CountsRaised.of_modLink {n : Link → Fin 18 → Nat} (h : CountsRaised (s.modLink p f) t n) :
    CountsRaised s { t with links := s.links } n where
  frame := by rw [h.frame]; rfl
  values := h.values
  flags := h.flags

end links

end Sys2Proof.Machine

namespace Sys2Proof.Claims

open Sys2Proof.Machine

/-- Settles O10: the counts and the record first, then the newest entry replaced, then OVERRUN. -/
theorem arrivalAtAFullFifoReplacesTheNewest : Obligations.ArrivalAtAFullFifoReplacesTheNewest := by
  intro s p c k hr hs hk hc hfull
  have hfifos := s.trafficCounted_fifos p (parseHeader c.header) (gapFound s.links[p] (parseHeader c.header).seq)
  have hexec := exec_receiveSlot_traffic s p c hr hs hk hc
  rw [State.writeFifo_full (by rw [hfifos]; exact hfull)] at hexec
  refine ⟨_, State.modFifo .., _, hexec, s.trafficCounted_spec p _ _, ⟨rfl, fun q => ?_⟩, State.count_spec ..⟩
  rw [State.modFifo_get, hfifos]

/-- Settles O9: `m` is the state with its counts raised and the links as before; the slot then differs from it by the record of link p
and its FIFO. -/
theorem arrivalJoinsTheFifo : Obligations.ArrivalJoinsTheFifo := by
  intro s p c k hr hs hk hc hroom h gap
  have hfifos := s.trafficCounted_fifos p h gap
  have hlinks := s.trafficCounted_links p h gap
  refine ⟨{ s.trafficCounted p h gap with links := s.links }, _, exec_receiveSlot_traffic s p c hr hs hk hc,
    (s.trafficCounted_effects p h gap).of_modLink fun _ => rfl, fun htop => (s.trafficCounted_raised p h gap htop).of_modLink, ?_⟩
  rw [State.writeFifo_room (by rw [hfifos]; exact hroom)]
  refine ⟨rfl, fun q => ?_, fun q => ?_⟩
  · rw [State.modLink_fifos, State.modFifo_get, hfifos]
  · rw [State.modLink_get, State.modFifo_links, hlinks, State.modLink_get, hfifos]
    split_ifs with hq
    · subst hq; rfl
    · rfl

end Sys2Proof.Claims
end

section
/-! What a forwarding event leaves alone once its entry is taken (R51, R53 to R67, R145 to R149). -/

namespace Sys2Proof.Machine

/-! ### A taken cell acted on -/

section forwarding
variable (s : State) (p : Link)

theorem countEach_effects (c : Counter) (ps : List Link) : ∀ s : State, NoticeEffects s (countEach c ps s) := by
  induction ps with
  | nil => intro s; exact .refl s
  | cons p ps ih => intro s; exact (s.count_effects p c).trans (ih _)

theorem State.submitData_traffic (c : Cell) {ports : List Link} (cls : Class) (h : ports.Nodup) :
    TrafficEffects s (s.submitData c ports cls) := (s.submitData_spec c ports cls h).traffic

theorem State.forwardUnicast_traffic (c : Cell) (e : RouteEntry) (cls : Class) : TrafficEffects s (s.forwardUnicast p c e cls) := by
  unfold State.forwardUnicast
  split_ifs
  · exact s.submitData_traffic c cls (List.nodup_singleton _)
  · exact (s.count_effects _ _).traffic.trans (State.submitData_traffic _ c cls (List.nodup_singleton _))
  · exact (s.count_effects p _).traffic

theorem State.forwardMulticast_traffic (c : Cell) (g : GroupEntry) (cls : Class) :
    TrafficEffects s (s.forwardMulticast p c g cls) := by
  have hpruned := (countEach_effects .mcastPruned ((groupPorts g p).filter fun q => !s.isUp q) s).traffic
  unfold State.forwardMulticast
  simp only
  split_ifs
  · exact hpruned.trans (State.count_effects ..).traffic
  · exact hpruned.trans (State.submitData_traffic _ c cls ((groupPorts_nodup p g).filter _))

theorem State.forwardData_traffic (c : Cell) : TrafficEffects s (s.forwardData p c) := by
  unfold State.forwardData
  simp only
  split
  · exact (s.count_effects p _).traffic
  · exact (s.count_effects p _).traffic
  · exact s.forwardUnicast_traffic p c _ _
  · exact s.forwardMulticast_traffic p c _ _

/-- A request handed to the SRU is queued, or else it is answered or discarded with counts and notices (R145 to R149). -/
theorem State.handToSru_cases (c : Cell) : TrafficEffects s (s.handToSru p c) ∨
    s.handToSru p c = { s with sru := { s.sru with srq := s.sru.srq ++ [requestOf p c] } } := by
  unfold State.handToSru State.queueRequest
  split_ifs
  · exact .inr rfl
  · exact .inl ((Ev.respond_traffic ⟨s, false, false⟩ _ _ _).trans (State.notify_effects ..).traffic)
  · exact .inl (s.count_effects p _).traffic

/-- A taken cell acts on the SRU and on what traffic changes, and on nothing else (R54). -/
theorem State.forwardCell_frame (c : Cell) : s.forwardCell p c =
    { s with sru := (s.forwardCell p c).sru, bm := (s.forwardCell p c).bm, cmap := (s.forwardCell p c).cmap,
             counters := (s.forwardCell p c).counters, notices := (s.forwardCell p c).notices } := by
  have of_traffic {t : State} (h : TrafficEffects s t) :
      t = { s with sru := t.sru, bm := t.bm, cmap := t.cmap, counters := t.counters, notices := t.notices } := by
    rw [h.frame]
  unfold State.forwardCell
  split
  · exact of_traffic (s.forwardData_traffic p c)
  · rcases s.handToSru_cases p c with h | h
    · exact of_traffic h
    · rw [h]
  · exact of_traffic (s.count_effects p _).traffic
  · exact of_traffic (s.count_effects p _).traffic
  · exact of_traffic (s.count_effects p _).traffic
  all_goals rfl

end forwarding

/-! ### No entry waiting (R52) -/

theorem State.chosenLink_none {s : State} (h : ∀ p : Link, s.fifos[p].entries = []) : s.chosenLink = none :=
  List.find?_eq_none.mpr fun p _ => by simpa using h p

theorem State.forward_idle {s : State} (h : ∀ p : Link, s.fifos[p].entries = []) : s.forward = s := by
  unfold State.forward
  rw [State.chosenLink_none h]
  split_ifs <;> rfl

end Sys2Proof.Machine

namespace Sys2Proof.Claims

open Sys2Proof.Machine

/-- Settles O17: the entry is taken first, and what its cell then does leaves FIFOs, links and arbiter alone. -/
theorem forwardingTakesTheNextEntry : Obligations.ForwardingTakesTheNextEntry := by
  refine ⟨fun s p e rest h => ⟨s.takeEntry p e rest, _, h.exec, s.takeEntry_spec p e rest, ?_⟩, fun s h => ?_⟩
  · rw [State.forwardCell_frame]
    exact ⟨rfl, rfl, rfl, rfl, rfl, rfl, rfl⟩
  · exact congrArg Host.Outcome.next (State.forward_idle h)

end Sys2Proof.Claims
end

section
/-! The counters that notices raise (R85, R173), which leave every other counter of the event alone. -/

namespace Sys2Proof.Machine

/-- The counters that the submission of a notice may raise: those of refused copies, and NOTICE_LOST (R85, R173). -/
def noticeCounters : List (Fin 18) := [Counter.queueMax.index, Counter.sharedLimit.index, Counter.noticeLost.index]

section counters
variable (s : State) (p q : Link) {i : Fin 18}

theorem State.bump_counter_other {c : Counter} (h : i ≠ c.index) : (s.bump p c).1.counter q i = s.counter q i := by
  rw [(s.bump_spec p c).values, if_neg fun e => h e.2]

theorem State.takeEvent_counter (k : NoticeKind) (d : Vector Byte 6) (i : Fin 18) :
    (s.takeEvent k d).1.counter q i = s.counter q i := by
  cases hk : (s.kind k).enabled with
  | true => rw [(s.takeEvent_on k d hk).frame]; rfl
  | false => rw [s.takeEvent_off k d hk]

theorem State.countHeld_counter_other {c : Counter} (h : i ≠ c.index) : (s.countHeld p c).1.counter q i = s.counter q i := by
  rw [State.countHeld_cases]
  split_ifs
  · rw [State.takeEvent_counter, State.bump_counter_other _ _ _ h]
  · exact s.bump_counter_other p q h

/-- A refused copy is counted QUEUE_MAX, SHARED_LIMIT or not at all (R85). -/
theorem countRefusals_counter_other (hmax : i ≠ Counter.queueMax.index) (hlimit : i ≠ Counter.sharedLimit.index)
    (vs : List (Link × Verdict)) : ∀ (s : State) (called : Bool), (countRefusals vs (s, called)).1.counter q i = s.counter q i := by
  induction vs with
  | nil => intro s called; rfl
  | cons v vs ih =>
    obtain ⟨p, v⟩ := v
    intro s called
    unfold countRefusals
    split
    · exact ih s called
    · rename_i c hc
      have hic : i ≠ c.index := by
        rcases Counter.index_loss c v hc with rfl | rfl
        · exact hmax
        · exact hlimit
      rw [ih, s.countHeld_counter_other p q hic]

theorem countLost_counter_other (h : i ≠ Counter.noticeLost.index) (ps : List Link) : ∀ s : State,
    (countLost ps s).1.counter q i = s.counter q i := by
  induction ps with
  | nil => intro s; rfl
  | cons p ps ih => intro s; exact (ih _).trans (s.bump_counter_other p q h)

theorem State.emit_counter_other (k : NoticeKind) (h : i ∉ noticeCounters) : (s.emit k).1.counter q i = s.counter q i := by
  obtain ⟨hmax, hlimit, hlost⟩ : i ≠ Counter.queueMax.index ∧ i ≠ Counter.sharedLimit.index ∧ i ≠ Counter.noticeLost.index := by
    simpa [noticeCounters] using h
  have hstored := s.submit_stored (noticeCell s.sru.elementId k (s.kind k).pendingCount (s.kind k).detail) (portList s.notices.ports) 0
    (portList_nodup _)
  calc (s.emit k).1.counter q i
      = (s.submit (noticeCell s.sru.elementId k (s.kind k).pendingCount (s.kind k).detail) (portList s.notices.ports) 0).s.counter q i :=
        countLost_counter_other q hlost _ _
    _ = _ := countRefusals_counter_other q hmax hlimit _ _ _
    _ = s.counter q i := hstored.counter q i

theorem settle_counter_other (h : i ∉ noticeCounters) (n : Nat) : ∀ ws s, (settle n ws s).counter q i = s.counter q i := by
  induction n with
  | zero => intro ws s; rfl
  | succ n ih =>
    intro ws s
    match ws with
    | [] => rfl
    | .take k d :: ws =>
      rw [settle_take]
      split_ifs <;> rw [ih, State.takeEvent_counter]
    | .emit k :: ws =>
      rw [settle_emit]
      split_ifs
      · rw [ih, s.emit_counter_other q k h]
      · exact ih ws s

/-- A count outside the counters of notices rises by one, whether or not it wraps. -/
theorem State.count_counter {c : Counter} (h : c.index ∉ noticeCounters) :
    (s.count p c).counter p c.index = s.counter p c.index + 1 := by
  have hbump : (s.bump p c).1.counter p c.index = s.counter p c.index + 1 := by
    rw [(s.bump_spec p c).values, if_pos ⟨rfl, rfl⟩]
  rw [State.count_cases]
  split_ifs
  · exact (settle_counter_other p h _ _ _).trans hbump
  · exact hbump

end counters

end Sys2Proof.Machine
end

section
/-! A taken cell by its type and by its route (R54 to R65), one equation for each branch. -/

namespace Sys2Proof.Machine

section branches
variable {s : State} {p : Link} {c : Cell}

theorem State.forwardCell_data (h : cellType c = .data) : s.forwardCell p c = s.forwardData p c := by
  unfold cellType at h
  unfold State.forwardCell
  rw [h]

theorem State.forwardCell_unexpected (h : cellType c = .mgmtRsp ∨ cellType c = .status ∨ cellType c = .notice) :
    s.forwardCell p c = s.count p .unexpectedType := by
  unfold cellType at h
  unfold State.forwardCell
  rcases h with h | h | h <;> rw [h]

theorem State.handToSru_foreign (h : ¬ TargetMatches s.sru (targetOf c)) : s.handToSru p c = s.count p .foreignMgmt :=
  if_neg fun e => h ((Sru.addressMatches_iff _ _).mp e)

theorem State.forwardData_unused (h : (lookup s c).kind = .unused) : s.forwardData p c = s.count p .noRoute := by
  unfold lookup activeBank at h
  unfold State.forwardData
  simp only [h]

theorem State.forwardData_discard (h : (lookup s c).kind = .discard) : s.forwardData p c = s.count p .routeDiscard := by
  unfold lookup activeBank at h
  unfold State.forwardData
  simp only [h]

theorem State.forwardData_unicast (h : (lookup s c).kind = .unicast) :
    s.forwardData p c = s.forwardUnicast p c (lookup s c) (queueClass (lookup s c) (parseHeader c.header)) := by
  unfold lookup activeBank at h ⊢
  unfold State.forwardData
  simp only [h]

theorem State.forwardData_multicast (h : (lookup s c).kind = .multicast) :
    s.forwardData p c = s.forwardMulticast p c ((activeBank s.tables).group (lookup s c).group.toNat)
      (queueClass (lookup s c) (parseHeader c.header)) := by
  unfold lookup activeBank at h ⊢
  unfold State.forwardData
  simp only [h]

/-! ### UNICAST (R61, R62) -/

variable {r : RouteEntry} {cls : Class}

theorem State.forwardUnicast_primary (h : s.isUp r.primary = true) : s.forwardUnicast p c r cls = s.submitData c [r.primary] cls :=
  if_pos h

theorem State.forwardUnicast_alternate (hprimary : s.isUp r.primary = false) (hpresent : r.altPresent = true)
    (halternate : s.isUp r.alternate = true) :
    s.forwardUnicast p c r cls = (s.count r.alternate .failover).submitData c [r.alternate] cls := by
  unfold State.forwardUnicast
  simp [hprimary, hpresent, halternate]

theorem State.forwardUnicast_down (hprimary : s.isUp r.primary = false)
    (halternate : r.altPresent = false ∨ s.isUp r.alternate = false) : s.forwardUnicast p c r cls = s.count p .routeDown := by
  unfold State.forwardUnicast
  rcases halternate with h | h <;> simp [hprimary, h]

/-! ### MULTICAST (R63 to R65) -/

/-- The ports of a group, as the statements write them (R64). -/
theorem groupPorts_eq (g : GroupEntry) (p : Link) : groupPorts g p =
    (List.finRange 24).filter fun q : Link => g.members.getLsbD q && (g.returnToSource || decide (q ≠ p)) := by
  unfold groupPorts portList
  rw [List.filter_filter]
  exact List.filter_congr fun q _ => Bool.and_comm ..

variable {g : GroupEntry}

/-- The members that are not UP counted MCAST_PRUNED (R64 step 3, R65). -/
def State.pruned (s : State) (p : Link) (g : GroupEntry) : State :=
  countEach .mcastPruned ((groupPorts g p).filter fun q => !s.isUp q) s

theorem State.forwardMulticast_empty (h : ((groupPorts g p).filter fun q => s.isUp q) = []) :
    s.forwardMulticast p c g cls = (s.pruned p g).count p .routeDown := if_pos (List.isEmpty_iff.mpr h)

theorem State.forwardMulticast_copies (h : ((groupPorts g p).filter fun q => s.isUp q) ≠ []) :
    s.forwardMulticast p c g cls = (s.pruned p g).submitData c ((groupPorts g p).filter fun q => s.isUp q) cls :=
  if_neg fun e => h (List.isEmpty_iff.mp e)

end branches

/-! ### What the taking of an entry leaves for the lookup -/

theorem State.takeEntry_isUp (s : State) (p : Link) (e : FifoEntry) (rest : List FifoEntry) (q : Link) :
    (s.takeEntry p e rest).isUp q = s.isUp q := by
  obtain ⟨-, -, hlinks⟩ := s.takeEntry_spec p e rest
  unfold State.isUp
  rw [hlinks]
  split_ifs <;> rfl

@[simp] theorem State.takeEntry_lookup (s : State) (p : Link) (e : FifoEntry) (rest : List FifoEntry) (c : Cell) :
    lookup (s.takeEntry p e rest) c = lookup s c := rfl

@[simp] theorem State.takeEntry_tables (s : State) (p : Link) (e : FifoEntry) (rest : List FifoEntry) :
    (s.takeEntry p e rest).tables = s.tables := rfl

@[simp] theorem State.takeEntry_sru (s : State) (p : Link) (e : FifoEntry) (rest : List FifoEntry) :
    (s.takeEntry p e rest).sru = s.sru := rfl

section events
variable {s : State} {p : Link} {e : FifoEntry} {rest : List FifoEntry}

/-- The event of a cell with a UNICAST route (R57, R61). -/
theorem Forwards.exec_unicast (h : Forwards s p e rest) (hd : cellType e.cell = .data) (hk : (lookup s e.cell).kind = .unicast) :
    Machine.exec .forwardingEvent s = .next ((s.takeEntry p e rest).forwardUnicast p e.cell (lookup s e.cell)
      (queueClass (lookup s e.cell) (parseHeader e.cell.header))) := by
  rw [h.exec, State.forwardCell_data hd, State.forwardData_unicast (by simpa using hk), State.takeEntry_lookup]

/-- The event of a cell with a MULTICAST route (R57, R63). -/
theorem Forwards.exec_multicast (h : Forwards s p e rest) (hd : cellType e.cell = .data) (hk : (lookup s e.cell).kind = .multicast) :
    Machine.exec .forwardingEvent s = .next ((s.takeEntry p e rest).forwardMulticast p e.cell
      ((activeBank s.tables).group (lookup s e.cell).group.toNat) (queueClass (lookup s e.cell) (parseHeader e.cell.header))) := by
  rw [h.exec, State.forwardCell_data hd, State.forwardData_multicast (by simpa using hk), State.takeEntry_lookup,
    State.takeEntry_tables]

end events

end Sys2Proof.Machine

namespace Sys2Proof.Claims

open Sys2Proof.Machine

/-- Settles O18: the entry taken, then one count, which the notices of its wrap do not touch again. -/
theorem discardRouteIsCounted : Obligations.DiscardRouteIsCounted := by
  intro s p e rest hf hd hk
  have hexec := hf.exec
  rw [State.forwardCell_data hd, State.forwardData_discard (by simpa using hk)] at hexec
  exact ⟨s.takeEntry p e rest, _, hexec, s.takeEntry_spec p e rest, State.count_effects ..,
    (s.takeEntry p e rest).count_counter p (c := .routeDiscard) (by decide),
    fun htop => State.count_raised _ p .routeDiscard (htop p _)⟩

/-- Settles O19: each discard is one count at the arrival port after the entry is taken. -/
theorem discardsAtTheArrivalPort : Obligations.DiscardsAtTheArrivalPort := by
  intro s p e rest hf
  refine ⟨s.takeEntry p e rest, _, s.takeEntry_spec p e rest, hf.exec, fun hd hk => ?_, fun hd hk => ?_, fun ht => ?_, fun ht hm => ?_⟩
  · rw [State.forwardCell_data hd, State.forwardData_unused (by simpa using hk)]
    exact State.count_spec ..
  · rw [State.forwardCell_data hd, State.forwardData_discard (by simpa using hk)]
    exact State.count_spec ..
  · rw [State.forwardCell_unexpected ht]
    exact State.count_spec ..
  · rw [State.forwardCell_mgmtReq _ p ht, State.handToSru_foreign (by simpa using hm)]
    exact State.count_spec ..

/-- Settles O20: the three cases of the link states, read in the state that the taking of the entry leaves. -/
theorem unicastForwarding : Obligations.UnicastForwarding := by
  intro s p e rest hf hd hk r c
  refine ⟨s.takeEntry p e rest, _, hf.exec_unicast hd hk, s.takeEntry_spec p e rest, ?_⟩
  simp only [← s.takeEntry_isUp p e rest]
  refine ⟨fun hup => ?_, fun hdown hpresent hup => ⟨_, State.count_spec .., ?_⟩, fun hdown hnone => ?_⟩
  · rw [State.forwardUnicast_primary hup]
    exact State.submitData_spec _ _ _ _ (List.nodup_singleton _)
  · rw [State.forwardUnicast_alternate hdown hpresent hup]
    exact State.submitData_spec _ _ _ _ (List.nodup_singleton _)
  · rw [State.forwardUnicast_down hdown hnone]
    exact State.count_spec ..

/-- Settles O21: the members that are not UP counted first, then the copy set submitted, or ROUTE_DOWN when it is empty. -/
theorem multicastForwarding : Obligations.MulticastForwarding := by
  intro s p e rest hf hd hk r c g members copySet
  have hmembers : members = groupPorts g p := (groupPorts_eq g p).symm
  have hcopies : copySet = (groupPorts g p).filter fun q => (s.takeEntry p e rest).isUp q := by
    simp only [copySet, hmembers, State.takeEntry_isUp]
  refine ⟨s.takeEntry p e rest, (s.takeEntry p e rest).pruned p g, _, hf.exec_multicast hd hk, s.takeEntry_spec p e rest, ?_,
    fun hne => ?_, fun hempty => ?_⟩
  · simp only [hmembers, ← s.takeEntry_isUp p e rest]
    exact countEach_spec ..
  · rw [hcopies] at hne ⊢
    rw [State.forwardMulticast_copies hne]
    exact State.submitData_spec _ _ _ _ ((groupPorts_nodup p g).filter _)
  · rw [State.forwardMulticast_empty (hcopies ▸ hempty)]
    exact State.count_spec ..

end Sys2Proof.Claims
end

section
/-! A submission of one copy: its outcome decided by R80 and R81, and what each outcome leaves (R84 to R86). -/

namespace Sys2Proof.Machine

section copy
variable {s : State} {u : Nat} {p : Link} {c : Class}

/-- The steps of R80 and R81 decide the outcome of a copy. -/
theorem State.verdict_eq {v : Verdict} (h : CopyOutcome (s.isUp p) (s.queue p c).length s.bm.params[c].reservation
    s.bm.params[c].maximum (s.poolSize - u) s.bm.params[c].alpha v) : s.verdict u p c = v := by
  unfold State.verdict sharedThreshold
  generalize (s.queue p c).length = Q, s.bm.params[c] = x, s.poolSize - u = free at h ⊢
  cases h with
  | portDown down => simp [down]
  | reserved up below => simp [up, below]
  | queueMax up above full => simp [up, Nat.not_lt.mpr above, full]
  | shared up above room some under => simp [up, Nat.not_lt.mpr above, Nat.not_lt.mpr room, show 1 ≤ free from some, under]
  | sharedLimit up above room beyond =>
    have hbeyond : ¬ (1 ≤ free ∧ Q - x.reservation < free * 2 ^ x.alpha / 16) := by omega
    simp only [up, Nat.not_lt.mpr above, Nat.not_lt.mpr room, hbeyond, Bool.not_true, Bool.false_eq_true, if_false]

variable {cell : Cell} {v : Verdict}

theorem admittedPorts_one (p : Link) (v : Verdict) : admittedPorts [(p, v)] = if v.admits = true then [p] else [] := by
  cases v <;> rfl

theorem Verdict.counter_admitted (h : v.admits = true) : v.counter = none := by
  match v, h with
  | .reserved, _ => rfl
  | .shared, _ => rfl

/-- An admitted copy is stored, and nothing is counted (R84, R85). -/
theorem State.submitData_admitted (hv : s.verdict s.bm.shared p c = v) (ha : v.admits = true) :
    s.submitData cell [p] c = s.store cell c [(p, v)] := by
  unfold State.submitData State.submit
  simp only [State.verdicts_one, hv, countRefusals, Verdict.counter_admitted ha, State.release, Bool.false_eq_true, if_false]

/-- An admitted copy takes the head of the free list (R84, R86). -/
theorem State.submitData_placed {b : Nat} {tail : List Nat} (hv : s.verdict s.bm.shared p c = v) (ha : v.admits = true)
    (hfree : s.bm.free = b :: tail) : Placed s (s.submitData cell [p] c) cell c [p] (sharedCopies [(p, v)]) b tail := by
  have hadmitted : admittedPorts [(p, v)] = [p] := (admittedPorts_one p v).trans (if_pos ha)
  have hstored := s.store_spec cell c [(p, v)] (List.nodup_singleton _)
  have hplaced := hstored.2 b tail (by rw [hadmitted]; exact List.cons_ne_nil _ _) hfree
  rw [hadmitted] at hplaced
  rwa [State.submitData_admitted hv ha]

/-- A refused copy leaves the buffers alone and is counted by its outcome (R85). -/
theorem State.submitData_refused {k : Counter} (hv : s.verdict s.bm.shared p c = v) (hk : v.counter = some k) (htop : NoCounterAtTop s) :
    CountsRaised s (s.submitData cell [p] c) fun o i => if o = p ∧ i = k.index then 1 else 0 := by
  have hrefused : v.admits ≠ true := fun ha => by simp [Verdict.counter_admitted ha] at hk
  obtain ⟨m, hstored, -, hcounts⟩ := s.submitData_spec cell [p] c (List.nodup_singleton _)
  rw [State.verdicts_one, hv] at hstored hcounts
  rw [hstored.1 (.inl ((admittedPorts_one p v).trans (if_neg hrefused)))] at hcounts
  refine (hcounts htop).congr fun o i => ?_
  rw [refusalCount_cons, hk]
  simp [refusalCount, eq_comm]

end copy

end Sys2Proof.Machine

namespace Sys2Proof.Claims

open Sys2Proof.Machine

/-- Settles O22: the primary is UP, so the event is the submission of one copy, and each clause gives its outcome. -/
theorem admissionOfOneCopy : Obligations.AdmissionOfOneCopy := by
  intro s p q e rest b tail hf hd hk hq hup hfree htop c Q R SF T
  subst hq
  have hup' := (s.takeEntry_isUp p e rest (lookup s e.cell).primary).trans hup
  have hexec := hf.exec_unicast hd hk
  rw [State.forwardUnicast_primary hup'] at hexec
  refine ⟨s.takeEntry p e rest, _, hexec, s.takeEntry_spec p e rest, fun below => ?_, fun above room free under => ?_,
    fun above full => ?_, fun above room beyond => ?_⟩
  · exact State.submitData_placed (State.verdict_eq (.reserved hup' below)) rfl hfree
  · exact State.submitData_placed (State.verdict_eq (.shared hup' above room free under)) rfl hfree
  · exact State.submitData_refused (State.verdict_eq (.queueMax hup' above full)) rfl htop
  · exact State.submitData_refused (State.verdict_eq (.sharedLimit hup' above room beyond)) rfl htop

end Sys2Proof.Claims
end

section
/-! The requests of chapters 5 and 7 that set admission and status timing and read the Buffer Manager (R92, R93, R95, R128). -/

namespace Sys2Proof.Machine

theorem exec_setAdmission (s : State) : exec .setAdmission s = .next (s.serve (· == 13) setAdmissionBody) := rfl

theorem exec_setStatusTiming (s : State) : exec .setStatusTiming s = .next (s.serve (· == 15) setStatusTimingBody) := rfl

theorem exec_readBufferState (s : State) : exec .readBufferState s = .next (s.serve (· == 16) readBufferStateBody) := rfl

section bodies
variable {r : Request} {s : State} {c : Class}

/-! ### SET_ADMISSION (R92, R93) -/

/-- The parameters of class c as a SET_ADMISSION gives them, the alpha code clamped to 7 (R92). -/
def givenParams (r : Request) (params : Vector ClassParams 4) (c : Class) : Vector ClassParams 4 :=
  upd params c ⟨(blockWord r 1).toNat, (blockWord r 2).toNat, min (lo8 (blockWord r 3)).toNat 7⟩

theorem clamp_alpha (n : Nat) : clamp 0 7 n = min n 7 := by
  unfold clamp; omega

theorem alphaWord_eq {n : Nat} (h : n ≤ 7) : mkWord 0 (natByte n) = BitVec.ofNat 16 n := by
  interval_cases n <;> rfl

/-- A class out of range comes to RANGE before any other check. -/
theorem setAdmissionBody_badClass (h : 4 ≤ (lo8 (blockWord r 0)).toNat) : setAdmissionBody r s = .refuse .range := by
  unfold setAdmissionBody
  simp only [classOfByte_none h]

/-- SET_ADMISSION for a class in range: a value out of range, S' below U', or the parameters stored (R92, R93). -/
theorem setAdmissionBody_class (h : c.val = (lo8 (blockWord r 0)).toNat) : setAdmissionBody r s =
    if 255 < (blockWord r 1).toNat then .refuse .range
    else if (blockWord r 2).toNat = 0 ∨ 12288 < (blockWord r 2).toNat then .refuse .range
    else if 12288 < totalReservation (givenParams r s.bm.params c) + sharedUse s (givenParams r s.bm.params c) then
      .refuse .admissionConflict
    else .done { s with bm := { s.bm with params := givenParams r s.bm.params c, shared := sharedUse s (givenParams r s.bm.params c) } }
      [(3, BitVec.ofNat 16 (min (lo8 (blockWord r 3)).toNat 7)),
       (4, BitVec.ofNat 16 (totalReservation (givenParams r s.bm.params c))),
       (5, BitVec.ofNat 16 (12288 - totalReservation (givenParams r s.bm.params c))),
       (6, BitVec.ofNat 16 (sharedUse s (givenParams r s.bm.params c))),
       (7, BitVec.ofNat 16 (12288 - totalReservation (givenParams r s.bm.params c) - sharedUse s (givenParams r s.bm.params c)))] := by
  unfold setAdmissionBody
  simp only [classOfByte_val h, clamp_alpha, alphaWord_eq (Nat.min_le_right _ 7)]
  rfl

theorem setAdmissionBody_outOfRange
    (h : 4 ≤ (lo8 (blockWord r 0)).toNat ∨ 255 < (blockWord r 1).toNat ∨ (blockWord r 2).toNat = 0 ∨ 12288 < (blockWord r 2).toNat) :
    setAdmissionBody r s = .refuse .range := by
  rcases Nat.lt_or_ge (lo8 (blockWord r 0)).toNat 4 with hc | hc
  · rw [setAdmissionBody_class (c := ⟨_, hc⟩) rfl]
    split_ifs
    · rfl
    · rfl
    all_goals omega
  · exact setAdmissionBody_badClass hc

theorem setAdmissionBody_conflict (h : c.val = (lo8 (blockWord r 0)).toNat) (hR : (blockWord r 1).toNat ≤ 255)
    (hM : 1 ≤ (blockWord r 2).toNat ∧ (blockWord r 2).toNat ≤ 12288)
    (hU : 12288 < totalReservation (givenParams r s.bm.params c) + sharedUse s (givenParams r s.bm.params c)) :
    setAdmissionBody r s = .refuse .admissionConflict := by
  rw [setAdmissionBody_class h, if_neg (by omega), if_neg (by omega), if_pos hU]

theorem setAdmissionBody_done (h : c.val = (lo8 (blockWord r 0)).toNat) (hR : (blockWord r 1).toNat ≤ 255)
    (hM : 1 ≤ (blockWord r 2).toNat ∧ (blockWord r 2).toNat ≤ 12288)
    (hU : totalReservation (givenParams r s.bm.params c) + sharedUse s (givenParams r s.bm.params c) ≤ 12288) :
    setAdmissionBody r s = .done
      { s with bm := { s.bm with params := givenParams r s.bm.params c, shared := sharedUse s (givenParams r s.bm.params c) } }
      [(3, BitVec.ofNat 16 (min (lo8 (blockWord r 3)).toNat 7)),
       (4, BitVec.ofNat 16 (totalReservation (givenParams r s.bm.params c))),
       (5, BitVec.ofNat 16 (12288 - totalReservation (givenParams r s.bm.params c))),
       (6, BitVec.ofNat 16 (sharedUse s (givenParams r s.bm.params c))),
       (7, BitVec.ofNat 16 (12288 - totalReservation (givenParams r s.bm.params c) - sharedUse s (givenParams r s.bm.params c)))] := by
  rw [setAdmissionBody_class h, if_neg (by omega), if_neg (by omega), if_neg (by omega)]

/-! ### SET_STATUS_TIMING (R128) -/

theorem clamp_spacing (n : Nat) : clamp 2 64 n = max 2 (min 64 n) := by
  unfold clamp; omega

/-- No word lies above the range of the refresh interval. -/
theorem clamp_refresh (w : Word) : clamp 256 65535 w.toNat = max 256 w.toNat := by
  have := w.isLt
  unfold clamp; omega

theorem setStatusTimingBody_done : setStatusTimingBody r s =
    .done { s with timing := ⟨max 2 (min 64 (blockWord r 0).toNat), max 256 (blockWord r 1).toNat⟩ }
      [(0, BitVec.ofNat 16 (max 2 (min 64 (blockWord r 0).toNat))), (1, BitVec.ofNat 16 (max 256 (blockWord r 1).toNat))] := by
  unfold setStatusTimingBody
  rw [clamp_spacing, clamp_refresh]
  rfl

/-! ### READ_BUFFER_STATE (R95) -/

/-- The map states of a port, C3 to C0 in bits 3 to 0 (R95). -/
theorem mapWord_eq (v : Vector Bool 4) : mapWord v = (0 : BitVec 12) ++ BitVec.ofBool v[(3 : Class)] ++ BitVec.ofBool v[(2 : Class)] ++
    BitVec.ofBool v[(1 : Class)] ++ BitVec.ofBool v[(0 : Class)] := by
  show BitVec.setWidth 16 (BitVec.ofBool v[3] ++ BitVec.ofBool v[2] ++ BitVec.ofBool v[1] ++ BitVec.ofBool v[0]) =
    (0 : BitVec 12) ++ BitVec.ofBool v[3] ++ BitVec.ofBool v[2] ++ BitVec.ofBool v[1] ++ BitVec.ofBool v[0]
  generalize v[3] = c3, v[2] = c2, v[1] = c1, v[0] = c0
  revert c3 c2 c1 c0
  decide

theorem readBufferStateBody_refused (h : 24 ≤ (lo8 (blockWord r 0)).toNat) : readBufferStateBody r s = .refuse .range := by
  unfold readBufferStateBody
  rw [linkOf_none h]

/-- What READ_BUFFER_STATE returns for port p (R95). -/
def bufferStateOutputs (s : State) (p : Link) : List (Nat × Word) :=
  [(1, natWord s.bm.free.length), (2, natWord s.poolSize), (3, natWord s.bm.shared), (4, natWord s.sharedFree),
   (5, natWord s.queuedTotal), (6, natWord (s.queue p 0).length), (7, natWord (s.queue p 1).length),
   (8, natWord (s.queue p 2).length), (9, natWord (s.queue p 3).length), (10, mapWord s.cmap.held[p])]

theorem readBufferStateBody_done {p : Link} (h : p.val = (lo8 (blockWord r 0)).toNat) :
    readBufferStateBody r s = .done s (bufferStateOutputs s p) := by
  unfold readBufferStateBody
  rw [linkOf_val h]
  rfl

end bodies

end Sys2Proof.Machine

namespace Sys2Proof.Claims

open Sys2Proof.Machine

/-- Settles O41: the ranges first, then S' against U', which the model compares as 12,288 against RT' + U'. -/
theorem setAdmissionKeepsTheSharedPoolCovered : Obligations.SetAdmissionKeepsTheSharedPoolCovered := by
  intro s r h R M alpha
  refine ⟨fun hbad => h.refusedWith rfl (exec_setAdmission s) rfl (setAdmissionBody_outOfRange hbad), fun c hc hR hM1 hM2 => ?_⟩
  intro params RT U
  refine ⟨fun hconflict => ?_, fun hcovered => ?_⟩
  · have hU : 12288 < RT + U := by omega
    exact h.refusedWith rfl (exec_setAdmission s) rfl (setAdmissionBody_conflict hc hR ⟨hM1, hM2⟩ hU)
  · have hU : RT + U ≤ 12288 := by omega
    exact h.completesWith rfl (exec_setAdmission s) (setAdmissionBody_done hc hR ⟨hM1, hM2⟩ hU) rfl

/-- Settles O43: the clamped values stored and returned; the accounting and one port's queues read. -/
theorem statusTimingAndBufferState : Obligations.StatusTimingAndBufferState := by
  refine fun s r => ⟨fun h => ?_, fun h => ⟨fun hbad => ?_, fun p hp => ?_⟩⟩
  · exact h.completesWith rfl (exec_setStatusTiming s) setStatusTimingBody_done rfl
  · exact h.refusedWith rfl (exec_readBufferState s) rfl (readBufferStateBody_refused hbad)
  · rw [← mapWord_eq]
    exact h.completesWith rfl (exec_readBufferState s) (readBufferStateBody_done hp) rfl

end Sys2Proof.Claims
end

section
/-! The copies of one submission in turn, and the one copy of a response (R80 to R85, R157). -/

namespace Sys2Proof.Machine

/-! ### Copies in turn (R83) -/

section copies
variable (s : State) (c : Class)

theorem sharedCopies_cons (p : Link) (v : Verdict) (vs : List (Link × Verdict)) :
    sharedCopies ((p, v) :: vs) = (if v = .shared then 1 else 0) + sharedCopies vs := by
  cases v <;> simp [sharedCopies, Nat.add_comm]

theorem sharedBefore_cons (p : Link) (v : Verdict) (vs : List (Link × Verdict)) (i : Nat) :
    sharedBefore ((p, v) :: vs) (i + 1) = (if v = .shared then 1 else 0) + sharedBefore vs i := sharedCopies_cons p v (vs.take i)

/-- Each copy is decided with the shared use that the copies before it left. -/
theorem State.verdicts_at (ports : List Link) : ∀ (u i : Nat) (p : Link) (v : Verdict), (s.verdicts c u ports)[i]? = some (p, v) →
    v = s.verdict (u + sharedBefore (s.verdicts c u ports) i) p c := by
  induction ports with
  | nil => intro u i p v h; cases h
  | cons q ports ih =>
    intro u i p v h
    rw [State.verdicts] at h ⊢
    cases i with
    | zero => cases h; rfl
    | succ i =>
      rw [List.getElem?_cons_succ] at h
      rw [ih _ i p v h, sharedBefore_cons, ← Nat.add_assoc]
      split_ifs <;> rfl

end copies

/-! ### The copy of a response (R157) -/

section response
variable {s t : State} {r : Request} {code : Code} {words : List Word} {v : Verdict}

/-- An admitted response takes the head of the free list for (arrival port, C0). -/
theorem Responded.placed {b : Nat} {tail : List Nat} (h : Responded s t r code words) (hv : s.verdict s.bm.shared r.port 0 = v)
    (ha : v.admits = true) (hfree : s.bm.free = b :: tail) :
    Placed s t (responseCell s.sru.elementId r.number r.tag code words) 0 [r.port] (sharedCopies [(r.port, v)]) b tail := by
  obtain ⟨m, hstored, hadmitted, -⟩ := h
  rw [hv] at hstored hadmitted
  have hports : admittedPorts [(r.port, v)] = [r.port] := (admittedPorts_one _ v).trans (if_pos ha)
  have hplaced := hstored.2 b tail (by rw [hports]; exact List.cons_ne_nil _ _) hfree
  rwa [hports, ← hadmitted ha] at hplaced

/-- The counts of one refused response: what the Buffer Manager counts, if anything, and RSP_LOST. -/
theorem lossCount_response (ha : v.admits = false) (p o : Link) (i : Fin 18) : lossCount .rspLost [(p, v)] o i =
    (if o = p ∧ v.counter.map Counter.index = some i then 1 else 0) + if o = p ∧ i = Counter.rspLost.index then 1 else 0 := by
  have hlost : ((refusedPorts [(p, v)]).filter fun q => decide (q = o)).length = if o = p then 1 else 0 := by
    have hports : refusedPorts [(p, v)] = [p] := by simp [refusedPorts, ha]
    rw [hports]
    by_cases hp : p = o
    · simp [hp]
    · simp [hp, Ne.symm hp]
  unfold lossCount
  rw [hlost, refusalCount_cons]
  by_cases hi : i = Counter.rspLost.index <;> simp [refusalCount, hi]

/-- A refused response leaves the buffers alone and is counted (R85, R157). -/
theorem Responded.refused (h : Responded s t r code words) (hv : s.verdict s.bm.shared r.port 0 = v) (ha : v.admits = false)
    (htop : NoCounterAtTop s) : CountsRaised s t (lossCount .rspLost [(r.port, v)]) := by
  obtain ⟨m, hstored, -, hrefused⟩ := h
  rw [hv] at hstored hrefused
  have hm : m = s := hstored.1 (.inl ((admittedPorts_one _ v).trans (if_neg (by simp [ha]))))
  rw [hm] at hrefused
  exact (hrefused ha).2 htop

/-- A response refused with PORT_DOWN is counted RSP_LOST alone. -/
theorem Responded.portDown (h : Responded s t r code words) (hv : s.verdict s.bm.shared r.port 0 = .portDown) (htop : NoCounterAtTop s) :
    CountsRaised s t fun o i => if o = r.port ∧ i = Counter.rspLost.index then 1 else 0 :=
  (h.refused hv rfl htop).congr fun o i => by rw [lossCount_response rfl]; simp [Verdict.counter]

/-- A response refused by a queue's maximum or the shared pool is counted there and RSP_LOST. -/
theorem Responded.full {k : Counter} (h : Responded s t r code words) (hv : s.verdict s.bm.shared r.port 0 = v) (hk : v.counter = some k)
    (htop : NoCounterAtTop s) :
    CountsRaised s t fun o i => if o = r.port ∧ (i = k.index ∨ i = Counter.rspLost.index) then 1 else 0 := by
  have hrefused : v.admits = false := by
    rw [← Bool.not_eq_true]
    intro ha
    rw [Verdict.counter_admitted ha] at hk
    cases hk
  have hne : k.index ≠ Counter.rspLost.index := by
    rcases Counter.index_loss k v hk with rfl | rfl <;> decide
  refine (h.refused hv hrefused htop).congr fun o i => ?_
  rw [lossCount_response hrefused, hk]
  simp only [Option.map_some, Option.some.injEq, eq_comm (a := k.index)]
  by_cases hi : i = k.index
  · simp [hi, hne]
  · simp [hi]

end response

/-- IDENTIFY without QUIET leaves the state as taken and is answered OK (R159, R155). -/
theorem Accepted.identify {s : State} {r : Request} (h : Accepted s r 1 0) (hquiet : r.quiet = false) : ∃ words t,
    exec .identify s = .next t ∧ Responded (taken s) t r .ok words := by
  have hanswer := h.serve_done rfl (· == 1) rfl identifyBody (taken s) _ rfl
  unfold Answered at hanswer
  rw [if_neg (by simp [hquiet])] at hanswer
  exact ⟨_, _, rfl, hanswer⟩

end Sys2Proof.Machine

namespace Sys2Proof.Claims

open Sys2Proof.Machine

/-- Settles O60: each copy by the outcome of R80 at the shared use before it; the response's one copy by its five outcomes. -/
theorem admissionOfEachCopy : Obligations.AdmissionOfEachCopy := by
  refine ⟨fun s c ports _ => ⟨s.verdicts_ports c ports _, fun i p v hi => ?_⟩, ?_⟩
  · rw [s.verdicts_at c ports _ i p v hi]
    exact s.verdict_outcome _ p c
  · intro s r b tail h hquiet hfree htop p Q R M SF T
    obtain ⟨words, t, hexec, hr⟩ := h.identify hquiet
    have hnumber : r.number = 1 := BitVec.eq_of_toNat_eq h.number
    have outcome {v : Verdict} (hv : CopyOutcome (s.isUp p) Q R M SF s.bm.params[(0 : Sys2Proof.Class)].alpha v) :
        (taken s).verdict (taken s).bm.shared r.port 0 = v := State.verdict_eq hv
    have isUp (hup : s.links[p].state = .up) : s.isUp p = true := decide_eq_true hup
    rw [← hnumber]
    refine ⟨words, t, hexec, fun hdown => ?_, fun hup below => ?_, fun hup above full => ?_, fun hup above room some under => ?_,
      fun hup above room beyond => ?_⟩
    · exact hr.portDown (outcome (.portDown (decide_eq_false hdown))) htop
    · exact hr.placed (outcome (.reserved (isUp hup) below)) rfl hfree
    · exact hr.full (outcome (.queueMax (isUp hup) above full)) rfl htop
    · exact hr.placed (outcome (.shared (isUp hup) above room some under)) rfl hfree
    · exact hr.full (outcome (.sharedLimit (isUp hup) above room beyond)) rfl htop

end Sys2Proof.Claims
end

section
/-! The accounting of the Buffer Manager (R73 to R77), and the room that it leaves for admitted copies (R80, R84). -/

namespace Sys2Proof.Machine

/-- What holds of buffers, queues and pool, whatever the states of the links (R73 to R77). -/
structure Accounts (s : State) : Prop where
  form     : tableWf ⟨zeroCell, 0⟩ s.bm.buffers = true ∧ tableBelow Config.bufferCount s.bm.buffers = true
  free     : s.bm.free.Nodup
  listed   : ∀ b, b ∈ s.bm.free ↔ b < Config.bufferCount ∧ (s.buffer b).refs = 0
  unused   : ∀ b, (s.buffer b).refs = 0 → s.buffer b = ⟨zeroCell, 0⟩
  refs     : ∀ b, (s.buffer b).refs = (namingQueues s b).length
  distinct : ∀ p c, (s.queue p c).Nodup
  oneClass : ∀ b p q c k, b ∈ s.queue p c → b ∈ s.queue q k → c = k
  pool     : s.bm.pool + s.queuedTotal = Config.bufferCount
  shared   : s.bm.shared = sharedUse s s.bm.params
  fits     : totalReservation s.bm.params + s.bm.shared ≤ Config.bufferCount
  params   : ∀ c : Class, paramsWf s.bm.params[c] = true

/-- The accounting holds, and the queues of ports that are not UP are empty but for those of the listed ports: so it stands while a link
leaves UP and its queues are not flushed yet (R25, R89). -/
structure AccountsBut (ports : List Link) (s : State) : Prop where
  accounts : Accounts s
  down     : ∀ p c, p ∉ ports → s.isUp p = false → s.queue p c = []

theorem buffersWf_iff {s : State} : BuffersWf s ↔ AccountsBut [] s :=
  ⟨fun h => ⟨⟨h.form, h.free, h.listed, h.unused, h.refs, h.distinct, h.oneClass, h.pool, h.shared, h.fits, h.params⟩,
    fun p c _ => h.down p c⟩,
   fun ⟨h, hdown⟩ => ⟨h.form, h.free, h.listed, h.unused, h.refs, h.distinct, h.oneClass, h.pool, h.shared, h.fits, h.params,
    fun p c => hdown p c List.not_mem_nil⟩⟩

/-- The accounting speaks of the Buffer Manager alone. -/
theorem Accounts.congr {s t : State} (h : Accounts s) (hbm : t.bm = s.bm) : Accounts t := by
  have ht : t = { t with bm := s.bm } := by rw [← hbm]
  rw [ht]
  exact ⟨h.form, h.free, h.listed, h.unused, h.refs, h.distinct, h.oneClass, h.pool, h.shared, h.fits, h.params⟩

/-! ### Sums over queues -/

/-- A sum over the 96 queues of terms that stand only at the queues of class c of the ports of a list. -/
theorem sum_queueNames_ports (c : Class) (w : Link → Nat) {ps : List Link} (hn : ps.Nodup) :
    (queueNames.map fun n => if n.2 = c ∧ n.1 ∈ ps then w n.1 else 0).sum = (ps.map w).sum := by
  induction ps with
  | nil => simp
  | cons p ps ih =>
    obtain ⟨hp, hn⟩ := List.nodup_cons.mp hn
    have hsum := sum_queueNames_change (f := fun n => if n.2 = c ∧ n.1 ∈ ps then w n.1 else 0)
      (g := fun n => if n.2 = c ∧ n.1 ∈ p :: ps then w n.1 else 0) p c fun y hy => by
        have hne : ¬ (y.2 = c ∧ y.1 = p) := fun e => hy (Prod.ext e.2 e.1)
        simp only [List.mem_cons, and_or_left, hne, false_or]
    simp only [hp, and_false, if_false, List.mem_cons, true_or, and_self, if_true, ih hn] at hsum
    simp only [List.map_cons, List.sum_cons, List.mem_cons]
    omega

/-- A sum over the 96 queues whose terms rise at the queues of class c of the ports of a list alone. -/
theorem sum_queueNames_raised {f g : Link × Class → Nat} (c : Class) (w : Link → Nat) {ps : List Link} (hn : ps.Nodup)
    (h : ∀ n, g n = f n + if n.2 = c ∧ n.1 ∈ ps then w n.1 else 0) :
    (queueNames.map g).sum = (queueNames.map f).sum + (ps.map w).sum := by
  rw [← sum_queueNames_ports c w hn, ← List.sum_map_add]
  exact congrArg (fun f => (queueNames.map f).sum) (funext h)

/-- RT is the sum of the reservations of the 96 queues (R76). -/
theorem sum_reservations (params : Vector ClassParams 4) :
    (queueNames.map fun n => params[n.2].reservation).sum = totalReservation params := by
  have hport (p : Link) : (((List.finRange 4).map fun c => (p, c)).map fun n => params[n.2].reservation).sum =
      params[0].reservation + params[1].reservation + params[2].reservation + params[3].reservation := by
    rw [List.map_map, ← Fin.sum_univ_def, Fin.sum_univ_four]
    rfl
  unfold queueNames totalReservation
  rw [List.flatMap_def, List.map_flatten, List.sum_flatten, List.map_map, List.map_map]
  simp only [Function.comp_def, hport, List.map_const', List.sum_replicate, List.length_finRange, smul_eq_mul]

/-! ### The room for admitted copies -/

/-- 1 for a copy whose queue is at or above its reservation, so that it is admitted to the shared pool alone (R80). -/
def sharedCopy (s : State) (c : Class) (p : Link) : Nat := if s.bm.params[c].reservation ≤ (s.queue p c).length then 1 else 0

theorem sharedCopy_above {s : State} {c : Class} {p : Link} (h : s.bm.params[c].reservation ≤ (s.queue p c).length) :
    sharedCopy s c p = 1 := if_pos h

theorem sharedCopy_below {s : State} {c : Class} {p : Link} (h : (s.queue p c).length < s.bm.params[c].reservation) :
    sharedCopy s c p = 0 := if_neg (Nat.not_le.mpr h)

/-- Entries and further copies lie within the reservations, the shared use and the copies admitted to the shared pool. -/
theorem State.queuedTotal_add_le (s : State) (c : Class) {ps : List Link} (hn : ps.Nodup) :
    s.queuedTotal + ps.length ≤ totalReservation s.bm.params + (sharedUse s s.bm.params + (ps.map (sharedCopy s c)).sum) := by
  have hlength : s.queuedTotal + ps.length =
      (queueNames.map fun n => (s.queue n.1 n.2).length + if n.2 = c ∧ n.1 ∈ ps then 1 else 0).sum := by
    rw [sum_queueNames_raised c (fun _ => 1) hn fun _ => rfl, List.map_const', List.sum_replicate, smul_eq_mul, Nat.mul_one]
    rfl
  rw [hlength, ← sum_reservations, sharedUse, ← sum_queueNames_raised c (sharedCopy s c) hn fun _ => rfl, ← List.sum_map_add]
  refine List.sum_le_sum fun n _ => ?_
  by_cases hc : n.2 = c ∧ n.1 ∈ ps
  · obtain ⟨rfl, -⟩ := id hc
    rw [if_pos hc, if_pos hc]
    unfold sharedCopy
    split_ifs <;> omega
  · rw [if_neg hc, if_neg hc]
    omega

section verdicts
variable (s : State) (c : Class)

theorem admittedPorts_cons (p : Link) (v : Verdict) (vs : List (Link × Verdict)) :
    admittedPorts ((p, v) :: vs) = if v.admits = true then p :: admittedPorts vs else admittedPorts vs := by
  cases v <;> rfl

/-- The copies admitted to the shared pool are those admitted at or above their reservation (R80). -/
theorem State.sharedCopies_eq (ports : List Link) : ∀ u, sharedCopies (s.verdicts c u ports) =
    ((admittedPorts (s.verdicts c u ports)).map (sharedCopy s c)).sum := by
  induction ports with
  | nil => intro u; rfl
  | cons p ports ih =>
    intro u
    have houtcome := s.verdict_outcome u p c
    rw [State.verdicts, sharedCopies_cons, admittedPorts_cons, ih]
    generalize s.verdict u p c = v at houtcome ⊢
    cases houtcome with
    | reserved _ below => simp [Verdict.admits, sharedCopy_below below]
    | shared _ above => simp [Verdict.admits, sharedCopy_above above]
    | portDown => simp [Verdict.admits]
    | queueMax => simp [Verdict.admits]
    | sharedLimit => simp [Verdict.admits]

/-- Copies are admitted to the shared pool while the shared use is below S (R80, R83). -/
theorem State.sharedCopies_fit (ports : List Link) : ∀ u, u ≤ s.poolSize → u + sharedCopies (s.verdicts c u ports) ≤ s.poolSize := by
  induction ports with
  | nil => intro u h; exact h
  | cons p ports ih =>
    intro u h
    have houtcome := s.verdict_outcome u p c
    rw [State.verdicts, sharedCopies_cons, ← Nat.add_assoc]
    generalize s.verdict u p c = v at houtcome ⊢
    cases houtcome with
    | shared _ _ _ some _ => exact ih (u + 1) (by omega)
    | portDown => exact ih u h
    | reserved => exact ih u h
    | queueMax => exact ih u h
    | sharedLimit => exact ih u h

variable {s c}

theorem Accounts.shared_le (h : Accounts s) (ports : List Link) :
    totalReservation s.bm.params + (s.bm.shared + sharedCopies (s.verdicts c s.bm.shared ports)) ≤ Config.bufferCount := by
  have hfits := h.fits
  have hcopies := s.sharedCopies_fit c ports s.bm.shared (by unfold State.poolSize; omega)
  unfold State.poolSize at hcopies
  omega

/-- The entries and the admitted copies together are no more than the buffers (R76, R80). -/
theorem Accounts.room (h : Accounts s) {ports : List Link} (hn : ports.Nodup) :
    s.queuedTotal + (admittedPorts (s.verdicts c s.bm.shared ports)).length ≤ Config.bufferCount := by
  have hle := s.queuedTotal_add_le c (admittedPorts_nodup (vs := s.verdicts c s.bm.shared ports) (by rwa [State.verdicts_ports]))
  rw [← State.sharedCopies_eq, ← h.shared] at hle
  exact hle.trans (h.shared_le ports)

/-- With a copy admitted there are fewer entries than buffers. -/
theorem Accounts.room_of_mem (h : Accounts s) {ports : List Link} {p : Link}
    (hp : p ∈ admittedPorts (s.verdicts c s.bm.shared ports)) : s.queuedTotal < Config.bufferCount := by
  have hle := s.queuedTotal_add_le c (List.nodup_singleton p)
  have hcopy : sharedCopy s c p ≤ sharedCopies (s.verdicts c s.bm.shared ports) := by
    rw [State.sharedCopies_eq]
    exact List.le_sum_of_mem (List.mem_map_of_mem hp)
  have hshared := h.shared_le (c := c) ports
  rw [← h.shared, List.map_singleton, List.sum_singleton, List.length_singleton] at hle
  omega

end verdicts

/-! ### Buffers in use -/

section buffers
variable {s : State} {b : Nat}

theorem mem_namingQueues {p : Link} {c : Class} : (p, c) ∈ namingQueues s b ↔ b ∈ s.queue p c := by
  unfold namingQueues
  simp [mem_queueNames]

/-- A buffer of reference count 0 is one that no entry names. -/
theorem Accounts.refs_eq_zero (h : Accounts s) : (s.buffer b).refs = 0 ↔ ∀ p c, b ∉ s.queue p c := by
  rw [h.refs, List.length_eq_zero_iff, List.eq_nil_iff_forall_not_mem, Prod.forall]
  simp only [mem_namingQueues]

/-- An index whose entry differs from an unlisted one lies below the size of the table. -/
theorem lt_of_tableGet_ne {α : Type} {d : α} {size k : Nat} {t : List (Nat × α)} (hb : tableBelow size t = true)
    (h : tableGet d t k ≠ d) : k < size := by
  induction t with
  | nil => exact absurd rfl h
  | cons e t ih =>
    obtain ⟨j, v⟩ := e
    obtain ⟨hj, ht⟩ : j < size ∧ tableBelow size t = true := by simpa [tableBelow] using hb
    rw [tableGet] at h
    split_ifs at h with hk
    · exact hk ▸ hj
    · exact ih ht h

theorem Accounts.lt_count (h : Accounts s) (hb : (s.buffer b).refs ≠ 0) : b < Config.bufferCount :=
  lt_of_tableGet_ne h.form.2 fun e : s.buffer b = ⟨zeroCell, 0⟩ => hb (by rw [e])

/-- With fewer entries than buffers the free list holds a buffer: else each of the buffers would have an entry of its own (R84). -/
theorem Accounts.free_ne_nil (h : Accounts s) (hroom : s.queuedTotal < Config.bufferCount) : s.bm.free ≠ [] := by
  intro hfree
  have hnamed : List.range Config.bufferCount ⊆ queueNames.flatMap fun n => s.queue n.1 n.2 := by
    intro b hb
    have hrefs : (s.buffer b).refs ≠ 0 := fun hzero => by
      have hmem := (h.listed b).mpr ⟨List.mem_range.mp hb, hzero⟩
      rw [hfree] at hmem
      cases hmem
    obtain ⟨p, c, hq⟩ : ∃ p c, b ∈ s.queue p c := by
      by_contra hnone
      push Not at hnone
      exact hrefs (h.refs_eq_zero.mpr hnone)
    exact List.mem_flatMap.mpr ⟨(p, c), mem_queueNames p c, hq⟩
  have hlength := (List.nodup_range.subperm hnamed).length_le
  rw [List.length_range, List.length_flatMap] at hlength
  exact absurd hlength (Nat.not_le.mpr hroom)

end buffers

end Sys2Proof.Machine

namespace Sys2Proof.Claims

open Sys2Proof.Machine

/-- Settles O23: with a copy admitted there are fewer than 12,288 entries, so that a buffer is free. -/
theorem admissionFindsAFreeBuffer : Obligations.AdmissionFindsAFreeBuffer := by
  intro s c ports h hne
  obtain ⟨p, hp⟩ := List.exists_mem_of_ne_nil _ hne
  have haccounts := (buffersWf_iff.mp h).accounts
  exact haccounts.free_ne_nil (haccounts.room_of_mem hp)

end Sys2Proof.Claims
end

section
/-! Storage and removal keep the accounting (R84, R87). -/

namespace Sys2Proof.Machine

/-- A write below the number of buffers keeps the form of the list of buffers. -/
theorem tableSet_form {t : List (Nat × Buffer)} {b : Nat} (x : Buffer) (hb : b < Config.bufferCount)
    (h : tableWf ⟨zeroCell, 0⟩ t = true ∧ tableBelow Config.bufferCount t = true) :
    tableWf ⟨zeroCell, 0⟩ (tableSet ⟨zeroCell, 0⟩ t b x) = true ∧
      tableBelow Config.bufferCount (tableSet ⟨zeroCell, 0⟩ t b x) = true :=
  ⟨tableSet_wf _ _ _ _ h.1, tableSet_below _ _ _ _ _ h.2 hb⟩

/-! ### Storage (R84) -/

theorem foldl_place_buffers (b : Nat) (c : Class) (ps : List Link) : ∀ s : State,
    (ps.foldl (fun s p => s.place b c p) s).bm.buffers = s.bm.buffers := by
  induction ps with
  | nil => intro s; rfl
  | cons p ps ih => intro s; exact ih (s.place b c p)

/-- Storage writes the buffer at the head of the free list, or none. -/
theorem State.store_buffers (s : State) (cell : Cell) (c : Class) (vs : List (Link × Verdict)) :
    (s.store cell c vs).bm.buffers = s.bm.buffers ∨
      ∃ b x, b ∈ s.bm.free ∧ (s.store cell c vs).bm.buffers = tableSet ⟨zeroCell, 0⟩ s.bm.buffers b x := by
  unfold State.store
  split
  · exact .inl rfl
  · exact .inl rfl
  next b rest _ hfree => exact .inr ⟨b, _, by rw [hfree]; exact List.mem_cons_self, foldl_place_buffers b c _ _⟩

section placed
variable {s t : State} {cell : Cell} {c : Class} {ps : List Link} {raise b : Nat} {rest : List Nat}

theorem Placed.queuedTotal (h : Placed s t cell c ps raise b rest) (hn : ps.Nodup) : t.queuedTotal = s.queuedTotal + ps.length := by
  have hsum := sum_queueNames_raised (f := fun n => (s.queue n.1 n.2).length) (g := fun n => (t.queue n.1 n.2).length) c
    (fun _ => 1) hn fun n => by rw [h.queues]; split_ifs <;> simp
  rwa [List.map_const', List.sum_replicate, smul_eq_mul, Nat.mul_one] at hsum

theorem Placed.sharedUse (h : Placed s t cell c ps raise b rest) (hn : ps.Nodup) :
    sharedUse t t.bm.params = Machine.sharedUse s s.bm.params + (ps.map (sharedCopy s c)).sum := by
  rw [h.params]
  refine sum_queueNames_raised c (sharedCopy s c) hn fun n => ?_
  rw [h.queues]
  split_ifs with hc
  · obtain ⟨rfl, -⟩ := hc
    rw [List.length_append, List.length_singleton]
    unfold sharedCopy
    split_ifs <;> omega
  · rfl

/-- The new entries name buffer b, which no entry named before. -/
theorem Placed.namingQueues (h : Placed s t cell c ps raise b rest) (hn : ps.Nodup) (hb : ∀ p k, b ∉ s.queue p k) (n : Nat) :
    (namingQueues t n).length = if n = b then ps.length else (Machine.namingQueues s n).length := by
  unfold Machine.namingQueues
  rw [length_filter_eq_sum, length_filter_eq_sum]
  by_cases hnb : n = b
  · subst hnb
    rw [if_pos rfl, ← Nat.mul_one ps.length, ← smul_eq_mul, ← List.sum_replicate, ← List.map_const',
      ← sum_queueNames_ports c (fun _ => 1) hn]
    refine congrArg (fun f => (queueNames.map f).sum) (funext fun y => ?_)
    rw [h.queues]
    split_ifs <;> simp [hb]
  · rw [if_neg hnb]
    refine congrArg (fun f => (queueNames.map f).sum) (funext fun y => ?_)
    rw [h.queues]
    split_ifs <;> simp [hnb]

/-- What is in a queue was there or is the buffer placed. -/
theorem Placed.mem_queue (h : Placed s t cell c ps raise b rest) {n : Nat} {p : Link} {k : Class} (hn : n ∈ t.queue p k) :
    n ∈ s.queue p k ∨ n = b ∧ k = c := by
  rw [h.queues] at hn
  split_ifs at hn with hc
  · rcases List.mem_append.mp hn with hn | hn
    · exact .inl hn
    · exact .inr ⟨List.mem_singleton.mp hn, hc.1⟩
  · exact .inl hn

/-- Storage at the head of the free list keeps the accounting. -/
theorem Accounts.placed (h : Accounts s) (hp : Placed s t cell c ps raise b rest) (hfree : s.bm.free = b :: rest) (hn : ps.Nodup)
    (hne : ps ≠ [])
    (hform : tableWf ⟨zeroCell, 0⟩ t.bm.buffers = true ∧ tableBelow Config.bufferCount t.bm.buffers = true)
    (hraise : raise = (ps.map (sharedCopy s c)).sum) (hroom : s.queuedTotal + ps.length ≤ Config.bufferCount)
    (hfits : totalReservation s.bm.params + (s.bm.shared + raise) ≤ Config.bufferCount) : Accounts t := by
  have hfresh := h.free
  have hlisted := h.listed b
  rw [hfree] at hfresh hlisted
  obtain ⟨hbrest, hrest⟩ := List.nodup_cons.mp hfresh
  obtain ⟨-, hzero⟩ := hlisted.mp List.mem_cons_self
  have hunnamed := h.refs_eq_zero.mp hzero
  have hused : (t.buffer b).refs ≠ 0 := by
    rw [hp.buffers, if_pos rfl]
    exact fun e => hne (List.length_eq_zero_iff.mp e)
  exact {
    form := hform
    free := by rw [hp.free]; exact hrest
    listed := fun n => by
      by_cases hnb : n = b
      · rw [hnb, hp.free]
        exact iff_of_false hbrest fun e => hused e.2
      · have hold := h.listed n
        rw [hfree, List.mem_cons, or_iff_right hnb] at hold
        rw [hp.free, hp.buffers, if_neg hnb]
        exact hold
    unused := fun n hzero => by
      by_cases hnb : n = b
      · exact absurd (hnb ▸ hzero) hused
      · rw [hp.buffers, if_neg hnb] at hzero ⊢
        exact h.unused n hzero
    refs := fun n => by
      rw [hp.namingQueues hn hunnamed, hp.buffers]
      split_ifs
      · rfl
      · exact h.refs n
    distinct := fun p k => by
      rw [hp.queues]
      split_ifs
      · exact List.nodup_append.mpr ⟨h.distinct p k, List.nodup_singleton b, fun x hx y hy e =>
          hunnamed p k (List.mem_singleton.mp hy ▸ e ▸ hx)⟩
      · exact h.distinct p k
    oneClass := fun n p q k l hk hl => by
      rcases hp.mem_queue hk with hk | ⟨rfl, rfl⟩
      · rcases hp.mem_queue hl with hl | ⟨rfl, rfl⟩
        · exact h.oneClass n p q k l hk hl
        · exact absurd hk (hunnamed p k)
      · rcases hp.mem_queue hl with hl | ⟨-, rfl⟩
        · exact absurd hl (hunnamed q l)
        · rfl
    pool := by
      have hpool := h.pool
      rw [hp.pool, hp.queuedTotal hn]
      omega
    shared := by rw [hp.shared, hp.sharedUse hn, h.shared, hraise]
    fits := by rw [hp.params, hp.shared]; exact hfits
    params := by rw [hp.params]; exact h.params }

end placed

/-- The storage part of a submission keeps the accounting (R84). -/
theorem Accounts.store {s : State} (h : Accounts s) (cell : Cell) (c : Class) {ports : List Link} (hn : ports.Nodup) :
    Accounts (s.store cell c (s.verdicts c s.bm.shared ports)) := by
  have hstored := s.submit_stored cell ports c hn
  by_cases h0 : admittedPorts (s.verdicts c s.bm.shared ports) = [] ∨ s.bm.free = []
  · rw [hstored.1 h0]
    exact h
  · obtain ⟨hadmitted, hsome⟩ := not_or.mp h0
    obtain ⟨b, rest, hfree⟩ := List.exists_cons_of_ne_nil hsome
    refine h.placed (hstored.2 b rest hadmitted hfree) hfree
      (admittedPorts_nodup (by rwa [State.verdicts_ports])) hadmitted ?_ (s.sharedCopies_eq c ports _) (h.room hn) (h.shared_le ports)
    rcases s.store_buffers cell c (s.verdicts c s.bm.shared ports) with hb | ⟨b, x, hb, hset⟩
    · rw [hb]
      exact h.form
    · rw [hset]
      exact tableSet_form x ((h.listed b).mp hb).1 h.form

/-! ### Removal (R87) -/

/-- Removal writes the buffer that the head entry names. -/
theorem State.removeHead_buffers {s : State} {p : Link} {c : Class} {b : Nat} {rest : List Nat} (h : s.queue p c = b :: rest) :
    ∃ x, (s.removeHead p c).bm.buffers = tableSet ⟨zeroCell, 0⟩ s.bm.buffers b x := by
  have hdrop (m : State) : ∃ x, (m.dropRef b).bm.buffers = tableSet ⟨zeroCell, 0⟩ m.bm.buffers b x := by
    rcases Nat.lt_or_ge 1 (m.buffer b).refs with hr | hr
    · rw [m.dropRef_more b hr]; exact ⟨_, rfl⟩
    · rw [m.dropRef_last b hr]; exact ⟨_, rfl⟩
  unfold State.removeHead
  rw [h]
  exact hdrop _

section removal
variable {s t : State} {p : Link} {c : Class} {b : Nat} {rest : List Nat}

theorem Dequeued.mem_queue (h : Dequeued s t p c b rest) (hq : s.queue p c = b :: rest) {n : Nat} {q : Link} {k : Class}
    (hn : n ∈ t.queue q k) : n ∈ s.queue q k := by
  rw [h.queues] at hn
  split_ifs at hn with hqk
  · obtain ⟨rfl, rfl⟩ := hqk
    rw [hq]
    exact List.mem_cons_of_mem _ hn
  · exact hn

/-- The buffer whose last entry is removed joins the free list at its tail (R73). -/
theorem Dequeued.free_eq (h : Dequeued s t p c b rest) :
    t.bm.free = if (s.buffer b).refs ≤ 1 then s.bm.free ++ [b] else s.bm.free := by
  split_ifs with hlast
  · exact (h.freed hlast).1
  · exact (h.lowered (Nat.not_le.mp hlast)).1

theorem Dequeued.refs_here (h : Dequeued s t p c b rest) (hform : tableWf ⟨zeroCell, 0⟩ s.bm.buffers = true) :
    (t.buffer b).refs = (s.buffer b).refs - 1 := by
  rcases Nat.lt_or_ge 1 (s.buffer b).refs with hmore | hlast
  · rw [(h.lowered hmore).2]
  · rw [(h.freed hlast).2 hform]
    exact (Nat.sub_eq_zero_of_le hlast).symm

/-- The removal of a head entry keeps the accounting. -/
theorem Accounts.dequeued (h : Accounts s) (hd : Dequeued s t p c b rest) (hq : s.queue p c = b :: rest)
    (hform : tableWf ⟨zeroCell, 0⟩ t.bm.buffers = true ∧ tableBelow Config.bufferCount t.bm.buffers = true) : Accounts t := by
  have hnodup := h.distinct p c
  rw [hq] at hnodup
  obtain ⟨hb, hrest⟩ := List.nodup_cons.mp hnodup
  have hused : (s.buffer b).refs ≠ 0 := fun hzero => h.refs_eq_zero.mp hzero p c (by rw [hq]; exact List.mem_cons_self)
  have hbusy : b ∉ s.bm.free := fun hmem => hused ((h.listed b).mp hmem).2
  exact {
    form := hform
    free := by
      rw [hd.free_eq]
      split_ifs
      · exact List.nodup_append.mpr ⟨h.free, List.nodup_singleton b, fun x hx y hy e => hbusy (List.mem_singleton.mp hy ▸ e ▸ hx)⟩
      · exact h.free
    listed := fun n => by
      rw [hd.free_eq]
      by_cases hnb : n = b
      · subst hnb
        rw [hd.refs_here h.form.1]
        split_ifs with hlast
        · exact iff_of_true (List.mem_append_right _ List.mem_cons_self) ⟨h.lt_count hused, by omega⟩
        · exact iff_of_false hbusy fun e => by omega
      · rw [hd.others n hnb, ← h.listed n]
        split_ifs
        · rw [List.mem_append, List.mem_singleton, or_iff_left hnb]
        · rfl
    unused := fun n hzero => by
      by_cases hnb : n = b
      · subst hnb
        rw [hd.refs_here h.form.1] at hzero
        exact (hd.freed (by omega)).2 h.form.1
      · rw [hd.others n hnb] at hzero ⊢
        exact h.unused n hzero
    refs := hd.refs hq hb h.form.1 h.refs
    distinct := fun q k => by
      rw [hd.queues]
      split_ifs
      · exact hrest
      · exact h.distinct q k
    oneClass := fun n q r k l hk hl => h.oneClass n q r k l (hd.mem_queue hq hk) (hd.mem_queue hq hl)
    pool := by
      have htotal := hd.queuedTotal hq
      have hpool := h.pool
      rw [hd.pool]
      omega
    shared := hd.sharedUse hq h.shared
    fits := by
      have hfits := h.fits
      rw [hd.params, hd.shared]
      split_ifs <;> omega
    params := by rw [hd.params]; exact h.params }

end removal

theorem State.removeHead_empty {s : State} {p : Link} {c : Class} (h : s.queue p c = []) : s.removeHead p c = s := by
  unfold State.removeHead
  rw [h]

theorem Accounts.removeHead {s : State} (h : Accounts s) (p : Link) (c : Class) : Accounts (s.removeHead p c) := by
  cases hq : s.queue p c with
  | nil => rw [State.removeHead_empty hq]; exact h
  | cons b rest =>
    refine h.dequeued (s.removeHead_spec p c b rest hq) hq ?_
    obtain ⟨x, hset⟩ := State.removeHead_buffers hq
    rw [hset]
    exact tableSet_form x (h.lt_count fun hzero => h.refs_eq_zero.mp hzero p c (by rw [hq]; exact List.mem_cons_self)) h.form

end Sys2Proof.Machine
end

section
/-! What submissions, counts, notices and flushes keep of the accounting (R78 to R90, R165, R173). -/

namespace Sys2Proof.Machine

/-- From s to t the accounting is kept, whichever ports' queues are not required to be empty. -/
structure KeepsAccounts (s t : State) : Prop where
  kept : ∀ ports, AccountsBut ports s → AccountsBut ports t

section rules
variable {s t u : State}

theorem KeepsAccounts.refl (s : State) : KeepsAccounts s s := ⟨fun _ h => h⟩

theorem KeepsAccounts.trans (h : KeepsAccounts s t) (g : KeepsAccounts t u) : KeepsAccounts s u :=
  ⟨fun ports hs => g.kept ports (h.kept ports hs)⟩

theorem KeepsAccounts.buffersWf (h : KeepsAccounts s t) (hs : BuffersWf s) : BuffersWf t :=
  buffersWf_iff.mpr (h.kept [] (buffersWf_iff.mp hs))

/-- The Buffer Manager stands, and no link that is UP ceases to be. -/
theorem KeepsAccounts.of_isUp (hbm : t.bm = s.bm) (hup : ∀ p, s.isUp p = true → t.isUp p = true) : KeepsAccounts s t := by
  refine ⟨fun ports h => ⟨h.accounts.congr hbm, fun p c hp hdown => ?_⟩⟩
  have hqueue : t.queue p c = s.queue p c := by unfold State.queue; rw [hbm]
  rw [hqueue]
  refine h.down p c hp ?_
  rw [← Bool.not_eq_true] at hdown ⊢
  exact mt (hup p) hdown

/-- The Buffer Manager and the links stand. -/
theorem KeepsAccounts.of_same (hbm : t.bm = s.bm) (hlinks : t.links = s.links) : KeepsAccounts s t :=
  .of_isUp hbm fun p hp => by unfold State.isUp at hp ⊢; rwa [hlinks]

theorem KeepsAccounts.of_counts (h : t = { s with counters := t.counters, notices := t.notices }) : KeepsAccounts s t :=
  .of_same (by rw [h]) (by rw [h])

/-- Queues flushed of a port that is not required to be empty make it one that may be. -/
theorem AccountsBut.flushed {ports : List Link} {p : Link} (h : AccountsBut (p :: ports) s) (hempty : ∀ c, s.queue p c = []) :
    AccountsBut ports s := by
  refine ⟨h.accounts, fun q c hq hdown => ?_⟩
  by_cases hqp : q = p
  · rw [hqp]; exact hempty c
  · exact h.down q c (List.not_mem_cons_of_ne_of_not_mem hqp hq) hdown

end rules

/-! ### Storage and removal -/

section queues
variable (s : State) (p : Link) (c : Class)

theorem State.store_keeps (cell : Cell) {ports : List Link} (hn : ports.Nodup) :
    KeepsAccounts s (s.store cell c (s.verdicts c s.bm.shared ports)) := by
  refine ⟨fun but h => ⟨h.accounts.store cell c hn, fun q k hq hdown => ?_⟩⟩
  have hstored := s.submit_stored cell ports c hn
  have hdown' : s.isUp q = false := by rw [hstored.frame] at hdown; exact hdown
  have hold := h.down q k hq hdown'
  by_cases h0 : admittedPorts (s.verdicts c s.bm.shared ports) = [] ∨ s.bm.free = []
  · rw [hstored.1 h0]
    exact hold
  · obtain ⟨hadmitted, hsome⟩ := not_or.mp h0
    obtain ⟨b, rest, hfree⟩ := List.exists_cons_of_ne_nil hsome
    rw [(hstored.2 b rest hadmitted hfree).queues, if_neg]
    · exact hold
    · rintro ⟨-, hmem⟩
      rw [(s.admitted_up c _ ports q hmem).1] at hdown'
      cases hdown'

theorem State.removeHead_queue (q : Link) (k : Class) :
    (s.removeHead p c).queue q k = if q = p ∧ k = c then (s.queue q k).tail else s.queue q k := by
  cases hq : s.queue p c with
  | nil =>
    rw [State.removeHead_empty hq]
    split_ifs with hqk
    · rw [hqk.1, hqk.2, hq]; rfl
    · rfl
  | cons b rest =>
    rw [(s.removeHead_spec p c b rest hq).queues]
    split_ifs with hqk
    · rw [hqk.1, hqk.2, hq]; rfl
    · rfl

theorem State.removeHead_isUp (q : Link) : (s.removeHead p c).isUp q = s.isUp q := by
  rw [(s.removeHead_traffic p c).frame]
  rfl

theorem State.removeHead_keeps : KeepsAccounts s (s.removeHead p c) := by
  refine ⟨fun ports h => ⟨h.accounts.removeHead p c, fun q k hq hdown => ?_⟩⟩
  rw [State.removeHead_isUp] at hdown
  rw [State.removeHead_queue, h.down q k hq hdown]
  split_ifs <;> rfl

end queues

/-! ### Counts and submissions -/

section counts
variable (s : State)

theorem State.bump_keeps (p : Link) (c : Counter) : KeepsAccounts s (s.bump p c).1 := .of_same rfl rfl

theorem State.setKind_keeps (k : NoticeKind) (n : NoticeState) : KeepsAccounts s (s.setKind k n) := .of_same rfl rfl

theorem State.takeEvent_keeps (k : NoticeKind) (d : Vector Byte 6) : KeepsAccounts s (s.takeEvent k d).1 := by
  unfold State.takeEvent
  simp only
  split_ifs
  · exact s.setKind_keeps k _
  · exact .refl s

theorem State.countHeld_keeps (p : Link) (c : Counter) : KeepsAccounts s (s.countHeld p c).1 := .of_counts (s.countHeld_spec p c).frame

theorem countRefusals_keeps (vs : List (Link × Verdict)) : ∀ s called, KeepsAccounts s (countRefusals vs (s, called)).1 := by
  induction vs with
  | nil => intro s called; exact .refl s
  | cons v vs ih =>
    obtain ⟨p, v⟩ := v
    intro s called
    unfold countRefusals
    split
    · exact ih s called
    · exact (s.countHeld_keeps p _).trans (ih _ _)

theorem countLost_keeps (ps : List Link) : ∀ s : State, KeepsAccounts s (countLost ps s).1 := by
  induction ps with
  | nil => intro s; exact .refl s
  | cons p ps ih => intro s; exact (s.bump_keeps p _).trans (ih _)

theorem countRspLost_keeps (ps : List Link) : ∀ s called, KeepsAccounts s (countRspLost ps (s, called)).1 := by
  induction ps with
  | nil => intro s called; exact .refl s
  | cons p ps ih => intro s called; exact (s.countHeld_keeps p _).trans (ih _ _)

theorem State.submit_keeps (cell : Cell) {ports : List Link} (c : Class) (hn : ports.Nodup) :
    KeepsAccounts s (s.submit cell ports c).s :=
  (s.store_keeps c cell hn).trans (countRefusals_keeps _ _ false)

/-! ### Notices (R172 to R174) -/

theorem State.emit_keeps (k : NoticeKind) : KeepsAccounts s (s.emit k).1 :=
  ((s.submit_keeps _ 0 (portList_nodup _)).trans (countLost_keeps _ _)).trans (State.setKind_keeps ..)

theorem settle_keeps (n : Nat) : ∀ ws s, KeepsAccounts s (settle n ws s) := by
  induction n with
  | zero => intro ws s; exact .refl s
  | succ n ih =>
    intro ws s
    match ws with
    | [] => exact .refl s
    | .take k d :: ws =>
      rw [settle_take]
      split_ifs <;> exact (s.takeEvent_keeps k d).trans (ih _ _)
    | .emit k :: ws =>
      rw [settle_emit]
      split_ifs
      · exact (s.emit_keeps k).trans (ih _ _)
      · exact ih _ _

theorem State.notify_keeps (k : NoticeKind) (d : Vector Byte 6) : KeepsAccounts s (s.notify k d) := settle_keeps _ _ _

theorem State.count_keeps (p : Link) (c : Counter) : KeepsAccounts s (s.count p c) := by
  rw [State.count_cases]
  split_ifs
  · exact (s.bump_keeps p c).trans (State.notify_keeps ..)
  · exact s.bump_keeps p c

theorem State.release_keeps (called : Bool) : KeepsAccounts s (s.release called) := by
  unfold State.release
  split_ifs
  · exact settle_keeps _ _ _
  · exact .refl s

theorem State.submitData_keeps (cell : Cell) {ports : List Link} (c : Class) (hn : ports.Nodup) :
    KeepsAccounts s (s.submitData cell ports c) :=
  (s.submit_keeps cell c hn).trans (State.release_keeps ..)

end counts

/-! ### Events in progress -/

section events
variable (e : Ev) (p : Link)

theorem Ev.count_keeps (c : Counter) : KeepsAccounts e.s (e.count p c).s := by
  unfold Ev.count
  split_ifs
  · exact e.s.countHeld_keeps p c
  · exact e.s.count_keeps p c

theorem Ev.respond_keeps (r : Request) (code : Code) (words : List Word) : KeepsAccounts e.s (e.respond r code words).s := by
  have hlost (ps : List Link) (called : Bool) :=
    (e.s.submit_keeps (responseCell e.s.sru.elementId r.number r.tag code words) 0 (List.nodup_singleton r.port)).trans
      (countRspLost_keeps ps _ called)
  unfold Ev.respond
  simp only
  split_ifs
  · exact hlost _ _
  · exact (hlost _ _).trans (State.release_keeps ..)

theorem Ev.answer_keeps (r : Request) (code : Code) (outputs : List (Nat × Word)) :
    KeepsAccounts e.s (e.answer r code outputs).s := by
  unfold Ev.answer
  split_ifs
  · exact .refl _
  · exact e.respond_keeps r code _

theorem flushEntries_keeps (c : Class) (n : Nat) : ∀ e : Ev, KeepsAccounts e.s (flushEntries p c n e).s := by
  induction n with
  | zero => intro e; exact .refl _
  | succ n ih =>
    intro e
    exact ((e.s.removeHead_keeps p c).trans (Ev.count_keeps { e with s := e.s.removeHead p c } p .linkFlush)).trans (ih _)

theorem Ev.flushPort_keeps : KeepsAccounts e.s (e.flushPort p).s := by
  have hqueue (c : Class) (e : Ev) : KeepsAccounts e.s (e.flushQueue p c).s := flushEntries_keeps p c _ e
  exact (((hqueue 0 e).trans (hqueue 1 _)).trans (hqueue 2 _)).trans (hqueue 3 _)

theorem flushPorts_keeps (ps : List Link) : ∀ e : Ev, KeepsAccounts e.s (flushPorts ps e).s := by
  induction ps with
  | nil => intro e; exact .refl _
  | cons p ps ih => intro e; exact (e.flushPort_keeps p).trans (ih _)

theorem countFlushes_keeps (n : Nat) : ∀ e : Ev, KeepsAccounts e.s (countFlushes p n e).s := by
  induction n with
  | zero => intro e; exact .refl _
  | succ n ih => intro e; exact (e.count_keeps p .linkFlush).trans (ih _)

end events

/-! ### What a flush leaves of the queues -/

/-- The counts of an event place no entry in the queues of port q: notices wait, or the port's link is not UP (R79, R162). -/
def Ev.Still (e : Ev) (q : Link) : Prop := e.hold = true ∨ e.s.isUp q = false

section flush
variable {e : Ev} {p q : Link}

theorem Ev.Still.count (h : e.Still q) (p : Link) (c : Counter) :
    (e.count p c).Still q ∧ ∀ k, (e.count p c).s.queue q k = e.s.queue q k := by
  rcases h with hhold | hdown
  · obtain ⟨hhold', hframe⟩ := Ev.count_held hhold p c
    exact ⟨.inl hhold', fun k => by rw [hframe]; rfl⟩
  · have heffects := e.count_effects p c
    exact ⟨.inr ((heffects.isUp q).trans hdown), fun k => heffects.queue_down q k hdown⟩

/-- One entry flushed. -/
theorem Ev.Still.entry (h : e.Still q) (p : Link) (c : Class) :
    (Ev.count { e with s := e.s.removeHead p c } p .linkFlush).Still q ∧
      ∀ k, (Ev.count { e with s := e.s.removeHead p c } p .linkFlush).s.queue q k =
        if q = p ∧ k = c then (e.s.queue q k).tail else e.s.queue q k := by
  have hremoved : Ev.Still { e with s := e.s.removeHead p c } q := h.imp_right fun hdown => (e.s.removeHead_isUp p c q).trans hdown
  obtain ⟨hstill, hqueues⟩ := hremoved.count p .linkFlush
  exact ⟨hstill, fun k => (hqueues k).trans (e.s.removeHead_queue p c q k)⟩

theorem Ev.Still.entries (p : Link) (c : Class) (n : Nat) : ∀ {e : Ev}, e.Still q → (flushEntries p c n e).Still q ∧
    ∀ k, (flushEntries p c n e).s.queue q k = if q = p ∧ k = c then (e.s.queue q k).drop n else e.s.queue q k := by
  induction n with
  | zero => intro e h; exact ⟨h, fun k => (ite_self _).symm⟩
  | succ n ih =>
    intro e h
    obtain ⟨hfirst, hqueues⟩ := h.entry p c
    obtain ⟨hrest, hqueues'⟩ := ih hfirst
    refine ⟨hrest, fun k => (hqueues' k).trans ?_⟩
    rw [hqueues]
    split_ifs
    · rw [List.drop_tail]
    · rfl

theorem Ev.Still.flushQueue (h : e.Still q) (p : Link) (c : Class) : (e.flushQueue p c).Still q ∧
    ∀ k, (e.flushQueue p c).s.queue q k = if q = p ∧ k = c then [] else e.s.queue q k := by
  obtain ⟨hstill, hqueues⟩ := Ev.Still.entries p c (e.s.queue p c).length h
  refine ⟨hstill, fun k => (hqueues k).trans ?_⟩
  split_ifs with hqk
  · rw [hqk.1, hqk.2]
    exact List.drop_length
  · rfl

/-- The flush of a port empties its queues and leaves those of the others (R89). -/
theorem Ev.Still.flushPort (h : e.Still q) (p : Link) : (e.flushPort p).Still q ∧
    ∀ k, (e.flushPort p).s.queue q k = if q = p then [] else e.s.queue q k := by
  obtain ⟨h0, q0⟩ := h.flushQueue p 0
  obtain ⟨h1, q1⟩ := h0.flushQueue p 1
  obtain ⟨h2, q2⟩ := h1.flushQueue p 2
  obtain ⟨h3, q3⟩ := h2.flushQueue p 3
  refine ⟨h3, fun k => (q3 k).trans ?_⟩
  rw [q2, q1, q0]
  by_cases hqp : q = p
  · fin_cases k <;> simp [hqp]
  · simp [hqp]

theorem Ev.Still.flushPorts (ps : List Link) : ∀ {e : Ev}, e.Still q →
    ∀ k, (flushPorts ps e).s.queue q k = if q ∈ ps then [] else e.s.queue q k := by
  induction ps with
  | nil => intro e h k; rfl
  | cons p ps ih =>
    intro e h k
    obtain ⟨hfirst, hqueues⟩ := h.flushPort p
    refine (ih hfirst k).trans ?_
    rw [hqueues]
    by_cases hqp : q = p
    · simp [hqp]
    · simp [hqp]

end flush

end Sys2Proof.Machine
end

section
/-! Link, forwarding and egress events keep the accounting (R13 to R26, R42 to R67, R98 to R107). -/

namespace Sys2Proof.Machine

/-! ### Links (R15 to R26) -/

section links
variable (s : State) (p : Link)

/-- A change of a link that does not take it out of UP. -/
theorem State.modLink_keeps {f : LinkPort → LinkPort} (hf : s.links[p].state = .up → (f s.links[p]).state = .up) :
    KeepsAccounts s (s.modLink p f) := by
  refine .of_isUp rfl fun q hq => decide_eq_true ?_
  have hup : s.links[q].state = .up := of_decide_eq_true hq
  rw [State.modLink_get]
  split_ifs with hqp
  · subst hqp; exact hf hup
  · exact hup

/-- A change of a link that is not UP. -/
theorem State.modLink_keeps_down {f : LinkPort → LinkPort} (hd : s.links[p].state ≠ .up) : KeepsAccounts s (s.modLink p f) :=
  s.modLink_keeps p fun hup => absurd hup hd

theorem State.modFifo_keeps (f : IngressFifo → IngressFifo) : KeepsAccounts s (s.modFifo p f) := .of_same rfl rfl

theorem State.modSched_keeps (f : Scheduler → Scheduler) : KeepsAccounts s (s.modSched p f) := .of_same rfl rfl

theorem State.modSender_keeps (f : StatusSender → StatusSender) : KeepsAccounts s (s.modSender p f) := .of_same rfl rfl

theorem State.setTx_keeps (c : Option Cell) : KeepsAccounts s (s.setTx p c) := .of_same rfl rfl

theorem State.applyStaging_keeps : KeepsAccounts s (s.applyStaging p) :=
  (s.modSched_keeps p fun x => { x.close with active := x.staging, pending := false }).trans (State.notify_keeps ..)

theorem State.fifoCleared_keeps : KeepsAccounts s (s.fifoCleared p) :=
  (s.modFifo_keeps p _).trans (State.modLink_keeps _ p fun hup => hup)

theorem Ev.emptyFifo_keeps (e : Ev) : KeepsAccounts e.s (e.emptyFifo p).s := by
  rw [Ev.emptyFifo_eq]
  exact (e.s.fifoCleared_keeps p).trans (countFlushes_keeps p _ { e with s := e.s.fifoCleared p })

/-- A link that leaves UP has queues that may hold entries until they are flushed, and no notice joins them meanwhile (R25, R79). -/
theorem State.leaveUp_keeps (reason : DownReason) (disable : Bool) : KeepsAccounts s (s.leaveUp p reason disable) := by
  have hleft (q : Link) : (s.modLink p (portLeavesUp reason disable)).isUp q = if q = p then false else s.isUp q := by
    unfold State.isUp
    rw [State.modLink_get]
    split_ifs
    · cases disable <;> rfl
    · rfl
  let e := Ev.emptyFifo ⟨s.modLink p (portLeavesUp reason disable), false, false⟩ p
  have hkept : KeepsAccounts (s.modLink p (portLeavesUp reason disable)) (e.flushPort p).s :=
    (Ev.emptyFifo_keeps p _).trans (e.flushPort_keeps p)
  have hstill : e.Still p := by
    refine .inr (((Ev.emptyFifo_effects _ p).isUp p).trans ?_)
    show ((s.modLink p (portLeavesUp reason disable)).fifoCleared p).isUp p = false
    unfold State.fifoCleared State.isUp
    rw [State.modLink_get, if_pos rfl]
    exact (hleft p).trans (if_pos rfl)
  have hflushed : KeepsAccounts s (e.flushPort p).s := by
    refine ⟨fun ports h => AccountsBut.flushed (p := p) (hkept.kept (p :: ports) ⟨h.accounts.congr rfl, fun q c hq hdown => ?_⟩) fun c => ?_⟩
    · obtain ⟨hqp, hq⟩ := List.ne_and_not_mem_of_not_mem_cons hq
      rw [hleft, if_neg hqp] at hdown
      exact h.down q c hq hdown
    · exact ((hstill.flushPort p).2 c).trans (if_pos rfl)
  exact (hflushed.trans (State.modSched_keeps _ p Scheduler.close)).trans (State.notify_keeps ..)

theorem State.enterUp_keeps : KeepsAccounts s (s.enterUp p) := by
  unfold State.enterUp
  simp only
  refine KeepsAccounts.trans ?_ (State.notify_keeps ..)
  exact (s.modLink_keeps p fun _ => rfl).trans (State.modSender_keeps ..)

/-! ### Reception (R14 to R17, R21 to R23, R34 to R41) -/

theorem State.runLost_keeps (c : Counter) : KeepsAccounts s (s.runLost p c) :=
  (s.modLink_keeps p (f := fun l => { l with run := 0 }) fun hup => hup).trans (State.count_keeps ..)

theorem State.trainOn_keeps : KeepsAccounts s (s.trainOn p) := by
  unfold State.trainOn
  simp only
  split_ifs
  · exact s.enterUp_keeps p
  · exact s.modLink_keeps p fun hup => hup

theorem State.receiveTraining_keeps (slot : SlotClass) : KeepsAccounts s (s.receiveTraining p slot) := by
  cases slot with
  | noCell => exact .refl s
  | headerError => exact s.runLost_keeps p .hdrErr
  | formatError => exact s.runLost_keeps p .formatErr
  | valid c h t =>
    have hheld : KeepsAccounts s (s.modLink p fun l => { l with partnerHold := h.hold }) := s.modLink_keeps p fun hup => hup
    unfold State.receiveTraining
    simp only
    split_ifs
    · exact hheld.trans (State.trainOn_keeps ..)
    · exact hheld.trans (State.runLost_keeps ..)

theorem State.writeFifo_keeps (c : Cell) (gap : Bool) : KeepsAccounts s (s.writeFifo p c gap) := by
  unfold State.writeFifo
  simp only
  split_ifs
  · exact (s.modFifo_keeps p _).trans (State.modLink_keeps _ p fun hup => hup)
  · exact (s.modFifo_keeps p _).trans (State.count_keeps ..)

theorem State.receiveTraffic_keeps (c : Cell) (seq : Byte) : KeepsAccounts s (s.receiveTraffic p c seq) := by
  have hcounted := (s.modLink_keeps p (f := fun l => { l with rxExpect := some (seq + 1) }) fun hup => hup).trans
    (State.count_keeps _ p .rxCells)
  unfold State.receiveTraffic
  simp only
  refine KeepsAccounts.trans ?_ (State.writeFifo_keeps ..)
  split_ifs
  · exact hcounted.trans (State.count_keeps ..)
  · exact hcounted

theorem State.receiveUp_keeps (slot : SlotClass) : KeepsAccounts s (s.receiveUp p slot) := by
  have hraised : KeepsAccounts s (s.modLink p livenessRaised) := s.modLink_keeps p fun hup => hup
  cases slot with
  | noCell =>
    rw [State.receiveUp_noCell]
    split_ifs
    · exact hraised.trans (State.leaveUp_keeps ..)
    · exact hraised
  | formatError =>
    have hcounted : KeepsAccounts s ((s.formatErrorSeen p).count p .formatErr) :=
      (hraised.trans (State.modFifo_keeps ..)).trans (State.count_keeps ..)
    rw [State.receiveUp_formatError]
    split_ifs
    · exact hcounted.trans (State.leaveUp_keeps ..)
    · exact hcounted
  | headerError =>
    have hcounted : KeepsAccounts s ((s.headerErrorSeen p).count p .hdrErr) :=
      ((s.modLink_keeps p fun hup => hup).trans (State.modFifo_keeps ..)).trans (State.count_keeps ..)
    rw [State.receiveUp_headerError]
    split_ifs
    · exact hcounted.trans (State.leaveUp_keeps ..)
    · exact hcounted.trans (State.leaveUp_keeps ..)
    · exact hcounted
  | valid c h t =>
    have hreset : KeepsAccounts s (s.modLink p (supervisionReset h.hold)) := s.modLink_keeps p fun hup => hup
    rw [State.receiveUp_valid]
    split_ifs
    · exact hreset.trans (State.leaveUp_keeps ..)
    · exact hreset
    · exact hreset.trans (State.receiveTraffic_keeps ..)

theorem State.receive_keeps (arrival : Option Cell) : KeepsAccounts s (s.receive p arrival) := by
  unfold State.receive
  split_ifs
  · exact .refl s
  · split
    · exact s.receiveTraining_keeps p _
    · exact s.receiveUp_keeps p _
    all_goals exact .refl s

/-! ### Timers (R18 to R20) -/

theorem State.enterFailed_keeps (hd : s.links[p].state ≠ .up) (n : Nat) : KeepsAccounts s (s.enterFailed p n) :=
  KeepsAccounts.trans (s.modLink_keeps_down p hd) (State.notify_keeps ..)

theorem State.enterHoldoff_keeps (hd : s.links[p].state ≠ .up) (n : Nat) : KeepsAccounts s (s.enterHoldoff p n) := by
  have hdrawn : KeepsAccounts s { s with draws := s.draws + 1 } := .of_same rfl rfl
  unfold State.enterHoldoff
  simp only
  split_ifs
  · exact hdrawn.trans (State.modLink_keeps_down _ p hd)
  · exact hdrawn.trans (State.modLink_keeps_down _ p hd)

theorem State.attemptExpires_keeps : KeepsAccounts s (s.attemptExpires p) := by
  unfold State.attemptExpires
  simp only
  split_ifs with _ hs
  · exact .refl s
  · exact s.enterFailed_keeps p (by rw [hs]; decide) _
  · exact s.enterHoldoff_keeps p (by rw [hs]; decide) _
  · exact .refl s

theorem State.holdoffExpires_keeps : KeepsAccounts s (s.holdoffExpires p) := by
  unfold State.holdoffExpires
  split_ifs with _ hs
  · exact .refl s
  · exact s.modLink_keeps_down p (by rw [hs]; decide)
  · exact .refl s

end links

/-! ### Forwarding (R42 to R67) -/

section forwarding
variable (s : State) (p : Link)

theorem countEach_keeps (c : Counter) (ps : List Link) : ∀ s : State, KeepsAccounts s (countEach c ps s) := by
  induction ps with
  | nil => intro s; exact .refl s
  | cons p ps ih => intro s; exact (s.count_keeps p c).trans (ih _)

theorem State.forwardUnicast_keeps (c : Cell) (e : RouteEntry) (cls : Class) : KeepsAccounts s (s.forwardUnicast p c e cls) := by
  unfold State.forwardUnicast
  split_ifs
  · exact s.submitData_keeps c cls (List.nodup_singleton _)
  · exact (s.count_keeps _ _).trans (State.submitData_keeps _ c cls (List.nodup_singleton _))
  · exact s.count_keeps p _

theorem State.forwardMulticast_keeps (c : Cell) (g : GroupEntry) (cls : Class) : KeepsAccounts s (s.forwardMulticast p c g cls) := by
  have hpruned := countEach_keeps .mcastPruned ((groupPorts g p).filter fun q => !s.isUp q) s
  unfold State.forwardMulticast
  simp only
  split_ifs
  · exact hpruned.trans (State.count_keeps ..)
  · exact hpruned.trans (State.submitData_keeps _ c cls ((groupPorts_nodup p g).filter _))

theorem State.forwardData_keeps (c : Cell) : KeepsAccounts s (s.forwardData p c) := by
  unfold State.forwardData
  simp only
  split
  · exact s.count_keeps p _
  · exact s.count_keeps p _
  · exact s.forwardUnicast_keeps p c _ _
  · exact s.forwardMulticast_keeps p c _ _

theorem State.handToSru_keeps (c : Cell) : KeepsAccounts s (s.handToSru p c) := by
  unfold State.handToSru State.queueRequest
  simp only
  split_ifs
  · exact .of_same rfl rfl
  · exact (Ev.respond_keeps ⟨s, false, false⟩ _ _ _).trans (State.notify_keeps ..)
  · exact s.count_keeps p _

theorem State.forwardCell_keeps (c : Cell) : KeepsAccounts s (s.forwardCell p c) := by
  unfold State.forwardCell
  split
  · exact s.forwardData_keeps p c
  · exact s.handToSru_keeps p c
  · exact s.count_keeps p _
  · exact s.count_keeps p _
  · exact s.count_keeps p _
  all_goals exact .refl s

theorem State.takeEntry_keeps (e : FifoEntry) (rest : List FifoEntry) : KeepsAccounts s (s.takeEntry p e rest) :=
  .of_isUp rfl fun q hq => (s.takeEntry_isUp p e rest q).trans hq

theorem State.forward_keeps : KeepsAccounts s s.forward := by
  unfold State.forward
  split_ifs
  · exact .refl s
  · split
    · exact .refl s
    · split
      · exact .refl s
      · exact (s.takeEntry_keeps _ _ _).trans (State.forwardCell_keeps ..)

end forwarding

/-! ### Egress slots (R98 to R107) -/

section egress
variable (s : State) (p : Link)

theorem State.transmit_keeps (c : Cell) (cls : Class) : KeepsAccounts s (s.transmit p c cls) := by
  have hsent := s.transmit_spec p c cls
  exact .of_isUp (by rw [hsent.frame]) fun q hq => (hsent.isUp q).trans hq

theorem State.sendHead_keeps (c : Class) : KeepsAccounts s (s.sendHead p c) := by
  unfold State.sendHead
  split
  · exact .refl s
  · exact ((s.removeHead_keeps p c).trans (State.transmit_keeps ..)).trans (State.count_keeps ..)

theorem State.advanceWindow_keeps (w : Nat) : KeepsAccounts s (s.advanceWindow p w) := by
  have hclosed : KeepsAccounts s (s.modSched p Scheduler.close) := s.modSched_keeps p _
  unfold State.advanceWindow
  simp only
  split_ifs
  · exact s.modSched_keeps p _
  · exact hclosed.trans (State.applyStaging_keeps ..)
  · exact hclosed

theorem State.spendBudget_keeps (w b : Nat) : KeepsAccounts s (s.spendBudget p w b) := by
  unfold State.spendBudget
  split_ifs
  · exact s.advanceWindow_keeps p w
  · exact s.modSched_keeps p _

theorem State.fixedSlot_keeps : KeepsAccounts s (s.fixedSlot p) := by
  unfold State.fixedSlot
  refine KeepsAccounts.trans ?_ (State.spendBudget_keeps ..)
  split_ifs
  · exact s.transmit_keeps p _ _
  · exact s.sendHead_keeps p _

theorem State.foundSlot_keeps (w b : Nat) : KeepsAccounts s (s.foundSlot p w b) := by
  have hsent := s.sendHead_keeps p (windowAt s.scheds[p].active w).cls
  unfold State.foundSlot
  simp only
  split
  · exact hsent.trans (State.modSched_keeps ..)
  · exact hsent.trans (State.spendBudget_keeps ..)
  · exact hsent.trans (State.spendBudget_keeps ..)

theorem State.idleSlot_keeps : KeepsAccounts s (s.idleSlot p) := by
  have hidle := (s.transmit_keeps p idleCell 0).trans (State.modSched_keeps _ p fun x => { x with isOpen := false, budget := 0 })
  unfold State.idleSlot
  simp only
  split_ifs
  · exact hidle.trans (State.applyStaging_keeps ..)
  · exact hidle

theorem State.servedSlot_keeps (rounds : Nat) : ∀ s : State, KeepsAccounts s (State.servedSlot p rounds s) := by
  induction rounds with
  | zero => intro s; exact .refl s
  | succ rounds ih =>
    intro s
    unfold State.servedSlot
    simp only
    split_ifs
    · exact s.fixedSlot_keeps p
    · split
      · exact s.foundSlot_keeps p _ _
      · exact s.idleSlot_keeps p
      · exact (s.applyStaging_keeps p).trans (ih _)

theorem State.slotUp_keeps : KeepsAccounts s (s.slotUp p) := by
  have hbegun : KeepsAccounts s (s.modSender p slotCountsRise) := s.modSender_keeps p _
  unfold State.slotUp State.sendStatus
  simp only
  split_ifs
  · exact ((hbegun.trans (State.transmit_keeps ..)).trans (State.modSender_keeps ..)).trans (State.count_keeps ..)
  · exact hbegun.trans (State.transmit_keeps ..)
  · exact hbegun.trans (State.servedSlot_keeps p 2 _)

theorem State.egress_keeps : KeepsAccounts s (s.egress p) := by
  have hquiet : KeepsAccounts s (s.setTx p none) := s.setTx_keeps p none
  unfold State.egress
  by_cases hreset : s.resetAsserted = true
  · rw [if_pos hreset]
    exact hquiet
  · rw [if_neg hreset]
    cases s.links[p].state with
    | up => exact s.slotUp_keeps p
    | training =>
      show KeepsAccounts s (if s.links[p].acknowledged then s.sendIdle p else s.transmit p trainCell 0)
      split_ifs
      · exact s.transmit_keeps p _ _
      · exact s.transmit_keeps p _ _
    | disabled => exact hquiet
    | holdoff => exact hquiet
    | failed => exact hquiet

end egress

end Sys2Proof.Machine
end

section
/-! Requests and RESET keep the accounting, and so does every step (R92, R95, R131 to R143, R162, R177). -/

namespace Sys2Proof.Machine

/-! ### The execution of a request (R151 to R153) -/

/-- A request is not executed, or it is answered after the effect of its chapter or without one. -/
theorem State.serve_answered (s : State) (mine : Nat → Bool) (body : Request → State → Reply) :
    s.serve mine body = s ∨ ∃ s1 r code outputs, s.serve mine body = (Ev.answer ⟨s1, false, false⟩ r code outputs).s ∧
      (s1 = s.popRequest ∨ body r s.popRequest = .done s1 outputs) := by
  unfold State.serve
  cases hr : s.headFor mine with
  | none => exact .inl rfl
  | some r =>
    right
    simp only [State.execute]
    cases hg : genericFailure r with
    | some c => exact ⟨s.popRequest, r, c, [], rfl, .inl rfl⟩
    | none =>
      cases hb : body r s.popRequest with
      | refuse c => exact ⟨s.popRequest, r, c, [], rfl, .inl rfl⟩
      | done s1 outputs => exact ⟨s1, r, .ok, outputs, rfl, .inr hb⟩

section requests
variable {r : Request} {s t : State} {outputs : List (Nat × Word)}

theorem State.serve_keeps (s : State) (mine : Nat → Bool) (body : Request → State → Reply)
    (h : ∀ r s t outputs, body r s = .done t outputs → KeepsAccounts s t) : KeepsAccounts s (s.serve mine body) := by
  have hpop : KeepsAccounts s s.popRequest := .of_same rfl rfl
  rcases s.serve_answered mine body with hidle | ⟨s1, r, code, outputs, hserve, rfl | hdone⟩
  · rw [hidle]; exact .refl s
  · rw [hserve]; exact hpop.trans (Ev.answer_keeps ⟨s.popRequest, false, false⟩ r code outputs)
  · rw [hserve]; exact (hpop.trans (h r _ s1 outputs hdone)).trans (Ev.answer_keeps ⟨s1, false, false⟩ r code outputs)

theorem forPorts_keeps {f : State → Link → State} (h : ∀ s p, KeepsAccounts s (f s p)) (ps : List Link) :
    ∀ s, KeepsAccounts s (forPorts f ps s) := by
  induction ps with
  | nil => intro s; exact .refl s
  | cons p ps ih => intro s; exact (h s p).trans (ih _)

/-! ### Chapters 5 and 7 -/

/-- What a SET_ADMISSION that is done has stored, and the checks it has passed (R92, R93). -/
theorem setAdmissionBody_done_eq (h : setAdmissionBody r s = .done t outputs) : ∃ c,
    t = { s with bm := { s.bm with params := givenParams r s.bm.params c, shared := sharedUse s (givenParams r s.bm.params c) } } ∧
      (blockWord r 1).toNat ≤ 255 ∧ 1 ≤ (blockWord r 2).toNat ∧ (blockWord r 2).toNat ≤ Config.bufferCount ∧
      totalReservation (givenParams r s.bm.params c) + sharedUse s (givenParams r s.bm.params c) ≤ Config.bufferCount := by
  rcases Nat.lt_or_ge (lo8 (blockWord r 0)).toNat 4 with hc | hc
  · rw [setAdmissionBody_class (c := ⟨_, hc⟩) rfl] at h
    obtain ⟨hR, h⟩ := Reply.done_of_check h
    obtain ⟨hM, h⟩ := Reply.done_of_check h
    obtain ⟨hU, h⟩ := Reply.done_of_check h
    obtain ⟨hM1, hM2⟩ := not_or.mp hM
    cases h
    exact ⟨_, rfl, Nat.not_lt.mp hR, Nat.one_le_iff_ne_zero.mpr hM1, Nat.not_lt.mp hM2, Nat.not_lt.mp hU⟩
  · rw [setAdmissionBody_badClass hc] at h
    cases h

/-- The given parameters are in range when reservation and maximum are; the alpha code is clamped (R77, R92). -/
theorem givenParams_wf {params : Vector ClassParams 4} (h : ∀ k : Class, paramsWf params[k] = true) (hR : (blockWord r 1).toNat ≤ 255)
    (hM1 : 1 ≤ (blockWord r 2).toNat) (hM2 : (blockWord r 2).toNat ≤ Config.bufferCount) (c k : Class) :
    paramsWf (givenParams r params c)[k] = true := by
  unfold givenParams
  rw [upd_get]
  split_ifs
  · simp only [paramsWf, Bool.and_eq_true, decide_eq_true_eq]
    exact ⟨⟨⟨hR, hM1⟩, hM2⟩, Nat.min_le_right _ 7⟩
  · exact h k

theorem setAdmissionBody_keeps (h : setAdmissionBody r s = .done t outputs) : KeepsAccounts s t := by
  obtain ⟨c, rfl, hR, hM1, hM2, hfits⟩ := setAdmissionBody_done_eq h
  refine ⟨fun ports ⟨hs, hdown⟩ => ⟨?_, hdown⟩⟩
  exact ⟨hs.form, hs.free, hs.listed, hs.unused, hs.refs, hs.distinct, hs.oneClass, hs.pool, rfl, hfits,
    givenParams_wf hs.params hR hM1 hM2 c⟩

theorem readBufferStateBody_keeps (h : readBufferStateBody r s = .done t outputs) : KeepsAccounts s t := by
  unfold readBufferStateBody at h
  split at h
  · cases h
  · cases h; exact .refl s

theorem State.retestClass_keeps (c : Class) (ps : List Link) : ∀ s : State, KeepsAccounts s (s.retestClass c ps) := by
  induction ps with
  | nil => intro s; exact .refl s
  | cons p ps ih => intro s; exact KeepsAccounts.trans (t := s.testEntry p c) (.of_same rfl rfl) (ih _)

theorem setFlowBody_keeps (h : setFlowBody r s = .done t outputs) : KeepsAccounts s t := by
  have hstored (x : Vector Thresholds 4) : KeepsAccounts s { s with cmap := { s.cmap with thresholds := x } } := .of_same rfl rfl
  unfold setFlowBody at h
  simp only at h
  split at h
  · cases h
  · obtain ⟨-, h⟩ := Reply.done_of_check h
    obtain ⟨-, h⟩ := Reply.done_of_check h
    cases h
    exact (hstored _).trans (State.retestClass_keeps ..)

/-! ### Chapters 9 and 10 -/

theorem readCountersBody_keeps (h : readCountersBody r s = .done t outputs) : KeepsAccounts s t := by
  unfold readCountersBody at h
  simp only at h
  split at h
  · cases h
  · obtain ⟨-, h⟩ := Reply.done_of_check h
    obtain ⟨-, h⟩ := Reply.done_of_check h
    obtain ⟨-, h⟩ := Reply.done_of_check h
    cases h
    exact .refl s

theorem clearCarryBody_keeps (h : clearCarryBody r s = .done t outputs) : KeepsAccounts s t := by
  unfold clearCarryBody at h
  simp only at h
  split at h
  · cases h
  · obtain ⟨-, h⟩ := Reply.done_of_check h
    cases h
    exact .of_same rfl rfl

theorem setNoticeBody_keeps (h : setNoticeBody r s = .done t outputs) : KeepsAccounts s t := by
  unfold setNoticeBody at h
  simp only at h
  split at h
  · cases h
  · cases h; exact .of_same rfl rfl

theorem setElementAddressBody_keeps (h : setElementAddressBody r s = .done t outputs) : KeepsAccounts s t := by
  obtain ⟨-, h⟩ := Reply.done_of_check h
  cases h
  exact .of_same rfl rfl

/-! ### Chapters 2, 3 and 6 -/

theorem writeScheduleBody_keeps (h : writeScheduleBody r s = .done t outputs) : KeepsAccounts s t := by
  obtain ⟨p, ws, rfl, -⟩ := writeScheduleBody_done_eq h
  exact s.modSched_keeps p _

theorem State.applyPort_keeps (s : State) (p : Link) : KeepsAccounts s (s.applyPort p) := by
  unfold State.applyPort
  split_ifs
  · exact s.modSched_keeps p _
  · exact s.applyStaging_keeps p

theorem readScheduleBody_keeps (h : readScheduleBody r s = .done t outputs) : KeepsAccounts s t := by
  unfold readScheduleBody at h
  split at h
  · cases h
  · obtain ⟨-, h⟩ := Reply.done_of_check h
    cases h
    exact .refl s

theorem State.linkAction_keeps (s : State) (a : LinkAction) (p : Link) : KeepsAccounts s (s.linkAction a p) := by
  rcases s.linkAction_cases a p with hs | ⟨disable, hs⟩ | ⟨hd, hs | hs⟩
  · rw [hs]; exact .refl s
  · rw [hs]; exact s.leaveUp_keeps p _ _
  · rw [hs]; exact s.modLink_keeps_down p hd
  · rw [hs]; exact s.modLink_keeps_down p hd

theorem linkControlBody_keeps (h : linkControlBody r s = .done t outputs) : KeepsAccounts s t := by
  obtain ⟨a, rfl⟩ := linkControlBody_done_eq h
  exact forPorts_keeps (fun s p => (s.modLink_keeps p fun hup => hup).trans (State.linkAction_keeps ..)) _ s

theorem readLinkStatusBody_keeps (h : readLinkStatusBody r s = .done t outputs) : KeepsAccounts s t := by
  unfold readLinkStatusBody at h
  split at h
  · cases h
  · cases h; exact .refl s

/-! ### Chapter 8 -/

/-- Table Control has no part in the accounting. -/
theorem State.withTables_keeps (s : State) (x : TableControl) : KeepsAccounts s { s with tables := x } := .of_same rfl rfl

theorem writeRouteBody_keeps (h : writeRouteBody r s = .done t outputs) : KeepsAccounts s t := by
  unfold writeRouteBody at h
  obtain ⟨-, h⟩ := Reply.done_of_check h
  split at h
  · cases h
  · obtain ⟨-, h⟩ := Reply.done_of_check h
    split at h
    · cases h
    · cases h; exact s.withTables_keeps _

theorem writeGroupBody_keeps (h : writeGroupBody r s = .done t outputs) : KeepsAccounts s t := by
  unfold writeGroupBody at h
  obtain ⟨-, h⟩ := Reply.done_of_check h
  split at h
  · cases h
  · cases h; exact s.withTables_keeps _

theorem readEntries_keeps {size : Nat} {words : Bank → Nat → List Word} (h : readEntries r s size words = .done t outputs) :
    KeepsAccounts s t := by
  unfold readEntries at h
  obtain ⟨-, h⟩ := Reply.done_of_check h
  split at h
  · cases h
  · obtain ⟨-, h⟩ := Reply.done_of_check h
    obtain ⟨-, h⟩ := Reply.done_of_check h
    cases h
    exact .refl s

theorem State.swap_keeps (s : State) : KeepsAccounts s s.swap := (s.withTables_keeps _).trans (State.notify_keeps ..)

theorem commitRoutingBody_keeps (h : commitRoutingBody r s = .done t outputs) : KeepsAccounts s t := by
  unfold commitRoutingBody at h
  simp only at h
  split at h
  · cases h
  · cases h
  · split_ifs at h
    · cases h; exact s.swap_keeps
    · cases h; exact s.withTables_keeps _

theorem cancelCommitBody_keeps (h : cancelCommitBody r s = .done t outputs) : KeepsAccounts s t := by
  unfold cancelCommitBody at h
  split at h
  · cases h; exact s.withTables_keeps _
  · cases h
  · cases h

theorem State.swapIfReached_keeps (s : State) : KeepsAccounts s s.swapIfReached := by
  unfold State.swapIfReached
  split
  · split_ifs
    · exact .refl s
    · exact s.swap_keeps
  · exact .refl s
  · exact .refl s

theorem epochMarkBody_keeps (h : epochMarkBody r s = .done t outputs) : KeepsAccounts s t := by
  unfold epochMarkBody at h
  simp only at h
  split_ifs at h
  cases h
  exact (s.withTables_keeps { s.tables with epoch := blockWord r 0 }).trans (State.swapIfReached_keeps _)

end requests

theorem State.mirror_keeps (s : State) : KeepsAccounts s s.mirror := by
  unfold State.mirror
  split_ifs
  · exact .refl s
  · split
    · unfold State.copyStep
      simp only
      split_ifs
      · exact (s.withTables_keeps _).trans (State.notify_keeps ..)
      · exact s.withTables_keeps _
    · exact .refl s
    · exact .refl s

/-! ### DATAPATH_RESET (R162) -/

theorem emptyFifos_keeps (ps : List Link) : ∀ e : Ev, KeepsAccounts e.s (emptyFifos ps e).s := by
  induction ps with
  | nil => intro e; exact .refl _
  | cons p ps ih => intro e; exact (Ev.emptyFifo_keeps p e).trans (ih _)

theorem emptyFifos_hold (ps : List Link) : ∀ {e : Ev}, e.hold = true → (emptyFifos ps e).hold = true := by
  induction ps with
  | nil => intro e h; exact h
  | cons p ps ih => intro e h; exact ih (Ev.emptyFifo_held h p).1

section reset
variable {s : State}

/-- A free list of all buffers agrees with the accounting once every queue is empty (R90). -/
theorem AccountsBut.rebuiltWith {ports : List Link} (h : AccountsBut ports s) (hempty : ∀ p c, s.queue p c = [])
    {free : List Nat} (hnodup : free.Nodup) (hfree : ∀ b, b ∈ free ↔ b < Config.bufferCount) (held : Vector (Vector Bool 4) 24) (version : BitVec 16) :
    AccountsBut ports (s.rebuiltWith free held version) := by
  obtain ⟨h, hdown⟩ := h
  have hzero (b : Nat) : (s.buffer b).refs = 0 := h.refs_eq_zero.mpr fun p c => by rw [hempty]; exact List.not_mem_nil
  refine ⟨?_, hdown⟩
  exact {
    form := h.form
    free := hnodup
    listed := fun b => (hfree b).trans (and_iff_left (hzero b)).symm
    unused := h.unused
    refs := h.refs
    distinct := h.distinct
    oneClass := h.oneClass
    pool := h.pool
    shared := h.shared
    fits := h.fits
    params := h.params }

/-- Steps 1 and 2 leave every queue empty: their notices wait, so that nothing joins a queue meanwhile (R162). -/
theorem State.flushedOut_empty (s : State) (p : Link) (c : Class) : s.flushedOut.s.queue p c = [] := by
  have hstill : (emptyFifos (List.finRange 24) ⟨s, true, false⟩).Still p := .inl (emptyFifos_hold _ rfl)
  exact (hstill.flushPorts (List.finRange 24) c).trans (if_pos (List.mem_finRange p))

theorem State.flushedOut_keeps (s : State) : KeepsAccounts s s.flushedOut.s :=
  (emptyFifos_keeps _ ⟨s, true, false⟩).trans (flushPorts_keeps ..)

theorem State.resetDatapath_keeps (s : State) : KeepsAccounts s s.resetDatapath.s := by
  rw [State.resetDatapath_eq]
  show KeepsAccounts s s.flushedOut.s.rebuild
  rw [State.rebuild_eq]
  exact s.flushedOut_keeps.trans ⟨fun _ h =>
    h.rebuiltWith s.flushedOut_empty List.nodup_range (fun _ => List.mem_range) _ _⟩

theorem State.executeReset_keeps (s : State) (r : Request) : KeepsAccounts s (s.executeReset r) := by
  have hpop : KeepsAccounts s s.popRequest := .of_same rfl rfl
  unfold State.executeReset
  simp only
  split
  · exact hpop.trans (Ev.answer_keeps ⟨s.popRequest, false, false⟩ r _ [])
  · exact ((hpop.trans (State.resetDatapath_keeps _)).trans (Ev.answer_keeps ..)).trans (State.release_keeps ..)

theorem execDatapathReset_keeps {t : State} (h : execDatapathReset s = .next t) : KeepsAccounts s t := by
  unfold execDatapathReset at h
  cases h
  split
  · exact .refl s
  · exact s.executeReset_keeps _

/-- RESET brings the accounting of the release from any state (R91, R177). -/
theorem KeepsAccounts.powerOn {t : State} (h : t.bm = powerOnBuffers) : KeepsAccounts s t := by
  obtain ⟨haccounts, hdown⟩ := buffersWf_iff.mp (BuffersWf.powerOn t h)
  exact ⟨fun ports _ => ⟨haccounts, fun p c _ => hdown p c List.not_mem_nil⟩⟩

end reset

/-! ### Command by command -/

theorem exec_keeps (c : Instr) {s t : State} (h : exec c s = .next t) : KeepsAccounts s t := by
  cases c with
  | resetAssert => cases h; exact .powerOn rfl
  | resetRelease straps => cases h; exact .powerOn rfl
  | datapathReset => exact execDatapathReset_keeps h
  | receiveSlot p arrival => cases h; exact s.receive_keeps p arrival
  | attemptTimerExpiry p => cases h; exact s.attemptExpires_keeps p
  | holdoffTimerExpiry p => cases h; exact s.holdoffExpires_keeps p
  | forwardingEvent => cases h; exact s.forward_keeps
  | egressSlot p => cases h; exact s.egress_keeps p
  | mirrorCopyStep => cases h; exact s.mirror_keeps
  | unknownRequest => cases h; exact s.serve_keeps _ _ fun _ _ _ _ h => by cases h
  | identify => cases h; exact s.serve_keeps _ _ fun _ _ _ _ h => by cases h; exact .refl _
  | writeRoute => cases h; exact s.serve_keeps _ _ fun _ _ _ _ => writeRouteBody_keeps
  | readRoute => cases h; exact s.serve_keeps _ _ fun _ _ _ _ => readEntries_keeps
  | writeGroup => cases h; exact s.serve_keeps _ _ fun _ _ _ _ => writeGroupBody_keeps
  | readGroup => cases h; exact s.serve_keeps _ _ fun _ _ _ _ => readEntries_keeps
  | commitRouting => cases h; exact s.serve_keeps _ _ fun _ _ _ _ => commitRoutingBody_keeps
  | cancelCommit => cases h; exact s.serve_keeps _ _ fun _ _ _ _ => cancelCommitBody_keeps
  | epochMark => cases h; exact s.serve_keeps _ _ fun _ _ _ _ => epochMarkBody_keeps
  | readTableState => cases h; exact s.serve_keeps _ _ fun _ _ _ _ h => by cases h; exact .refl _
  | writeSchedule => cases h; exact s.serve_keeps _ _ fun _ _ _ _ => writeScheduleBody_keeps
  | applySchedule => cases h; exact s.serve_keeps _ _ fun _ s _ _ h => by cases h; exact forPorts_keeps State.applyPort_keeps _ s
  | readSchedule => cases h; exact s.serve_keeps _ _ fun _ _ _ _ => readScheduleBody_keeps
  | setAdmission => cases h; exact s.serve_keeps _ _ fun _ _ _ _ => setAdmissionBody_keeps
  | setFlow => cases h; exact s.serve_keeps _ _ fun _ _ _ _ => setFlowBody_keeps
  | setStatusTiming => cases h; exact s.serve_keeps _ _ fun _ _ _ _ h => by cases h; exact .of_same rfl rfl
  | readBufferState => cases h; exact s.serve_keeps _ _ fun _ _ _ _ => readBufferStateBody_keeps
  | linkControl => cases h; exact s.serve_keeps _ _ fun _ _ _ _ => linkControlBody_keeps
  | readLinkStatus => cases h; exact s.serve_keeps _ _ fun _ _ _ _ => readLinkStatusBody_keeps
  | clearLinkStatus =>
    cases h
    exact s.serve_keeps _ _ fun _ s _ _ h => by cases h; exact forPorts_keeps (fun s p => s.modFifo_keeps p _) _ s
  | readCounters => cases h; exact s.serve_keeps _ _ fun _ _ _ _ => readCountersBody_keeps
  | clearCarry => cases h; exact s.serve_keeps _ _ fun _ _ _ _ => clearCarryBody_keeps
  | setNotice => cases h; exact s.serve_keeps _ _ fun _ _ _ _ => setNoticeBody_keeps
  | setElementAddress => cases h; exact s.serve_keeps _ _ fun _ _ _ _ => setElementAddressBody_keeps

end Sys2Proof.Machine

namespace Sys2Proof.Claims

open Sys2Proof.Machine

/-- Settles O54: an empty queue idles, and a command keeps the accounting whatever waits behind it. -/
theorem stepKeepsTheBuffers : Obligations.StepKeepsTheBuffers := by
  intro s t h ht
  unfold step at ht
  split at ht
  · cases ht
    exact h
  next c rest _ =>
    have htaken : KeepsAccounts s { s with pending := rest } := .of_same rfl rfl
    exact (htaken.trans (exec_keeps c ht)).buffersWf h

end Sys2Proof.Claims
end

section
/-! The egress slot of a link in UP: a status cell, a held slot, or the service of the active schedule (R98 to R107, R122 to R124). -/

namespace Sys2Proof.Machine

variable {s : State} {p : Link}

/-! ### The start of the slot (R98, R122, R123) -/

theorem State.slotBegun (s : State) (p : Link) : SlotBegun p s (s.modSender p slotCountsRise) := by
  refine ⟨rfl, fun q => (upd_get ..).trans ?_⟩
  by_cases hq : q = p
  · subst hq
    rfl
  · rw [if_neg hq, if_neg hq]

theorem statusDue_iff (s : State) (p : Link) :
    statusDue (s.modSender p slotCountsRise).senders[p] s.timing s.cmap.version = true ↔ StatusDue p s := by
  rw [(s.slotBegun p).2 p, if_pos rfl]
  simp [statusDue, StatusDue]

theorem State.egress_up (hr : s.resetAsserted = false) (hu : s.links[p].state = .up) : s.egress p = s.slotUp p := by
  unfold State.egress
  rw [hr, hu]
  rfl

theorem State.slotUp_due (h : StatusDue p s) : s.slotUp p = (s.modSender p slotCountsRise).sendStatus p :=
  if_pos ((statusDue_iff s p).mpr h)

theorem State.slotUp_held (h : ¬ StatusDue p s) (hold : s.links[p].partnerHold = true) :
    s.slotUp p = (s.modSender p slotCountsRise).sendIdle p :=
  (if_neg (mt (statusDue_iff s p).mp h)).trans (if_pos hold)

theorem Serves.egress (h : Serves p s) : s.egress p = State.servedSlot p 2 (s.modSender p slotCountsRise) := by
  rw [State.egress_up h.running h.up]
  exact (if_neg (mt (statusDue_iff s p).mp h.notDue)).trans (if_neg (by rw [State.modSender_links, h.free]; exact Bool.false_ne_true))

/-- A transmission reads and writes no Status Sender. -/
theorem State.transmit_modSender (s : State) (p q : Link) (f : StatusSender → StatusSender) (cell : Cell) (cls : Class) :
    (s.modSender q f).transmit p cell cls = (s.transmit p cell cls).modSender q f := by
  unfold State.transmit
  simp only
  split_ifs <;> rfl

/-! ### The windows of a schedule -/

theorem busyWindow_iff {i : Nat} (hi : i < s.scheds[p].active.length) :
    BusyWindow p s i ↔ busyAt s.scheds[p].active (s.busyClasses p) i = true := by
  unfold BusyWindow
  rw [window_exists hi]
  constructor
  · rintro ⟨win, hwin, hq⟩
    cases hwin
    exact (s.busyClasses_iff p _).mpr hq
  · exact fun h => ⟨_, rfl, (s.busyClasses_iff p _).mp h⟩

theorem busyAt_eq_false {i : Nat} (hi : i < s.scheds[p].active.length) (h : ¬ BusyWindow p s i) :
    busyAt s.scheds[p].active (s.busyClasses p) i = false :=
  Bool.eq_false_iff.mpr (mt (busyWindow_iff hi).mpr h)

/-- A FIXED window stands beside no DRAIN window (R97). -/
theorem scheduleWf_fixed {ws : List Window} (h : scheduleWf ws = true) (hf : isFixedSchedule ws = true) {win : Window}
    (hwin : win ∈ ws) : win.mode ≠ .drain := by
  intro hdrain
  have hany : (ws.any fun x => x.mode == .drain) = true := List.any_eq_true.mpr ⟨win, hwin, beq_iff_eq.mpr hdrain⟩
  unfold isFixedSchedule at hf
  simp [scheduleWf, hf, hany] at h

theorem BudgetFits.pos {ws : List Window} {w b : Nat} (h : BudgetFits ws w b) {win : Window} (hw : ws[w]? = some win)
    (hm : win.mode ≠ .drain) : 1 ≤ b := by
  obtain ⟨win', hw', -, hb⟩ := h
  rw [hw] at hw'
  cases hw'
  exact hb hm

/-! ### The pass of a served slot (R102, R104, R107) -/

/-- What the pass over port p's active schedule comes to, from its window pointer on. -/
def State.pass (s : State) (p : Link) : PassResult :=
  windowPass s.scheds[p].active (s.busyClasses p) s.scheds[p].pending s.scheds[p].active.length s.scheds[p].w s.scheds[p].isOpen
    s.scheds[p].budget

section pass
variable (hpointer : s.scheds[p].w < s.scheds[p].active.length)
include hpointer

/-- A pass that crosses no wrap with the pending flag set finds the first window whose queue holds an entry: were that window behind the
wrap, every window up to the last would be empty. -/
theorem State.pass_found (hf : isFixedSchedule s.scheds[p].active = false) (hc : ¬ CrossesWrap p s) {i : Nat}
    (hi : i < s.scheds[p].active.length)
    (hbefore : ∀ j < i, ¬ BusyWindow p s ((s.scheds[p].w + j) % s.scheds[p].active.length)) {win : Window}
    (hwin : s.scheds[p].active[(s.scheds[p].w + i) % s.scheds[p].active.length]? = some win) (hq : s.queue p win.cls ≠ []) :
    s.pass p = .found ((s.scheds[p].w + i) % s.scheds[p].active.length)
      (if i = 0 ∧ s.scheds[p].isOpen = true then s.scheds[p].budget else win.budget) := by
  have hin (k : Nat) : k % s.scheds[p].active.length < s.scheds[p].active.length := Nat.mod_lt _ (Nat.zero_lt_of_lt hi)
  have hnowrap (hp : s.scheds[p].pending = true) : s.scheds[p].w + i < s.scheds[p].active.length := by
    by_contra hwrap
    refine hc ⟨hf, hp, by omega, fun k hlow hhigh => ?_⟩
    have hk := hbefore (k - s.scheds[p].w) (by omega)
    rwa [Nat.add_sub_cancel' hlow, Nat.mod_eq_of_lt hhigh] at hk
  rw [← windowAt_some hwin]
  exact windowPass_found _ _ _ i _ _ _ _ hpointer hi (fun j hj => busyAt_eq_false (hin _) (hbefore j hj))
    ((busyWindow_iff (hin _)).mp ⟨win, hwin, hq⟩) hnowrap

theorem State.pass_idle (hf : isFixedSchedule s.scheds[p].active = false) (hc : ¬ CrossesWrap p s)
    (hempty : ∀ i < s.scheds[p].active.length, ¬ BusyWindow p s i) : s.pass p = .idle := by
  refine windowPass_idle _ _ _ _ _ _ _ hpointer (fun i hi => busyAt_eq_false hi (hempty i hi)) fun hp => ?_
  by_contra hbehind
  exact hc ⟨hf, hp, by omega, fun k _ hk => hempty k hk⟩

theorem State.pass_wrapped (h : CrossesWrap p s) : s.pass p = .wrapped := by
  obtain ⟨-, hpending, hbehind, hempty⟩ := h
  exact windowPass_wrapped _ _ _ (s.scheds[p].active.length - s.scheds[p].w - 1) _ _ _ _ (by omega) (by omega)
    (fun i hlow hi => busyAt_eq_false hi (hempty i hlow hi)) hpending

end pass

/-! ### The served slot (R102 to R107) -/

section served
variable (rounds : Nat)

theorem State.servedSlot_fixed (hf : isFixedSchedule s.scheds[p].active = true) :
    State.servedSlot p (rounds + 1) s = s.fixedSlot p := if_pos hf

section passes
variable (hf : isFixedSchedule s.scheds[p].active = false)
include hf

theorem State.servedSlot_found {w b : Nat} (h : s.pass p = .found w b) :
    State.servedSlot p (rounds + 1) s = s.foundSlot p w b := by
  unfold State.pass at h
  unfold State.servedSlot
  simp only [hf, h, Bool.false_eq_true, if_false]

theorem State.servedSlot_idle (h : s.pass p = .idle) : State.servedSlot p (rounds + 1) s = s.idleSlot p := by
  unfold State.pass at h
  unfold State.servedSlot
  simp only [hf, h, Bool.false_eq_true, if_false]

theorem State.servedSlot_wrapped (h : s.pass p = .wrapped) :
    State.servedSlot p (rounds + 1) s = State.servedSlot p rounds (s.applyStaging p) := by
  unfold State.pass at h
  rw [State.servedSlot]
  simp only [hf, h, Bool.false_eq_true, if_false]

end passes

variable {up : Bool} (hwf : SchedulerWf up s.scheds[p])
include hwf

/-- The round of a served slot whose pass crosses no wrap with the pending flag set is the slot. -/
theorem State.servedSlot_spec (hc : ¬ CrossesWrap p s) : SlotServed p s (State.servedSlot p (rounds + 1) s) := by
  refine ⟨fun hf => ?_, fun hf => ⟨fun i hi hbefore hbusy => ?_, fun hempty => ?_⟩⟩
  · rw [State.servedSlot_fixed rounds hf]
    have hwin := window_exists hwf.pointer
    exact s.fixedSlot_spec p _ hwin (hwf.inForce.pos hwin (scheduleWf_fixed hwf.active hf (List.mem_of_getElem? hwin)))
  · obtain ⟨win, hwin, hq⟩ := hbusy
    obtain ⟨x, rest, hcons⟩ := List.exists_cons_of_ne_nil hq
    have hpass := State.pass_found hwf.pointer hf hc hi hbefore hwin hq
    rw [State.servedSlot_found rounds hf hpass]
    exact ⟨win, hwin, s.foundSlot_spec p _ _ win x rest hwin hcons fun hm => (hwf.found hpass).pos hwin hm⟩
  · rw [State.servedSlot_idle rounds hf (State.pass_idle hwf.pointer hf hc hempty)]
    exact s.idleSlot_spec p

/-- The staging schedule applied leaves the port's scheduler in order. -/
theorem SchedulerWf.applyStaging : SchedulerWf up (s.applyStaging p).scheds[p] := by
  obtain ⟨m, ⟨-, hm⟩, hnotified⟩ := s.applyStaging_spec p
  have hscheds : (s.applyStaging p).scheds = m.scheds := by rw [hnotified.effects.frame]
  rw [hscheds, hm, if_pos rfl]
  exact hwf.applied

/-- A round whose pass crosses a wrap applies the staging schedule; without the pending flag the round after it crosses none. -/
theorem State.servedSlot_crossing (hc : CrossesWrap p s) :
    SlotServed p (s.applyStaging p) (State.servedSlot p (rounds + 2) s) := by
  rw [State.servedSlot_wrapped (rounds + 1) hc.1 (State.pass_wrapped hwf.pointer hc)]
  refine State.servedSlot_spec rounds hwf.applyStaging fun hagain => ?_
  obtain ⟨-, hpending, -⟩ := hagain
  rw [State.applyStaging_pending] at hpending
  cases hpending

end served

end Sys2Proof.Machine

namespace Sys2Proof.Claims

open Sys2Proof.Machine

/-- Settles O13: the cell is built from values that the rise of the slot counts does not touch. -/
theorem statusAndHeldSlots : Obligations.StatusAndHeldSlots := by
  intro s p hr hu
  refine ⟨fun hdue => ?_, fun hdue hold => ?_⟩
  · have hsent := s.transmit_spec p (statusCell s.sru.elementId s.cmap s.sharedFree) 0
    refine ⟨_, ((s.transmit p (statusCell s.sru.elementId s.cmap s.sharedFree) 0).modSender p slotCountsRise).modSender p
      fun _ => ⟨some s.cmap.version, 0, 0⟩, _, exec_egressSlot s p, hsent, ⟨rfl, fun q => ?_⟩, ?_⟩
    · rw [State.modSender_senders, upd_get]
      split_ifs with hq
      · rfl
      · rw [State.modSender_senders, upd_other _ _ _ _ hq, hsent.frame]
    · rw [State.egress_up hr hu, State.slotUp_due hdue, ← State.transmit_modSender]
      exact State.count_spec ..
  · refine ⟨_, _, exec_egressSlot s p, s.slotBegun p, ?_⟩
    rw [State.egress_up hr hu, State.slotUp_held hdue hold]
    exact State.transmit_spec ..

/-- Settles O14: the start of the slot leaves the schedule and the queues, and one round serves it. -/
theorem servedSlotFollowsTheSchedule : Obligations.ServedSlotFollowsTheSchedule := by
  intro s p h hc
  refine ⟨_, _, exec_egressSlot s p, s.slotBegun p, ?_⟩
  rw [h.egress]
  exact State.servedSlot_spec 1 h.wf hc

/-- Settles O15: the first round ends at the wrap, and the second serves the slot under the schedule applied there. -/
theorem wrapInsideAPassAppliesTheStagingSchedule : Obligations.WrapInsideAPassAppliesTheStagingSchedule := by
  intro s p h hc
  refine ⟨_, _, _, exec_egressSlot s p, s.slotBegun p, State.applyStaging_spec .., ?_⟩
  rw [h.egress]
  exact State.servedSlot_crossing 0 h.wf hc

end Sys2Proof.Claims
end

section
/-! APPLY_SCHEDULE, port by port (R107, R112). -/

namespace Sys2Proof.Machine

theorem exec_applySchedule (s : State) : exec .applySchedule s = .next (s.serve (· == 11) applyScheduleBody) := rfl

theorem State.applyPort_spec (p : Link) (s : State) :
    if s.isUp p = true then SchedulerBecomes p { s.scheds[p] with pending := true } s (s.applyPort p)
    else StagingApplied p s (s.applyPort p) := by
  unfold State.applyPort
  split_ifs
  · exact .of_mod s p fun x => { x with pending := true }
  · exact s.applyStaging_spec p

end Sys2Proof.Machine

namespace Sys2Proof.Claims

open Sys2Proof.Machine

/-- Settles O39: the ports of the set one after another, and the pending flags read after the last. -/
theorem applyScheduleByLinkState : Obligations.ApplyScheduleByLinkState := fun s _ h =>
  h.completesWith rfl (exec_applySchedule s) rfl (forPorts_spec _ _ State.applyPort_spec _ _)

end Sys2Proof.Claims
end

section
/-! SET_FLOW: the thresholds of one class stored, and its 24 map entries tested again (R115 to R117, R126, R127). -/

namespace Sys2Proof.Machine

/-! ### Entries tested again (R127) -/

theorem State.testEntry_held_port (s : State) {p q : Link} (h : q ≠ p) (c k : Class) :
    (s.testEntry p c).cmap.held[q][k] = s.cmap.held[q][k] := (s.testEntry_held p c q k).trans (if_neg fun e => h e.1)

/-- The version rises when the entry changes (R117). -/
theorem State.testEntry_version_eq (s : State) (p : Link) (c : Class) : (s.testEntry p c).cmap.version = s.cmap.version +
    BitVec.ofNat 16 (if (s.testEntry p c).cmap.held[p][c] != s.cmap.held[p][c] then 1 else 0) := by
  have htested := (s.testEntry_held p c p c).trans (if_pos ⟨rfl, rfl⟩)
  rw [State.testEntry_version, versionAfter_eq, htested]

section retest
variable (c : Class) (ps : List Link)

theorem State.retestClass_frame : ∀ s : State, s.retestClass c ps = { s with cmap := (s.retestClass c ps).cmap } := by
  induction ps with
  | nil => intro s; rfl
  | cons p ps ih => intro s; exact ih (s.testEntry p c)

theorem State.retestClass_thresholds : ∀ s : State, (s.retestClass c ps).cmap.thresholds = s.cmap.thresholds := by
  induction ps with
  | nil => intro s; rfl
  | cons p ps ih => intro s; exact ih (s.testEntry p c)

theorem State.retestClass_held : ∀ s : State, ps.Nodup → ∀ (q : Link) (k : Class), (s.retestClass c ps).cmap.held[q][k] =
    if k = c ∧ q ∈ ps then entryAfter s.cmap.held[q][k] (s.queue q k).length s.cmap.thresholds[k] else s.cmap.held[q][k] := by
  induction ps with
  | nil => intro s _ q k; exact (if_neg fun h => List.not_mem_nil h.2).symm
  | cons p ps ih =>
    intro s hn q k
    obtain ⟨hp, hn⟩ := List.nodup_cons.mp hn
    refine (ih (s.testEntry p c) hn q k).trans ?_
    rw [State.testEntry_thresholds, State.testEntry_queue, State.testEntry_held]
    by_cases hq : q = p
    · simp [hq, hp]
    · simp [hq]

theorem State.retestClass_version : ∀ s : State, ps.Nodup → (s.retestClass c ps).cmap.version = s.cmap.version +
    BitVec.ofNat 16 (ps.filter fun q => (s.retestClass c ps).cmap.held[q][c] != s.cmap.held[q][c]).length := by
  induction ps with
  | nil => intro s _; exact (BitVec.add_zero _).symm
  | cons p ps ih =>
    intro s hn
    obtain ⟨hp, hn⟩ := List.nodup_cons.mp hn
    have hhere : ((s.testEntry p c).retestClass c ps).cmap.held[p][c] = (s.testEntry p c).cmap.held[p][c] :=
      (State.retestClass_held c ps _ hn p c).trans (if_neg fun h => hp h.2)
    have hothers : (ps.filter fun q => ((s.testEntry p c).retestClass c ps).cmap.held[q][c] != (s.testEntry p c).cmap.held[q][c]) =
        ps.filter fun q => ((s.testEntry p c).retestClass c ps).cmap.held[q][c] != s.cmap.held[q][c] :=
      List.filter_congr fun q hq => by rw [s.testEntry_held_port (ne_of_mem_of_not_mem hq hp)]
    rw [State.retestClass, ih _ hn, hothers, State.testEntry_version_eq, BitVec.add_assoc, ← BitVec.ofNat_add, List.filter_cons, hhere,
      Nat.add_comm]
    split_ifs <;> rfl

end retest

/-- Thresholds stored for one class and its 24 entries tested again (R126, R127). -/
def State.setFlow (s : State) (c : Class) (x : Thresholds) : State :=
  State.retestClass { s with cmap := { s.cmap with thresholds := upd s.cmap.thresholds c x } } c (List.finRange 24)

section flow
variable (s : State) (c : Class) (x : Thresholds)

theorem State.setFlow_frame : s.setFlow c x = { s with cmap := (s.setFlow c x).cmap } :=
  State.retestClass_frame ..

theorem State.setFlow_thresholds (k : Class) :
    (s.setFlow c x).cmap.thresholds[k] = if k = c then x else s.cmap.thresholds[k] := by
  unfold State.setFlow
  rw [State.retestClass_thresholds]
  exact upd_get ..

theorem State.setFlow_held (q : Link) (k : Class) : (s.setFlow c x).cmap.held[q][k] =
    if k = c then entryAfter s.cmap.held[q][k] (s.queue q k).length x else s.cmap.held[q][k] := by
  refine (State.retestClass_held c _ _ (List.nodup_finRange 24) q k).trans ?_
  simp only [List.mem_finRange, and_true]
  split_ifs with hk
  · subst hk; rw [upd_same]; rfl
  · rfl

theorem State.setFlow_version : (s.setFlow c x).cmap.version = s.cmap.version +
    BitVec.ofNat 16 ((List.finRange 24).filter fun q => (s.setFlow c x).cmap.held[q][c] != s.cmap.held[q][c]).length :=
  State.retestClass_version c _ _ (List.nodup_finRange 24)

end flow

/-! ### The request (R126) -/

theorem exec_setFlow (s : State) : exec .setFlow s = .next (s.serve (· == 14) setFlowBody) := rfl

/-- The thresholds that a SET_FLOW gives. -/
def givenThresholds (r : Request) : Thresholds := ⟨(blockWord r 1).toNat, (blockWord r 2).toNat⟩

/-- The outputs of a SET_FLOW: the ports whose entries of class c are HELD, and the version. -/
def flowOutputs (c : Class) (s : State) : List (Nat × Word) :=
  [(3, portsLow (portsWhere fun p => s.cmap.held[p][c])), (4, portsHigh (portsWhere fun p => s.cmap.held[p][c])), (5, s.cmap.version)]

section body
variable {r : Request} {s : State} {c : Class}

theorem setFlowBody_badClass (h : 4 ≤ (lo8 (blockWord r 0)).toNat) : setFlowBody r s = .refuse .range := by
  unfold setFlowBody
  simp only [classOfByte_none h]

/-- SET_FLOW for a class in range: XOFF out of range, XON not below it, or the thresholds stored. -/
theorem setFlowBody_class (h : c.val = (lo8 (blockWord r 0)).toNat) : setFlowBody r s =
    if (blockWord r 1).toNat < 2 ∨ 12288 < (blockWord r 1).toNat then .refuse .range
    else if (blockWord r 1).toNat ≤ (blockWord r 2).toNat then .refuse .badParam
    else .done (s.setFlow c (givenThresholds r)) (flowOutputs c (s.setFlow c (givenThresholds r))) := by
  unfold setFlowBody
  rw [classOfByte_val h]
  rfl

theorem setFlowBody_outOfRange
    (h : 4 ≤ (lo8 (blockWord r 0)).toNat ∨ (blockWord r 1).toNat < 2 ∨ 12288 < (blockWord r 1).toNat) :
    setFlowBody r s = .refuse .range := by
  rcases Nat.lt_or_ge (lo8 (blockWord r 0)).toNat 4 with hc | hc
  · rw [setFlowBody_class (c := ⟨_, hc⟩) rfl, if_pos (by omega)]
  · exact setFlowBody_badClass hc

theorem setFlowBody_done (h : c.val = (lo8 (blockWord r 0)).toNat) (h1 : 2 ≤ (blockWord r 1).toNat) (h2 : (blockWord r 1).toNat ≤ 12288)
    (h3 : (blockWord r 2).toNat < (blockWord r 1).toNat) :
    setFlowBody r s = .done (s.setFlow c (givenThresholds r)) (flowOutputs c (s.setFlow c (givenThresholds r))) := by
  rw [setFlowBody_class h, if_neg (by omega), if_neg (by omega)]

/-- The entry after a test, by its state before (R116). -/
theorem entryAfter_eq (held : Bool) (length : Nat) (t : Thresholds) :
    entryAfter held length t = if held = true then decide (t.xon < length) else decide (t.xoff ≤ length) := by
  unfold entryAfter
  simp only [← decide_not, Nat.not_le]

end body

end Sys2Proof.Machine

namespace Sys2Proof.Claims

open Sys2Proof.Machine

/-- Settles O42: the checks in their order, then the thresholds stored and the 24 entries of the class tested in turn. -/
theorem setFlowTestsTheEntriesAgain : Obligations.SetFlowTestsTheEntriesAgain := by
  intro s r h X N
  refine ⟨fun hbad => h.refusedWith rfl (exec_setFlow s) rfl (setFlowBody_outOfRange hbad), fun hc h1 h2 h3 => ?_,
    fun c hc h1 h2 h3 => h.completesWith rfl (exec_setFlow s) (setFlowBody_done hc h1 h2 h3) ?_⟩
  · refine h.refusedWith rfl (exec_setFlow s) rfl ?_
    rw [setFlowBody_class (c := ⟨_, hc⟩) rfl, if_neg (by omega), if_pos h3]
  · refine ⟨(taken s).setFlow_frame c _, (taken s).setFlow_thresholds c _, fun p k => ?_, (taken s).setFlow_version c _⟩
    rw [State.setFlow_held, entryAfter_eq]
    rfl

end Sys2Proof.Claims
end

section
/-! What a command does to queues, map, Status Senders, SRU and notice records: one update after another. -/

namespace Sys2Proof.Machine

/-- Queues, map, Status Senders, status timing, SRU and notice records stand; the rest of the element may differ. -/
structure Aside (s t : State) : Prop where
  queues  : t.bm.queues = s.bm.queues
  cmap    : t.cmap = s.cmap
  senders : t.senders = s.senders
  timing  : t.timing = s.timing
  sru     : t.sru = s.sru
  kinds   : t.notices.kinds = s.notices.kinds

/-- One update of a part of the element, as the rule that it cites gives it. -/
inductive Update (s : State) : State → Prop
  /-- Whatever happens beside the parts named in `Aside`. -/
  | aside {t : State} (h : Aside s t) : Update s t
  /-- The storage part of a submission (R84). -/
  | stored {t : State} {cell : Cell} {c : Class} {vs : List (Link × Verdict)} (h : Stored s t cell c vs) : Update s t
  /-- A head entry removed (R87). -/
  | dequeued {t : State} {p : Link} {c : Class} {b : Nat} {rest : List Nat} (h : Dequeued s t p c b rest) : Update s t
  /-- A notice record replaced, its interval and pending count kept or given in range (R172, R173, R176). -/
  | record (k : NoticeKind) {n : NoticeState}
      (interval : n.interval = (s.kind k).interval ∨ 1 ≤ n.interval ∧ n.interval ≤ 256)
      (count : n.pendingCount = (s.kind k).pendingCount ∨ n.pendingCount ≤ 65535) : Update s (s.setKind k n)
  /-- The slot counts risen at the start of an egress slot (R122). -/
  | slotBegun (p : Link) : Update s (s.modSender p slotCountsRise)
  /-- A Status Sender told of a status cell sent, or of its link's entry to UP (R121, R124). -/
  | senderCleared (p : Link) (sent : Option (BitVec 16)) : Update s (s.modSender p fun _ => ⟨sent, 0, 0⟩)
  /-- The head request taken from the SRQ (R152). -/
  | popped : Update s s.popRequest
  /-- A request queued while there is room (R148). -/
  | queued (r : Request) (room : s.sru.srq.length < Config.srqDepth) : Update s { s with sru := { s.sru with srq := s.sru.srq ++ [r] } }
  /-- The element address set (R160). -/
  | addressed {id : Byte} (mask : Byte) (broadcast : Bool) (h : id ≠ 255) :
      Update s { s with sru := { s.sru with elementId := id, idMask := mask, broadcast := broadcast } }
  /-- The status timing set (R128). -/
  | timed {x : StatusTiming} (h : timingWf x = true) : Update s { s with timing := x }
  /-- The thresholds of one class set (R126, R127). -/
  | flowSet (c : Class) {x : Thresholds} (h : thresholdsWf x = true) : Update s (s.setFlow c x)
  /-- The free list and the map rebuilt, and every window closed, once all queues are flushed (R90, R120). -/
  | rebuilt (free : List Nat) (version : BitVec 16) (h : ∀ p c, s.queue p c = []) :
      Update s (s.rebuiltWith free (Vector.replicate 24 (Vector.replicate 4 false)) version)
  /-- RESET (R177). -/
  | powerOn (straps : Byte) (asserted : Bool) (pending : List Instr) (draws : Nat) : Update s (State.powerOn straps asserted pending draws)

/-- From s to t one update after another. -/
abbrev Updates : State → State → Prop := Relation.ReflTransGen Update

theorem Update.updates {s t : State} (h : Update s t) : Updates s t := .single h

theorem Aside.updates {s t : State} (h : Aside s t) : Updates s t := (Update.aside h).updates

/-! ### Updates of one block -/

section blocks
variable (s : State) (p : Link)

theorem State.modLink_aside (f : LinkPort → LinkPort) : Aside s (s.modLink p f) := ⟨rfl, rfl, rfl, rfl, rfl, rfl⟩

theorem State.modFifo_aside (f : IngressFifo → IngressFifo) : Aside s (s.modFifo p f) := ⟨rfl, rfl, rfl, rfl, rfl, rfl⟩

theorem State.modSched_aside (f : Scheduler → Scheduler) : Aside s (s.modSched p f) := ⟨rfl, rfl, rfl, rfl, rfl, rfl⟩

theorem State.setTx_aside (c : Option Cell) : Aside s (s.setTx p c) := ⟨rfl, rfl, rfl, rfl, rfl, rfl⟩

theorem State.bump_aside (c : Counter) : Aside s (s.bump p c).1 := ⟨rfl, rfl, rfl, rfl, rfl, rfl⟩

theorem State.withTables_aside (x : TableControl) : Aside s { s with tables := x } := ⟨rfl, rfl, rfl, rfl, rfl, rfl⟩

theorem State.transmit_aside (c : Cell) (cls : Class) : Aside s (s.transmit p c cls) := by
  rw [(s.transmit_spec p c cls).frame]
  exact ⟨rfl, rfl, rfl, rfl, rfl, rfl⟩

end blocks

/-! ### Counts, submissions and notices (R78 to R87, R165 to R174) -/

section counts
variable (s : State)

theorem State.removeHead_updates (p : Link) (c : Class) : Updates s (s.removeHead p c) := by
  cases h : s.queue p c with
  | nil => rw [State.removeHead_empty h]
  | cons b rest => exact (Update.dequeued (s.removeHead_spec p c b rest h)).updates

theorem State.takeEvent_updates (k : NoticeKind) (d : Vector Byte 6) : Updates s (s.takeEvent k d).1 := by
  unfold State.takeEvent
  simp only
  split_ifs
  · refine (Update.record k ?_ ?_).updates
    · exact .inl rfl
    · exact .inr (Nat.min_le_right ..)
  · exact .refl

theorem State.countHeld_updates (p : Link) (c : Counter) : Updates s (s.countHeld p c).1 := by
  rw [State.countHeld_cases]
  split_ifs
  · exact (s.bump_aside p c).updates.trans (State.takeEvent_updates ..)
  · exact (s.bump_aside p c).updates

theorem countRefusals_updates (vs : List (Link × Verdict)) : ∀ s called, Updates s (countRefusals vs (s, called)).1 := by
  induction vs with
  | nil => intro s called; exact .refl
  | cons v vs ih =>
    obtain ⟨p, v⟩ := v
    intro s called
    unfold countRefusals
    split
    · exact ih s called
    · exact (s.countHeld_updates p _).trans (ih _ _)

theorem countLost_updates (ps : List Link) : ∀ s : State, Updates s (countLost ps s).1 := by
  induction ps with
  | nil => intro s; exact .refl
  | cons p ps ih => intro s; exact (s.bump_aside p _).updates.trans (ih _)

theorem countRspLost_updates (ps : List Link) : ∀ s called, Updates s (countRspLost ps (s, called)).1 := by
  induction ps with
  | nil => intro s called; exact .refl
  | cons p ps ih => intro s called; exact (s.countHeld_updates p _).trans (ih _ _)

theorem State.submit_updates (cell : Cell) {ports : List Link} (c : Class) (hn : ports.Nodup) :
    Updates s (s.submit cell ports c).s :=
  (Update.stored (s.submit_stored cell ports c hn)).updates.trans (countRefusals_updates _ _ false)

theorem State.emit_updates (k : NoticeKind) : Updates s (s.emit k).1 := by
  refine ((s.submit_updates _ 0 (portList_nodup _)).trans (countLost_updates _ _)).trans (Update.record k ?_ ?_).updates
  · exact .inl rfl
  · exact .inr (Nat.zero_le _)

theorem settle_updates (n : Nat) : ∀ ws s, Updates s (settle n ws s) := by
  induction n with
  | zero => intro ws s; exact .refl
  | succ n ih =>
    intro ws s
    match ws with
    | [] => exact .refl
    | .take k d :: ws =>
      rw [settle_take]
      split_ifs <;> exact (s.takeEvent_updates k d).trans (ih _ _)
    | .emit k :: ws =>
      rw [settle_emit]
      split_ifs
      · exact (s.emit_updates k).trans (ih _ _)
      · exact ih _ _

theorem State.notify_updates (k : NoticeKind) (d : Vector Byte 6) : Updates s (s.notify k d) := settle_updates _ _ _

theorem State.count_updates (p : Link) (c : Counter) : Updates s (s.count p c) := by
  rw [State.count_cases]
  split_ifs
  · exact (s.bump_aside p c).updates.trans (State.notify_updates ..)
  · exact (s.bump_aside p c).updates

theorem State.release_updates (called : Bool) : Updates s (s.release called) := by
  unfold State.release
  split_ifs
  · exact settle_updates _ _ _
  · exact .refl

theorem State.submitData_updates (cell : Cell) {ports : List Link} (c : Class) (hn : ports.Nodup) :
    Updates s (s.submitData cell ports c) :=
  (s.submit_updates cell c hn).trans (State.release_updates ..)

end counts

/-! ### Events in progress (R89, R155 to R157) -/

section events
variable (e : Ev) (p : Link)

theorem Ev.count_updates (c : Counter) : Updates e.s (e.count p c).s := by
  unfold Ev.count
  split_ifs
  · exact e.s.countHeld_updates p c
  · exact e.s.count_updates p c

theorem Ev.respond_updates (r : Request) (code : Code) (words : List Word) : Updates e.s (e.respond r code words).s := by
  have hlost (ps : List Link) (called : Bool) :=
    (e.s.submit_updates (responseCell e.s.sru.elementId r.number r.tag code words) 0 (List.nodup_singleton r.port)).trans
      (countRspLost_updates ps _ called)
  unfold Ev.respond
  simp only
  split_ifs
  · exact hlost _ _
  · exact (hlost _ _).trans (State.release_updates ..)

theorem Ev.answer_updates (r : Request) (code : Code) (outputs : List (Nat × Word)) : Updates e.s (e.answer r code outputs).s := by
  unfold Ev.answer
  split_ifs
  · exact .refl
  · exact e.respond_updates r code _

theorem flushEntries_updates (c : Class) (n : Nat) : ∀ e : Ev, Updates e.s (flushEntries p c n e).s := by
  induction n with
  | zero => intro e; exact .refl
  | succ n ih =>
    intro e
    exact ((e.s.removeHead_updates p c).trans (Ev.count_updates { e with s := e.s.removeHead p c } p .linkFlush)).trans (ih _)

theorem Ev.flushPort_updates : Updates e.s (e.flushPort p).s := by
  have hqueue (c : Class) (e : Ev) : Updates e.s (e.flushQueue p c).s := flushEntries_updates p c _ e
  exact (((hqueue 0 e).trans (hqueue 1 _)).trans (hqueue 2 _)).trans (hqueue 3 _)

theorem flushPorts_updates (ps : List Link) : ∀ e : Ev, Updates e.s (flushPorts ps e).s := by
  induction ps with
  | nil => intro e; exact .refl
  | cons p ps ih => intro e; exact (e.flushPort_updates p).trans (ih _)

theorem countFlushes_updates (n : Nat) : ∀ e : Ev, Updates e.s (countFlushes p n e).s := by
  induction n with
  | zero => intro e; exact .refl
  | succ n ih => intro e; exact (e.count_updates p .linkFlush).trans (ih _)

theorem Ev.emptyFifo_updates : Updates e.s (e.emptyFifo p).s := by
  have hcleared : Aside e.s (e.s.fifoCleared p) := ⟨rfl, rfl, rfl, rfl, rfl, rfl⟩
  rw [Ev.emptyFifo_eq]
  exact hcleared.updates.trans (countFlushes_updates p _ { e with s := e.s.fifoCleared p })

theorem emptyFifos_updates (ps : List Link) : ∀ e : Ev, Updates e.s (emptyFifos ps e).s := by
  induction ps with
  | nil => intro e; exact .refl
  | cons p ps ih => intro e; exact (e.emptyFifo_updates p).trans (ih _)

end events

/-! ### Link events (R15 to R26) -/

section links
variable (s : State) (p : Link)

theorem State.modLink_updates (f : LinkPort → LinkPort) : Updates s (s.modLink p f) := (s.modLink_aside p f).updates

theorem State.leaveUp_updates (reason : DownReason) (disable : Bool) : Updates s (s.leaveUp p reason disable) := by
  have hemptied := (s.modLink_updates p (portLeavesUp reason disable)).trans (Ev.emptyFifo_updates ⟨_, false, false⟩ p)
  have hclosed := (hemptied.trans (Ev.flushPort_updates _ p)).trans (State.modSched_aside _ p Scheduler.close).updates
  exact hclosed.trans (State.notify_updates ..)

theorem State.enterUp_updates : Updates s (s.enterUp p) := by
  unfold State.enterUp
  simp only
  refine Relation.ReflTransGen.trans ?_ (State.notify_updates ..)
  exact (s.modLink_updates p _).trans (Update.senderCleared p none).updates

theorem State.receiveTraining_updates (slot : SlotClass) : Updates s (s.receiveTraining p slot) := by
  have hlost (s : State) (c : Counter) : Updates s (s.runLost p c) :=
    (s.modLink_updates p fun l => { l with run := 0 }).trans (State.count_updates ..)
  cases slot with
  | noCell => exact .refl
  | headerError => exact hlost s .hdrErr
  | formatError => exact hlost s .formatErr
  | valid c h t =>
    have hheld := s.modLink_updates p fun l => { l with partnerHold := h.hold }
    unfold State.receiveTraining State.trainOn
    simp only
    split_ifs
    · exact hheld.trans (State.enterUp_updates ..)
    · exact hheld.trans (State.modLink_updates ..)
    · exact hheld.trans (hlost ..)

theorem State.writeFifo_updates (c : Cell) (gap : Bool) : Updates s (s.writeFifo p c gap) := by
  unfold State.writeFifo
  simp only
  split_ifs
  · exact (s.modFifo_aside p _).updates.trans (State.modLink_updates ..)
  · exact (s.modFifo_aside p _).updates.trans (State.count_updates ..)

theorem State.receiveTraffic_updates (c : Cell) (seq : Byte) : Updates s (s.receiveTraffic p c seq) := by
  have hcounted := (s.modLink_updates p fun l => { l with rxExpect := some (seq + 1) }).trans (State.count_updates _ p .rxCells)
  unfold State.receiveTraffic
  simp only
  refine Relation.ReflTransGen.trans ?_ (State.writeFifo_updates ..)
  split_ifs
  · exact hcounted.trans (State.count_updates ..)
  · exact hcounted

theorem State.receiveUp_updates (slot : SlotClass) : Updates s (s.receiveUp p slot) := by
  have hraised := s.modLink_updates p livenessRaised
  cases slot with
  | noCell =>
    rw [State.receiveUp_noCell]
    split_ifs
    · exact hraised.trans (State.leaveUp_updates ..)
    · exact hraised
  | formatError =>
    have hcounted : Updates s ((s.formatErrorSeen p).count p .formatErr) :=
      (hraised.trans (State.modFifo_aside ..).updates).trans (State.count_updates ..)
    rw [State.receiveUp_formatError]
    split_ifs
    · exact hcounted.trans (State.leaveUp_updates ..)
    · exact hcounted
  | headerError =>
    have hcounted : Updates s ((s.headerErrorSeen p).count p .hdrErr) :=
      ((s.modLink_updates p _).trans (State.modFifo_aside ..).updates).trans (State.count_updates ..)
    rw [State.receiveUp_headerError]
    split_ifs
    · exact hcounted.trans (State.leaveUp_updates ..)
    · exact hcounted.trans (State.leaveUp_updates ..)
    · exact hcounted
  | valid c h t =>
    have hreset := s.modLink_updates p (supervisionReset h.hold)
    rw [State.receiveUp_valid]
    split_ifs
    · exact hreset.trans (State.leaveUp_updates ..)
    · exact hreset
    · exact hreset.trans (State.receiveTraffic_updates ..)

theorem State.receive_updates (arrival : Option Cell) : Updates s (s.receive p arrival) := by
  unfold State.receive
  split_ifs
  · exact .refl
  · split
    · exact s.receiveTraining_updates p _
    · exact s.receiveUp_updates p _
    all_goals exact .refl

theorem State.attemptExpires_updates : Updates s (s.attemptExpires p) := by
  have hdrawn : Aside s { s with draws := s.draws + 1 } := ⟨rfl, rfl, rfl, rfl, rfl, rfl⟩
  unfold State.attemptExpires State.enterFailed State.enterHoldoff
  simp only
  split_ifs
  · exact .refl
  · exact (s.modLink_updates p _).trans (State.notify_updates ..)
  · exact hdrawn.updates.trans (State.modLink_updates ..)
  · exact hdrawn.updates.trans (State.modLink_updates ..)
  · exact .refl

theorem State.holdoffExpires_updates : Updates s (s.holdoffExpires p) := by
  unfold State.holdoffExpires
  split_ifs
  · exact .refl
  · exact s.modLink_updates p _
  · exact .refl

end links

/-! ### Forwarding (R42 to R67, R145 to R149) -/

section forwarding
variable (s : State) (p : Link)

theorem countEach_updates (c : Counter) (ps : List Link) : ∀ s : State, Updates s (countEach c ps s) := by
  induction ps with
  | nil => intro s; exact .refl
  | cons p ps ih => intro s; exact (s.count_updates p c).trans (ih _)

theorem State.forwardUnicast_updates (c : Cell) (e : RouteEntry) (cls : Class) : Updates s (s.forwardUnicast p c e cls) := by
  unfold State.forwardUnicast
  split_ifs
  · exact s.submitData_updates c cls (List.nodup_singleton _)
  · exact (s.count_updates _ _).trans (State.submitData_updates _ c cls (List.nodup_singleton _))
  · exact s.count_updates p _

theorem State.forwardMulticast_updates (c : Cell) (g : GroupEntry) (cls : Class) : Updates s (s.forwardMulticast p c g cls) := by
  have hpruned := countEach_updates .mcastPruned ((groupPorts g p).filter fun q => !s.isUp q) s
  unfold State.forwardMulticast
  simp only
  split_ifs
  · exact hpruned.trans (State.count_updates ..)
  · exact hpruned.trans (State.submitData_updates _ c cls ((groupPorts_nodup p g).filter _))

theorem State.forwardData_updates (c : Cell) : Updates s (s.forwardData p c) := by
  unfold State.forwardData
  simp only
  split
  · exact s.count_updates p _
  · exact s.count_updates p _
  · exact s.forwardUnicast_updates p c _ _
  · exact s.forwardMulticast_updates p c _ _

theorem State.handToSru_updates (c : Cell) : Updates s (s.handToSru p c) := by
  unfold State.handToSru State.queueRequest
  simp only
  split_ifs with _ hroom
  · exact (Update.queued _ hroom).updates
  · exact (Ev.respond_updates ⟨s, false, false⟩ _ _ _).trans (State.notify_updates ..)
  · exact s.count_updates p _

theorem State.forwardCell_updates (c : Cell) : Updates s (s.forwardCell p c) := by
  unfold State.forwardCell
  split
  · exact s.forwardData_updates p c
  · exact s.handToSru_updates p c
  · exact s.count_updates p _
  · exact s.count_updates p _
  · exact s.count_updates p _
  all_goals exact .refl

theorem State.forward_updates : Updates s s.forward := by
  have htaken (p : Link) (e : FifoEntry) (rest : List FifoEntry) : Aside s (s.takeEntry p e rest) := ⟨rfl, rfl, rfl, rfl, rfl, rfl⟩
  unfold State.forward
  split_ifs
  · exact .refl
  · split
    · exact .refl
    · split
      · exact .refl
      · exact (htaken ..).updates.trans (State.forwardCell_updates ..)

end forwarding

/-! ### Egress slots (R98 to R107, R122 to R124) -/

section egress
variable (s : State) (p : Link)

theorem State.applyStaging_updates : Updates s (s.applyStaging p) :=
  (s.modSched_aside p fun x => { x.close with active := x.staging, pending := false }).updates.trans (State.notify_updates ..)

theorem State.sendHead_updates (c : Class) : Updates s (s.sendHead p c) := by
  unfold State.sendHead
  split
  · exact .refl
  · exact ((s.removeHead_updates p c).trans (State.transmit_aside ..).updates).trans (State.count_updates ..)

theorem State.spendBudget_updates (w b : Nat) : Updates s (s.spendBudget p w b) := by
  have hclosed := (s.modSched_aside p Scheduler.close).updates
  unfold State.spendBudget State.advanceWindow
  simp only
  split_ifs
  · exact (s.modSched_aside p _).updates
  · exact hclosed.trans (State.applyStaging_updates ..)
  · exact hclosed
  · exact (s.modSched_aside p _).updates

theorem State.fixedSlot_updates : Updates s (s.fixedSlot p) := by
  unfold State.fixedSlot
  refine Relation.ReflTransGen.trans ?_ (State.spendBudget_updates ..)
  split_ifs
  · exact (s.transmit_aside p _ _).updates
  · exact s.sendHead_updates p _

theorem State.foundSlot_updates (w b : Nat) : Updates s (s.foundSlot p w b) := by
  have hsent := s.sendHead_updates p (windowAt s.scheds[p].active w).cls
  unfold State.foundSlot
  simp only
  split
  · exact hsent.trans (State.modSched_aside ..).updates
  · exact hsent.trans (State.spendBudget_updates ..)
  · exact hsent.trans (State.spendBudget_updates ..)

theorem State.idleSlot_updates : Updates s (s.idleSlot p) := by
  have hidle := (s.transmit_aside p idleCell 0).updates.trans
    (State.modSched_aside _ p fun x => { x with isOpen := false, budget := 0 }).updates
  unfold State.idleSlot
  simp only
  split_ifs
  · exact hidle.trans (State.applyStaging_updates ..)
  · exact hidle

theorem State.servedSlot_updates (rounds : Nat) : ∀ s : State, Updates s (State.servedSlot p rounds s) := by
  induction rounds with
  | zero => intro s; exact .refl
  | succ rounds ih =>
    intro s
    unfold State.servedSlot
    simp only
    split_ifs
    · exact s.fixedSlot_updates p
    · split
      · exact s.foundSlot_updates p _ _
      · exact s.idleSlot_updates p
      · exact (s.applyStaging_updates p).trans (ih _)

theorem State.slotUp_updates : Updates s (s.slotUp p) := by
  have hbegun : Updates s (s.modSender p slotCountsRise) := (Update.slotBegun p).updates
  unfold State.slotUp State.sendStatus
  simp only
  split_ifs
  · exact ((hbegun.trans (State.transmit_aside ..).updates).trans (Update.senderCleared p _).updates).trans (State.count_updates ..)
  · exact hbegun.trans (State.transmit_aside ..).updates
  · exact hbegun.trans (State.servedSlot_updates p 2 _)

theorem State.egress_updates : Updates s (s.egress p) := by
  have hquiet := (s.setTx_aside p none).updates
  unfold State.egress
  by_cases hreset : s.resetAsserted = true
  · rw [if_pos hreset]
    exact hquiet
  · rw [if_neg hreset]
    cases s.links[p].state with
    | up => exact s.slotUp_updates p
    | training =>
      show Updates s (if s.links[p].acknowledged then s.sendIdle p else s.transmit p trainCell 0)
      split_ifs
      · exact (s.transmit_aside p _ _).updates
      · exact (s.transmit_aside p _ _).updates
    | disabled => exact hquiet
    | holdoff => exact hquiet
    | failed => exact hquiet

end egress

end Sys2Proof.Machine
end

section
/-! The same of every request, and so of every command (R92, R95, R126 to R143, R151 to R162, R175 to R177). -/

namespace Sys2Proof.Machine

section requests
variable {r : Request} {s t : State} {outputs : List (Nat × Word)}

/-- A request is executed by the updates of its chapter, between its leaving the SRQ and its answer (R151 to R157). -/
theorem State.serve_updates (s : State) (mine : Nat → Bool) (body : Request → State → Reply)
    (h : ∀ r s t outputs, body r s = .done t outputs → Updates s t) : Updates s (s.serve mine body) := by
  have hpop : Updates s s.popRequest := Update.popped.updates
  rcases s.serve_answered mine body with hidle | ⟨s1, r, code, outputs, hserve, rfl | hdone⟩
  · rw [hidle]
  · rw [hserve]; exact hpop.trans (Ev.answer_updates ⟨s.popRequest, false, false⟩ r code outputs)
  · rw [hserve]; exact (hpop.trans (h r _ s1 outputs hdone)).trans (Ev.answer_updates ⟨s1, false, false⟩ r code outputs)

theorem forPorts_updates {f : State → Link → State} (h : ∀ s p, Updates s (f s p)) (ps : List Link) :
    ∀ s, Updates s (forPorts f ps s) := by
  induction ps with
  | nil => intro s; exact .refl
  | cons p ps ih => intro s; exact (h s p).trans (ih _)

/-! ### Chapters 5 and 7 -/

theorem setAdmissionBody_updates (h : setAdmissionBody r s = .done t outputs) : Updates s t := by
  obtain ⟨c, rfl, -⟩ := setAdmissionBody_done_eq h
  exact Aside.updates ⟨rfl, rfl, rfl, rfl, rfl, rfl⟩

theorem thresholdsWf_iff {x : Thresholds} : thresholdsWf x = true ↔ 2 ≤ x.xoff ∧ x.xoff ≤ Config.bufferCount ∧ x.xon < x.xoff := by
  simp only [thresholdsWf, Bool.and_eq_true, decide_eq_true_eq, and_assoc]

/-- What a SET_FLOW that is done has stored: thresholds in range (R115, R126). -/
theorem setFlowBody_done_eq (h : setFlowBody r s = .done t outputs) : ∃ c,
    t = s.setFlow c (givenThresholds r) ∧ thresholdsWf (givenThresholds r) = true := by
  rcases Nat.lt_or_ge (lo8 (blockWord r 0)).toNat 4 with hc | hc
  · rw [setFlowBody_class (c := ⟨_, hc⟩) rfl] at h
    obtain ⟨hrange, h⟩ := Reply.done_of_check h
    obtain ⟨hxon, h⟩ := Reply.done_of_check h
    obtain ⟨hlow, hhigh⟩ := not_or.mp hrange
    cases h
    exact ⟨_, rfl, thresholdsWf_iff.mpr ⟨Nat.not_lt.mp hlow, Nat.not_lt.mp hhigh, Nat.not_le.mp hxon⟩⟩
  · rw [setFlowBody_badClass hc] at h
    cases h

theorem setFlowBody_updates (h : setFlowBody r s = .done t outputs) : Updates s t := by
  obtain ⟨c, rfl, hwf⟩ := setFlowBody_done_eq h
  exact (Update.flowSet c hwf).updates

theorem setStatusTimingBody_updates (h : setStatusTimingBody r s = .done t outputs) : Updates s t := by
  cases h
  refine (Update.timed ?_).updates
  obtain ⟨hs1, hs2⟩ := clamp_le (by decide : 2 ≤ 64) (blockWord r 0).toNat
  obtain ⟨hr1, hr2⟩ := clamp_le (by decide : 256 ≤ 65535) (blockWord r 1).toNat
  simp only [timingWf, Bool.and_eq_true, decide_eq_true_eq]
  exact ⟨⟨⟨hs1, hs2⟩, hr1⟩, hr2⟩

theorem readBufferStateBody_updates (h : readBufferStateBody r s = .done t outputs) : Updates s t := by
  unfold readBufferStateBody at h
  split at h
  · cases h
  · cases h; exact .refl

/-! ### Chapters 9 and 10 -/

theorem setElementAddressBody_updates (h : setElementAddressBody r s = .done t outputs) : Updates s t := by
  obtain ⟨hid, h⟩ := Reply.done_of_check h
  cases h
  exact (Update.addressed _ _ hid).updates

theorem readCountersBody_updates (h : readCountersBody r s = .done t outputs) : Updates s t := by
  unfold readCountersBody at h
  simp only at h
  split at h
  · cases h
  · obtain ⟨-, h⟩ := Reply.done_of_check h
    obtain ⟨-, h⟩ := Reply.done_of_check h
    obtain ⟨-, h⟩ := Reply.done_of_check h
    cases h
    exact .refl

theorem clearCarryBody_updates (h : clearCarryBody r s = .done t outputs) : Updates s t := by
  unfold clearCarryBody at h
  simp only at h
  split at h
  · cases h
  · obtain ⟨-, h⟩ := Reply.done_of_check h
    cases h
    exact Aside.updates ⟨rfl, rfl, rfl, rfl, rfl, rfl⟩

/-- SET_NOTICE keeps the interval or clamps the one given, and keeps the pending count or clears it (R176). -/
theorem setNoticeBody_updates (h : setNoticeBody r s = .done t outputs) : Updates s t := by
  have hports (ports : BitVec 24) : Aside s { s with notices := { s.notices with ports := ports } } := ⟨rfl, rfl, rfl, rfl, rfl, rfl⟩
  unfold setNoticeBody at h
  simp only at h
  split at h
  · cases h
  next k _ =>
    cases h
    refine (hports _).updates.trans (Update.record k ?_ ?_).updates
    · show _ = (s.kind k).interval ∨ _
      split_ifs
      · exact .inr (clamp_le (by decide) _)
      · exact .inl rfl
      · exact .inr (clamp_le (by decide) _)
      · exact .inl rfl
    · show _ = (s.kind k).pendingCount ∨ _
      split_ifs
      · exact .inr (Nat.zero_le _)
      · exact .inr (Nat.zero_le _)
      · exact .inl rfl
      · exact .inl rfl

/-! ### Chapters 2, 3 and 6 -/

theorem writeScheduleBody_updates (h : writeScheduleBody r s = .done t outputs) : Updates s t := by
  obtain ⟨p, ws, rfl, -⟩ := writeScheduleBody_done_eq h
  exact (s.modSched_aside p _).updates

theorem State.applyPort_updates (s : State) (p : Link) : Updates s (s.applyPort p) := by
  unfold State.applyPort
  split_ifs
  · exact (s.modSched_aside p _).updates
  · exact s.applyStaging_updates p

theorem readScheduleBody_updates (h : readScheduleBody r s = .done t outputs) : Updates s t := by
  unfold readScheduleBody at h
  split at h
  · cases h
  · obtain ⟨-, h⟩ := Reply.done_of_check h
    cases h
    exact .refl

theorem State.linkAction_updates (s : State) (a : LinkAction) (p : Link) : Updates s (s.linkAction a p) := by
  rcases s.linkAction_cases a p with hs | ⟨disable, hs⟩ | ⟨-, hs | hs⟩
  · rw [hs]
  · rw [hs]; exact s.leaveUp_updates p _ _
  · rw [hs]; exact s.modLink_updates p _
  · rw [hs]; exact s.modLink_updates p _

theorem linkControlBody_updates (h : linkControlBody r s = .done t outputs) : Updates s t := by
  obtain ⟨a, rfl⟩ := linkControlBody_done_eq h
  exact forPorts_updates (fun s p => (s.modLink_updates p _).trans (State.linkAction_updates ..)) _ s

theorem readLinkStatusBody_updates (h : readLinkStatusBody r s = .done t outputs) : Updates s t := by
  unfold readLinkStatusBody at h
  split at h
  · cases h
  · cases h; exact .refl

/-! ### Chapter 8 -/

theorem writeRouteBody_updates (h : writeRouteBody r s = .done t outputs) : Updates s t := by
  unfold writeRouteBody at h
  obtain ⟨-, h⟩ := Reply.done_of_check h
  split at h
  · cases h
  · obtain ⟨-, h⟩ := Reply.done_of_check h
    split at h
    · cases h
    · cases h; exact (s.withTables_aside _).updates

theorem writeGroupBody_updates (h : writeGroupBody r s = .done t outputs) : Updates s t := by
  unfold writeGroupBody at h
  obtain ⟨-, h⟩ := Reply.done_of_check h
  split at h
  · cases h
  · cases h; exact (s.withTables_aside _).updates

theorem readEntries_updates {size : Nat} {words : Bank → Nat → List Word} (h : readEntries r s size words = .done t outputs) :
    Updates s t := by
  unfold readEntries at h
  obtain ⟨-, h⟩ := Reply.done_of_check h
  split at h
  · cases h
  · obtain ⟨-, h⟩ := Reply.done_of_check h
    obtain ⟨-, h⟩ := Reply.done_of_check h
    cases h
    exact .refl

theorem State.swap_updates (s : State) : Updates s s.swap := (s.withTables_aside _).updates.trans (State.notify_updates ..)

theorem commitRoutingBody_updates (h : commitRoutingBody r s = .done t outputs) : Updates s t := by
  unfold commitRoutingBody at h
  simp only at h
  split at h
  · cases h
  · cases h
  · split_ifs at h
    · cases h; exact s.swap_updates
    · cases h; exact (s.withTables_aside _).updates

theorem cancelCommitBody_updates (h : cancelCommitBody r s = .done t outputs) : Updates s t := by
  unfold cancelCommitBody at h
  split at h
  · cases h; exact (s.withTables_aside _).updates
  · cases h
  · cases h

theorem epochMarkBody_updates (h : epochMarkBody r s = .done t outputs) : Updates s t := by
  have hreached (s : State) : Updates s s.swapIfReached := by
    unfold State.swapIfReached
    split
    · split_ifs
      · exact .refl
      · exact s.swap_updates
    · exact .refl
    · exact .refl
  unfold epochMarkBody at h
  simp only at h
  split_ifs at h
  cases h
  exact (s.withTables_aside { s.tables with epoch := blockWord r 0 }).updates.trans (hreached _)

end requests

/-! ### The other commands -/

section commands
variable {s t : State}

theorem State.mirror_updates (s : State) : Updates s s.mirror := by
  unfold State.mirror
  split_ifs
  · exact .refl
  · split
    · unfold State.copyStep
      simp only
      split_ifs
      · exact (s.withTables_aside _).updates.trans (State.notify_updates ..)
      · exact (s.withTables_aside _).updates
    · exact .refl
    · exact .refl

/-- Steps 1 to 4: the queues are empty when the map is released (R162). -/
theorem State.resetDatapath_updates (s : State) : Updates s s.resetDatapath.s := by
  have hflushed : Updates s s.flushedOut.s := (emptyFifos_updates _ ⟨s, true, false⟩).trans (flushPorts_updates ..)
  rw [State.resetDatapath_eq]
  show Updates s s.flushedOut.s.rebuild
  rw [State.rebuild_eq]
  exact hflushed.trans (Update.rebuilt _ _ s.flushedOut_empty).updates

theorem State.executeReset_updates (s : State) (r : Request) : Updates s (s.executeReset r) := by
  have hpop : Updates s s.popRequest := Update.popped.updates
  unfold State.executeReset
  simp only
  split
  · exact hpop.trans (Ev.answer_updates ⟨s.popRequest, false, false⟩ r _ [])
  · exact ((hpop.trans (State.resetDatapath_updates _)).trans (Ev.answer_updates ..)).trans (State.release_updates ..)

theorem execDatapathReset_updates (h : execDatapathReset s = .next t) : Updates s t := by
  unfold execDatapathReset at h
  cases h
  split
  · exact .refl
  · exact s.executeReset_updates _

theorem exec_updates (c : Instr) (h : exec c s = .next t) : Updates s t := by
  cases c with
  | resetAssert => cases h; exact (Update.powerOn ..).updates
  | resetRelease straps => cases h; exact (Update.powerOn ..).updates
  | datapathReset => exact execDatapathReset_updates h
  | receiveSlot p arrival => cases h; exact s.receive_updates p arrival
  | attemptTimerExpiry p => cases h; exact s.attemptExpires_updates p
  | holdoffTimerExpiry p => cases h; exact s.holdoffExpires_updates p
  | forwardingEvent => cases h; exact s.forward_updates
  | egressSlot p => cases h; exact s.egress_updates p
  | mirrorCopyStep => cases h; exact s.mirror_updates
  | unknownRequest => cases h; exact s.serve_updates _ _ fun _ _ _ _ h => by cases h
  | identify => cases h; exact s.serve_updates _ _ fun _ _ _ _ h => by cases h; exact .refl
  | writeRoute => cases h; exact s.serve_updates _ _ fun _ _ _ _ => writeRouteBody_updates
  | readRoute => cases h; exact s.serve_updates _ _ fun _ _ _ _ => readEntries_updates
  | writeGroup => cases h; exact s.serve_updates _ _ fun _ _ _ _ => writeGroupBody_updates
  | readGroup => cases h; exact s.serve_updates _ _ fun _ _ _ _ => readEntries_updates
  | commitRouting => cases h; exact s.serve_updates _ _ fun _ _ _ _ => commitRoutingBody_updates
  | cancelCommit => cases h; exact s.serve_updates _ _ fun _ _ _ _ => cancelCommitBody_updates
  | epochMark => cases h; exact s.serve_updates _ _ fun _ _ _ _ => epochMarkBody_updates
  | readTableState => cases h; exact s.serve_updates _ _ fun _ _ _ _ h => by cases h; exact .refl
  | writeSchedule => cases h; exact s.serve_updates _ _ fun _ _ _ _ => writeScheduleBody_updates
  | applySchedule => cases h; exact s.serve_updates _ _ fun _ s _ _ h => by cases h; exact forPorts_updates State.applyPort_updates _ s
  | readSchedule => cases h; exact s.serve_updates _ _ fun _ _ _ _ => readScheduleBody_updates
  | setAdmission => cases h; exact s.serve_updates _ _ fun _ _ _ _ => setAdmissionBody_updates
  | setFlow => cases h; exact s.serve_updates _ _ fun _ _ _ _ => setFlowBody_updates
  | setStatusTiming => cases h; exact s.serve_updates _ _ fun _ _ _ _ => setStatusTimingBody_updates
  | readBufferState => cases h; exact s.serve_updates _ _ fun _ _ _ _ => readBufferStateBody_updates
  | linkControl => cases h; exact s.serve_updates _ _ fun _ _ _ _ => linkControlBody_updates
  | readLinkStatus => cases h; exact s.serve_updates _ _ fun _ _ _ _ => readLinkStatusBody_updates
  | clearLinkStatus =>
    cases h
    exact s.serve_updates _ _ fun _ s _ _ h => by cases h; exact forPorts_updates (fun s p => (s.modFifo_aside p _).updates) _ s
  | readCounters => cases h; exact s.serve_updates _ _ fun _ _ _ _ => readCountersBody_updates
  | clearCarry => cases h; exact s.serve_updates _ _ fun _ _ _ _ => clearCarryBody_updates
  | setNotice => cases h; exact s.serve_updates _ _ fun _ _ _ _ => setNoticeBody_updates
  | setElementAddress => cases h; exact s.serve_updates _ _ fun _ _ _ _ => setElementAddressBody_updates

/-- An empty queue idles, and a command makes its updates whatever waits behind it. -/
theorem step_updates (h : step s = .next t) : Updates s t := by
  unfold step at h
  split at h
  · cases h; exact .refl
  next c rest _ =>
    have htaken : Aside s { s with pending := rest } := ⟨rfl, rfl, rfl, rfl, rfl, rfl⟩
    exact htaken.updates.trans (exec_updates c h)

/-- What every update keeps is kept by every step. -/
theorem invariant_of_updates {I : State → Prop} (hI : ∀ {s t}, I s → Update s t → I t) (hs : I s) (h : step s = .next t) : I t := by
  have hupdates := step_updates h
  clear h
  induction hupdates with
  | refl => exact hs
  | tail _ hu ih => exact hI ih hu

end commands

end Sys2Proof.Machine
end

section
/-! The Congestion Map, the SRU, the Status Senders and the notice records stay in order from update to update (R115 to R127, R144 to
R149, R171 to R176). -/

namespace Sys2Proof.Machine

/-! ### The Congestion Map -/

/-- A map entry that agrees with its queue's length: HELD at or above XOFF, FLOWING at or below XON (R116). -/
structure EntryWf (x : Thresholds) (length : Nat) (held : Bool) : Prop where
  above : x.xoff ≤ length → held = true
  below : length ≤ x.xon → held = false

theorem mapWf_iff {s : State} : MapWf s ↔ (∀ c : Class, thresholdsWf s.cmap.thresholds[c] = true) ∧
    ∀ (p : Link) (c : Class), EntryWf s.cmap.thresholds[c] (s.queue p c).length s.cmap.held[p][c] :=
  ⟨fun h => ⟨h.thresholds, fun p c => ⟨h.held p c, h.flowing p c⟩⟩,
    fun ⟨ht, he⟩ => ⟨ht, fun p c => (he p c).above, fun p c => (he p c).below⟩⟩

/-- A test makes an entry agree with its queue, whatever it was before. -/
theorem entryAfter_wf {x : Thresholds} (h : thresholdsWf x = true) (held : Bool) (length : Nat) :
    EntryWf x length (entryAfter held length x) := by
  obtain ⟨-, -, hlt⟩ := thresholdsWf_iff.mp h
  rw [entryAfter_eq]
  refine ⟨fun hx => ?_, fun hx => ?_⟩
  · split_ifs <;> (rw [decide_eq_true_eq]; omega)
  · split_ifs <;> (rw [decide_eq_false_iff_not]; omega)

/-- FLOWING agrees with an empty queue. -/
theorem EntryWf.flowing_of_empty {x : Thresholds} (h : thresholdsWf x = true) : EntryWf x 0 false :=
  ⟨fun hx => absurd (thresholdsWf_iff.mp h).1 (by omega), fun _ => rfl⟩

section map
variable {s t : State}

/-- Thresholds stand, and every entry either stands beside its queue or has been tested against it. -/
theorem MapWf.tested (h : MapWf s) (hthresholds : t.cmap.thresholds = s.cmap.thresholds)
    (hentries : ∀ (p : Link) (c : Class), t.queue p c = s.queue p c ∧ t.cmap.held[p][c] = s.cmap.held[p][c] ∨
      t.cmap.held[p][c] = entryAfter s.cmap.held[p][c] (t.queue p c).length s.cmap.thresholds[c]) : MapWf t := by
  obtain ⟨ht, he⟩ := mapWf_iff.mp h
  rw [mapWf_iff, hthresholds]
  refine ⟨ht, fun p c => ?_⟩
  rcases hentries p c with ⟨hqueue, hheld⟩ | hheld
  · rw [hqueue, hheld]; exact he p c
  · rw [hheld]; exact entryAfter_wf (ht c) _ _

theorem MapWf.congr (h : MapWf s) (hqueues : t.bm.queues = s.bm.queues) (hmap : t.cmap = s.cmap) : MapWf t :=
  h.tested (by rw [hmap]) fun p c => .inl ⟨by unfold State.queue; rw [hqueues], by rw [hmap]⟩

theorem MapWf.stored (h : MapWf s) {cell : Cell} {c : Class} {vs : List (Link × Verdict)} (hs : Stored s t cell c vs) : MapWf t := by
  by_cases h0 : admittedPorts vs = [] ∨ s.bm.free = []
  · rw [hs.1 h0]; exact h
  · obtain ⟨hadmitted, hfree⟩ := not_or.mp h0
    obtain ⟨b, rest, hb⟩ := List.exists_cons_of_ne_nil hfree
    have hp := hs.2 b rest hadmitted hb
    refine h.tested hp.thresholds fun p k => ?_
    rw [hp.queues, hp.held]
    split_ifs
    · exact .inr (by rw [List.length_append, List.length_singleton])
    · exact .inl ⟨rfl, rfl⟩

theorem MapWf.dequeued (h : MapWf s) {p : Link} {c : Class} {b : Nat} {rest : List Nat} (hd : Dequeued s t p c b rest) : MapWf t := by
  refine h.tested hd.thresholds fun q k => ?_
  rw [hd.queues, hd.held]
  split_ifs
  · exact .inr rfl
  · exact .inl ⟨rfl, rfl⟩

theorem State.setFlow_queue (s : State) (c : Class) (x : Thresholds) (p : Link) (k : Class) :
    (s.setFlow c x).queue p k = s.queue p k := by
  have hbm : (s.setFlow c x).bm = s.bm := by rw [State.setFlow_frame]
  unfold State.queue
  rw [hbm]

theorem MapWf.setFlow (h : MapWf s) (c : Class) {x : Thresholds} (hx : thresholdsWf x = true) : MapWf (s.setFlow c x) := by
  have hthresholds := s.setFlow_thresholds c x
  have hheld := s.setFlow_held c x
  have hqueue := s.setFlow_queue c x
  generalize s.setFlow c x = t at *
  obtain ⟨ht, he⟩ := mapWf_iff.mp h
  refine mapWf_iff.mpr ⟨fun k => ?_, fun p k => ?_⟩
  · rw [hthresholds]
    split_ifs
    · exact hx
    · exact ht k
  · rw [hthresholds, hheld, hqueue]
    split_ifs
    · exact entryAfter_wf hx _ _
    · exact he p k

theorem MapWf.rebuiltWith (h : MapWf s) (hempty : ∀ p c, s.queue p c = []) {held : Vector (Vector Bool 4) 24}
    (hheld : ∀ (p : Link) (c : Class), held[p][c] = false) (free : List Nat) (version : BitVec 16) :
    MapWf (s.rebuiltWith free held version) := by
  refine mapWf_iff.mpr ⟨h.thresholds, fun p c => ?_⟩
  show EntryWf s.cmap.thresholds[c] (s.queue p c).length held[p][c]
  rw [hempty, hheld]
  exact .flowing_of_empty (h.thresholds c)

theorem allFlowing_entry (p : Link) (c : Class) : (Vector.replicate 24 (Vector.replicate 4 false))[p][c] = false := by simp

theorem MapWf.update (h : MapWf s) (hu : Update s t) : MapWf t := by
  cases hu with
  | aside ha => exact h.congr ha.queues ha.cmap
  | stored hs => exact h.stored hs
  | dequeued hd => exact h.dequeued hd
  | flowSet c hx => exact h.setFlow c hx
  | rebuilt free version hempty => exact h.rebuiltWith hempty allFlowing_entry free version
  | powerOn => exact .powerOn _ rfl rfl
  | record | slotBegun | senderCleared | popped | queued | addressed | timed => exact h.congr rfl rfl

end map

/-! ### The SRU, the Status Senders and the notice records -/

/-- The slot counts of a Status Sender: since the status cell up to 64, and since the refresh up to 65,535 (R121, R122). -/
def SlotCountsWf (x : StatusSender) : Prop := x.sinceRefresh ≤ 65535 ∧ x.sinceStatus = min x.sinceRefresh 64

theorem SlotCountsWf.rise {x : StatusSender} (h : SlotCountsWf x) : SlotCountsWf (slotCountsRise x) := by
  obtain ⟨hrefresh, hstatus⟩ := h
  simp only [SlotCountsWf, slotCountsRise, Config.statusSlotLimit, Config.refreshSlotLimit]
  omega

section services
variable {s t : State}

theorem ServiceWf.congr (h : ServiceWf s) (hsru : t.sru = s.sru) (htiming : t.timing = s.timing) (hsenders : t.senders = s.senders)
    (hkinds : t.notices.kinds = s.notices.kinds) : ServiceWf t where
  srq := by rw [hsru]; exact h.srq
  address := by rw [hsru]; exact h.address
  timing := by rw [htiming]; exact h.timing
  slots := by rw [hsenders]; exact h.slots
  notices := by unfold State.kind; rw [hkinds]; exact h.notices

theorem ServiceWf.modSender (h : ServiceWf s) (p : Link) {f : StatusSender → StatusSender} (hf : SlotCountsWf (f s.senders[p])) :
    ServiceWf (s.modSender p f) :=
  { h with
    slots := fun q => by
      rw [State.modSender_senders, upd_get]
      split_ifs
      · exact hf
      · exact h.slots q }

theorem ServiceWf.setKind (h : ServiceWf s) (k : NoticeKind) {n : NoticeState} (hinterval : 1 ≤ n.interval ∧ n.interval ≤ 256)
    (hcount : n.pendingCount ≤ 65535) : ServiceWf (s.setKind k n) :=
  { h with
    notices := fun j => by
      rw [State.setKind_kind]
      split_ifs
      · exact ⟨hinterval.1, hinterval.2, hcount⟩
      · exact h.notices j }

theorem ServiceWf.update (h : ServiceWf s) (hu : Update s t) : ServiceWf t := by
  cases hu with
  | aside ha => exact h.congr ha.sru ha.timing ha.senders ha.kinds
  | stored hs => rw [hs.frame]; exact h.congr rfl rfl rfl rfl
  | dequeued hd => rw [hd.frame]; exact h.congr rfl rfl rfl rfl
  | record k hinterval hcount =>
    obtain ⟨hlow, hhigh, hpending⟩ := h.notices k
    exact h.setKind k (hinterval.elim (fun e => by rw [e]; exact ⟨hlow, hhigh⟩) id) (hcount.elim (fun e => by rw [e]; exact hpending) id)
  | slotBegun p => exact h.modSender p (SlotCountsWf.rise (h.slots p))
  | senderCleared p => exact h.modSender p ⟨Nat.zero_le _, rfl⟩
  | popped => exact { h with srq := (List.tail_sublist _).length_le.trans h.srq }
  | queued r room => exact { h with srq := by rw [List.length_append]; exact room }
  | addressed mask broadcast hid => exact { h with address := hid }
  | timed hx => exact { h with timing := hx }
  | flowSet c => rw [State.setFlow_frame]; exact h.congr rfl rfl rfl rfl
  | rebuilt => exact h.congr rfl rfl rfl rfl
  | powerOn => exact .powerOn ..

end services

end Sys2Proof.Machine

namespace Sys2Proof.Claims

open Sys2Proof.Machine

/-- Settles O55: whichever queue changes, its entry is tested against the new length, and a test makes it agree. -/
theorem stepKeepsTheMap : Obligations.StepKeepsTheMap := fun _ _ => invariant_of_updates MapWf.update

/-- Settles O57: each update of these parts keeps its own range. -/
theorem stepKeepsTheServices : Obligations.StepKeepsTheServices := fun _ _ => invariant_of_updates ServiceWf.update

end Sys2Proof.Claims
end

section
/-! What leaves Table Control alone: all traffic, every port event, and every request but those of chapter 8. -/

namespace Sys2Proof.Machine

section effects
variable {s t : State}

theorem TrafficEffects.tables (h : TrafficEffects s t) : t.tables = s.tables := by rw [h.frame]

theorem NoticeEffects.tables (h : NoticeEffects s t) : t.tables = s.tables := h.traffic.tables

end effects

section operations
variable (s : State) (p : Link)

/-! ### Shared operations -/

@[simp] theorem State.notify_tables (k : NoticeKind) (d : Vector Byte 6) : (s.notify k d).tables = s.tables :=
  (s.notify_effects k d).tables

@[simp] theorem State.count_tables (c : Counter) : (s.count p c).tables = s.tables := (s.count_effects p c).tables

@[simp] theorem State.removeHead_tables (c : Class) : (s.removeHead p c).tables = s.tables := (s.removeHead_traffic p c).tables

@[simp] theorem State.transmit_tables (c : Cell) (cls : Class) : (s.transmit p c cls).tables = s.tables := by
  rw [(s.transmit_spec p c cls).frame]

@[simp] theorem State.applyStaging_tables : (s.applyStaging p).tables = s.tables := State.notify_tables ..

@[simp] theorem Ev.emptyFifo_tables (e : Ev) : (e.emptyFifo p).s.tables = e.s.tables := by
  have hcleared : (e.s.fifoCleared p).tables = e.s.tables := rfl
  exact (e.emptyFifo_effects p).tables.trans hcleared

@[simp] theorem Ev.flushPort_tables (e : Ev) : (e.flushPort p).s.tables = e.s.tables := (e.flushPort_traffic p).tables

@[simp] theorem State.leaveUp_tables (reason : DownReason) (disable : Bool) : (s.leaveUp p reason disable).tables = s.tables := by
  unfold State.leaveUp
  simp

@[simp] theorem State.enterUp_tables : (s.enterUp p).tables = s.tables := State.notify_tables ..

/-! ### Receive slots and timers (R13 to R26, R34 to R41) -/

theorem State.receiveTraining_tables (slot : SlotClass) : (s.receiveTraining p slot).tables = s.tables := by
  cases slot with
  | noCell => rfl
  | headerError => exact State.count_tables ..
  | formatError => exact State.count_tables ..
  | valid c h t =>
    unfold State.receiveTraining State.trainOn State.runLost
    simp only
    split_ifs <;> simp

@[simp] theorem State.writeFifo_tables (c : Cell) (gap : Bool) : (s.writeFifo p c gap).tables = s.tables := by
  unfold State.writeFifo
  simp only
  split_ifs <;> simp

@[simp] theorem State.receiveTraffic_tables (c : Cell) (seq : Byte) : (s.receiveTraffic p c seq).tables = s.tables := by
  unfold State.receiveTraffic
  simp only
  split_ifs <;> simp

theorem State.receiveUp_tables (slot : SlotClass) : (s.receiveUp p slot).tables = s.tables := by
  have hheader : (s.headerErrorSeen p).tables = s.tables := rfl
  have hformat : (s.formatErrorSeen p).tables = s.tables := rfl
  cases slot with
  | noCell => rw [State.receiveUp_noCell]; split_ifs <;> simp
  | headerError => rw [State.receiveUp_headerError]; split_ifs <;> simp [hheader]
  | formatError => rw [State.receiveUp_formatError]; split_ifs <;> simp [hformat]
  | valid c h t => rw [State.receiveUp_valid]; split_ifs <;> simp

theorem State.receive_tables (arrival : Option Cell) : (s.receive p arrival).tables = s.tables := by
  unfold State.receive
  split_ifs
  · rfl
  · split
    · exact s.receiveTraining_tables p _
    · exact s.receiveUp_tables p _
    all_goals rfl

theorem State.attemptExpires_tables : (s.attemptExpires p).tables = s.tables := by
  unfold State.attemptExpires State.enterFailed State.enterHoldoff
  simp only
  split_ifs <;> simp

theorem State.holdoffExpires_tables : (s.holdoffExpires p).tables = s.tables := by
  unfold State.holdoffExpires
  split_ifs <;> simp

/-! ### Forwarding (R42 to R67, R145 to R149) -/

theorem State.handToSru_tables (c : Cell) : (s.handToSru p c).tables = s.tables := by
  unfold State.handToSru State.queueRequest
  simp only
  split_ifs
  · rfl
  · exact (State.notify_tables ..).trans (Ev.respond_traffic ⟨s, false, false⟩ ..).tables
  · exact s.count_tables p _

theorem State.forwardCell_tables (c : Cell) : (s.forwardCell p c).tables = s.tables := by
  unfold State.forwardCell
  split
  · exact (s.forwardData_traffic p c).tables
  · exact s.handToSru_tables p c
  · exact s.count_tables p _
  · exact s.count_tables p _
  · exact s.count_tables p _
  all_goals rfl

theorem State.forward_tables : s.forward.tables = s.tables := by
  unfold State.forward
  split_ifs
  · rfl
  · split
    · rfl
    · split
      · rfl
      · exact State.forwardCell_tables ..

/-! ### Egress slots (R98 to R107, R122 to R124) -/

@[simp] theorem State.sendHead_tables (c : Class) : (s.sendHead p c).tables = s.tables := by
  unfold State.sendHead
  split <;> simp

@[simp] theorem State.spendBudget_tables (w b : Nat) : (s.spendBudget p w b).tables = s.tables := by
  unfold State.spendBudget State.advanceWindow
  simp only
  split_ifs <;> simp

theorem State.fixedSlot_tables : (s.fixedSlot p).tables = s.tables := by
  unfold State.fixedSlot State.sendIdle
  simp only
  split_ifs <;> simp

theorem State.foundSlot_tables (w b : Nat) : (s.foundSlot p w b).tables = s.tables := by
  unfold State.foundSlot
  simp only
  split <;> simp

theorem State.idleSlot_tables : (s.idleSlot p).tables = s.tables := by
  unfold State.idleSlot State.sendIdle
  simp only
  split_ifs <;> simp

theorem State.servedSlot_tables (rounds : Nat) : ∀ s : State, (State.servedSlot p rounds s).tables = s.tables := by
  induction rounds with
  | zero => intro s; rfl
  | succ rounds ih =>
    intro s
    unfold State.servedSlot
    simp only
    split_ifs
    · exact s.fixedSlot_tables p
    · split
      · exact s.foundSlot_tables p _ _
      · exact s.idleSlot_tables p
      · exact (ih _).trans (s.applyStaging_tables p)

theorem State.slotUp_tables : (s.slotUp p).tables = s.tables := by
  unfold State.slotUp State.sendStatus State.sendIdle
  simp only
  split_ifs
  · simp
  · simp
  · exact State.servedSlot_tables p 2 _

theorem State.egress_tables : (s.egress p).tables = s.tables := by
  unfold State.egress
  by_cases hreset : s.resetAsserted = true
  · rw [if_pos hreset]
    rfl
  · rw [if_neg hreset]
    split
    · exact s.slotUp_tables p
    · split_ifs
      · exact s.transmit_tables p _ _
      · exact s.transmit_tables p _ _
    all_goals rfl

end operations

/-! ### Requests of other chapters -/

section requests
variable {r : Request} {s t : State} {outputs : List (Nat × Word)}

theorem forPorts_tables {f : State → Link → State} (h : ∀ s p, (f s p).tables = s.tables) (ps : List Link) :
    ∀ s, (forPorts f ps s).tables = s.tables := by
  induction ps with
  | nil => intro s; rfl
  | cons p ps ih => intro s; exact (ih _).trans (h s p)

theorem setAdmissionBody_tables (h : setAdmissionBody r s = .done t outputs) : t.tables = s.tables := by
  obtain ⟨c, rfl, -⟩ := setAdmissionBody_done_eq h
  rfl

theorem setFlowBody_tables (h : setFlowBody r s = .done t outputs) : t.tables = s.tables := by
  obtain ⟨c, rfl, -⟩ := setFlowBody_done_eq h
  rw [State.setFlow_frame]

theorem readBufferStateBody_tables (h : readBufferStateBody r s = .done t outputs) : t.tables = s.tables := by
  unfold readBufferStateBody at h
  split at h
  · cases h
  · cases h; rfl

theorem writeScheduleBody_tables (h : writeScheduleBody r s = .done t outputs) : t.tables = s.tables := by
  obtain ⟨p, ws, rfl, -⟩ := writeScheduleBody_done_eq h
  rfl

theorem applyScheduleBody_tables (h : applyScheduleBody r s = .done t outputs) : t.tables = s.tables := by
  have hport (s : State) (p : Link) : (s.applyPort p).tables = s.tables := by
    unfold State.applyPort
    split_ifs <;> simp
  cases h
  exact forPorts_tables hport _ s

theorem readScheduleBody_tables (h : readScheduleBody r s = .done t outputs) : t.tables = s.tables := by
  unfold readScheduleBody at h
  split at h
  · cases h
  · obtain ⟨-, h⟩ := Reply.done_of_check h
    cases h
    rfl

theorem State.linkAction_tables (s : State) (a : LinkAction) (p : Link) : (s.linkAction a p).tables = s.tables := by
  rcases s.linkAction_cases a p with hs | ⟨disable, hs⟩ | ⟨-, hs | hs⟩ <;> simp [hs]

theorem linkControlBody_tables (h : linkControlBody r s = .done t outputs) : t.tables = s.tables := by
  obtain ⟨a, rfl⟩ := linkControlBody_done_eq h
  exact forPorts_tables (fun s p => (State.linkAction_tables ..).trans (s.modLink_tables p _)) _ s

theorem readLinkStatusBody_tables (h : readLinkStatusBody r s = .done t outputs) : t.tables = s.tables := by
  unfold readLinkStatusBody at h
  split at h
  · cases h
  · cases h; rfl

theorem clearLinkStatusBody_tables (h : clearLinkStatusBody r s = .done t outputs) : t.tables = s.tables := by
  cases h
  exact forPorts_tables (fun s p => s.modFifo_tables p _) _ s

theorem readCountersBody_tables (h : readCountersBody r s = .done t outputs) : t.tables = s.tables := by
  unfold readCountersBody at h
  simp only at h
  split at h
  · cases h
  · obtain ⟨-, h⟩ := Reply.done_of_check h
    obtain ⟨-, h⟩ := Reply.done_of_check h
    obtain ⟨-, h⟩ := Reply.done_of_check h
    cases h
    rfl

theorem clearCarryBody_tables (h : clearCarryBody r s = .done t outputs) : t.tables = s.tables := by
  unfold clearCarryBody at h
  simp only at h
  split at h
  · cases h
  · obtain ⟨-, h⟩ := Reply.done_of_check h
    cases h
    rfl

theorem setNoticeBody_tables (h : setNoticeBody r s = .done t outputs) : t.tables = s.tables := by
  unfold setNoticeBody at h
  simp only at h
  split at h
  · cases h
  · cases h; rfl

theorem setElementAddressBody_tables (h : setElementAddressBody r s = .done t outputs) : t.tables = s.tables := by
  obtain ⟨-, h⟩ := Reply.done_of_check h
  cases h
  rfl

theorem emptyFifos_tables (ps : List Link) : ∀ e : Ev, (emptyFifos ps e).s.tables = e.s.tables := by
  induction ps with
  | nil => intro e; rfl
  | cons p ps ih => intro e; exact (ih _).trans (e.emptyFifo_effects p).tables

theorem State.rebuiltWith_tables (s : State) (free : List Nat) (held : Vector (Vector Bool 4) 24) (version : BitVec 16) :
    (s.rebuiltWith free held version).tables = s.tables := rfl

theorem State.rebuild_tables (s : State) : s.rebuild.tables = s.tables := by
  rw [State.rebuild_eq]
  exact s.rebuiltWith_tables _ _ _

theorem State.flushedOut_tables (s : State) : s.flushedOut.s.tables = s.tables := by
  unfold State.flushedOut
  rw [(flushPorts_traffic ..).tables, emptyFifos_tables]

/-- Steps 1 to 4 of DATAPATH_RESET (R162). -/
theorem State.resetDatapath_tables (s : State) : s.resetDatapath.s.tables = s.tables := by
  rw [State.resetDatapath_eq]
  show s.flushedOut.s.rebuild.tables = s.tables
  rw [State.rebuild_tables, State.flushedOut_tables]

theorem State.executeReset_tables (s : State) (r : Request) : (s.executeReset r).tables = s.tables := by
  unfold State.executeReset
  simp only
  split
  · exact (Ev.answer_traffic ⟨s.popRequest, false, false⟩ r _ []).tables
  · rw [(State.release_effects ..).tables, (Ev.answer_traffic ..).tables]
    exact State.resetDatapath_tables _

end requests

end Sys2Proof.Machine
end

section
/-! What one command makes of Table Control: a bank written, copied, swapped or left (R129 to R143). -/

namespace Sys2Proof.Machine

/-! ### Epochs (R135) -/

theorem epochAhead_iff {x y : BitVec 16} : epochAhead x y = true ↔ 1 ≤ (y - x).toNat ∧ (y - x).toNat ≤ 32767 := by
  unfold epochAhead epochDistance
  exact Bool.and_eq_true_iff.trans (and_congr decide_eq_true_iff decide_eq_true_iff)

theorem not_epochAhead_iff {x y : BitVec 16} : ¬ epochAhead x y = true ↔ (y - x).toNat = 0 ∨ 32768 ≤ (y - x).toNat := by
  rw [epochAhead_iff]
  omega

/-- An epoch is ahead of another when the other lies more than half the circle ahead of it. -/
theorem epochAhead_iff_behind {x y : BitVec 16} : epochAhead x y = true ↔ 32768 < (x - y).toNat := by
  rw [epochAhead_iff]
  bv_omega

/-! ### The commit state and the copy of one entry, as operations on Table Control -/

/-- Table Control after a swap at an epoch (R136, R139). -/
def TableControl.swapped (x : TableControl) (epoch : BitVec 16) : TableControl :=
  { x with active := x.active.other, commit := .mirroring 0, epoch := epoch }

/-- Table Control after the copy step at progress p (R141). -/
def TableControl.copied (x : TableControl) (p : Nat) : TableControl :=
  { x.setBank x.staging (copyEntry (activeBank x) (stagingBank x) p) with
    commit := if p + 1 < 5120 then .mirroring (p + 1) else .idle }

section copy
variable (x : TableControl) (p : Nat)

@[simp] theorem TableControl.copied_commit : (x.copied p).commit = if p + 1 < 5120 then .mirroring (p + 1) else .idle := rfl

@[simp] theorem TableControl.copied_active : (x.copied p).active = x.active := (x.setBank_keeps ..).1

@[simp] theorem TableControl.copied_epoch : (x.copied p).epoch = x.epoch := by
  obtain ⟨-, -, hepoch⟩ := x.setBank_keeps x.staging (copyEntry (activeBank x) (stagingBank x) p)
  exact hepoch

theorem TableControl.copied_bank (i : BankId) :
    (x.copied p).bank i = if i = x.staging then copyEntry (activeBank x) (stagingBank x) p else x.bank i := by
  rw [← x.bank_setBank]
  cases i <;> rfl

theorem TableControl.copied_activeBank : (x.copied p).bank x.active = activeBank x := by
  rw [x.copied_bank]
  exact if_neg x.active.ne_other

theorem activeBank_copied : activeBank (x.copied p) = activeBank x := by
  unfold activeBank
  rw [x.copied_active]
  exact x.copied_activeBank p

theorem stagingBank_copied : stagingBank (x.copied p) = copyEntry (activeBank x) (stagingBank x) p := by
  unfold stagingBank TableControl.staging
  rw [x.copied_active, x.copied_bank]
  exact if_pos rfl

end copy

/-! ### Banks in canonical form (R129) -/

theorem tableFill_below {α : Type} [DecidableEq α] (d : α) {size : Nat} (vs : List α) : ∀ (t : List (Nat × α)) (first : Nat),
    tableBelow size t = true → first + vs.length ≤ size → tableBelow size (tableFill d t first vs) = true := by
  induction vs with
  | nil => intro t first h _; exact h
  | cons v vs ih =>
    intro t first h hfits
    rw [List.length_cons] at hfits
    exact ih _ _ (tableSet_below d t size first v h (by omega)) (by omega)

section banks
variable {b : Bank}

theorem bankWf_fillRoutes (h : bankWf b) {first : Nat} {es : List RouteEntry} (hfits : first + es.length ≤ 4096) :
    bankWf { b with routes := tableFill unusedRoute b.routes first es } := by
  obtain ⟨hform, hbelow, hgroups⟩ := h
  exact ⟨tableFill_wf unusedRoute es _ first hform, tableFill_below unusedRoute es _ first hbelow hfits, hgroups⟩

theorem bankWf_fillGroups (h : bankWf b) {first : Nat} {gs : List GroupEntry} (hfits : first + gs.length ≤ 1024) :
    bankWf { b with groups := tableFill emptyGroup b.groups first gs } := by
  obtain ⟨hroutes, hroutesBelow, hform, hbelow⟩ := h
  exact ⟨hroutes, hroutesBelow, tableFill_wf emptyGroup gs _ first hform, tableFill_below emptyGroup gs _ first hbelow hfits⟩

theorem bankWf_copyEntry (h : bankWf b) (src : Bank) {p : Nat} (hp : p < 5120) : bankWf (copyEntry src b p) := by
  obtain ⟨hroutes, hroutesBelow, hgroups, hgroupsBelow⟩ := h
  unfold copyEntry
  simp only
  split_ifs with hroute
  · exact ⟨tableSet_wf unusedRoute _ p _ hroutes, tableSet_below unusedRoute _ _ p _ hroutesBelow hroute, hgroups, hgroupsBelow⟩
  · have hgroup : p - Config.routeCount < Config.groupCount := by
      simp only [Config.routeCount, Config.groupCount] at hroute ⊢
      omega
    exact ⟨hroutes, hroutesBelow, tableSet_wf emptyGroup _ _ _ hgroups, tableSet_below emptyGroup _ _ _ _ hgroupsBelow hgroup⟩

/-- The copy at progress p writes route entry p, as long as there is one. -/
theorem copyEntry_route (h : bankWf b) (src : Bank) (p k : Nat) :
    (copyEntry src b p).route k = if k = p ∧ p < 4096 then src.route k else b.route k := by
  obtain ⟨hform, -⟩ := h
  unfold copyEntry
  by_cases hp : p < Config.routeCount
  · rw [if_pos hp]
    by_cases hk : k = p
    · rw [if_pos ⟨hk, hp⟩, hk]
      exact tableGet_set_same unusedRoute _ p _ hform
    · rw [if_neg fun e => hk e.1]
      exact tableGet_set_other unusedRoute _ p k _ hk
  · rw [if_neg hp, if_neg fun e => hp e.2]
    rfl

/-- The copy at progress p, behind the route entries, writes group entry p - 4096. -/
theorem copyEntry_group (h : bankWf b) (src : Bank) (p k : Nat) :
    (copyEntry src b p).group k = if 4096 + k = p then src.group k else b.group k := by
  obtain ⟨-, -, hform, -⟩ := h
  unfold copyEntry
  by_cases hp : p < Config.routeCount
  · have hk : ¬ 4096 + k = p := by simp only [Config.routeCount] at hp; omega
    rw [if_pos hp, if_neg hk]
    rfl
  · have hplace : 4096 + k = p ↔ k = p - Config.routeCount := by simp only [Config.routeCount] at hp ⊢; omega
    rw [if_neg hp]
    simp only [hplace]
    split_ifs with hk
    · rw [hk]
      exact tableGet_set_same emptyGroup _ _ _ hform
    · exact tableGet_set_other emptyGroup _ _ k _ hk

end banks

/-! ### The moves of Table Control -/

/-- What one command other than RESET makes of Table Control. -/
inductive TableMove (x : TableControl) : TableControl → Prop
  | stands : TableMove x x
  /-- The staging bank replaced, in IDLE, by one in canonical form (R131, R133). -/
  | staged (b : Bank) (idle : x.commit = .idle) (form : bankWf (stagingBank x) → bankWf b) : TableMove x (x.setBank x.staging b)
  /-- A commit requested for an epoch ahead (R137). -/
  | requested {target : BitVec 16} (ahead : epochAhead x.epoch target = true) : TableMove x { x with commit := .pending target }
  /-- A commit withdrawn (R140). -/
  | cancelled : TableMove x { x with commit := .idle }
  /-- The epoch moved short of the target, if there is one (R136). -/
  | advanced {epoch : BitVec 16} (short : ∀ target, x.commit = .pending target → epochAhead epoch target = true) :
    TableMove x { x with epoch := epoch }
  /-- The banks swapped (R139). -/
  | swapped (epoch : BitVec 16) : TableMove x (x.swapped epoch)
  /-- One entry copied (R141). -/
  | copied {p : Nat} (mirroring : x.commit = .mirroring p) : TableMove x (x.copied p)

theorem TableMove.of_eq {x y : TableControl} (h : y = x) : TableMove x y := h ▸ .stands

/-- No move writes the bank that is active (R130). -/
theorem TableMove.keeps_activeBank {x y : TableControl} (h : TableMove x y) : y.bank x.active = activeBank x := by
  have hroles (c : CommitState) (e : BitVec 16) (i : BankId) :
      ({ x with active := i, commit := c, epoch := e } : TableControl).bank x.active = activeBank x := by
    unfold activeBank
    cases x.active <;> rfl
  cases h with
  | stands => rfl
  | staged b => exact (x.bank_setBank ..).trans (if_neg x.active.ne_other)
  | copied => exact x.copied_activeBank _
  | requested | cancelled | advanced | swapped => exact hroles ..

/-! ### The invariant of Table Control (R129, R135, R138, R141) -/

/-- The invariant by the banks' names and the commit state. -/
theorem tablesWf_iff {x : TableControl} : TablesWf x ↔ (∀ i, bankWf (x.bank i)) ∧
    (∀ target, x.commit = .pending target → epochAhead x.epoch target = true) ∧
    ∀ p, x.commit = .mirroring p → p < 5120 ∧ Mirrored x p := by
  constructor
  · intro h
    refine ⟨fun i => ?_, fun target ht => epochAhead_iff.mpr (h.pending target ht), h.mirroring⟩
    cases i
    · exact h.bankA
    · exact h.bankB
  · rintro ⟨hbanks, hpending, hmirroring⟩
    exact ⟨hbanks .a, hbanks .b, fun target ht => epochAhead_iff.mp (hpending target ht), hmirroring⟩

/-- One more entry copied: it and the entries before it are equal in both banks. -/
theorem Mirrored.copied {x : TableControl} {p : Nat} (h : Mirrored x p) (hstaging : bankWf (stagingBank x)) :
    Mirrored (x.copied p) (p + 1) := by
  obtain ⟨hroutes, hgroups⟩ := h
  have hactive : (x.copied p).bank (x.copied p).active = activeBank x := activeBank_copied x p
  have hstaged : (x.copied p).bank (x.copied p).staging = copyEntry (activeBank x) (stagingBank x) p := stagingBank_copied x p
  unfold Mirrored
  rw [hactive, hstaged]
  simp only [Config.routeCount, Config.groupCount] at hroutes hgroups ⊢
  constructor
  · intro k hk hcopied
    rw [copyEntry_route hstaging]
    split_ifs with hlast
    · rfl
    · exact hroutes k hk (by omega)
  · intro k hk hcopied
    rw [copyEntry_group hstaging]
    split_ifs with hlast
    · rfl
    · exact hgroups k hk (by omega)

theorem TablesWf.move {x y : TableControl} (h : TablesWf x) (hm : TableMove x y) : TablesWf y := by
  obtain ⟨hbanks, hpending, hmirroring⟩ := tablesWf_iff.mp h
  have hroles (c : CommitState) (e : BitVec 16) (i j : BankId) :
      bankWf (({ x with active := i, commit := c, epoch := e } : TableControl).bank j) := by
    cases j
    · exact h.bankA
    · exact h.bankB
  rw [tablesWf_iff]
  cases hm with
  | stands => exact ⟨hbanks, hpending, hmirroring⟩
  | staged b hidle hform =>
    obtain ⟨-, hcommit, -⟩ := x.setBank_keeps x.staging b
    rw [hcommit, hidle]
    refine ⟨fun i => ?_, nofun, nofun⟩
    rw [x.bank_setBank]
    split_ifs
    · exact hform (hbanks _)
    · exact hbanks i
  | requested hahead => exact ⟨hroles _ _ _, fun _ ht => (by cases ht; exact hahead), nofun⟩
  | cancelled => exact ⟨hroles _ _ _, nofun, nofun⟩
  | advanced hshort => exact ⟨hroles _ _ _, hshort, hmirroring⟩
  | swapped epoch =>
    refine ⟨hroles _ _ _, nofun, fun p hp => ?_⟩
    cases hp
    exact ⟨by decide, fun k _ hk => absurd hk (Nat.not_lt_zero k), fun k _ hk => absurd hk (Nat.not_lt_zero _)⟩
  | @copied p hp =>
    obtain ⟨hlt, hcopied⟩ := hmirroring p hp
    refine ⟨fun i => ?_, fun target ht => ?_, fun q hq => ?_⟩
    · rw [x.copied_bank]
      split_ifs
      · exact bankWf_copyEntry (hbanks _) _ hlt
      · exact hbanks i
    · rw [x.copied_commit] at ht
      split_ifs at ht
    · rw [x.copied_commit] at hq
      split_ifs at hq with hmore
      cases hq
      exact ⟨hmore, hcopied.copied (hbanks _)⟩

/-! ### Swaps, copy steps and requests -/

@[simp] theorem State.swap_tables (s : State) : s.swap.tables = s.tables.swapped s.tables.epoch := State.notify_tables ..

/-- The state with its epoch counter moved (R136). -/
def State.withEpoch (s : State) (epoch : BitVec 16) : State := { s with tables := { s.tables with epoch := epoch } }

/-- No swap follows while the epoch is short of the target, if there is one (R136). -/
theorem State.swapIfReached_short {s : State} (h : ∀ target, s.tables.commit = .pending target → epochAhead s.tables.epoch target = true) :
    s.swapIfReached = s := by
  unfold State.swapIfReached
  split
  next target hpending => exact if_pos (h target hpending)
  · rfl
  · rfl

theorem State.swapIfReached_reached {s : State} {target : BitVec 16} (hpending : s.tables.commit = .pending target)
    (h : ¬ epochAhead s.tables.epoch target = true) : s.swapIfReached = s.swap := by
  unfold State.swapIfReached
  rw [hpending]
  exact if_neg h

/-- The copy step at progress p, with its notice after the last entry (R141). -/
theorem State.copyStep_eq (s : State) (p : Nat) : s.copyStep p = if p + 1 < 5120 then { s with tables := s.tables.copied p }
    else State.notify { s with tables := s.tables.copied p } .commitDone (commitDetail 2 s.tables.active s.tables.epoch) := by
  have hlast : Config.routeCount + Config.groupCount ≤ p + 1 ↔ ¬ p + 1 < 5120 := Nat.not_lt.symm
  unfold State.copyStep TableControl.copied
  simp only [hlast, ite_not]
  split_ifs <;> rfl

theorem State.mirror_move (s : State) : TableMove s.tables s.mirror.tables := by
  unfold State.mirror
  split_ifs
  · exact .stands
  · split
    next p hp =>
      have hcopied : (s.copyStep p).tables = s.tables.copied p := by
        rw [State.copyStep_eq]
        split_ifs
        · rfl
        · exact State.notify_tables ..
      rw [hcopied]
      exact .copied hp
    · exact .stands
    · exact .stands

/-- A request moves Table Control as its chapter does (R151 to R157). -/
theorem State.serve_move (s : State) (mine : Nat → Bool) (body : Request → State → Reply)
    (h : ∀ r s t outputs, body r s = .done t outputs → TableMove s.tables t.tables) :
    TableMove s.tables (s.serve mine body).tables := by
  rcases s.serve_cases mine body with hidle | ⟨m, rfl | ⟨r, outputs, hm⟩, heffects⟩
  · exact .of_eq (congrArg State.tables hidle)
  · exact .of_eq heffects.tables
  · rw [heffects.tables]
    exact h r s.popRequest m outputs hm

end Sys2Proof.Machine

namespace Sys2Proof.Claims

open Sys2Proof.Machine

/-! ### Requests of chapter 8 -/

section requests
variable {r : Request} {s t : State} {outputs : List (Nat × Word)}

theorem stagingWriteRefusal_eq_none {c : CommitState} (h : stagingWriteRefusal c = none) : c = .idle := by
  cases c with
  | idle => rfl
  | pending => cases h
  | mirroring => cases h

/-- A run that passes the checks ends within its table (R131, R133). -/
theorem runFits_of_check {size : Nat} (h : ¬ runOutOfRange (firstIndex r) (entryCount r) size = true) : RunFits r size :=
  not_not.mp (mt (runOutOfRange_iff r size).mpr h)

theorem writeRouteBody_move (h : writeRouteBody r s = .done t outputs) : TableMove s.tables t.tables := by
  unfold writeRouteBody at h
  obtain ⟨hrun, h⟩ := Reply.done_of_check h
  obtain ⟨-, -, -, hfits⟩ := runFits_of_check hrun
  split at h
  · cases h
  next es hgiven =>
    obtain ⟨hlength, -⟩ := (givenRoutes_eq_some r es).mp hgiven
    obtain ⟨-, h⟩ := Reply.done_of_check h
    split at h
    · cases h
    next hidle =>
      cases h
      exact .staged _ (stagingWriteRefusal_eq_none hidle) fun hwf => bankWf_fillRoutes hwf (hlength ▸ hfits)

theorem writeGroupBody_move (h : writeGroupBody r s = .done t outputs) : TableMove s.tables t.tables := by
  unfold writeGroupBody at h
  obtain ⟨hrun, h⟩ := Reply.done_of_check h
  obtain ⟨-, -, -, hfits⟩ := runFits_of_check hrun
  split at h
  · cases h
  next hidle =>
    cases h
    exact .staged _ (stagingWriteRefusal_eq_none hidle) fun hwf => bankWf_fillGroups hwf ((givenGroups_length r).symm ▸ hfits)

/-- The requests that read the tables leave the whole state as it is (R132, R134). -/
theorem readEntries_done_eq {size : Nat} {words : Bank → Nat → List Word} (h : readEntries r s size words = .done t outputs) :
    t = s := by
  unfold readEntries at h
  obtain ⟨-, h⟩ := Reply.done_of_check h
  split at h
  · cases h
  · obtain ⟨-, h⟩ := Reply.done_of_check h
    obtain ⟨-, h⟩ := Reply.done_of_check h
    cases h
    rfl

theorem commitRoutingBody_move (h : commitRoutingBody r s = .done t outputs) : TableMove s.tables t.tables := by
  unfold commitRoutingBody at h
  simp only at h
  split at h
  · cases h
  · cases h
  · split_ifs at h with _ hahead
    · cases h
      rw [State.swap_tables]
      exact .swapped _
    · cases h
      exact .requested hahead

theorem cancelCommitBody_move (h : cancelCommitBody r s = .done t outputs) : TableMove s.tables t.tables := by
  unfold cancelCommitBody at h
  split at h
  · cases h
    exact .cancelled
  · cases h
  · cases h

/-- The epoch counter moved, and the banks swapped when it reaches a target (R135, R136). -/
theorem epochMarkBody_move (h : epochMarkBody r s = .done t outputs) : TableMove s.tables t.tables := by
  unfold epochMarkBody at h
  simp only at h
  split_ifs at h
  cases h
  show TableMove s.tables (s.withEpoch (blockWord r 0)).swapIfReached.tables
  by_cases hshort : ∀ target, s.tables.commit = .pending target → epochAhead (blockWord r 0) target = true
  · rw [State.swapIfReached_short (s := s.withEpoch (blockWord r 0)) hshort]
    exact .advanced hshort
  · obtain ⟨target, hreached⟩ := not_forall.mp hshort
    obtain ⟨hpending, hbehind⟩ := Classical.not_imp.mp hreached
    rw [State.swapIfReached_reached (s := s.withEpoch (blockWord r 0)) hpending hbehind, State.swap_tables]
    exact .swapped (blockWord r 0)

end requests

/-! ### Every command -/

section commands
variable {s t : State}

theorem exec_move (c : Instr) (hassert : c ≠ .resetAssert) (hrelease : ∀ x, c ≠ .resetRelease x) (h : exec c s = .next t) :
    TableMove s.tables t.tables := by
  have aside (mine : Nat → Bool) {body : Request → State → Reply}
      (hb : ∀ r s t outputs, body r s = .done t outputs → t.tables = s.tables) : TableMove s.tables (s.serve mine body).tables :=
    s.serve_move mine body fun r s t outputs hdone => .of_eq (hb r s t outputs hdone)
  cases c with
  | resetAssert => exact absurd rfl hassert
  | resetRelease straps => exact absurd rfl (hrelease straps)
  | datapathReset =>
    have hreset : exec .datapathReset s = execDatapathReset s := rfl
    rw [hreset] at h
    unfold execDatapathReset at h
    cases h
    split
    · exact .stands
    · exact .of_eq (s.executeReset_tables _)
  | receiveSlot p arrival => cases h; exact .of_eq (s.receive_tables p arrival)
  | attemptTimerExpiry p => cases h; exact .of_eq (s.attemptExpires_tables p)
  | holdoffTimerExpiry p => cases h; exact .of_eq (s.holdoffExpires_tables p)
  | forwardingEvent => cases h; exact .of_eq s.forward_tables
  | egressSlot p => cases h; exact .of_eq (s.egress_tables p)
  | mirrorCopyStep => cases h; exact s.mirror_move
  | writeRoute => cases h; exact s.serve_move _ _ fun _ _ _ _ => writeRouteBody_move
  | writeGroup => cases h; exact s.serve_move _ _ fun _ _ _ _ => writeGroupBody_move
  | commitRouting => cases h; exact s.serve_move _ _ fun _ _ _ _ => commitRoutingBody_move
  | cancelCommit => cases h; exact s.serve_move _ _ fun _ _ _ _ => cancelCommitBody_move
  | epochMark => cases h; exact s.serve_move _ _ fun _ _ _ _ => epochMarkBody_move
  | readRoute => cases h; exact aside _ fun _ _ _ _ h => congrArg State.tables (readEntries_done_eq h)
  | readGroup => cases h; exact aside _ fun _ _ _ _ h => congrArg State.tables (readEntries_done_eq h)
  | readTableState => cases h; exact aside _ fun _ _ _ _ h => by cases h; rfl
  | unknownRequest => cases h; exact aside _ fun _ _ _ _ h => by cases h
  | identify => cases h; exact aside _ fun _ _ _ _ h => by cases h; rfl
  | writeSchedule => cases h; exact aside _ fun _ _ _ _ => writeScheduleBody_tables
  | applySchedule => cases h; exact aside _ fun _ _ _ _ => applyScheduleBody_tables
  | readSchedule => cases h; exact aside _ fun _ _ _ _ => readScheduleBody_tables
  | setAdmission => cases h; exact aside _ fun _ _ _ _ => setAdmissionBody_tables
  | setFlow => cases h; exact aside _ fun _ _ _ _ => setFlowBody_tables
  | setStatusTiming => cases h; exact aside _ fun _ _ _ _ h => by cases h; rfl
  | readBufferState => cases h; exact aside _ fun _ _ _ _ => readBufferStateBody_tables
  | linkControl => cases h; exact aside _ fun _ _ _ _ => linkControlBody_tables
  | readLinkStatus => cases h; exact aside _ fun _ _ _ _ => readLinkStatusBody_tables
  | clearLinkStatus => cases h; exact aside _ fun _ _ _ _ => clearLinkStatusBody_tables
  | readCounters => cases h; exact aside _ fun _ _ _ _ => readCountersBody_tables
  | clearCarry => cases h; exact aside _ fun _ _ _ _ => clearCarryBody_tables
  | setNotice => cases h; exact aside _ fun _ _ _ _ => setNoticeBody_tables
  | setElementAddress => cases h; exact aside _ fun _ _ _ _ => setElementAddressBody_tables

theorem exec_keeps_tablesWf (c : Instr) (hs : TablesWf s.tables) (h : exec c s = .next t) : TablesWf t.tables := by
  by_cases hassert : c = .resetAssert
  · subst hassert; cases h; exact .powerOn
  · by_cases hrelease : ∃ x, c = .resetRelease x
    · obtain ⟨x, rfl⟩ := hrelease; cases h; exact .powerOn
    · exact hs.move (exec_move c hassert (not_exists.mp hrelease) h)

end commands

/-- Settles O58: every command but RESET makes a move, and no move writes the active bank. -/
theorem activeBankIsNeverWritten : Obligations.ActiveBankIsNeverWritten := fun c _ _ hassert hrelease h =>
  (exec_move c hassert hrelease h).keeps_activeBank

/-- Settles O56: an empty queue idles, every move keeps the invariant, and RESET meets it. -/
theorem stepKeepsTheTables : Obligations.StepKeepsTheTables := by
  intro s t hs h
  unfold step at h
  split at h
  · cases h
    exact hs
  next c rest _ => exact exec_keeps_tablesWf (s := { s with pending := rest }) c hs h

end Sys2Proof.Claims
end

section
/-! The requests of chapter 8 that read, commit, cancel and mark, and the copy step (R132 to R143). -/

namespace Sys2Proof.Machine

/-! ### Reading the tables (R132, R134) -/

theorem bankOf_bankCode (name : BankId) : bankOf (bankCode name) = some name := by cases name <;> rfl

theorem bankOf_eq_none {b : Byte} (h : 2 ≤ b.toNat) : bankOf b = none := by
  have h0 : b ≠ 0 := fun e => absurd h (by rw [e]; decide)
  have h1 : b ≠ 1 := fun e => absurd h (by rw [e]; decide)
  unfold bankOf
  rw [if_neg h0, if_neg h1]

theorem readBlocked_iff {x : TableControl} {name : BankId} :
    readBlocked x name = true ↔ (∃ p, x.commit = .mirroring p) ∧ name = x.staging := by
  unfold readBlocked
  cases x.commit <;> simp

theorem outputsFrom_cons (position : Nat) (w : Word) (ws : List Word) :
    outputsFrom position (w :: ws) = (position, w) :: outputsFrom (position + 1) ws := by
  unfold outputsFrom
  rw [List.length_cons, List.range_succ_eq_map, List.map_cons, List.map_map]
  refine congrArg (List.cons _) (List.map_congr_left fun i _ => ?_)
  exact congrArg (Prod.mk · (ws.getD i 0)) (by omega)

theorem outputsFrom_append (xs ys : List Word) : ∀ position : Nat,
    outputsFrom position (xs ++ ys) = outputsFrom position xs ++ outputsFrom (position + xs.length) ys := by
  induction xs with
  | nil => intro position; rfl
  | cons x xs ih =>
    intro position
    rw [List.cons_append, outputsFrom_cons, outputsFrom_cons, ih, List.length_cons, Nat.add_right_comm]
    rfl

/-! ### Epochs and swaps (R136, R137, R139) -/

section commits
variable {r : Request} {s : State}

theorem commitRoutingBody_immediate (hidle : s.tables.commit = .idle) (hnow : (blockWord r 0).getLsbD 15 = true) :
    commitRoutingBody r s = .done s.swap [(2, bankCode s.tables.active.other ++ (2 : Byte)), (3, s.tables.epoch)] := by
  unfold commitRoutingBody
  simp only [hidle, hnow, if_true, State.swap_tables]
  rfl

theorem commitRoutingBody_ahead (hidle : s.tables.commit = .idle) (hnow : (blockWord r 0).getLsbD 15 = false)
    (h : epochAhead s.tables.epoch (blockWord r 1) = true) :
    commitRoutingBody r s = .done { s with tables := { s.tables with commit := .pending (blockWord r 1) } }
      [(2, bankCode s.tables.active ++ (1 : Byte)), (3, s.tables.epoch)] := by
  unfold commitRoutingBody
  simp only [hidle, hnow, h, if_true, Bool.false_eq_true, if_false]
  rfl

theorem commitRoutingBody_stale (hidle : s.tables.commit = .idle) (hnow : (blockWord r 0).getLsbD 15 = false)
    (h : ¬ epochAhead s.tables.epoch (blockWord r 1) = true) : commitRoutingBody r s = .refuse .epochStale := by
  unfold commitRoutingBody
  simp only [hidle, hnow, h, Bool.false_eq_true, if_false]

theorem commitRoutingBody_pending {target : BitVec 16} (h : s.tables.commit = .pending target) :
    commitRoutingBody r s = .refuse .commitPending := by
  unfold commitRoutingBody
  rw [h]

theorem commitRoutingBody_mirroring {p : Nat} (h : s.tables.commit = .mirroring p) : commitRoutingBody r s = .refuse .tableBusy := by
  unfold commitRoutingBody
  rw [h]

theorem cancelCommitBody_pending {target : BitVec 16} (h : s.tables.commit = .pending target) :
    cancelCommitBody r s = .done { s with tables := { s.tables with commit := .idle } } [(0, target)] := by
  unfold cancelCommitBody
  rw [h]

theorem cancelCommitBody_none (h : s.tables.commit = .idle ∨ ∃ p, s.tables.commit = .mirroring p) :
    cancelCommitBody r s = .refuse .noCommit := by
  unfold cancelCommitBody
  rcases h with hidle | ⟨p, hmirroring⟩
  · rw [hidle]
  · rw [hmirroring]

theorem readTableStateBody_eq {c : CommitState} (h : s.tables.commit = c) : readTableStateBody r s =
    .done s [(0, bankCode s.tables.active ++ commitCode c), (1, targetWord c), (2, s.tables.epoch), (3, progressWord c)] := by
  rw [← h]
  rfl

theorem epochMarkBody_ahead (h : epochAhead s.tables.epoch (blockWord r 0) = true) :
    epochMarkBody r s = .done (s.withEpoch (blockWord r 0)).swapIfReached
      [(1, (s.withEpoch (blockWord r 0)).swapIfReached.tables.epoch),
       (2, commitWord (s.withEpoch (blockWord r 0)).swapIfReached.tables)] := if_pos h

/-- A mark ahead, short of the target if there is one. -/
theorem epochMarkBody_short (hahead : epochAhead s.tables.epoch (blockWord r 0) = true)
    (h : ∀ target, s.tables.commit = .pending target → epochAhead (blockWord r 0) target = true) :
    epochMarkBody r s = .done (s.withEpoch (blockWord r 0))
      [(1, blockWord r 0), (2, bankCode s.tables.active ++ commitCode s.tables.commit)] := by
  rw [epochMarkBody_ahead hahead, State.swapIfReached_short (s := s.withEpoch (blockWord r 0)) h]
  rfl

/-- A mark ahead that reaches the target. -/
theorem epochMarkBody_reached (hahead : epochAhead s.tables.epoch (blockWord r 0) = true) {target : BitVec 16}
    (hpending : s.tables.commit = .pending target) (h : ¬ epochAhead (blockWord r 0) target = true) :
    epochMarkBody r s = .done (s.withEpoch (blockWord r 0)).swap
      [(1, blockWord r 0), (2, bankCode s.tables.active.other ++ (2 : Byte))] := by
  rw [epochMarkBody_ahead hahead, State.swapIfReached_reached (s := s.withEpoch (blockWord r 0)) hpending h, State.swap_tables]
  rfl

theorem epochMarkBody_stale (h : ¬ epochAhead s.tables.epoch (blockWord r 0) = true) : epochMarkBody r s = .refuse .epochStale :=
  if_neg h

end commits

end Sys2Proof.Machine

namespace Sys2Proof.Claims

open Sys2Proof.Machine

theorem Swapped.swap (s : State) : Swapped s.tables.epoch s s.swap := ⟨_, rfl, State.notify_spec ..⟩

theorem Swapped.swap_withEpoch (s : State) (epoch : BitVec 16) : Swapped epoch s (s.withEpoch epoch).swap :=
  ⟨_, rfl, State.notify_spec ..⟩

/-! ### READ_ROUTE and READ_GROUP (R132, R134) -/

section reads
variable {r : Request} {s : State} {size : Nat} {words : Bank → Nat → List Word}

/-- Entries of three words each, written one after another from position 2 on. -/
theorem outputsFrom_entries {words : Nat → List Word} (h : ∀ j, (words j).length = 3) (count : Nat) :
    outputsFrom 2 ((List.range count).flatMap words) = entryOutputs count words := by
  have hlength (n : Nat) : ((List.range n).flatMap words).length = 3 * n := by simp [List.length_flatMap, h, Nat.mul_comm]
  have hentry (n : Nat) : outputsFrom (2 + 3 * n) (words n) =
      [(2 + 3 * n, (words n).getD 0 0), (3 + 3 * n, (words n).getD 1 0), (4 + 3 * n, (words n).getD 2 0)] := by
    have h3 : 2 + 3 * n + 1 = 3 + 3 * n := by omega
    have h4 : 2 + 3 * n + 2 = 4 + 3 * n := by omega
    rw [← h3, ← h4]
    unfold outputsFrom
    rw [h]
    rfl
  induction count with
  | zero => rfl
  | succ n ih =>
    unfold entryOutputs at ih ⊢
    rw [List.range_succ, List.flatMap_append, List.flatMap_append, outputsFrom_append, ih, hlength, List.flatMap_singleton,
      List.flatMap_singleton, hentry]

theorem readEntries_outOfRange (h : ¬ RunFits r size ∨ 2 ≤ (hi8 (blockWord r 1)).toNat) :
    readEntries r s size words = .refuse .range := by
  unfold readEntries
  by_cases hfirst : size ≤ (blockWord r 0).toNat
  · exact if_pos hfirst
  · refine (if_neg hfirst).trans ?_
    rcases h with hrun | hbank
    · cases bankOf (hi8 (blockWord r 1)) with
      | none => rfl
      | some name => exact if_pos ((runOutOfRange_iff r size).mpr hrun)
    · rw [bankOf_eq_none hbank]

/-- A run in range of a bank that a code names: the check of the commit state, then the entries. -/
theorem readEntries_named (hfits : RunFits r size) {name : BankId} (hname : hi8 (blockWord r 1) = bankCode name) :
    readEntries r s size words = if readBlocked s.tables name then .refuse .tableBusy else
      .done s (outputsFrom 2 ((List.range (entryCount r)).flatMap fun j => words (s.tables.bank name) (firstIndex r + j))) := by
  have ⟨hfirst, _⟩ := hfits
  unfold readEntries
  refine (if_neg (Nat.not_le.mpr hfirst)).trans ?_
  rw [hname, bankOf_bankCode]
  exact if_neg (Bool.eq_false_iff.mp hfits.inRange)

variable {c : Instr} {n : Nat} (h : Accepted s r n 2) (hn : requestNeed n = some 2)
  (he : exec c s = .next (s.serve (· == n) fun r s => readEntries r s size words))
include h hn he

theorem readEntries_completes (hwords : ∀ b k, (words b k).length = 3) {name : BankId} (hfits : RunFits r size)
    (hname : hi8 (blockWord r 1) = bankCode name) (hmirroring : (∃ x, s.tables.commit = .mirroring x) → name = s.tables.active) :
    CompletesWith c s r (fun s1 => s1 = taken s) fun _ =>
      entryOutputs (entryCount r) fun j => words (s.tables.bank name) (firstIndex r + j) := by
  have hfree : ¬ readBlocked s.tables name = true := fun hblocked => by
    obtain ⟨hcommit, hstaging⟩ := readBlocked_iff.mp hblocked
    exact s.tables.active.ne_other ((hmirroring hcommit).symm.trans hstaging)
  refine h.completesWith hn he ?_ rfl
  rw [← outputsFrom_entries fun j => hwords _ _]
  exact (readEntries_named hfits hname).trans (if_neg hfree)

theorem readEntries_refuses_range (hbad : ¬ RunFits r size ∨ 2 ≤ (hi8 (blockWord r 1)).toNat) : RefusedWith c s r .range :=
  h.refusedWith hn he rfl (readEntries_outOfRange hbad)

theorem readEntries_refuses_tableBusy {x : Nat} (hfits : RunFits r size)
    (hname : hi8 (blockWord r 1) = bankCode s.tables.active.other) (hx : s.tables.commit = .mirroring x) :
    RefusedWith c s r .tableBusy :=
  h.refusedWith hn he rfl ((readEntries_named hfits hname).trans (if_pos (readBlocked_iff.mpr ⟨⟨x, hx⟩, rfl⟩)))

end reads

/-- Settles O33: routes and groups are read in one way, by entries of three words. -/
theorem tableReadsReturnTheNamedBank : Obligations.TableReadsReturnTheNamedBank := fun _ _ =>
  ⟨fun h => ⟨fun _ => readEntries_completes (words := fun b k => routeWords (b.route k)) h rfl rfl fun _ _ => rfl,
      readEntries_refuses_range h rfl rfl, fun _ => readEntries_refuses_tableBusy h rfl rfl⟩,
    fun h => ⟨fun _ => readEntries_completes (words := fun b k => groupWords (b.group k)) h rfl rfl fun _ _ => rfl,
      readEntries_refuses_range h rfl rfl, fun _ => readEntries_refuses_tableBusy h rfl rfl⟩⟩

/-! ### Commits and epochs (R136, R137, R140, R143) -/

theorem exec_commitRouting (s : State) : exec .commitRouting s = .next (s.serve (· == 6) commitRoutingBody) := rfl

theorem exec_cancelCommit (s : State) : exec .cancelCommit s = .next (s.serve (· == 7) cancelCommitBody) := rfl

theorem exec_epochMark (s : State) : exec .epochMark s = .next (s.serve (· == 8) epochMarkBody) := rfl

theorem exec_readTableState (s : State) : exec .readTableState s = .next (s.serve (· == 9) readTableStateBody) := rfl

/-- Settles O34: by the commit state, then by the immediate flag, then by the distance of the target. -/
theorem commitRoutingByCommitState : Obligations.CommitRoutingByCommitState := by
  intro s r h
  have refused {code : Code} (hc : code.returnsBlock = true) (hb : commitRoutingBody r (taken s) = .refuse code) :
      RefusedWith .commitRouting s r code := h.refusedWith rfl (exec_commitRouting s) hc hb
  refine ⟨fun hidle hnow => ?_, fun hidle hnow h1 h2 => ?_, fun hidle hnow hdistance => ?_, fun x hx => ?_, fun x hx => ?_⟩
  · exact h.completesWith rfl (exec_commitRouting s) (commitRoutingBody_immediate (s := taken s) hidle hnow)
      (Swapped.swap (taken s))
  · exact h.completesWith rfl (exec_commitRouting s)
      (commitRoutingBody_ahead (s := taken s) hidle hnow (epochAhead_iff.mpr ⟨h1, h2⟩)) rfl
  · exact refused rfl (commitRoutingBody_stale (s := taken s) hidle hnow (not_epochAhead_iff.mpr hdistance))
  · exact refused rfl (commitRoutingBody_pending (s := taken s) hx)
  · exact refused rfl (commitRoutingBody_mirroring (s := taken s) hx)

/-- Settles O35: by the commit state. -/
theorem cancelCommitAndReadTableState : Obligations.CancelCommitAndReadTableState := by
  refine fun s r => ⟨fun h => ⟨fun x hx => ?_, fun hnone => ?_⟩, fun h => ?_⟩
  · exact h.completesWith rfl (exec_cancelCommit s) (cancelCommitBody_pending (s := taken s) hx) rfl
  · exact h.refusedWith rfl (exec_cancelCommit s) rfl (cancelCommitBody_none (s := taken s) hnone)
  · have read {c : CommitState} (hc : s.tables.commit = c) : CompletesWith .readTableState s r (fun s1 => s1 = taken s) fun _ =>
        [(0, bankCode s.tables.active ++ commitCode c), (1, targetWord c), (2, s.tables.epoch), (3, progressWord c)] :=
      h.completesWith rfl (exec_readTableState s) (readTableStateBody_eq (s := taken s) hc) rfl
    cases hc : s.tables.commit with
    | idle => simpa only [commitCode, targetWord, progressWord] using read hc
    | pending x => simpa only [commitCode, targetWord, progressWord] using read hc
    | mirroring p => simpa only [commitCode, targetWord, progressWord, natWord] using read hc

/-- Settles O36: a mark ahead falls short of the target or reaches it, and any other mark is stale. -/
theorem epochMarkAdvancesTheCounter : Obligations.EpochMarkAdvancesTheCounter := by
  intro s r h m f
  refine ⟨fun h1 h2 hshort => ?_, fun h1 h2 x hx hreached => ?_, fun hstale => ?_⟩
  · exact h.completesWith rfl (exec_epochMark s) (epochMarkBody_short (s := taken s) (epochAhead_iff.mpr ⟨h1, h2⟩)
      fun x hx => epochAhead_iff_behind.mpr (hshort x hx)) rfl
  · exact h.completesWith rfl (exec_epochMark s) (epochMarkBody_reached (s := taken s) (epochAhead_iff.mpr ⟨h1, h2⟩) hx
      (mt epochAhead_iff_behind.mp (Nat.not_lt.mpr hreached))) (Swapped.swap_withEpoch (taken s) m)
  · exact h.refusedWith rfl (exec_epochMark s) rfl (epochMarkBody_stale (s := taken s) (not_epochAhead_iff.mpr hstale))

/-! ### MIRROR_COPY_STEP (R141) -/

theorem mirror_mirroring {s : State} (hr : s.resetAsserted = false) {p : Nat} (hp : s.tables.commit = .mirroring p) :
    s.mirror = s.copyStep p := by
  unfold State.mirror
  rw [hr, hp]
  rfl

theorem mirror_idle {s : State} (h : ∀ p, s.tables.commit ≠ .mirroring p) : s.mirror = s := by
  unfold State.mirror
  split_ifs
  · rfl
  · split
    next p hp => exact absurd hp (h p)
    · rfl
    · rfl

/-- Settles O37: the entry at progress p is copied, and after the last the mirroring ends with its notice. -/
theorem mirrorCopyStepCopiesOneEntry : Obligations.MirrorCopyStepCopiesOneEntry := by
  intro s hr
  refine ⟨fun p hp hlt hwf => ?_, fun h => congrArg Host.Outcome.next (mirror_idle h)⟩
  have hmore : p + 1 < 5120 ↔ ¬ p = 5119 := by omega
  refine ⟨{ s with tables := s.tables.copied p }, s.copyStep p, congrArg Host.Outcome.next (mirror_mirroring hr hp),
    ⟨rfl, s.tables.copied_active p, s.tables.copied_epoch p, activeBank_copied .., fun k => ?_, fun k => ?_, ?_⟩, ?_⟩
  · rw [stagingBank_copied]
    exact copyEntry_route hwf _ p k
  · rw [stagingBank_copied]
    exact copyEntry_group hwf _ p k
  · simp only [TableControl.copied_commit, hmore, ite_not]
  · rw [State.copyStep_eq]
    simp only [hmore, ite_not]
    split_ifs
    · exact State.notify_spec ..
    · rfl

end Sys2Proof.Claims
end

section
/-! Service requests at the SRU: the queue that takes them, the turn each waits for, and the requests about the element itself. -/

namespace Sys2Proof.Machine

variable {s : State} {r : Request}

/-! ### The SRQ takes a request (R147, R148) -/

theorem State.queueRequest_room (r : Request) (h : s.sru.srq.length ≤ 3) :
    s.queueRequest r = { s with sru := { s.sru with srq := s.sru.srq ++ [r] } } :=
  if_pos (Nat.lt_succ_of_le h)

theorem requestOf_block (p : Link) (c : Cell) (i : Fin 24) :
    (requestOf p c).block[i] = c.payload[4 + 2 * i.val] ++ c.payload[5 + 2 * i.val] := by
  rw [← payloadByte_eq c (4 + 2 * i.val) (by omega), ← payloadByte_eq c (5 + 2 * i.val) (by omega)]
  exact Vector.getElem_ofFn i.isLt

/-! ### The turn of a request (R151) -/

/-- Log 3: no head, or a head of another number, leaves a request's command without a request to execute. -/
theorem State.headFor_eq_none {mine : Nat → Bool}
    (h : s.sru.srq = [] ∨ ∃ r, s.sru.srq.head? = some r ∧ mine r.number.toNat = false) : s.headFor mine = none := by
  unfold State.headFor
  split_ifs
  · rfl
  · rcases h with hempty | ⟨r, hhead, hother⟩
    · rw [hempty]
    · obtain ⟨tail, hqueue⟩ := List.head?_eq_some_iff.mp hhead
      simp [hqueue, hother]

theorem exec_datapathReset_idle (h : s.headFor (· == 24) = none) : exec .datapathReset s = .next s := by
  show execDatapathReset s = _
  unfold execDatapathReset
  rw [h]

theorem exec_unknownRequest (s : State) : exec .unknownRequest s = .next (s.serve unknownNumber unknownRequestBody) := rfl

/-- The numbers 1 to 24 are those of the directory (R153). -/
theorem unknownNumber_defined {n : Nat} (h1 : 1 ≤ n) (h24 : n ≤ 24) : unknownNumber n = false := by
  have hdefined : ∀ k < 25, 1 ≤ k → unknownNumber k = false := by decide
  exact hdefined n (Nat.lt_succ_of_le h24) h1

/-! ### IDENTIFY and SET_ELEMENT_ADDRESS (R159 to R161) -/

theorem exec_identify (s : State) : exec .identify s = .next (s.serve (· == 1) identifyBody) := rfl

theorem exec_setElementAddress (s : State) : exec .setElementAddress s = .next (s.serve (· == 23) setElementAddressBody) := rfl

theorem setElementAddressBody_broadcastId (h : lo8 (blockWord r 0) = 255) : setElementAddressBody r s = .refuse .range := if_pos h

theorem setElementAddressBody_done (h : lo8 (blockWord r 0) ≠ 255) : setElementAddressBody r s =
    .done { s with sru := ⟨lo8 (blockWord r 0), lo8 (blockWord r 1), (blockWord r 1).getLsbD 8, s.sru.strap, s.sru.srq⟩ } [] :=
  if_neg h

end Sys2Proof.Machine

namespace Sys2Proof.Claims

open Sys2Proof.Machine

/-- Settles O24: taking the entry leaves the SRU alone, and the SRQ has room; the fields are those of the cell's payload. -/
theorem matchingRequestIsQueued : Obligations.MatchingRequestIsQueued := by
  intro s p e rest hf htype htarget hroom
  refine ⟨s.takeEntry p e rest, _, requestOf p e.cell, ?_, s.takeEntry_spec p e rest, rfl, rfl, payloadByte_eq _ 0 (by decide),
    payloadByte_eq _ 1 (by decide), congrArg (·.getLsbD 0) (payloadByte_eq _ 2 (by decide)),
    congrArg BitVec.toNat (payloadByte_eq _ 3 (by decide)), rfl, requestOf_block p e.cell⟩
  rw [hf.exec, State.forwardCell_mgmtReq _ p htype, State.handToSru_match (s := s.takeEntry p e rest) htarget,
    State.queueRequest_room (s := s.takeEntry p e rest) _ hroom]
  rfl

/-- Settles O27: in each case the head of the SRQ is none that the command stands for. -/
theorem requestsWaitForTheirTurn : Obligations.RequestsWaitForTheirTurn := by
  constructor
  · intro c n need s hmem hturn
    have hnone : s.headFor (· == n) = none :=
      State.headFor_eq_none (hturn.imp_right fun ⟨r, hhead, hother⟩ => ⟨r, hhead, beq_false_of_ne hother⟩)
    rcases exec_directory _ hmem with hreset | ⟨body, hexec⟩
    · obtain ⟨rfl, rfl, rfl⟩ := hreset
      exact exec_datapathReset_idle hnone
    · rw [hexec s, serve_idle _ body hnone]
  · intro s hturn
    have hnone : s.headFor unknownNumber = none :=
      State.headFor_eq_none (hturn.imp_right fun ⟨r, hhead, h1, h24⟩ => ⟨r, hhead, unknownNumber_defined h1 h24⟩)
    rw [exec_unknownRequest, serve_idle _ unknownRequestBody hnone]

/-- Settles O29: IDENTIFY reads the state from which its request was taken. -/
theorem identifyReturnsTheElement : Obligations.IdentifyReturnsTheElement := fun s _ h =>
  h.completesWith rfl (exec_identify s) (s1 := taken s) rfl rfl

/-- Settles O30: by whether the new ID is 255, the ID of every element. -/
theorem setElementAddressTakesEffect : Obligations.SetElementAddressTakesEffect := fun s _ h =>
  ⟨fun hid => h.completesWith rfl (exec_setElementAddress s) (setElementAddressBody_done (s := taken s) hid) rfl,
    fun hid => h.refusedWith rfl (exec_setElementAddress s) rfl (setElementAddressBody_broadcastId (s := taken s) hid)⟩

end Sys2Proof.Claims
end

section
/-! A count at the top of its counter: the wrap, and the COUNTER_CARRY event that it raises (R165, R166, R172 to R174). -/

namespace Sys2Proof.Machine

open Sys2Proof.Claims

section wrap
variable {s m t : State} {k : NoticeKind} {p : Link} {c : Counter}

theorem State.setKind_setKind (s : State) (k : NoticeKind) (n n' : NoticeState) : (s.setKind k n).setKind k n' = s.setKind k n' := by
  unfold State.setKind
  simp only [upd_upd]

/-- An event of an enabled kind, and whether it calls for an emission (R172). -/
theorem State.takeEvent_enabled (h : (s.kind k).enabled = true) (d : Vector Byte 6) :
    s.takeEvent k d = (s.setKind k (carryTaken (s.kind k) d),
      !(s.kind k).spent && decide ((s.kind k).interval ≤ min ((s.kind k).pendingCount + 1) 65535)) :=
  if_pos h

/-- A notice sent to no port has no copy to place and none to lose (R173). -/
theorem State.emit_noPorts (h : s.notices.ports = 0) (k : NoticeKind) :
    s.emit k = (s.setKind k (emittedRecord (s.kind k)), []) := by
  have hnone : portList s.notices.ports = [] := by rw [h]; rfl
  unfold State.emit
  rw [hnone]
  rfl

/-- An event with no notice port: the emission it calls for only changes the record (R172, R173). -/
theorem State.notify_noPorts (hports : s.notices.ports = 0) (hk : (s.kind k).enabled = true) (d : Vector Byte 6) :
    s.notify k d = s.setKind k (carryEmitted (s.kind k) d) := by
  unfold State.notify settleBound carryEmitted
  rw [settle_take, State.takeEvent_enabled hk]
  by_cases hquiet : (s.kind k).spent = true ∨ min ((s.kind k).pendingCount + 1) 65535 < (s.kind k).interval
  · have hflag : (!(s.kind k).spent && decide ((s.kind k).interval ≤ min ((s.kind k).pendingCount + 1) 65535)) = false := by
      rcases hquiet with hspent | hbelow
      · simp [hspent]
      · simp [Nat.not_le.mpr hbelow]
    rw [if_pos hquiet, hflag]
    exact settle_nil _ _
  · have hcalls : (s.kind k).spent = false ∧ (s.kind k).interval ≤ min ((s.kind k).pendingCount + 1) 65535 := by
      simpa using hquiet
    have hdue : (s.setKind k (carryTaken (s.kind k) d)).due k = true := by
      unfold State.due
      rw [State.setKind_kind, if_pos rfl]
      simpa [carryTaken] using hcalls
    rw [if_neg hquiet, if_pos (by simpa using hcalls), settle_emit, if_pos hdue,
      State.emit_noPorts (s := s.setKind k _) hports, State.setKind_kind, if_pos rfl, State.setKind_setKind]
    refine (settle_nil _ _).trans (congrArg (s.setKind k) ?_)
    simp [emittedRecord, carryTaken, hcalls.1]

/-- The state after a count that wraps, when the event it raises, if any, makes the COUNTER_CARRY record n. -/
def State.wrapped (s : State) (p : Link) (c : Counter) (n : NoticeState) : State :=
  if s.carryMask.getLsbD c.index = false ∧ (s.kind .counterCarry).enabled = true then (s.bump p c).1.setKind .counterCarry n
  else (s.bump p c).1

/-- A count at the top whose event, raised unless the index is masked, does nothing with the kind off and makes the record n with it
on (R166, R172). -/
theorem State.wrapped_of_event (htop : s.counter p c.index = BitVec.allOnes 32) {n : NoticeState}
    (hoff : (s.kind .counterCarry).enabled = false → t = (s.bump p c).1)
    (hon : (s.kind .counterCarry).enabled = true → t = (s.bump p c).1.setKind .counterCarry n) :
    (if (s.bump p c).2 then t else (s.bump p c).1) = s.wrapped p c n := by
  have hevent : (s.bump p c).2 = true ↔ s.carryMask.getLsbD c.index = false :=
    (s.bump_event p c).trans (and_iff_right htop)
  unfold State.wrapped
  simp only [hevent]
  by_cases hmask : s.carryMask.getLsbD c.index = false
  · cases hk : (s.kind .counterCarry).enabled with
    | false => rw [if_pos hmask, if_neg (by simp), hoff hk]
    | true => rw [if_pos hmask, if_pos ⟨hmask, rfl⟩, hon hk]
  · rw [if_neg hmask, if_neg fun h => hmask h.1]

/-- The event of a held count is taken, and no more (R174). -/
theorem State.countHeld_top (htop : s.counter p c.index = BitVec.allOnes 32) :
    (s.countHeld p c).1 = s.wrapped p c (carryTaken (s.kind .counterCarry) (carryDetail p c.index)) := by
  rw [State.countHeld_cases, apply_ite Prod.fst]
  refine State.wrapped_of_event htop (fun hk => ?_) fun hk => ?_
  · rw [State.takeEvent_off (s.bump p c).1 _ _ hk]
  · rw [State.takeEvent_enabled (s := (s.bump p c).1) hk]
    rfl

/-- The event of any other count is followed by the notice it calls for, which has no port to go to (R172, R173). -/
theorem State.count_top (htop : s.counter p c.index = BitVec.allOnes 32) (hports : s.notices.ports = 0) :
    s.count p c = s.wrapped p c (carryEmitted (s.kind .counterCarry) (carryDetail p c.index)) := by
  rw [State.count_cases]
  refine State.wrapped_of_event htop (fun hk => ?_) fun hk => ?_
  · exact (if_pos hk).mp (State.notify_spec (s.bump p c).1 .counterCarry (carryDetail p c.index))
  · rw [State.notify_noPorts (s := (s.bump p c).1) hports hk]
    rfl

/-- A wrap and whatever follows it in the notice records alone (R165, R166). -/
theorem Bumped.wrapsToZero (h : Bumped s m p c) (htop : s.counter p c.index = BitVec.allOnes 32)
    (hframe : t = { m with notices := t.notices })
    (hquiet : s.carryMask.getLsbD c.index = true ∨ (s.kind .counterCarry).enabled = false → t.notices = s.notices) :
    WrapsToZero s t p c where
  frame := by rw [hframe, h.frame]
  value := by
    have hcounter : t.counter p c.index = m.counter p c.index := by rw [hframe]; rfl
    rw [hcounter, h.values, if_pos ⟨rfl, rfl⟩, htop]
    rfl
  flag := by
    have hflag : t.carryFlag p c.index = m.carryFlag p c.index := by rw [hframe]; rfl
    rw [hflag, h.flags]
    simp [htop]
  others q i hother := by
    have hcounter : t.counter q i = m.counter q i := by rw [hframe]; rfl
    have hflag : t.carryFlag q i = m.carryFlag q i := by rw [hframe]; rfl
    rw [hcounter, hflag, h.values, h.flags, if_neg hother, decide_eq_false fun e => hother ⟨e.1, e.2.1⟩, Bool.or_false]
    exact ⟨rfl, rfl⟩
  quiet := hquiet

theorem State.wrapped_wrapsToZero (htop : s.counter p c.index = BitVec.allOnes 32) (n : NoticeState) :
    WrapsToZero s (s.wrapped p c n) p c := by
  unfold State.wrapped
  split_ifs with hraised
  · refine (s.bump_spec p c).wrapsToZero htop rfl ?_
    rintro (hmasked | hoff)
    · exact absurd (hraised.1.symm.trans hmasked) (by decide)
    · exact absurd (hraised.2.symm.trans hoff) (by decide)
  · exact (s.bump_spec p c).wrapsToZero htop rfl fun _ => rfl

theorem State.wrapped_carryBecomes (n : NoticeState) (hmask : s.carryMask.getLsbD c.index = false)
    (hk : (s.kind .counterCarry).enabled = true) : CarryBecomes n s (s.wrapped p c n) := by
  unfold State.wrapped
  rw [if_pos ⟨hmask, hk⟩]
  exact ⟨rfl, fun j => State.setKind_kind ..⟩

/-- A count at the top with no notice port, its event taken and its notice sent to nobody (R166, R172, R173). -/
theorem State.count_top_spec (htop : s.counter p c.index = BitVec.allOnes 32) (hports : s.notices.ports = 0) :
    WrapsToZero s (s.count p c) p c ∧ (s.carryMask.getLsbD c.index = false → (s.kind .counterCarry).enabled = true →
      CarryBecomes (carryEmitted (s.kind .counterCarry) (carryDetail p c.index)) s (s.count p c)) := by
  rw [State.count_top htop hports]
  exact ⟨State.wrapped_wrapsToZero htop _, State.wrapped_carryBecomes _⟩

end wrap

end Sys2Proof.Machine

namespace Sys2Proof.Claims

open Sys2Proof.Machine

/-- Settles O46: held or not, the count is the wrap and one change of the COUNTER_CARRY record; the forwarding event counts in the
state that the taking of the entry leaves, whose counters, mask and records are those before. -/
theorem countAtTheTopWraps : Obligations.CountAtTheTopWraps := by
  refine ⟨fun s p c htop => ?_, fun s p e rest hf hdata hunused htop hports => ?_⟩
  · rw [State.countHeld_top htop]
    exact ⟨State.wrapped_wrapsToZero htop _, State.wrapped_carryBecomes _, State.count_top_spec htop⟩
  · have hexec := hf.exec
    rw [State.forwardCell_data hdata, State.forwardData_unused (by simpa using hunused)] at hexec
    exact ⟨s.takeEntry p e rest, _, hexec, s.takeEntry_spec p e rest,
      State.count_top_spec (s := s.takeEntry p e rest) (c := .noRoute) htop hports⟩

end Sys2Proof.Claims
end

section
/-! The requests of chapter 10: counters and carry flags read and cleared (R168, R169), and the settings of notices (R175, R176). -/

namespace Sys2Proof.Machine

theorem exec_readCounters (s : State) : exec .readCounters s = .next (s.serve (· == 20) readCountersBody) := rfl

theorem exec_clearCarry (s : State) : exec .clearCarry s = .next (s.serve (· == 21) clearCarryBody) := rfl

theorem exec_setNotice (s : State) : exec .setNotice s = .next (s.serve (· == 22) setNoticeBody) := rfl

section bodies
variable {s : State} {r : Request}

/-! ### READ_COUNTERS (R168) -/

/-- Bit j of the flag word is the flag of counter first + 15 - j, when the run reaches it. -/
theorem carryFlags_getLsbD (pc : PortCounters) (first : Nat) {j : Nat} (hj : j < 16) {count : Nat} (hcount : count ≤ 16) :
    (carryFlags pc first count).getLsbD j = (decide (15 - j < count) && pc.carry.getLsbD (first + (15 - j))) := by
  induction count with
  | zero => simp [carryFlags]
  | succ n ih =>
    have hstep : carryFlags pc first (n + 1) = if pc.carry.getLsbD (first + n) then
        carryFlags pc first n ||| BitVec.twoPow 16 (15 - n) else carryFlags pc first n := by
      unfold carryFlags
      rw [List.range_succ, List.foldl_append]
      rfl
    have hbit : (carryFlags pc first (n + 1)).getLsbD j =
        ((carryFlags pc first n).getLsbD j || (pc.carry.getLsbD (first + n) && decide (15 - j = n))) := by
      have hplace : 15 - n < 16 ∧ 15 - n = j ↔ 15 - j = n := by omega
      rw [hstep]
      split_ifs with hflag
      · rw [BitVec.getLsbD_or, BitVec.getLsbD_twoPow, hflag, Bool.true_and, ← Bool.decide_and, decide_eq_decide.mpr hplace]
      · simp [-BitVec.getLsbD_eq_getElem, hflag]
    rw [hbit, ih (by omega)]
    by_cases hn : 15 - j = n
    · simp [hn]
    · have hbelow : 15 - j < n + 1 ↔ 15 - j < n := by omega
      simp [hn, hbelow]

/-- The word that READ_COUNTERS writes first: the port in bits 4 to 0, the flags of the run from bit 15 down. -/
theorem countersWord_fields (pc : PortCounters) (first : Nat) {count : Nat} (hcount : count ≤ 11) (port : BitVec 5) :
    (carryFlags pc first count ||| port.setWidth 16).extractLsb' 0 5 = port ∧
      ∀ i < 11, (carryFlags pc first count ||| port.setWidth 16).getLsbD (15 - i) =
        (decide (i < count) && pc.carry.getLsbD (first + i)) := by
  constructor
  · apply BitVec.eq_of_getLsbD_eq
    intro j hj
    have hflags : (carryFlags pc first count).getLsbD j = false := by
      rw [carryFlags_getLsbD pc first (by omega) (by omega), decide_eq_false (by omega), Bool.false_and]
    rw [BitVec.getLsbD_extractLsb', Nat.zero_add, BitVec.getLsbD_or, hflags, BitVec.getLsbD_setWidth]
    simp [hj, show j < 16 by omega]
  · intro i hi
    have hport : (port.setWidth 16).getLsbD (15 - i) = false := by
      rw [BitVec.getLsbD_setWidth, BitVec.getLsbD_of_ge port _ (by omega), Bool.and_false]
    have hindex : 15 - (15 - i) = i := by omega
    rw [BitVec.getLsbD_or, hport, Bool.or_false, carryFlags_getLsbD pc first (by omega) (by omega), hindex]

theorem linkOf_port_eq {p : Link} {port : BitVec 5} (h : p.val = port.toNat) : linkOf (port.setWidth 8) = some p :=
  linkOf_val (by rw [BitVec.toNat_setWidth_of_le (by decide)]; exact h)

theorem linkOf_port_none {port : BitVec 5} (h : 24 ≤ port.toNat) : linkOf (port.setWidth 8) = none :=
  linkOf_none (by rw [BitVec.toNat_setWidth_of_le (by decide)]; exact h)

theorem readCountersBody_refused (h : 24 ≤ ((blockWord r 0).extractLsb' 0 5).toNat ∨ 18 ≤ (hi8 (blockWord r 1)).toNat ∨
    (lo8 (blockWord r 1)).toNat = 0 ∨ 12 ≤ (lo8 (blockWord r 1)).toNat ∨
    18 < (hi8 (blockWord r 1)).toNat + (lo8 (blockWord r 1)).toNat) : readCountersBody r s = .refuse .range := by
  unfold readCountersBody
  by_cases hport : 24 ≤ ((blockWord r 0).extractLsb' 0 5).toNat
  · simp only [linkOf_port_none hport]
  · simp only [linkOf_port_eq (p := ⟨_, Nat.lt_of_not_le hport⟩) rfl]
    split_ifs with hfirst hcount hrun
    · rfl
    · rfl
    · rfl
    · omega

/-- The words of `count` counters from `first`, two for each (R168). -/
def counterWords (pc : PortCounters) (first count : Nat) : List (Nat × Word) :=
  (List.range count).flatMap fun i =>
    [(2 + 2 * i, (pc.values.toList.getD (first + i) 0).extractLsb' 16 16),
     (3 + 2 * i, (pc.values.toList.getD (first + i) 0).extractLsb' 0 16)]

theorem readCountersBody_done {p : Link} (hp : p.val = ((blockWord r 0).extractLsb' 0 5).toNat)
    (hfirst : (hi8 (blockWord r 1)).toNat < 18) (hcount : 1 ≤ (lo8 (blockWord r 1)).toNat) (hmax : (lo8 (blockWord r 1)).toNat ≤ 11)
    (hrun : (hi8 (blockWord r 1)).toNat + (lo8 (blockWord r 1)).toNat ≤ 18) :
    readCountersBody r s = .done s
      ((0, carryFlags s.counters[p] (hi8 (blockWord r 1)).toNat (lo8 (blockWord r 1)).toNat |||
          ((blockWord r 0).extractLsb' 0 5).setWidth 16) ::
        counterWords s.counters[p] (hi8 (blockWord r 1)).toNat (lo8 (blockWord r 1)).toNat) := by
  unfold readCountersBody
  simp only [linkOf_port_eq hp]
  rw [if_neg (by omega), if_neg (by omega), if_neg (by omega)]
  rfl

/-! ### CLEAR_CARRY (R169) -/

theorem clearCarryBody_noPort (h : 24 ≤ (lo8 (blockWord r 0)).toNat) : clearCarryBody r s = .refuse .range := by
  unfold clearCarryBody
  rw [linkOf_none h]

theorem clearCarryBody_badAction (hport : (lo8 (blockWord r 0)).toNat < 24) (h : (blockWord r 0).extractLsb' 14 2 = 3) :
    clearCarryBody r s = .refuse .badParam := by
  unfold clearCarryBody
  rw [linkOf_val (p := ⟨_, hport⟩) rfl]
  exact if_pos h

/-- The state after a CLEAR_CARRY of the selected flags of port p (R169). -/
def State.carryCleared (s : State) (p : Link) (action : BitVec 2) (selected : BitVec 18) : State :=
  { s with counters := upd s.counters p { s.counters[p] with carry := s.counters[p].carry &&& ~~~selected },
           carryMask := maskAfter action selected s.carryMask }

theorem clearCarryBody_done {p : Link} (hp : p.val = (lo8 (blockWord r 0)).toNat) (h : (blockWord r 0).extractLsb' 14 2 ≠ 3) :
    clearCarryBody r s = .done
      (s.carryCleared p ((blockWord r 0).extractLsb' 14 2) (indexSet (blockWord r 1) (blockWord r 2))) [] := by
  unfold clearCarryBody
  rw [linkOf_val hp]
  exact if_neg h

theorem State.carryCleared_counter (p q : Link) (action : BitVec 2) (selected : BitVec 18) (i : Fin 18) :
    (s.carryCleared p action selected).counter q i = s.counter q i := by
  unfold State.counter State.carryCleared
  simp only [Fin.getElem_fin, upd_getElem]
  split_ifs with hq
  · simp only [hq]
  · rfl

theorem State.carryCleared_flag (p q : Link) (action : BitVec 2) (selected : BitVec 18) (i : Fin 18) :
    (s.carryCleared p action selected).carryFlag q i = (s.carryFlag q i && !(decide (q = p) && selected.getLsbD i)) := by
  unfold State.carryFlag State.carryCleared
  by_cases hq : q = p
  · subst hq
    simp
  · have hkept := upd_other s.counters p q { s.counters[p] with carry := s.counters[p].carry &&& ~~~selected } hq
    simp only [hkept, decide_eq_false hq, Bool.false_and, Bool.not_false, Bool.and_true]

/-- The mask action on each index: selected indexes are set by MASK and cleared by UNMASK (R169). -/
theorem maskAfter_getLsbD {action : BitVec 2} (h : action ≠ 3) (selected mask : BitVec 18) (i : Fin 18) :
    (maskAfter action selected mask).getLsbD i =
      if selected.getLsbD i = true ∧ action ≠ 0 then decide (action = 1) else mask.getLsbD i := by
  have hactions : ∀ a : BitVec 2, a ≠ 3 → a = 0 ∨ a = 1 ∨ a = 2 := by decide
  unfold maskAfter
  rcases hactions action h with rfl | rfl | rfl
  · simp
  · cases hsel : selected.getLsbD i <;> simp [-BitVec.getLsbD_eq_getElem, hsel]
  · cases hsel : selected.getLsbD i <;> simp [-BitVec.getLsbD_eq_getElem, hsel]

/-! ### SET_NOTICE (R175, R176) -/

theorem noticeKindOf_code (k : NoticeKind) : noticeKindOf k.code = some k := by cases k <;> rfl

theorem noticeKindOf_outOfRange {b : Byte} (h : b.toNat = 0 ∨ 6 ≤ b.toNat) : noticeKindOf b = none := by
  revert b
  decide

theorem clamp_interval (n : Nat) : clamp 1 256 n = max 1 (min 256 n) := by
  unfold clamp; omega

/-- The notice port set after step 1 of SET_NOTICE (R176). -/
def portsSet (r : Request) (ports : BitVec 24) : BitVec 24 :=
  if (blockWord r 0).getLsbD 3 then portSet (blockWord r 2) (blockWord r 3) else ports

/-- A kind's record after steps 2 and 3 of SET_NOTICE (R176). -/
def recordSet (w0 w1 : Word) (n : NoticeState) : NoticeState where
  enabled      := if w0.getLsbD 7 then w0.getLsbD 6 else n.enabled
  interval     := if w0.getLsbD 7 then max 1 (min 256 w1.toNat) else n.interval
  firstOnly    := if w0.getLsbD 7 then w0.getLsbD 5 else n.firstOnly
  pendingCount := if w0.getLsbD 4 then 0 else n.pendingCount
  spent        := n.spent && !(w0.getLsbD 7 && !w0.getLsbD 5) && !w0.getLsbD 4
  detail       := n.detail

/-- Settings first, then the rearm, which clears what the settings left of the spent flag and the pending count. -/
theorem settings_then_rearm (w0 w1 : Word) (n : NoticeState) :
    (if w0.getLsbD 4 then rearmed (if w0.getLsbD 7 then noticeSettings w0 w1 n else n)
      else if w0.getLsbD 7 then noticeSettings w0 w1 n else n) = recordSet w0 w1 n := by
  unfold recordSet rearmed noticeSettings
  rw [clamp_interval]
  cases w0.getLsbD 4 with
  | true => cases w0.getLsbD 7 <;> simp
  | false => cases w0.getLsbD 7 <;> simp

theorem setNoticeBody_refused (h : (hi8 (blockWord r 0)).toNat = 0 ∨ 6 ≤ (hi8 (blockWord r 0)).toNat) :
    setNoticeBody r s = .refuse .range := by
  unfold setNoticeBody
  simp only [noticeKindOf_outOfRange h]

/-- The state after a SET_NOTICE for kind k (R176). -/
def State.noticesSet (s : State) (r : Request) (k : NoticeKind) : State :=
  State.setKind { s with notices := { s.notices with ports := portsSet r s.notices.ports } } k
    (recordSet (blockWord r 0) (blockWord r 1) (s.kind k))

/-- What SET_NOTICE returns of the port set, the record and the mask (R176). -/
def noticeOutputs (ports : BitVec 24) (n : NoticeState) (mask : BitVec 18) : List (Nat × Word) :=
  [(1, BitVec.ofNat 16 n.interval), (2, ports.extractLsb' 0 16), (3, (0 : Byte) ++ ports.extractLsb' 16 8),
   (4, BitVec.ofNat 16 n.pendingCount),
   (5, BitVec.ofBool n.enabled ++ BitVec.ofBool n.firstOnly ++ BitVec.ofBool n.spent ++ (0 : BitVec 13)),
   (6, mask.extractLsb' 0 16), (7, (0 : BitVec 14) ++ mask.extractLsb' 16 2)]

theorem portsHigh_eq (m : BitVec 24) : portsHigh m = (0 : Byte) ++ m.extractLsb' 16 8 := BitVec.setWidth_eq_append (by decide)

theorem maskHigh_eq (m : BitVec 18) : (m.extractLsb' 16 2).setWidth 16 = (0 : BitVec 14) ++ m.extractLsb' 16 2 :=
  BitVec.setWidth_eq_append (by decide)

theorem setNoticeBody_done {k : NoticeKind} (hk : hi8 (blockWord r 0) = k.code) :
    setNoticeBody r s = .done (s.noticesSet r k)
      (noticeOutputs (portsSet r s.notices.ports) (recordSet (blockWord r 0) (blockWord r 1) (s.kind k)) s.carryMask) := by
  unfold setNoticeBody
  simp only [hk, noticeKindOf_code, settings_then_rearm, portsHigh_eq, maskHigh_eq]
  rfl

/-- Records and ports are all that SET_NOTICE changes, and of the records only that of kind k. -/
theorem State.noticesSet_spec (s : State) (r : Request) (k : NoticeKind) :
    s.noticesSet r k = { s with notices := (s.noticesSet r k).notices } ∧
      (s.noticesSet r k).notices.ports = portsSet r s.notices.ports ∧
      ∀ j, (s.noticesSet r k).kind j = if j = k then recordSet (blockWord r 0) (blockWord r 1) (s.kind k) else s.kind j :=
  ⟨rfl, rfl, fun _ => State.setKind_kind ..⟩

end bodies

end Sys2Proof.Machine

namespace Sys2Proof.Claims

open Sys2Proof.Machine

/-- Settles O47: the ranges first; a read leaves the state as taken, a clear touches the flags of one port and the mask. -/
theorem counterRequests : Obligations.CounterRequests := by
  refine fun s r => ⟨fun h => ⟨fun hbad => ?_, fun p hp hfirst hcount hmax hrun => ?_⟩,
    fun h => ⟨fun hbad => ?_, fun hport haction => ?_, fun p hp haction => ?_⟩⟩
  · exact h.refusedWith rfl (exec_readCounters s) rfl (readCountersBody_refused hbad)
  · obtain ⟨hword, hflags⟩ := countersWord_fields s.counters[p] (hi8 (blockWord r 1)).toNat hmax ((blockWord r 0).extractLsb' 0 5)
    exact ⟨_, (congrArg BitVec.toNat hword).trans hp.symm, hflags,
      h.completesWith rfl (exec_readCounters s) (readCountersBody_done hp hfirst hcount hmax hrun) rfl⟩
  · exact h.refusedWith rfl (exec_clearCarry s) rfl (clearCarryBody_noPort hbad)
  · exact h.refusedWith rfl (exec_clearCarry s) rfl (clearCarryBody_badAction hport haction)
  · exact h.completesWith rfl (exec_clearCarry s) (clearCarryBody_done hp haction)
      ⟨rfl, fun q i => State.carryCleared_counter (s := taken s) .., fun q i => State.carryCleared_flag (s := taken s) ..,
        fun i => maskAfter_getLsbD haction _ _ i⟩

/-- Settles O48: the record that the three steps leave, read once for the state and once for the outputs. -/
theorem setNoticeActsInOrder : Obligations.SetNoticeActsInOrder := fun s r h =>
  ⟨fun hbad => h.refusedWith rfl (exec_setNotice s) rfl (setNoticeBody_refused hbad),
    fun k hk => h.completesWith rfl (exec_setNotice s) (setNoticeBody_done hk) ((taken s).noticesSet_spec r k)⟩

end Sys2Proof.Claims
end

section
/-! RESET held asserted: every other command finds the element held (R177, R32). -/

namespace Sys2Proof.Machine

variable {s : State}

section asserted
variable (hreset : s.resetAsserted = true)
include hreset

theorem State.receive_asserted (p : Link) (arrival : Option Cell) : s.receive p arrival = s := if_pos hreset

theorem State.attemptExpires_asserted (p : Link) : s.attemptExpires p = s := if_pos hreset

theorem State.holdoffExpires_asserted (p : Link) : s.holdoffExpires p = s := if_pos hreset

theorem State.forward_asserted : s.forward = s := if_pos hreset

theorem State.egress_asserted (p : Link) : s.egress p = s.setTx p none := if_pos hreset

theorem State.mirror_asserted : s.mirror = s := if_pos hreset

/-- No request is executed, whatever stands in the SRQ. -/
theorem State.headFor_asserted (mine : Nat → Bool) : s.headFor mine = none := if_pos hreset

theorem State.serve_asserted (mine : Nat → Bool) (body : Request → State → Reply) : s.serve mine body = s :=
  serve_idle mine body (State.headFor_asserted hreset mine)

/-- An egress slot quiets its transmitter. -/
theorem exec_egressSlot_asserted (p : Link) : exec (.egressSlot p) s = .next (s.setTx p none) :=
  congrArg Host.Outcome.next (State.egress_asserted hreset p)

/-- The pin's commands and the egress slots apart, a command finds nothing to do: each slot, timer and event stands still, and no
request has its turn. -/
theorem exec_asserted (c : Instr) (hassert : c ≠ .resetAssert) (hrelease : ∀ x, c ≠ .resetRelease x)
    (hegress : ∀ p, c ≠ .egressSlot p) : exec c s = .next s := by
  cases c with
  | resetAssert => exact absurd rfl hassert
  | resetRelease straps => exact absurd rfl (hrelease straps)
  | egressSlot p => exact absurd rfl (hegress p)
  | receiveSlot p arrival => exact congrArg Host.Outcome.next (State.receive_asserted hreset p arrival)
  | attemptTimerExpiry p => exact congrArg Host.Outcome.next (State.attemptExpires_asserted hreset p)
  | holdoffTimerExpiry p => exact congrArg Host.Outcome.next (State.holdoffExpires_asserted hreset p)
  | forwardingEvent => exact congrArg Host.Outcome.next (State.forward_asserted hreset)
  | mirrorCopyStep => exact congrArg Host.Outcome.next (State.mirror_asserted hreset)
  | datapathReset => exact exec_datapathReset_idle (State.headFor_asserted hreset _)
  | _ => exact congrArg Host.Outcome.next (State.serve_asserted hreset _ _)

end asserted

/-- At the values of the release every transmitter is quiet (R177). -/
theorem powerOn_tx (straps : Byte) (asserted : Bool) (pending : List Instr) (draws : Nat) (p : Link) :
    (State.powerOn straps asserted pending draws).tx[p] = none :=
  Vector.getElem_replicate ..

end Sys2Proof.Machine

namespace Sys2Proof.Claims

open Sys2Proof.Machine

/-- Settles O4: the assertion is `State.powerOn` with the strap value kept; after it an egress slot quiets its own transmitter, and
every other command leaves the element as it is. -/
theorem assertedResetHoldsTheElement : Obligations.AssertedResetHoldsTheElement := by
  refine ⟨fun s => ⟨_, rfl, .powerOn s.sru.strap true _ _, rfl, rfl, powerOn_tx _ _ _ _⟩, fun c s hreset hassert hrelease => ?_⟩
  by_cases hegress : ∃ p, c = .egressSlot p
  · obtain ⟨p, rfl⟩ := hegress
    refine ⟨s.setTx p none, exec_egressSlot_asserted hreset p, rfl, fun q => ?_⟩
    simp only [Instr.egressSlot.injEq, State.setTx_tx, upd_get, eq_comm (a := p)]
  · have hother := not_exists.mp hegress
    exact ⟨s, exec_asserted hreset c hassert hrelease hother, rfl, fun q => (if_neg (hother q)).symm⟩

end Sys2Proof.Claims
end

section
/-! The queue of commands and the level of the RESET pin: a step takes the front command (logs 2 and 20), and no part of the element but the
pin's own commands writes either. -/

namespace Sys2Proof.Machine

/-! ### One step -/

section step
variable {s : State}

theorem step_front {c : Instr} {rest : List Instr} (h : s.pending = c :: rest) : step s = exec c { s with pending := rest } := by
  unfold step
  rw [h]

theorem step_idle (h : s.pending = []) : step s = .next s := by
  unfold step
  rw [h]

end step

/-! ### What comes from outside -/

/-- The waiting commands and the level of the RESET pin: what the outside alone gives (R177, log 20). -/
def State.inputs (s : State) : List Instr × Bool := (s.pending, s.resetAsserted)

/-- A request's chapter, where it does not refuse, keeps the inputs of s. -/
def Reply.KeepsInputs (s : State) : Reply → Prop
  | .refuse _ => True
  | .done t _ => t.inputs = s.inputs

section effects
variable {s t : State}

theorem TrafficEffects.inputs (h : TrafficEffects s t) : t.inputs = s.inputs := by rw [h.frame]; rfl

theorem NoticeEffects.inputs (h : NoticeEffects s t) : t.inputs = s.inputs := h.traffic.inputs

theorem Reply.keepsInputs_of_done {x : Reply} (h : ∀ t outputs, x = .done t outputs → t.inputs = s.inputs) : x.KeepsInputs s := by
  cases x with
  | refuse c => trivial
  | done t outputs => exact h t outputs rfl

theorem Reply.KeepsInputs.done {x : Reply} {outputs : List (Nat × Word)} (h : x.KeepsInputs s) (hx : x = .done t outputs) :
    t.inputs = s.inputs := by
  subst hx
  exact h

theorem Reply.KeepsInputs.of_inputs (h : t.inputs = s.inputs) (outputs : List (Nat × Word)) : (Reply.done t outputs).KeepsInputs s := h

/-- A check of a request's chapter: where it fails, the reply is a refusal. -/
theorem Reply.KeepsInputs.check {x : Reply} (h : x.KeepsInputs s) (failed : Prop) [Decidable failed] (code : Code) :
    (if failed then .refuse code else x : Reply).KeepsInputs s := by
  split_ifs
  · trivial
  · exact h

end effects

section operations
variable (s : State) (p : Link)

/-! ### Shared operations -/

@[simp] theorem State.modLink_inputs (f : LinkPort → LinkPort) : (s.modLink p f).inputs = s.inputs := rfl

@[simp] theorem State.modFifo_inputs (f : IngressFifo → IngressFifo) : (s.modFifo p f).inputs = s.inputs := rfl

@[simp] theorem State.modSched_inputs (f : Scheduler → Scheduler) : (s.modSched p f).inputs = s.inputs := rfl

@[simp] theorem State.modSender_inputs (f : StatusSender → StatusSender) : (s.modSender p f).inputs = s.inputs := rfl

@[simp] theorem State.notify_inputs (k : NoticeKind) (d : Vector Byte 6) : (s.notify k d).inputs = s.inputs :=
  (s.notify_effects k d).inputs

@[simp] theorem State.count_inputs (c : Counter) : (s.count p c).inputs = s.inputs := (s.count_effects p c).inputs

@[simp] theorem State.removeHead_inputs (c : Class) : (s.removeHead p c).inputs = s.inputs := (s.removeHead_traffic p c).inputs

@[simp] theorem State.transmit_inputs (c : Cell) (cls : Class) : (s.transmit p c cls).inputs = s.inputs := by
  rw [(s.transmit_spec p c cls).frame]
  rfl

@[simp] theorem State.sendIdle_inputs : (s.sendIdle p).inputs = s.inputs := s.transmit_inputs p _ _

@[simp] theorem State.applyStaging_inputs : (s.applyStaging p).inputs = s.inputs := State.notify_inputs ..

@[simp] theorem Ev.emptyFifo_inputs (e : Ev) : (e.emptyFifo p).s.inputs = e.s.inputs := (e.emptyFifo_effects p).inputs

@[simp] theorem Ev.flushPort_inputs (e : Ev) : (e.flushPort p).s.inputs = e.s.inputs := (e.flushPort_traffic p).inputs

@[simp] theorem State.leaveUp_inputs (reason : DownReason) (disable : Bool) : (s.leaveUp p reason disable).inputs = s.inputs := by
  unfold State.leaveUp
  simp

@[simp] theorem State.enterUp_inputs : (s.enterUp p).inputs = s.inputs := State.notify_inputs ..

/-! ### Receive slots and timers (R13 to R26, R34 to R41) -/

theorem State.receiveTraining_inputs (slot : SlotClass) : (s.receiveTraining p slot).inputs = s.inputs := by
  cases slot with
  | noCell => rfl
  | headerError => exact State.count_inputs ..
  | formatError => exact State.count_inputs ..
  | valid c h t =>
    unfold State.receiveTraining State.trainOn State.runLost
    simp only
    split_ifs <;> simp

@[simp] theorem State.writeFifo_inputs (c : Cell) (gap : Bool) : (s.writeFifo p c gap).inputs = s.inputs := by
  unfold State.writeFifo
  simp only
  split_ifs <;> simp

@[simp] theorem State.receiveTraffic_inputs (c : Cell) (seq : Byte) : (s.receiveTraffic p c seq).inputs = s.inputs := by
  unfold State.receiveTraffic
  simp only
  split_ifs <;> simp

theorem State.receiveUp_inputs (slot : SlotClass) : (s.receiveUp p slot).inputs = s.inputs := by
  have hheader : (s.headerErrorSeen p).inputs = s.inputs := rfl
  have hformat : (s.formatErrorSeen p).inputs = s.inputs := rfl
  cases slot with
  | noCell => rw [State.receiveUp_noCell]; split_ifs <;> simp
  | headerError => rw [State.receiveUp_headerError]; split_ifs <;> simp [hheader]
  | formatError => rw [State.receiveUp_formatError]; split_ifs <;> simp [hformat]
  | valid c h t => rw [State.receiveUp_valid]; split_ifs <;> simp

theorem State.receive_inputs (arrival : Option Cell) : (s.receive p arrival).inputs = s.inputs := by
  unfold State.receive
  split_ifs
  · rfl
  · split
    · exact s.receiveTraining_inputs p _
    · exact s.receiveUp_inputs p _
    all_goals rfl

/-- The draw of a holdoff is the model's own, and no input. -/
theorem State.attemptExpires_inputs : (s.attemptExpires p).inputs = s.inputs := by
  unfold State.attemptExpires State.enterFailed State.enterHoldoff
  simp only
  split_ifs
  · rfl
  · exact State.notify_inputs ..
  all_goals rfl

theorem State.holdoffExpires_inputs : (s.holdoffExpires p).inputs = s.inputs := by
  unfold State.holdoffExpires
  split_ifs <;> simp

/-! ### Forwarding (R42 to R67, R145 to R149) -/

theorem State.forwardCell_inputs (c : Cell) : (s.forwardCell p c).inputs = s.inputs := by
  rw [State.forwardCell_frame]
  rfl

theorem State.forward_inputs : s.forward.inputs = s.inputs := by
  unfold State.forward
  split_ifs
  · rfl
  · split
    · rfl
    · split
      · rfl
      · exact State.forwardCell_inputs ..

/-! ### Egress slots (R98 to R107, R122 to R124) -/

@[simp] theorem State.sendHead_inputs (c : Class) : (s.sendHead p c).inputs = s.inputs := by
  unfold State.sendHead
  split <;> simp

@[simp] theorem State.spendBudget_inputs (w b : Nat) : (s.spendBudget p w b).inputs = s.inputs := by
  unfold State.spendBudget State.advanceWindow
  simp only
  split_ifs <;> simp

theorem State.fixedSlot_inputs : (s.fixedSlot p).inputs = s.inputs := by
  unfold State.fixedSlot
  simp only
  split_ifs <;> simp

theorem State.foundSlot_inputs (w b : Nat) : (s.foundSlot p w b).inputs = s.inputs := by
  unfold State.foundSlot
  simp only
  split <;> simp

theorem State.idleSlot_inputs : (s.idleSlot p).inputs = s.inputs := by
  unfold State.idleSlot
  simp only
  split_ifs <;> simp

theorem State.servedSlot_inputs (rounds : Nat) : ∀ s : State, (State.servedSlot p rounds s).inputs = s.inputs := by
  induction rounds with
  | zero => intro s; rfl
  | succ rounds ih =>
    intro s
    unfold State.servedSlot
    simp only
    split_ifs
    · exact s.fixedSlot_inputs p
    · split
      · exact s.foundSlot_inputs p _ _
      · exact s.idleSlot_inputs p
      · exact (ih _).trans (s.applyStaging_inputs p)

theorem State.slotUp_inputs : (s.slotUp p).inputs = s.inputs := by
  unfold State.slotUp State.sendStatus
  simp only
  split_ifs
  · simp
  · simp
  · exact State.servedSlot_inputs p 2 _

theorem State.egress_inputs : (s.egress p).inputs = s.inputs := by
  by_cases hreset : s.resetAsserted = true
  · rw [State.egress_asserted hreset]
    rfl
  · unfold State.egress
    rw [if_neg hreset]
    split
    · exact s.slotUp_inputs p
    · split_ifs
      · exact s.sendIdle_inputs p
      · exact s.transmit_inputs p _ _
    all_goals rfl

end operations

/-! ### The chapters of the requests -/

section requests
variable (r : Request) (s : State)

theorem forPorts_inputs {f : State → Link → State} (h : ∀ s p, (f s p).inputs = s.inputs) (ps : List Link) :
    ∀ s, (forPorts f ps s).inputs = s.inputs := by
  induction ps with
  | nil => intro s; rfl
  | cons p ps ih => intro s; exact (ih _).trans (h s p)

theorem setAdmissionBody_inputs : (setAdmissionBody r s).KeepsInputs s := by
  refine Reply.keepsInputs_of_done fun t outputs h => ?_
  obtain ⟨c, rfl, -⟩ := setAdmissionBody_done_eq h
  rfl

theorem setFlowBody_inputs : (setFlowBody r s).KeepsInputs s := by
  refine Reply.keepsInputs_of_done fun t outputs h => ?_
  obtain ⟨c, rfl, -⟩ := setFlowBody_done_eq h
  unfold State.inputs
  rw [State.setFlow_frame]

theorem readBufferStateBody_inputs : (readBufferStateBody r s).KeepsInputs s := by
  unfold readBufferStateBody
  split
  · trivial
  · rfl

theorem writeScheduleBody_inputs : (writeScheduleBody r s).KeepsInputs s := by
  refine Reply.keepsInputs_of_done fun t outputs h => ?_
  obtain ⟨p, ws, rfl, -⟩ := writeScheduleBody_done_eq h
  rfl

theorem State.applyPort_inputs (p : Link) : (s.applyPort p).inputs = s.inputs := by
  unfold State.applyPort
  split_ifs <;> simp

theorem applyScheduleBody_inputs : (applyScheduleBody r s).KeepsInputs s := forPorts_inputs State.applyPort_inputs _ s

theorem readScheduleBody_inputs : (readScheduleBody r s).KeepsInputs s := by
  unfold readScheduleBody
  split
  · trivial
  · exact .check (.of_inputs rfl _) _ _

theorem State.linkAction_inputs (a : LinkAction) (p : Link) : (s.linkAction a p).inputs = s.inputs := by
  rcases s.linkAction_cases a p with hs | ⟨disable, hs⟩ | ⟨-, hs | hs⟩ <;> simp [hs]

theorem linkControlBody_inputs : (linkControlBody r s).KeepsInputs s := by
  refine Reply.keepsInputs_of_done fun t outputs h => ?_
  obtain ⟨a, rfl⟩ := linkControlBody_done_eq h
  exact forPorts_inputs (fun s p => (State.linkAction_inputs ..).trans (s.modLink_inputs p _)) _ s

theorem readLinkStatusBody_inputs : (readLinkStatusBody r s).KeepsInputs s := by
  unfold readLinkStatusBody
  split
  · trivial
  · rfl

theorem clearLinkStatusBody_inputs : (clearLinkStatusBody r s).KeepsInputs s :=
  forPorts_inputs (fun s p => s.modFifo_inputs p _) _ s

theorem readCountersBody_inputs : (readCountersBody r s).KeepsInputs s := by
  unfold readCountersBody
  simp only
  split
  · trivial
  · exact .check (.check (.check (.of_inputs rfl _) _ _) _ _) _ _

theorem clearCarryBody_inputs : (clearCarryBody r s).KeepsInputs s := by
  unfold clearCarryBody
  simp only
  split
  · trivial
  · exact .check (.of_inputs rfl _) _ _

theorem setNoticeBody_inputs : (setNoticeBody r s).KeepsInputs s := by
  unfold setNoticeBody
  simp only
  split
  · trivial
  · rfl

theorem setElementAddressBody_inputs : (setElementAddressBody r s).KeepsInputs s := .check (.of_inputs rfl _) _ _

theorem writeRouteBody_inputs : (writeRouteBody r s).KeepsInputs s := by
  refine Reply.KeepsInputs.check ?_ _ _
  split
  · trivial
  · refine Reply.KeepsInputs.check ?_ _ _
    split
    · trivial
    · rfl

theorem writeGroupBody_inputs : (writeGroupBody r s).KeepsInputs s := by
  refine Reply.KeepsInputs.check ?_ _ _
  split
  · trivial
  · rfl

theorem readEntries_inputs (size : Nat) (words : Bank → Nat → List Word) : (readEntries r s size words).KeepsInputs s :=
  Reply.keepsInputs_of_done fun _ _ h => congrArg State.inputs (Claims.readEntries_done_eq h)

theorem State.swap_inputs : s.swap.inputs = s.inputs := State.notify_inputs ..

theorem commitRoutingBody_inputs : (commitRoutingBody r s).KeepsInputs s := by
  unfold commitRoutingBody
  split
  · trivial
  · trivial
  · simp only
    split_ifs
    · exact s.swap_inputs
    · rfl
    · trivial

theorem cancelCommitBody_inputs : (cancelCommitBody r s).KeepsInputs s := by
  unfold cancelCommitBody
  split
  · rfl
  all_goals trivial

theorem State.swapIfReached_inputs : s.swapIfReached.inputs = s.inputs := by
  unfold State.swapIfReached
  split
  · split_ifs
    · rfl
    · exact s.swap_inputs
  all_goals rfl

theorem epochMarkBody_inputs : (epochMarkBody r s).KeepsInputs s := by
  unfold epochMarkBody
  simp only
  split_ifs
  · exact State.swapIfReached_inputs _
  · trivial

/-- One copy step, or none (R141). -/
theorem State.mirror_inputs : s.mirror.inputs = s.inputs := by
  unfold State.mirror State.copyStep
  split_ifs
  · rfl
  · split
    · simp only
      split_ifs
      · exact State.notify_inputs ..
      · rfl
    all_goals rfl

/-! ### The execution of a request (R151 to R153, R162) -/

theorem State.serve_inputs (mine : Nat → Bool) {body : Request → State → Reply} (h : ∀ r s, (body r s).KeepsInputs s) :
    (s.serve mine body).inputs = s.inputs := by
  have hpop : s.popRequest.inputs = s.inputs := rfl
  rcases s.serve_cases mine body with hidle | ⟨s1, rfl | ⟨r, outputs, hdone⟩, htraffic⟩
  · rw [hidle]
  · exact htraffic.inputs.trans hpop
  · exact htraffic.inputs.trans (((h r _).done hdone).trans hpop)

theorem emptyFifos_inputs (ps : List Link) : ∀ e : Ev, (emptyFifos ps e).s.inputs = e.s.inputs := by
  induction ps with
  | nil => intro e; rfl
  | cons p ps ih => intro e; exact (ih _).trans (e.emptyFifo_inputs p)

theorem State.rebuiltWith_inputs (free : List Nat) (held : Vector (Vector Bool 4) 24) (version : BitVec 16) :
    (s.rebuiltWith free held version).inputs = s.inputs := rfl

theorem State.rebuild_inputs : s.rebuild.inputs = s.inputs := by
  rw [State.rebuild_eq]
  exact s.rebuiltWith_inputs _ _ _

theorem State.resetDatapath_inputs : s.resetDatapath.s.inputs = s.inputs := by
  have hflushed : s.flushedOut.s.inputs = s.inputs := (flushPorts_traffic ..).inputs.trans (emptyFifos_inputs ..)
  rw [State.resetDatapath_eq]
  exact (State.rebuild_inputs _).trans hflushed

theorem State.executeReset_inputs : (s.executeReset r).inputs = s.inputs := by
  unfold State.executeReset
  simp only
  split
  · exact (Ev.answer_traffic ⟨s.popRequest, false, false⟩ r _ []).inputs
  · exact ((State.release_effects ..).inputs.trans (Ev.answer_traffic ..).inputs).trans (State.resetDatapath_inputs _)

/-! ### Every command -/

theorem execDatapathReset_next : ∃ t, execDatapathReset s = .next t ∧ t.inputs = s.inputs := by
  refine ⟨_, rfl, ?_⟩
  split
  · rfl
  · exact State.executeReset_inputs _ s

/-- Every command but the RESET pin's own answers a next state with the same inputs. -/
theorem exec_next (c : Instr) (hassert : c ≠ .resetAssert) (hrelease : ∀ x, c ≠ .resetRelease x) :
    ∃ t, exec c s = .next t ∧ t.inputs = s.inputs := by
  cases c with
  | resetAssert => exact absurd rfl hassert
  | resetRelease straps => exact absurd rfl (hrelease straps)
  | receiveSlot p arrival => exact ⟨_, rfl, s.receive_inputs p arrival⟩
  | attemptTimerExpiry p => exact ⟨_, rfl, s.attemptExpires_inputs p⟩
  | holdoffTimerExpiry p => exact ⟨_, rfl, s.holdoffExpires_inputs p⟩
  | forwardingEvent => exact ⟨_, rfl, s.forward_inputs⟩
  | egressSlot p => exact ⟨_, rfl, s.egress_inputs p⟩
  | mirrorCopyStep => exact ⟨_, rfl, s.mirror_inputs⟩
  | unknownRequest => exact ⟨_, rfl, s.serve_inputs _ fun _ _ => trivial⟩
  | identify => exact ⟨_, rfl, s.serve_inputs _ fun _ _ => rfl⟩
  | writeRoute => exact ⟨_, rfl, s.serve_inputs _ writeRouteBody_inputs⟩
  | readRoute => exact ⟨_, rfl, s.serve_inputs _ fun r s => readEntries_inputs r s _ _⟩
  | writeGroup => exact ⟨_, rfl, s.serve_inputs _ writeGroupBody_inputs⟩
  | readGroup => exact ⟨_, rfl, s.serve_inputs _ fun r s => readEntries_inputs r s _ _⟩
  | commitRouting => exact ⟨_, rfl, s.serve_inputs _ commitRoutingBody_inputs⟩
  | cancelCommit => exact ⟨_, rfl, s.serve_inputs _ cancelCommitBody_inputs⟩
  | epochMark => exact ⟨_, rfl, s.serve_inputs _ epochMarkBody_inputs⟩
  | readTableState => exact ⟨_, rfl, s.serve_inputs _ fun _ _ => rfl⟩
  | writeSchedule => exact ⟨_, rfl, s.serve_inputs _ writeScheduleBody_inputs⟩
  | applySchedule => exact ⟨_, rfl, s.serve_inputs _ applyScheduleBody_inputs⟩
  | readSchedule => exact ⟨_, rfl, s.serve_inputs _ readScheduleBody_inputs⟩
  | setAdmission => exact ⟨_, rfl, s.serve_inputs _ setAdmissionBody_inputs⟩
  | setFlow => exact ⟨_, rfl, s.serve_inputs _ setFlowBody_inputs⟩
  | setStatusTiming => exact ⟨_, rfl, s.serve_inputs _ fun _ _ => rfl⟩
  | readBufferState => exact ⟨_, rfl, s.serve_inputs _ readBufferStateBody_inputs⟩
  | linkControl => exact ⟨_, rfl, s.serve_inputs _ linkControlBody_inputs⟩
  | readLinkStatus => exact ⟨_, rfl, s.serve_inputs _ readLinkStatusBody_inputs⟩
  | clearLinkStatus => exact ⟨_, rfl, s.serve_inputs _ clearLinkStatusBody_inputs⟩
  | readCounters => exact ⟨_, rfl, s.serve_inputs _ readCountersBody_inputs⟩
  | clearCarry => exact ⟨_, rfl, s.serve_inputs _ clearCarryBody_inputs⟩
  | setNotice => exact ⟨_, rfl, s.serve_inputs _ setNoticeBody_inputs⟩
  | setElementAddress => exact ⟨_, rfl, s.serve_inputs _ setElementAddressBody_inputs⟩
  | datapathReset => exact execDatapathReset_next s

end requests

end Sys2Proof.Machine

namespace Sys2Proof.Claims

open Sys2Proof.Machine

/-- Settles O1: the two branches of a step. -/
theorem stepRunsTheFrontCommand : Obligations.StepRunsTheFrontCommand := ⟨fun _ _ _ => step_front, fun _ => step_idle⟩

/-- Settles O2: the RESET pin's commands set the pin and carry the queue over; every other command keeps both. -/
theorem everyCommandHasANextState : Obligations.EveryCommandHasANextState := by
  intro c s
  by_cases hassert : c = .resetAssert
  · subst hassert
    exact ⟨_, rfl, rfl, fun h => absurd rfl h⟩
  · by_cases hrelease : ∃ x, c = .resetRelease x
    · obtain ⟨x, rfl⟩ := hrelease
      exact ⟨_, rfl, rfl, fun _ h => absurd rfl (h x)⟩
    · obtain ⟨t, hnext, hinputs⟩ := exec_next s c hassert (not_exists.mp hrelease)
      obtain ⟨hqueue, hpin⟩ := Prod.mk.inj hinputs
      exact ⟨t, hnext, hqueue, fun _ _ => hpin⟩

end Sys2Proof.Claims
end
